-- ==== Sys2Proof/Word.lean ====
section
/-! DEFINITION. The words of the Arzel N16: a byte of a lane (00_scope.md, 5.2). -/

namespace Sys2Proof

/-- A data byte of a lane, a frame or a table entry. -/
abbrev Byte := BitVec 8

end Sys2Proof
end

