-- ==== Sys2Proof/Syntax.lean ====
section
/-! DEFINITION. The commands of the node: one constructor for each row of spec/opcode_table.json. -/

namespace Sys2Proof

/-- The two receiving lanes (section 1.3): the U forward lane and the D return lane. -/
inductive Lane where
  | u
  | d
  deriving DecidableEq, Repr

/-- A forward frame as it stands at its EOF (Table 12-2), less its kind, which the command names, and its length field,
which is the number of payload bytes. `check` is the received check value. -/
structure FwdFrame where
  flags : Byte
  dest : BitVec 16
  seq : Byte
  hop : Byte
  payload : List Byte
  check : BitVec 16
  deriving DecidableEq, Repr

/-- A frame as it ends on the D return lane: the eight header bytes, the payload bytes that arrived, the received check
value, and whether it ended whole, with EOF (R169, R21). -/
structure ReturnEnd where
  hdr : Vector Byte 8
  payload : List Byte
  check : BitVec 16
  whole : Bool
  deriving DecidableEq, Repr

/-- One constructor per row of the table, in its order. A `p` is the parameter bytes of a command record; where the row
fixes the byte that selects its form, `rest` is what follows that byte, and `spare` the seven unselected bits of a control
byte. -/
inductive Instr where
  | powerOn (pins : BitVec 2)
  | resetnFall
  | resetnRelease (pins : BitVec 2)
  | characterReceived (lane : Lane) (info : BitVec 9) (stopAtRest : Bool)
  | laneSilenceTimeout (lane : Lane)
  | underrun
  | heldSyncSofSent
  | heldSyncSent
  | dataFrame (f : FwdFrame)
  | syncFrame (f : FwdFrame) (elapsed : BitVec 32)
  | cueFrame (f : FwdFrame)
  | enumerateFrame (f : FwdFrame)
  | unknownKindFrame (kind : Byte) (f : FwdFrame)
  | manageFrame (f : FwdFrame)
  | identify (p : List Byte)
  | status (spare : Option (BitVec 7)) (rest : List Byte)
  | statusClear (spare : BitVec 7) (rest : List Byte)
  | resetNodeOutputs (rest : List Byte)
  | resetNodeFull (rest : List Byte)
  | resetNodeFactory (rest : List Byte)
  | setGroupsQuery
  | setGroupsAdd (rest : List Byte)
  | setGroupsRemove (rest : List Byte)
  | setGroupsClear (rest : List Byte)
  | tableOpen (p : List Byte)
  | tableData (p : List Byte)
  | tableClose (spare : BitVec 7) (rest : List Byte)
  | tableCloseSwap (spare : BitVec 7) (rest : List Byte)
  | sessionExpiry
  | tableRead (p : List Byte)
  | bankSwap (p : List Byte)
  | configureTime (p : List Byte)
  | cueCancel (p : List Byte)
  | cueFlush (p : List Byte)
  | cueList (p : List Byte)
  | cueExpiry
  | configureGroup (p : List Byte)
  | startGroups (p : List Byte)
  | stopGroups (p : List Byte)
  | fireGroups (p : List Byte)
  | configureChannel (p : List Byte)
  | groupState (p : List Byte)
  | channelState (p : List Byte)
  | startTick (g : Fin 4)
  | periodWrap (g : Fin 4)
  | delayEnd (g : Fin 4)
  | pulseEnd (g : Fin 4)
  | configureSense (p : List Byte)
  | senseEdge (i : Fin 4) (level : Bool)
  | lockoutEnd (i : Fin 4)
  | senseRead (p : List Byte)
  | configureNotices (p : List Byte)
  | configureSupervision (p : List Byte)
  | recover (p : List Byte)
  | supervisionTimerExpiry
  | holdoverTimerExpiry
  | returnFrameReceived (f : ReturnEnd)
  | arbiterSelect
  | returnFrameSent
  | outputClockTick (g : Fin 4)
  | sampleEvent (i : Fin 4) (raw : Bool)
  | forwardTransmitterCharacter
  deriving DecidableEq, Repr

end Sys2Proof
end

