-- ==== Sys2Proof/WellFormed.lean ====
section
/-! DEFINITION. Which commands can be sent: the operand bounds that the frame and record formats set. The machine is total
on the others too. -/

namespace Sys2Proof

/-- The length of a command record's parameters fits its one length byte (section 3.1). -/
def paramsFit (p : List Byte) : Bool := p.length ≤ 255

/-- The payload of a frame fits its two-byte length field (Table 12-2). -/
def FwdFrame.fits (f : FwdFrame) : Bool := f.payload.length < 65536

/-- A frame of unknown kind: any kind field but 01h to 05h (R25). -/
def unknownKind (k : Byte) : Bool := k.toNat = 0 || 5 < k.toNat

/-- The bytes that arrived on the D return lane fit the longest length field (Table 12-2). -/
def ReturnEnd.fits (f : ReturnEnd) : Bool := f.payload.length < 65536

/-- The operand checks of each row. `rest` follows one fixed parameter byte, so it holds at most 254. -/
def Instr.wellFormed : Instr → Bool
  | .dataFrame f | .syncFrame f _ | .cueFrame f | .enumerateFrame f | .manageFrame f => f.fits
  | .unknownKindFrame k f => unknownKind k && f.fits
  | .returnFrameReceived f => f.fits
  | .identify p | .tableOpen p | .tableData p | .tableRead p | .bankSwap p | .configureTime p | .cueCancel p
  | .cueFlush p | .cueList p | .configureGroup p | .startGroups p | .stopGroups p | .fireGroups p
  | .configureChannel p | .groupState p | .channelState p | .configureSense p | .senseRead p | .configureNotices p
  | .configureSupervision p | .recover p => paramsFit p
  | .status none rest => rest = []
  | .status (some _) rest | .statusClear _ rest | .tableClose _ rest | .tableCloseSwap _ rest
  | .resetNodeOutputs rest | .resetNodeFull rest | .resetNodeFactory rest
  | .setGroupsAdd rest | .setGroupsRemove rest | .setGroupsClear rest => rest.length ≤ 254
  | .powerOn _ | .resetnFall | .resetnRelease _ | .characterReceived _ _ _ | .laneSilenceTimeout _ | .underrun
  | .heldSyncSofSent | .heldSyncSent | .setGroupsQuery | .sessionExpiry | .cueExpiry | .startTick _ | .periodWrap _
  | .delayEnd _ | .pulseEnd _ | .senseEdge _ _ | .lockoutEnd _ | .supervisionTimerExpiry | .holdoverTimerExpiry
  | .arbiterSelect | .returnFrameSent | .outputClockTick _ | .sampleEvent _ _ | .forwardTransmitterCharacter => true

end Sys2Proof
end

