-- ==== Sys2Proof/Config.lean ====
section
/-! DEFINITION. What the part fixes once and for all, and the values that the spec leaves free. -/

namespace Sys2Proof.Config

/-- Data characters the forward buffer holds (R16). -/
def forwardCapacity : Nat := 64
/-- Valid characters in a row that lock a lane (R6). -/
def lockThreshold : Nat := 16
/-- The silence limit of a lane, in character times (R6). -/
def silenceCharacters : Nat := 64
/-- The longest payload of an accepted frame (R10). -/
def maxPayload : Nat := 1024
/-- Payload bytes of the longest frame that is relayed (R169). -/
def maxRelayPayload : Nat := 256
/-- Entries of the local response queue (R167). -/
def localCapacity : Nat := 8
/-- Slots of the relay queue (R170). -/
def relayCapacity : Nat := 4
/-- Members of the group set (R38). -/
def groupSetCapacity : Nat := 4
/-- Entries of the cue queue (R113). -/
def cueCapacity : Nat := 32
/-- Entries of the result log (R158). -/
def logCapacity : Nat := 16
/-- Entries carried by one report on SYNC (R160). -/
def reportCapacity : Nat := 8
/-- Payload bytes of a response (R47). -/
def responseRoom : Nat := 240
/-- The session idle limit in milliseconds (R79). -/
def sessionIdleMs : Nat := 2000
/-- Periods of the 48 MHz clock in one millisecond (R192). -/
def clocksPerMs : Nat := 48000
/-- Periods of the 48 MHz clock in one microsecond (R192). -/
def clocksPerUs : Nat := 48
/-- Clock periods between two advances of the local chain time (R101). -/
def clocksPerAdvance : Nat := 3
/-- Sub-ticks by which the local chain time advances (R101). -/
def subTicksPerAdvance : Nat := 16
/-- Bit times of one character (R3, Table 12-1). -/
def bitsPerCharacter : Nat := 11

/-- Clock periods of one character time at the sampled rate: a bit takes 16, 8, 4 or 2 periods (R5, Table 1-2). -/
def characterClocks (rate : BitVec 2) : Nat := bitsPerCharacter * 2 ^ (4 - rate.toNat)

/-- Clock periods of one sample period: 1, 8, 64 or 512 (Table 8-2). -/
def sampleClocks (prescale : BitVec 2) : Nat := 8 ^ prescale.toNat

/-- Where the supervision unit's part of a SYNC acceptance falls: ahead of the schedule unit's part, between that part and
the sense unit's report that it signals at its end (R107, R160), or after the report. -/
inductive SupervisionPlace
  | beforeSchedule
  | beforeReport
  | afterReport
  deriving DecidableEq, Repr, Inhabited

/-- FREE VALUE (log entry 8). Where the supervision unit's part falls in the n-th SYNC acceptance whose order can be seen:
R177 does not order it. -/
opaque syncSupervisionPlace : Nat → SupervisionPlace

/-- FREE VALUE (log entry 14). By how many clock periods the ticks of an input's sample clock stand ahead of the multiples
of the sample period: Table 8-2 gives the sample clock and no phase. -/
opaque samplePhase : Fin 4 → BitVec 2 → Nat

/-- FREE VALUE (log entry 14). The raw level that an input's pin shows in a clock period, numbered by the divider count:
the pins are driven from outside. -/
opaque pinLevel : Nat → Fin 4 → Bool

end Sys2Proof.Config
end

