-- ==== Sys2Proof/Machine/Types.lean ====
section
/-! DEFINITION. The plain data the blocks of the node hold (Table 0-1), block by block. -/

namespace Sys2Proof.Machine

/-- A counter of Table 3-4: 16 bits (R57). -/
abbrev Counter := BitVec 16

/-! ## Link ports (chapter 1) -/

/-- Receive state of a lane with the quantity kept in it (R6): the lock count in SILENT, the silence timer (in periods of
the node clock) in LOCKED. -/
inductive LaneState where
  | silent (lockCount : Nat)
  | locked (silence : Nat)
  deriving DecidableEq, Repr

/-- A received character as R3 classifies it: a data byte, one of the four valid control characters, or a code error. -/
inductive RxChar where
  | data (b : Byte)
  | idle
  | sof
  | eof
  | eoa
  | codeError
  deriving DecidableEq, Repr

/-- Phase of a reception record (R8). -/
inductive Phase where
  | outside
  | header
  | body
  deriving DecidableEq, Repr

/-- Reception record of a lane (R8). `received` is the received check value (R10), `age` the time since the SOF's arrival
in sub-ticks of the node's clock, which stands for the instant noted (R103). -/
structure Reception where
  phase : Phase
  hdr : List Byte
  count : Nat
  check : BitVec 16
  received : BitVec 16
  age : Nat
  deriving DecidableEq, Repr

/-- Disposition of a frame on the U forward lane (R13). -/
inductive Disposition where
  | pass
  | hold
  | absorb
  deriving DecidableEq, Repr

/-- Whether a frame's forward copy is NONE, OPEN or CLOSED (R8, R14). -/
inductive CopyState where
  | absent
  | opened
  | closed
  deriving DecidableEq, Repr

/-- What is fixed at the header of an enumerating frame (R33): the FILL flag and the node address. -/
structure EnumNote where
  fill : Bool
  address : BitVec 10
  deriving DecidableEq, Repr

/-- The U forward lane's part of the reception record (R8, R14, R27, R33, R35) and the payload bytes kept for the block
that acts on the frame at its acceptance (R24, log entry 12). -/
structure Passage where
  disposition : Option Disposition
  copy : CopyState
  matched : Option Bool
  outCheck : BitVec 16
  enumNote : Option EnumNote
  heldByte : Option Byte
  payload : List Byte
  deriving DecidableEq, Repr

/-- One thing in the D forward transmitter's sending order (R16): a character of the forward buffer, where the SOF of a
held SYNC placed as a copy is told apart (R19), or the place of the held SYNC of the SYNC store. -/
inductive FwdItem where
  | sof
  | syncSof
  | data (b : Byte)
  | eof
  | eoa
  | syncPlace
  deriving DecidableEq, Repr

/-- State of a transmitter (R4). -/
inductive TxState where
  | held
  | idling
  | sending
  deriving DecidableEq, Repr

/-- What the D forward transmitter is sending in this character time: nothing (HELD), an IDLE, a buffer character, or the
`i`-th of the 17 characters of the held SYNC in the store (R4, R16, R19). -/
inductive FwdCurrent where
  | rest
  | idle
  | item (x : FwdItem)
  | store (i : Nat)
  deriving DecidableEq, Repr

/-- Header of a forward frame (Table 12-2). -/
structure FwdHeader where
  kind : Byte
  flags : Byte
  dest : BitVec 16
  seq : Byte
  hop : Byte
  length : BitVec 16
  deriving DecidableEq, Repr

/-- A held SYNC (R19): the header with the hop raised, the time field and the check value. -/
structure HeldSync where
  hdr : FwdHeader
  time : BitVec 40
  check : BitVec 16
  deriving DecidableEq, Repr

/-- The D forward transmitter (R4). -/
structure FwdTx where
  state : TxState
  current : FwdCurrent
  deriving DecidableEq, Repr

/-- The two queues of the return unit (R167, R170); also the arbiter's last served (R171). -/
inductive QueueName where
  | localQueue
  | relayQueue
  deriving DecidableEq, Repr

/-- A frame on the U return lane (R21): the queue it came from, its header and payload bytes, its check value, and how
many of its characters have been sent. -/
structure OnWire where
  queue : QueueName
  bytes : List Byte
  check : BitVec 16
  sent : Nat
  deriving DecidableEq, Repr

/-- The U return transmitter (R4, R21). -/
structure RetTx where
  state : TxState
  current : Option OnWire
  deriving DecidableEq, Repr

/-- Link ports (chapter 1). `resetLow` is the level of RESETN. -/
structure Link where
  resetLow : Bool
  rate : BitVec 2
  uLane : LaneState
  dLane : LaneState
  uRec : Reception
  dRec : Reception
  passage : Passage
  order : List FwdItem
  store : Option HeldSync
  fwdTx : FwdTx
  retTx : RetTx
  deriving DecidableEq, Repr

/-! ## Forwarding unit (chapter 2) -/

/-- Destination modes (Table 12-3). -/
inductive DestMode where
  | node
  | group
  | all
  | nobody
  deriving DecidableEq, Repr

/-- What an enumerating frame brings about at its acceptance (Table 2-3): the address taken, if any, and the outgoing
next-address and overrun. -/
structure EnumDecision where
  take : Option (BitVec 10)
  next : BitVec 16
  overrun : Bool
  deriving DecidableEq, Repr

/-- Forwarding unit (Table 2-5): address (R32), group set in ascending order (R38), position (R30), ENUMERATION OVERRUN
(R37) and the three counters of R12. -/
structure Forwarding where
  address : BitVec 10
  groups : List Byte
  position : Byte
  enumOverrun : Bool
  checkErrors : Counter
  aborts : Counter
  overruns : Counter
  deriving DecidableEq, Repr

/-! ## Command unit (chapter 3) -/

/-- A return frame of the node's own (Table 9-1); its length is the number of payload bytes. -/
structure RetFrame where
  kind : Byte
  flags : Byte
  source : BitVec 16
  seq : Byte
  count : Byte
  payload : List Byte
  deriving DecidableEq, Repr

/-- Command unit: response cache, last sequence accepted (R51), busy refusals (R53). -/
structure CommandUnit where
  cache : Option RetFrame
  lastSeq : Option Byte
  busy : Counter
  deriving DecidableEq, Repr

/-- Status codes (Table 3-1). -/
inductive Status where
  | ok
  | unknownCommand
  | badLength
  | outOfRange
  | wrongState
  | noSession
  | sessionBusy
  | full
  | badEntry
  | noRoom
  | skipped
  | notFound
  deriving DecidableEq, Repr

/-- The commands of Table 12-11. -/
inductive Command where
  | identify
  | status
  | resetNode
  | setGroups
  | tableOpen
  | tableData
  | tableClose
  | tableRead
  | bankSwap
  | configureTime
  | cueCancel
  | cueFlush
  | cueList
  | configureGroup
  | startGroups
  | stopGroups
  | fireGroups
  | configureChannel
  | groupState
  | channelState
  | configureSense
  | senseRead
  | configureNotices
  | configureSupervision
  | recover
  deriving DecidableEq, Repr

/-- Scope of a RESET NODE (Table 3-6). -/
inductive Scope where
  | outputs
  | full
  | factory
  deriving DecidableEq, Repr

/-- What the execution of a command record yields: its status and result data (R44). -/
structure Reply where
  status : Status
  data : List Byte
  deriving DecidableEq, Repr

/-- A result record (Table 12-6). -/
structure ResultRecord where
  opcode : Byte
  status : Status
  data : List Byte
  deriving DecidableEq, Repr

/-! ## Table store (chapter 4) -/

/-- Extraction entry (R62). -/
structure ExtEntry where
  valid : Bool
  wide : Bool
  curve : BitVec 3
  slot : BitVec 16
  targets : BitVec 16
  deriving DecidableEq, Repr

/-- Kind of a failsafe entry (R64). -/
inductive FsKind where
  | off
  | hold
  | level
  deriving DecidableEq, Repr

/-- Failsafe entry (R64). -/
structure FsEntry where
  kind : FsKind
  level : BitVec 16
  deriving DecidableEq, Repr

/-- The banks of a curve (R63). -/
inductive Bank where
  | a
  | b
  deriving DecidableEq, Repr

/-- A curve: two banks of 33 points and the active-bank marker (R63). -/
structure Curve where
  bankA : Vector (BitVec 16) 33
  bankB : Vector (BitVec 16) 33
  active : Bank
  deriving DecidableEq, Repr

/-- The six tables (Table 4-1). -/
inductive TableId where
  | extraction
  | curve (c : Fin 4)
  | failsafe
  deriving DecidableEq, Repr

/-- Reason for a session's close (R67). -/
inductive CloseReason where
  | closed
  | superseded
  | expired
  | reset
  deriving DecidableEq, Repr

/-- Load session record (Table 4-3). `idle` counts clock periods and runs while `isOpen`. -/
structure Session where
  isOpen : Bool
  table : TableId
  bank : Option Bank
  start : Nat
  count : Nat
  cursor : Nat
  partialBytes : List Byte
  written : Counter
  wraps : Counter
  idle : Nat
  discarded : Nat
  swapped : Bool
  reason : CloseReason
  deriving DecidableEq, Repr

/-- Table store (chapter 4). -/
structure Tables where
  extraction : Vector ExtEntry 32
  curves : Vector Curve 4
  failsafe : Vector FsEntry 16
  session : Session
  deriving DecidableEq, Repr

/-! ## Value path (chapter 5) -/

/-- A filled last-data record (R95). -/
structure LastData where
  seq : Byte
  level : BitVec 16
  deriving DecidableEq, Repr

/-! ## Schedule unit (chapter 6) -/

/-- Time state (R102). -/
inductive TimeState where
  | invalid
  | valid
  deriving DecidableEq, Repr

/-- Late policy (R110). -/
inductive LatePolicy where
  | drop
  | apply
  deriving DecidableEq, Repr

/-- Action of a cue (R111). -/
inductive CueAction where
  | setLevel
  | start
  | stop
  | fire
  deriving DecidableEq, Repr

/-- Queue entry (R113); `level` is absent for an action other than SET LEVEL. -/
structure CueEntry where
  due : BitVec 32
  tag : Byte
  action : CueAction
  targets : BitVec 16
  level : Option (BitVec 16)
  deriving DecidableEq, Repr

/-- A cue record of a CUE frame (Table 6-2). -/
structure CueRecord where
  dest : BitVec 16
  entry : CueEntry
  deriving DecidableEq, Repr

/-- What a SYNC makes the schedule unit do (R103 to R106): the entries that act, in order, and the step of a time jump. -/
structure SyncOutcome where
  acting : List CueEntry
  jump : Option (BitVec 32)
  deriving DecidableEq, Repr

/-- Schedule unit (Table of R124). -/
structure Schedule where
  tick : BitVec 32
  sub : BitVec 8
  time : TimeState
  lineDelay : BitVec 16
  threshold : BitVec 16
  late : LatePolicy
  queue : List CueEntry
  refusals : Counter
  lateDrops : Counter
  flushes : Counter
  timeJump : Bool
  deriving DecidableEq, Repr

/-! ## Output engine (chapter 7) -/

/-- State of an output group (Table 7-3). -/
inductive GroupState where
  | idle
  | running
  | armed
  | delay
  | pulse
  deriving DecidableEq, Repr

/-- Mode of a group (Table 7-1). -/
inductive Mode where
  | continuous
  | oneShot
  deriving DecidableEq, Repr

/-- Retrigger policy (Table 7-1). -/
inductive Retrigger where
  | ignore
  | restart
  deriving DecidableEq, Repr

/-- The four settings of a group that have a staged and an active value (Table 7-1, R125). -/
structure GroupSettings where
  prescale : BitVec 4
  period : BitVec 16
  delay : BitVec 16
  retrigger : Retrigger
  deriving DecidableEq, Repr

/-- An output group (R125, R128, R133). -/
structure Group where
  state : GroupState
  mark : Bool
  count : BitVec 16
  mode : Mode
  active : GroupSettings
  staged : GroupSettings
  missed : Byte
  deriving DecidableEq, Repr

/-- Origin of a staged level (R140). -/
inductive Origin where
  | none
  | data
  | cue
  | failsafe
  deriving DecidableEq, Repr

/-- A channel: settings (Table 7-5), active compare and offset (R99), staging record (R140). -/
structure Channel where
  group : Fin 4
  enable : Bool
  activeLow : Bool
  stagedOffset : BitVec 16
  activeOffset : BitVec 16
  compare : BitVec 16
  stagedLevel : BitVec 16
  pendingFlag : Bool
  origin : Origin
  lastActive : BitVec 16
  deriving DecidableEq, Repr

/-- Output engine (chapter 7) with the sticky flag CLIP (R100). -/
structure Output where
  groups : Vector Group 4
  chans : Vector Channel 16
  clip : Bool
  deriving DecidableEq, Repr

/-! ## Sense unit (chapter 8) -/

/-- Mode of a sense input (Table 8-1). -/
inductive SenseMode where
  | off
  | interval
  | highWidth
  | lowWidth
  | trigger
  deriving DecidableEq, Repr

/-- Edge setting (Table 8-1). -/
inductive EdgeSelect where
  | rising
  | falling
  | both
  deriving DecidableEq, Repr

/-- Phase of a sense input (Table 8-3). -/
inductive SensePhase where
  | off
  | first
  | counting
  | waitStart
  | measuring
  | ready
  | lockout
  deriving DecidableEq, Repr

/-- The six settings of a sense input (Table 8-1). -/
structure SenseSettings where
  mode : SenseMode
  edge : EdgeSelect
  prescale : BitVec 2
  filter : BitVec 4
  triggers : BitVec 4
  lockout : BitVec 16
  deriving DecidableEq, Repr

/-- A sense input: settings and input record (R148). `filtered` is unset, or whether the level is high; `timer` is the
lockout timer in clock periods, running in LOCKOUT only. -/
structure Input where
  settings : SenseSettings
  phase : SensePhase
  filtered : Option Bool
  run : BitVec 4
  count : BitVec 24
  timer : Nat
  deriving DecidableEq, Repr

/-- Kind of a result log entry (R157). -/
inductive ResultKind where
  | interval
  | high
  | low
  | trigger
  deriving DecidableEq, Repr

/-- Result log entry (R157); `stamp` is the tick count above the sub-tick. -/
structure LogEntry where
  input : Fin 4
  kind : ResultKind
  count : Option (BitVec 24)
  isLong : Bool
  stamp : Option (BitVec 40)
  deriving DecidableEq, Repr

/-- Sense unit (chapter 8). -/
structure Sense where
  inputs : Vector Input 4
  log : List LogEntry
  losses : Counter
  deriving DecidableEq, Repr

/-! ## Return unit (chapter 9) -/

/-- Entry of the local response queue (R167). -/
structure LocalEntry where
  frame : RetFrame
  sending : Bool
  deriving DecidableEq, Repr

/-- Slot of the relay queue (R170): every byte as it arrived. -/
structure RelayEntry where
  hdr : List Byte
  payload : List Byte
  check : BitVec 16
  sending : Bool
  deriving DecidableEq, Repr

/-- The outcome of a frame on the D return lane (R21): accepted with its bytes, a check error, or aborted. -/
inductive ReturnOutcome where
  | accepted (hdr : List Byte) (payload : List Byte) (check : BitVec 16)
  | checkError
  | aborted
  deriving DecidableEq, Repr

/-- The notice categories (Table 9-2). -/
inductive Category where
  | supervision
  | time
  | sense
  deriving DecidableEq, Repr

/-- Return unit (Table 9-7). `enable` has bit 0 SUPERVISION, bit 1 TIME, bit 2 SENSE (R166). -/
structure ReturnUnit where
  localQ : List LocalEntry
  relayQ : List RelayEntry
  area : List Byte
  lastServed : QueueName
  enable : BitVec 3
  relayDrops : Counter
  relayErrors : Counter
  noticeLosses : Counter
  deriving DecidableEq, Repr

/-! ## Supervision unit (chapter 10) -/

/-- Supervision state (Table 10-1). -/
inductive SupState where
  | start
  | normal
  | holdover
  | failsafe
  deriving DecidableEq, Repr

/-- A running timer: time elapsed in clock periods, and the duration in milliseconds it was started with (R176). -/
structure Timer where
  elapsed : Nat
  duration : Nat
  deriving DecidableEq, Repr

/-- Supervision record (R176); a timer that is `none` is stopped. -/
structure Supervision where
  state : SupState
  supTimer : Option Timer
  holdTimer : Option Timer
  recovery : BitVec 4
  window : BitVec 16
  holdover : BitVec 16
  failsafeOn : Bool
  k : BitVec 4
  deriving DecidableEq, Repr

/-- A change of supervision state (R187): the state before and the state after. -/
structure SupChange where
  before : SupState
  after : SupState
  deriving DecidableEq, Repr

/-- The node: its ten blocks (Table 0-1), the divider count of its clock (R125), and two fields of the model: the number
of free choices of order made (log entry 8) and the result record of the last command taken as a single record (log
entry 7). -/
structure Node where
  link : Link
  fwd : Forwarding
  cmd : CommandUnit
  tables : Tables
  value : Vector (Option LastData) 16
  sched : Schedule
  out : Output
  sense : Sense
  ret : ReturnUnit
  sup : Supervision
  clock : Nat
  choice : Nat
  shown : Option ResultRecord
  deriving DecidableEq, Repr

end Sys2Proof.Machine
end

