-- ==== Sys2Proof/Machine/Flags.lean ====
section
/-! DEFINITION. Counters and sticky flags (section 5.8 of 00_scope.md, R57, R58). -/

namespace Sys2Proof.Machine

/-- A counter is raised by one and stops at 65535 (R57). -/
def raiseCounter (c : Counter) : Counter := if c = 0xFFFF then c else c + 1

/-- A missed-trigger count is raised by one and stops at 255 (R133). -/
def raiseMissed (m : Byte) : Byte := if m = 0xFF then m else m + 1

/-- The eleven counters in the order of Table 3-4. -/
def Node.counters (n : Node) : List Counter :=
  [n.fwd.checkErrors, n.fwd.aborts, n.fwd.overruns, n.cmd.busy, n.ret.relayDrops, n.ret.relayErrors,
   n.ret.noticeLosses, n.sched.refusals, n.sched.lateDrops, n.sched.flushes, n.sense.losses]

/-- The sticky flags byte: bit 0 ENUMERATION OVERRUN, bit 1 CLIP, bit 2 TIME JUMP (Table 12-9). -/
def Node.stickyFlags (n : Node) : Byte :=
  (if n.fwd.enumOverrun then 1 else 0) ||| (if n.out.clip then 2 else 0) ||| (if n.sched.timeJump then 4 else 0)

/-- All eleven counters become zero and all three sticky flags clear, at one event (R58; R57 for FULL and FACTORY). -/
def Node.clearStatus (n : Node) : Node :=
  { n with
    fwd := { n.fwd with checkErrors := 0, aborts := 0, overruns := 0, enumOverrun := false }
    cmd := { n.cmd with busy := 0 }
    ret := { n.ret with relayDrops := 0, relayErrors := 0, noticeLosses := 0 }
    sched := { n.sched with refusals := 0, lateDrops := 0, flushes := 0, timeJump := false }
    sense := { n.sense with losses := 0 }
    out := { n.out with clip := false } }

end Sys2Proof.Machine
end

