-- ==== Sys2Proof/Machine/Operands.lean ====
section
/-! DEFINITION. Encodings (chapter 12): byte order, check value, characters, headers, table entries, codes and opcodes. -/

namespace Sys2Proof.Machine

/-! ## Bytes: most significant byte first (12_encodings_and_electrical_summary.md) -/

/-- A number as a byte. -/
def byteOf (n : Nat) : Byte := BitVec.ofNat 8 n

/-- A two-valued marker: 1 for the first-named sense (R191). -/
def flagByte (b : Bool) : Byte := if b then 1 else 0

/-- The two bytes of a 16-bit field, high byte first. -/
def bytes16 (w : BitVec 16) : List Byte := [w.extractLsb' 8 8, w.extractLsb' 0 8]

/-- The three bytes of a 24-bit field, high byte first. -/
def bytes24 (w : BitVec 24) : List Byte := [w.extractLsb' 16 8, w.extractLsb' 8 8, w.extractLsb' 0 8]

/-- The four bytes of a 32-bit field, high byte first. -/
def bytes32 (w : BitVec 32) : List Byte :=
  [w.extractLsb' 24 8, w.extractLsb' 16 8, w.extractLsb' 8 8, w.extractLsb' 0 8]

/-- The five bytes of a time field: the tick count, then the sub-tick (Table 12-4). -/
def bytes40 (w : BitVec 40) : List Byte := bytes32 (w.extractLsb' 8 32) ++ [w.extractLsb' 0 8]

/-- A 16-bit field from its bytes, high byte first. -/
def word16 (h l : Byte) : BitVec 16 := h ++ l

/-- A 32-bit field from its bytes, high byte first. -/
def word32 (a b c d : Byte) : BitVec 32 := (a ++ b) ++ (c ++ d)

/-- The time field of a SYNC from its five bytes: tick count, then sub-tick (Table 12-4). -/
def word40 (a b c d e : Byte) : BitVec 40 := word32 a b c d ++ e

/-! ## The check value (R190) -/

/-- One bit enters the running check value: shift left, and XOR 1021h when the bit shifted out differs from it. -/
def checkBit (c : BitVec 16) (d : Bool) : BitVec 16 := if c.msb = d then c <<< 1 else (c <<< 1) ^^^ 0x1021

/-- One byte enters the running check value, most significant bit first. -/
def checkByte (c : BitVec 16) (b : Byte) : BitVec 16 :=
  [7, 6, 5, 4, 3, 2, 1, 0].foldl (fun c i => checkBit c (b.getLsbD i)) c

/-- A run of bytes enters the running check value. -/
def checkRun (c : BitVec 16) (bs : List Byte) : BitVec 16 := bs.foldl checkByte c

/-- The check value of a header-and-payload run: it starts at FFFFh (R190). -/
def checkValue (bs : List Byte) : BitVec 16 := checkRun 0xFFFF bs

/-! ## Characters (R3) -/

/-- Classification of a received character: the ninth bit tells data from control, Table 1-1 gives the valid control
values, and a stop bit not at the rest level makes any character a code error (R3). -/
def classify (info : BitVec 9) (stopAtRest : Bool) : RxChar :=
  if !stopAtRest then .codeError
  else if info.msb then
    match (info.extractLsb' 0 8).toNat with
    | 0 => .idle
    | 1 => .sof
    | 2 => .eof
    | 3 => .eoa
    | _ => .codeError
  else .data (info.extractLsb' 0 8)

/-- Data characters and the four valid control characters are valid characters (R3). -/
def RxChar.isValid : RxChar → Bool
  | .codeError => false
  | .data _ | .idle | .sof | .eof | .eoa => true

/-! ## Headers and destinations (Tables 12-2, 12-3) -/

/-- The eight header bytes of a forward frame. -/
def FwdHeader.bytes (h : FwdHeader) : List Byte :=
  [h.kind, h.flags] ++ bytes16 h.dest ++ [h.seq, h.hop] ++ bytes16 h.length

/-- The header that eight bytes spell. -/
def FwdHeader.ofBytes : List Byte → FwdHeader
  | [k, f, d1, d0, s, h, l1, l0] =>
    { kind := k, flags := f, dest := word16 d1 d0, seq := s, hop := h, length := word16 l1 l0 }
  | _ => { kind := 0, flags := 0, dest := 0, seq := 0, hop := 0, length := 0 }

/-- The length field of any eight header bytes, forward or return (Table 12-2). -/
def lengthField (hdr : List Byte) : Nat := (FwdHeader.ofBytes hdr).length.toNat

/-- The hop field of a frame passed on: one more than received, except that 255 stays 255 (R14). -/
def raiseHop (h : Byte) : Byte := if h = 0xFF then h else h + 1

/-- The header of the forward copy: the received header with the hop raised (R14). -/
def FwdHeader.passedOn (h : FwdHeader) : FwdHeader := { h with hop := raiseHop h.hop }

/-- The header of a frame command: the row's kind, the frame's fields, the number of payload bytes (Table 12-2). -/
def headerOf (kind : Byte) (f : FwdFrame) : FwdHeader :=
  { kind := kind, flags := f.flags, dest := f.dest, seq := f.seq, hop := f.hop, length := BitVec.ofNat 16 f.payload.length }

/-- The eight header bytes of a return frame of the node's own (Tables 9-1, 12-2). -/
def RetFrame.header (f : RetFrame) : List Byte :=
  [f.kind, f.flags] ++ bytes16 f.source ++ [f.seq, f.count] ++ bytes16 (BitVec.ofNat 16 f.payload.length)

/-- Destination mode (Table 12-3). -/
def destMode (dest : BitVec 16) : DestMode :=
  match (dest.extractLsb' 14 2).toNat with
  | 0 => .node
  | 1 => .group
  | 2 => .all
  | _ => .nobody

/-- Destination value, 0..16383 (section 2.2). -/
def destValue (dest : BitVec 16) : Nat := (dest.extractLsb' 0 14).toNat

/-- Destination matching (Table 2-2). -/
def Forwarding.matchesDest (f : Forwarding) (dest : BitVec 16) : Bool :=
  match destMode dest with
  | .node => f.address.toNat ≠ 0 && destValue dest = f.address.toNat
  | .group => 1 ≤ destValue dest && destValue dest ≤ 255 && f.groups.contains (byteOf (destValue dest))
  | .all => true
  | .nobody => false

/-- Frame kinds (Table 2-1). -/
def kindData : Byte := 0x01
def kindSync : Byte := 0x02
def kindManage : Byte := 0x03
def kindCue : Byte := 0x04
def kindEnumerate : Byte := 0x05

/-! ## Sets -/

/-- The output groups that bits 0..3 of a group set name (Table 12-5, R130). -/
def groupsNamed (m : BitVec 4) : List (Fin 4) := [0, 1, 2, 3].filter fun g => m.getLsbD g.val

/-! ## Table entries (Table 12-7) -/

/-- An extraction entry from its five bytes; control bits that name no field are dropped (R62). -/
def ExtEntry.ofBytes (c s1 s0 t1 t0 : Byte) : ExtEntry :=
  { valid := c.getLsbD 7, wide := c.getLsbD 3, curve := c.extractLsb' 0 3, slot := word16 s1 s0,
    targets := word16 t1 t0 }

/-- The stored form of an extraction entry (R83, Table 12-7). -/
def ExtEntry.bytes (e : ExtEntry) : List Byte :=
  let control : Byte := (if e.valid then 0x80 else 0) ||| (if e.wide then 0x08 else 0) ||| e.curve.setWidth 8
  [control] ++ bytes16 e.slot ++ bytes16 e.targets

/-- Kind codes of a failsafe entry (R64). -/
def FsKind.code : FsKind → Byte
  | .off => 0
  | .hold => 1
  | .level => 2

/-- Kind of a failsafe entry from its code (R64). -/
def FsKind.ofCode (b : Byte) : Option FsKind :=
  match b.toNat with
  | 0 => some .off
  | 1 => some .hold
  | 2 => some .level
  | _ => none

/-- The stored form of a failsafe entry (Table 12-7). -/
def FsEntry.bytes (e : FsEntry) : List Byte := e.kind.code :: bytes16 e.level

/-- Table ids (Table 4-1): curve c has id c + 1. -/
def TableId.code : TableId → Byte
  | .extraction => 0
  | .curve c => byteOf (c.val + 1)
  | .failsafe => 5

/-- The table a table id names (Table 4-1). -/
def TableId.ofCode (b : Byte) : Option TableId :=
  match b.toNat with
  | 0 => some .extraction
  | 1 => some (.curve 0)
  | 2 => some (.curve 1)
  | 3 => some (.curve 2)
  | 4 => some (.curve 3)
  | 5 => some .failsafe
  | _ => none

/-- Number of entries of a table (Table 4-1). -/
def TableId.entries : TableId → Nat
  | .extraction => 32
  | .curve _ => 33
  | .failsafe => 16

/-- Entry size of a table in bytes (Table 4-1). -/
def TableId.entrySize : TableId → Nat
  | .extraction => 5
  | .curve _ => 2
  | .failsafe => 3

/-! ## Codes (Tables 12-10 and 12-12) -/

def SupState.code : SupState → Byte
  | .start => 0
  | .normal => 1
  | .holdover => 2
  | .failsafe => 3

def TimeState.code : TimeState → Byte
  | .invalid => 0
  | .valid => 1

def TxState.code : TxState → Byte
  | .held => 0
  | .idling => 1
  | .sending => 2

def CloseReason.code : CloseReason → Byte
  | .closed => 0
  | .superseded => 1
  | .expired => 2
  | .reset => 3

def bankCode : Option Bank → Byte
  | none => 0
  | some .a => 1
  | some .b => 2

def Scope.code : Scope → Byte
  | .outputs => 0
  | .full => 1
  | .factory => 2

def Scope.ofCode (b : Byte) : Option Scope :=
  match b.toNat with
  | 0 => some .outputs
  | 1 => some .full
  | 2 => some .factory
  | _ => none

def GroupState.code : GroupState → Byte
  | .idle => 0
  | .running => 1
  | .armed => 2
  | .delay => 3
  | .pulse => 4

def Mode.code : Mode → Byte
  | .continuous => 0
  | .oneShot => 1

def Mode.ofCode (b : Byte) : Option Mode :=
  match b.toNat with
  | 0 => some .continuous
  | 1 => some .oneShot
  | _ => none

def Retrigger.code : Retrigger → Byte
  | .ignore => 0
  | .restart => 1

def Retrigger.ofCode (b : Byte) : Option Retrigger :=
  match b.toNat with
  | 0 => some .ignore
  | 1 => some .restart
  | _ => none

def Origin.code : Origin → Byte
  | .none => 0
  | .data => 1
  | .cue => 2
  | .failsafe => 3

def LatePolicy.code : LatePolicy → Byte
  | .drop => 0
  | .apply => 1

def LatePolicy.ofCode (b : Byte) : Option LatePolicy :=
  match b.toNat with
  | 0 => some .drop
  | 1 => some .apply
  | _ => none

def CueAction.code : CueAction → Byte
  | .setLevel => 1
  | .start => 2
  | .stop => 3
  | .fire => 4

def CueAction.ofCode (b : Byte) : Option CueAction :=
  match b.toNat with
  | 1 => some .setLevel
  | 2 => some .start
  | 3 => some .stop
  | 4 => some .fire
  | _ => none

def SenseMode.code : SenseMode → Byte
  | .off => 0
  | .interval => 1
  | .highWidth => 2
  | .lowWidth => 3
  | .trigger => 4

def SenseMode.ofCode (b : Byte) : Option SenseMode :=
  match b.toNat with
  | 0 => some .off
  | 1 => some .interval
  | 2 => some .highWidth
  | 3 => some .lowWidth
  | 4 => some .trigger
  | _ => none

def EdgeSelect.code : EdgeSelect → Byte
  | .rising => 0
  | .falling => 1
  | .both => 2

def EdgeSelect.ofCode (b : Byte) : Option EdgeSelect :=
  match b.toNat with
  | 0 => some .rising
  | 1 => some .falling
  | 2 => some .both
  | _ => none

def SensePhase.code : SensePhase → Byte
  | .off => 0
  | .first => 1
  | .counting => 2
  | .waitStart => 3
  | .measuring => 4
  | .ready => 5
  | .lockout => 6

def ResultKind.code : ResultKind → Byte
  | .interval => 0
  | .high => 1
  | .low => 2
  | .trigger => 3

def Category.code : Category → Byte
  | .supervision => 0
  | .time => 1
  | .sense => 2

/-- The bit of the enable set that stands for a category (R166). -/
def Category.bit : Category → Nat
  | .supervision => 0
  | .time => 1
  | .sense => 2

/-- Status codes (Table 12-12). -/
def Status.code : Status → Byte
  | .ok => 0x00
  | .unknownCommand => 0x01
  | .badLength => 0x02
  | .outOfRange => 0x03
  | .wrongState => 0x04
  | .noSession => 0x05
  | .sessionBusy => 0x06
  | .full => 0x07
  | .badEntry => 0x08
  | .noRoom => 0x09
  | .skipped => 0x0A
  | .notFound => 0x0B

/-- Result log entry, 11 bytes (Table 12-8). -/
def LogEntry.bytes (e : LogEntry) : List Byte :=
  [byteOf e.input.val, e.kind.code, flagByte e.isLong ||| (if e.stamp.isSome then 2 else 0)]
    ++ bytes24 (e.count.getD 0) ++ bytes40 (e.stamp.getD 0)

/-- Queue entry as CUE LIST returns it, 10 bytes; an absent level is sent as 0 (R121). -/
def CueEntry.bytes (e : CueEntry) : List Byte :=
  bytes32 e.due ++ [e.tag, e.action.code] ++ bytes16 e.targets ++ bytes16 (e.level.getD 0)

/-- Result record, as it stands in a response (Table 12-6). -/
def ResultRecord.bytes (r : ResultRecord) : List Byte := [r.opcode, r.status.code, byteOf r.data.length] ++ r.data

/-! ## Opcodes and allowances (Table 12-11) -/

def Command.opcode : Command → Byte
  | .identify => 0x01
  | .status => 0x02
  | .resetNode => 0x03
  | .setGroups => 0x04
  | .tableOpen => 0x10
  | .tableData => 0x11
  | .tableClose => 0x12
  | .tableRead => 0x13
  | .bankSwap => 0x14
  | .configureTime => 0x20
  | .cueCancel => 0x21
  | .cueFlush => 0x22
  | .cueList => 0x23
  | .configureGroup => 0x30
  | .startGroups => 0x31
  | .stopGroups => 0x32
  | .fireGroups => 0x33
  | .configureChannel => 0x34
  | .groupState => 0x35
  | .channelState => 0x36
  | .configureSense => 0x40
  | .senseRead => 0x41
  | .configureNotices => 0x50
  | .configureSupervision => 0x51
  | .recover => 0x52

def Command.all : List Command :=
  [.identify, .status, .resetNode, .setGroups, .tableOpen, .tableData, .tableClose, .tableRead, .bankSwap,
   .configureTime, .cueCancel, .cueFlush, .cueList, .configureGroup, .startGroups, .stopGroups, .fireGroups,
   .configureChannel, .groupState, .channelState, .configureSense, .senseRead, .configureNotices,
   .configureSupervision, .recover]

/-- The command an opcode names, if any (Table 12-11). -/
def Command.ofOpcode (b : Byte) : Option Command := Command.all.find? fun c => c.opcode = b

/-- The allowance of a command (Table 12-11, R47). -/
def Command.allowance : Command → Nat
  | .identify => 19
  | .status => 35
  | .resetNode => 4
  | .setGroups => 8
  | .tableOpen => 11
  | .tableData => 8
  | .tableClose => 11
  | .tableRead => 163
  | .bankSwap => 4
  | .configureTime => 8
  | .cueCancel => 5
  | .cueFlush => 4
  | .cueList => 170
  | .configureGroup => 18
  | .startGroups => 7
  | .stopGroups => 7
  | .fireGroups => 7
  | .configureChannel => 10
  | .groupState => 24
  | .channelState => 18
  | .configureSense => 11
  | .senseRead => 97
  | .configureNotices => 4
  | .configureSupervision => 9
  | .recover => 5

/-- The allowance of a record by its opcode; an unknown opcode has 3 (R47). -/
def allowanceOf (op : Byte) : Nat :=
  match Command.ofOpcode op with
  | some c => c.allowance
  | none => 3

end Sys2Proof.Machine
end

