-- ==== Sys2Proof/Machine/Resets.lean ====
section
/-! DEFINITION. The values each block takes at a power or pin reset, and the defaults of settings and tables. -/

namespace Sys2Proof.Machine

/-- A reception record OUTSIDE (R8): no frame is in reception. The spec gives its phase only; that the other fields hold the
values of a fresh frame is the model's choice (DESIGN CHOICE, log entry 29). -/
def Reception.outside : Reception :=
  { phase := .outside, hdr := [], count := 0, check := 0xFFFF, received := 0, age := 0 }

/-- The U lane's part of a record OUTSIDE: no copy (R14). That its other fields are empty, and the outgoing check that of a
fresh copy, is the model's choice (DESIGN CHOICE, log entry 29). -/
def Passage.outside : Passage :=
  { disposition := none, copy := .absent, matched := none, outCheck := 0xFFFF, enumNote := none, heldByte := none,
    payload := [] }

/-- Link ports at the release of a power or pin reset (R23), with the RATE pins sampled (R5). -/
def Link.released (pins : BitVec 2) : Link :=
  { resetLow := false, rate := pins, uLane := .silent 0, dLane := .silent 0, uRec := .outside, dRec := .outside,
    passage := .outside, order := [], store := none, fwdTx := { state := .idling, current := .idle },
    retTx := { state := .idling, current := none } }

/-- Forwarding unit after a power or pin reset (Table 2-5). -/
def Forwarding.initial : Forwarding :=
  { address := 0, groups := [], position := 0, enumOverrun := false, checkErrors := 0, aborts := 0, overruns := 0 }

/-- Command unit after a power or pin reset (R52, R53). -/
def CommandUnit.initial : CommandUnit := { cache := none, lastSeq := none, busy := 0 }

/-- A vacant extraction entry with every field 0 (R66). -/
def ExtEntry.vacant : ExtEntry := { valid := false, wide := false, curve := 0, slot := 0, targets := 0 }

/-- The identity curve (R66): point k is min(65535, 2048 k). -/
def identityPoints : Vector (BitVec 16) 33 :=
  (Vector.replicate 33 (0 : BitVec 16)).mapIdx fun k _ => BitVec.ofNat 16 (min 65535 (2048 * k))

/-- A curve's default: the identity curve in both banks, bank A active (R66). -/
def Curve.identity : Curve := { bankA := identityPoints, bankB := identityPoints, active := .a }

/-- The load session record after a power or pin reset (Table 4-3). -/
def Session.initial : Session :=
  { isOpen := false, table := .extraction, bank := none, start := 0, count := 1, cursor := 0, partialBytes := [],
    written := 0, wraps := 0, idle := 0, discarded := 0, swapped := false, reason := .reset }

/-- Table store after a power or pin reset (R66, R80). -/
def Tables.initial : Tables :=
  { extraction := Vector.replicate 32 .vacant, curves := Vector.replicate 4 .identity,
    failsafe := Vector.replicate 16 { kind := .off, level := 0 }, session := .initial }

/-- Last-data records all empty (R98). -/
def noLastData : Vector (Option LastData) 16 := Vector.replicate 16 none

/-- Schedule unit after a power or pin reset (R124, Table 6-1). -/
def Schedule.initial : Schedule :=
  { tick := 0, sub := 0, time := .invalid, lineDelay := 0, threshold := 1000, late := .drop, queue := [],
    refusals := 0, lateDrops := 0, flushes := 0, timeJump := false }

/-- Default settings of a group (Table 7-1). -/
def GroupSettings.default : GroupSettings := { prescale := 4, period := 1000, delay := 0, retrigger := .ignore }

/-- A group after a power or pin reset (R146). -/
def Group.initial : Group :=
  { state := .idle, mark := false, count := 0, mode := .continuous, active := .default, staged := .default,
    missed := 0 }

/-- A channel after a power or pin reset (R146, Table 7-5). -/
def Channel.initial : Channel :=
  { group := 0, enable := true, activeLow := false, stagedOffset := 0, activeOffset := 0, compare := 0,
    stagedLevel := 0, pendingFlag := false, origin := .none, lastActive := 0 }

/-- Output engine after a power or pin reset (R146, R100). -/
def Output.initial : Output :=
  { groups := Vector.replicate 4 .initial, chans := Vector.replicate 16 .initial, clip := false }

/-- Default settings of a sense input (Table 8-1). -/
def SenseSettings.default : SenseSettings :=
  { mode := .off, edge := .rising, prescale := 0, filter := 0, triggers := 0, lockout := 0 }

/-- An input record in a starting phase: filtered level unset, counts 0, timer stopped (R151, R162). -/
def Input.restarted (st : SenseSettings) (phase : SensePhase) : Input :=
  { settings := st, phase := phase, filtered := none, run := 0, count := 0, timer := 0 }

/-- Sense unit after a power or pin reset (R162). -/
def Sense.initial : Sense :=
  { inputs := Vector.replicate 4 (.restarted .default .off), log := [], losses := 0 }

/-- Return unit after a power or pin reset (Table 9-7). -/
def ReturnUnit.initial : ReturnUnit :=
  { localQ := [], relayQ := [], area := [], lastServed := .relayQueue, enable := 0, relayDrops := 0, relayErrors := 0,
    noticeLosses := 0 }

/-- Supervision unit after a power or pin reset (R189, Table 10-2). -/
def Supervision.initial : Supervision :=
  { state := .start, supTimer := none, holdTimer := none, recovery := 0, window := 100, holdover := 1000,
    failsafeOn := true, k := 3 }

/-- The node at the release of a power or pin reset with the given levels on RATE1 and RATE0 (R23 and each chapter's
reset values). The model's own fields are `choice` 0 and `shown` none (log entries 7 and 8). -/
def Node.released (pins : BitVec 2) : Node :=
  { link := .released pins, fwd := .initial, cmd := .initial, tables := .initial, value := noLastData,
    sched := .initial, out := .initial, sense := .initial, ret := .initial, sup := .initial, clock := 0, choice := 0,
    shown := none }

end Sys2Proof.Machine
end

