-- ==== Sys2Proof/Machine/ReturnOps.lean ====
section
/-! DEFINITION. Operations of the return unit (chapter 9): the local response queue, notices, the relay queue, the arbiter. -/

namespace Sys2Proof.Machine

/-! ## The local response queue (R167) -/

/-- Whether the local response queue has a free entry. -/
def ReturnUnit.hasFree (r : ReturnUnit) : Bool := r.localQ.length < Config.localCapacity

/-- A frame joins the local response queue at the back (R167). -/
def ReturnUnit.enqueue (r : ReturnUnit) (f : RetFrame) : ReturnUnit :=
  { r with localQ := r.localQ ++ [{ frame := f, sending := false }] }

/-- The node address as a source field (Table 12-2). -/
def sourceOf (address : BitVec 10) : BitVec 16 := address.setWidth 16

/-- A notice frame carries one notice record: category, data length, data (R164, Tables 9-1 and 12-6). -/
def noticeFrame (address : BitVec 10) (cat : Category) (data : List Byte) : RetFrame :=
  { kind := 0x82, flags := 0, source := sourceOf address, seq := 0, count := 1,
    payload := [cat.code, byteOf data.length] ++ data }

/-- Whether a notice of a category is generated: the category is enabled and the node address is not 0 (R165). -/
def ReturnUnit.generates (r : ReturnUnit) (address : BitVec 10) (cat : Category) : Bool :=
  r.enable.getLsbD cat.bit && address ≠ 0

/-- A notice record is handed over: discarded when not generated, else queued, or lost and counted when the queue has no
free entry (R165). -/
def ReturnUnit.notice (r : ReturnUnit) (address : BitVec 10) (cat : Category) (data : List Byte) : ReturnUnit :=
  if r.generates address cat then
    if r.hasFree then r.enqueue (noticeFrame address cat data)
    else { r with noticeLosses := raiseCounter r.noticeLosses }
  else r

/-- The SUPERVISION notice record of a change of state (R187, Table 9-2). -/
def ReturnUnit.supNotice (r : ReturnUnit) (address : BitVec 10) (c : SupChange) : ReturnUnit :=
  r.notice address .supervision [c.before.code, c.after.code]

/-- The TIME notice record of a time jump (R105, Table 9-2). -/
def ReturnUnit.timeNotice (r : ReturnUnit) (address : BitVec 10) (step : BitVec 32) : ReturnUnit :=
  r.notice address .time (bytes32 step)

/-! ## The relay queue (R169, R170) -/

/-- What becomes of a return frame at its end (Table 9-5); the reception area is released (R169). -/
def ReturnUnit.receive (r : ReturnUnit) (o : ReturnOutcome) : ReturnUnit :=
  match o with
  | .accepted hdr payload check =>
    if lengthField hdr ≤ Config.maxRelayPayload && r.relayQ.length < Config.relayCapacity then
      { r with
        relayQ := r.relayQ ++ [{ hdr := hdr, payload := payload, check := check, sending := false }]
        area := [] }
    else { r with relayDrops := raiseCounter r.relayDrops, area := [] }
  | .checkError | .aborted => { r with relayErrors := raiseCounter r.relayErrors, area := [] }

/-! ## The arbiter (R171) and the end of a transmission (R172) -/

/-- Whether a queue has a waiting frame, one with its sending mark clear (R171). -/
def ReturnUnit.waiting (r : ReturnUnit) : QueueName → Bool
  | .localQueue => r.localQ.any fun e => !e.sending
  | .relayQueue => r.relayQ.any fun e => !e.sending

/-- The arbiter's choice (Table 9-6). -/
def ReturnUnit.choice (r : ReturnUnit) : Option QueueName :=
  match r.waiting .localQueue, r.waiting .relayQueue with
  | false, false => none
  | true, false => some .localQueue
  | false, true => some .relayQueue
  | true, true => some (if r.lastServed = .localQueue then .relayQueue else .localQueue)

/-- The oldest waiting local frame is marked as being sent. -/
def markLocal : List LocalEntry → List LocalEntry
  | [] => []
  | e :: es => if e.sending then e :: markLocal es else { e with sending := true } :: es

/-- The oldest waiting relay frame is marked as being sent. -/
def markRelay : List RelayEntry → List RelayEntry
  | [] => []
  | e :: es => if e.sending then e :: markRelay es else { e with sending := true } :: es

/-- The frame a queue hands to the transmitter: header and payload bytes, and the check value, computed for the node's own
frames and as received for relayed ones (R21). -/
def ReturnUnit.handed (r : ReturnUnit) : QueueName → Option OnWire
  | .localQueue => (r.localQ.find? fun e => !e.sending).map fun e =>
      { queue := .localQueue, bytes := e.frame.header ++ e.frame.payload,
        check := checkValue (e.frame.header ++ e.frame.payload), sent := 0 }
  | .relayQueue => (r.relayQ.find? fun e => !e.sending).map fun e =>
      { queue := .relayQueue, bytes := e.hdr ++ e.payload, check := e.check, sent := 0 }

/-- The queues after the arbiter has handed over the oldest waiting frame of `q` (R171). -/
def ReturnUnit.serve (r : ReturnUnit) : QueueName → ReturnUnit
  | .localQueue => { r with localQ := markLocal r.localQ, lastServed := .localQueue }
  | .relayQueue => { r with relayQ := markRelay r.relayQ, lastServed := .relayQueue }

/-- The frame being sent leaves its queue at its EOF (R167, R170). -/
def ReturnUnit.release (r : ReturnUnit) : QueueName → ReturnUnit
  | .localQueue => { r with localQ := r.localQ.eraseP fun e => e.sending }
  | .relayQueue => { r with relayQ := r.relayQ.eraseP fun e => e.sending }

/-- One free boundary of the U return transmitter (R171): nothing while it is HELD or a frame is being sent. -/
def Node.arbitrate (n : Node) : Node :=
  if n.link.retTx.state = .held || n.link.retTx.current.isSome then n
  else
    match n.ret.choice with
    | none => { n with link := { n.link with retTx := { state := .idling, current := none } } }
    | some q =>
      { n with
        link := { n.link with retTx := { state := .sending, current := n.ret.handed q } }
        ret := n.ret.serve q }

/-- The EOF of the frame being sent (R172): its entry or slot is free; the transmitter stays SENDING if another frame
waits, else goes to IDLING (R4). -/
def Node.endReturnFrame (n : Node) : Node :=
  match n.link.retTx.current with
  | none => n
  | some w =>
    let r := n.ret.release w.queue
    { n with
      ret := r
      link := { n.link with
        retTx := { state := if r.choice.isSome then .sending else .idling, current := none } } }

/-- Characters of a return frame: SOF, header and payload, two check bytes, EOF (R172: length + 12). -/
def OnWire.characters (w : OnWire) : Nat := w.bytes.length + 4

/-- One character time of the U return transmitter ends (R4, R21): the frame being sent is one character further, or has
ended; at a free boundary the arbiter chooses. -/
def Node.returnCharacter (n : Node) : Node :=
  match n.link.retTx.current with
  | none => n.arbitrate
  | some w =>
    if w.sent + 1 < w.characters then
      { n with link := { n.link with retTx := { n.link.retTx with current := some { w with sent := w.sent + 1 } } } }
    else n.endReturnFrame.arbitrate

end Sys2Proof.Machine
end

