-- ==== Sys2Proof/Machine/ScheduleOps.lean ====
section
/-! DEFINITION. Operations of the schedule unit (chapter 6): chain time, SYNC, and the cue queue. -/

namespace Sys2Proof.Machine

/-! ## Chain time (R101) -/

/-- Time a is later than time b when (a − b) mod 2^32 lies in 1..2^31 − 1 (R101). -/
def later (a b : BitVec 32) : Bool := 1 ≤ (a - b).toNat && (a - b).toNat < 2 ^ 31

/-- The wait of a due time from the local tick count: (due − tick) mod 2^32 (R113). -/
def wait (due tick : BitVec 32) : Nat := (due - tick).toNat

/-- The local chain time as one number of sub-ticks: tick count above sub-tick, so that sums carry and wrap (R101). -/
def Schedule.now (c : Schedule) : BitVec 40 := c.tick ++ c.sub

/-- The local chain time set to a value (R103). -/
def Schedule.setTime (c : Schedule) (t : BitVec 40) : Schedule :=
  { c with tick := t.extractLsb' 8 32, sub := t.extractLsb' 0 8 }

/-- The advance of the local chain time by 16 sub-ticks (R101). -/
def Schedule.advance (c : Schedule) : Schedule :=
  c.setTime (c.now + BitVec.ofNat 40 Config.subTicksPerAdvance)

/-- The stamp of a result: the local chain time while the time state is VALID (R157). -/
def Schedule.stamp (c : Schedule) : Option (BitVec 40) :=
  match c.time with
  | .valid => some c.now
  | .invalid => none

/-- The outgoing time field of a held SYNC: chain time plus line delay compensation (R109). -/
def Schedule.outgoing (c : Schedule) : BitVec 40 := c.now + c.lineDelay.setWidth 40

/-! ## The cue queue -/

/-- A flush that counts: every entry is removed, and cue flushes is raised if there was one (R105, R123, R114). -/
def Schedule.countedFlush (c : Schedule) : Schedule :=
  { c with queue := [], flushes := if c.queue = [] then c.flushes else raiseCounter c.flushes }

/-- Insertion after every entry whose due time is not later, before every entry whose due time is later (R113). -/
def insertCue (tick : BitVec 32) (e : CueEntry) : List CueEntry → List CueEntry
  | [] => [e]
  | x :: xs => if wait e.due tick < wait x.due tick then e :: x :: xs else x :: insertCue tick e xs

/-- A matching cue record is judged (Table 6-3): the entry that acts at once, if it does, and the schedule unit after. -/
def Schedule.judge (c : Schedule) (e : CueEntry) : List CueEntry × Schedule :=
  if c.time = .invalid then ([], { c with refusals := raiseCounter c.refusals })
  else if e.due = c.tick then ([e], c)
  else if !later e.due c.tick then
    match c.late with
    | .drop => ([], { c with lateDrops := raiseCounter c.lateDrops })
    | .apply => ([e], c)
  else if Config.cueCapacity ≤ c.queue.length then ([], { c with refusals := raiseCounter c.refusals })
  else ([], { c with queue := insertCue c.tick e c.queue })

/-- The records of one CUE frame, in payload order, each judged against the queue as those before it have left it (R111,
R112); records whose destination does not match are passed over (R28). The first component is the entries that act at
once, in order. -/
def Schedule.judgeAll (c : Schedule) (f : Forwarding) : List CueRecord → List CueEntry × Schedule
  | [] => ([], c)
  | r :: rs =>
    let first := if f.matchesDest r.dest then c.judge r.entry else ([], c)
    let rest := first.2.judgeAll f rs
    (first.1 ++ rest.1, rest.2)

/-- One cue record from the head of a payload, with the bytes after it (R111, Table 12-5). None ends parsing. Bits 4..15
of the target set are 0 for an action other than SET LEVEL (R113). -/
def parseCue : List Byte → Option (CueRecord × List Byte)
  | t3 :: t2 :: t1 :: t0 :: tag :: act :: rest =>
    match CueAction.ofCode act with
    | none => none
    | some .setLevel =>
      match rest with
      | d1 :: d0 :: s1 :: s0 :: l1 :: l0 :: more =>
        some ({ dest := word16 d1 d0
                entry := { due := word32 t3 t2 t1 t0, tag := tag, action := .setLevel, targets := word16 s1 s0,
                           level := some (word16 l1 l0) } }, more)
      | _ => none
    | some a =>
      match rest with
      | d1 :: d0 :: s1 :: s0 :: more =>
        some ({ dest := word16 d1 d0
                entry := { due := word32 t3 t2 t1 t0, tag := tag, action := a, targets := word16 s1 s0 &&& 0x000F,
                           level := none } }, more)
      | _ => none
  | _ => none

/-- The cue records of a payload (R111): parsing ends at the first record that is not whole. `fuel` is at least the
number of records. -/
def parseCues : Nat → List Byte → List CueRecord
  | 0, _ => []
  | fuel + 1, bs =>
    match parseCue bs with
    | none => []
    | some (r, more) => r :: parseCues fuel more

/-- Expiry at the tick count reached: every entry due at it leaves, from the head, in queue order (R115). -/
def Schedule.expire (c : Schedule) : List CueEntry × Schedule :=
  (c.queue.takeWhile fun e => e.due = c.tick, { c with queue := c.queue.dropWhile fun e => e.due = c.tick })

/-- The chain time moves on to the due time of the head entry, as CUE EXPIRY says it has: the sub-tick has just passed
255, so it stands at what is left of it below one advance (R101, R115, log entry 3). -/
def Schedule.reach (c : Schedule) (due : BitVec 32) : Schedule :=
  if due = c.tick then c else { c with tick := due, sub := c.sub &&& 0x0F }

/-! ## SYNC (R103 to R106) -/

/-- Whether an entry is carried past half the time circle by a backward step: due more than 2^31 − 1 ticks after the new
tick count (R106). -/
def carriedPast (tick : BitVec 32) (e : CueEntry) : Bool := decide (2 ^ 31 ≤ wait e.due tick)

/-- Cue late drops raised once for each of `k` entries (R114). -/
def raiseTimes : Nat → Counter → Counter
  | 0, c => c
  | k + 1, c => raiseTimes k (raiseCounter c)

/-- A forward step (R106): the entries whose due time is not later than the new tick count act, from the head. -/
def Schedule.stepForward (c : Schedule) (t : BitVec 40) : List CueEntry × Schedule :=
  let d := c.setTime t
  (d.queue.takeWhile fun e => !later e.due d.tick, { d with queue := d.queue.dropWhile fun e => !later e.due d.tick })

/-- A backward step (R106): entries carried past half the time circle are late, dropped or applied by the policy. -/
def Schedule.stepBackward (c : Schedule) (t : BitVec 40) : List CueEntry × Schedule :=
  let d := c.setTime t
  let gone := d.queue.filter (carriedPast d.tick)
  let kept := { d with queue := d.queue.filter fun e => !carriedPast d.tick e }
  match d.late with
  | .drop => ([], { kept with lateDrops := raiseTimes gone.length kept.lateDrops })
  | .apply => (gone, kept)

/-- A time jump (R105): the queue is flushed, TIME JUMP is set, then the time is set. -/
def Schedule.jump (c : Schedule) (t : BitVec 40) : Schedule := { c.countedFlush with timeJump := true }.setTime t

/-- The schedule unit's part in the acceptance of a SYNC whose new local time is `t` (R103, R104). -/
def Schedule.sync (c : Schedule) (t : BitVec 40) : SyncOutcome × Schedule :=
  match c.time with
  | .invalid => ({ acting := [], jump := none }, { c.setTime t with time := .valid })
  | .valid =>
    let step := t.extractLsb' 8 32 - c.tick
    if c.threshold.toNat < step.toInt.natAbs then ({ acting := [], jump := some step }, c.jump t)
    else if 0 < step.toInt then ({ acting := (c.stepForward t).1, jump := none }, (c.stepForward t).2)
    else if step.toInt < 0 then ({ acting := (c.stepBackward t).1, jump := none }, (c.stepBackward t).2)
    else ({ acting := [], jump := none }, c.setTime t)

/-! ## Failsafe entry and resets -/

/-- The schedule unit's part in failsafe entry (R123). -/
def Schedule.enterFailsafe (c : Schedule) : Schedule := { c.countedFlush with time := .invalid }

/-- OUTPUTS reset: the queue is flushed without a count (R124). -/
def Schedule.resetOutputs (c : Schedule) : Schedule := { c with queue := [] }

/-- FULL or FACTORY reset: time INVALID, settings default, queue emptied, counters 0, TIME JUMP clear; the tick count and
sub-tick run on (R124). -/
def Schedule.resetFull (c : Schedule) : Schedule := { Schedule.initial with tick := c.tick, sub := c.sub }

end Sys2Proof.Machine
end

