-- ==== Sys2Proof/Machine/LinkOps.lean ====
section
/-! DEFINITION. Operations of the link ports (chapter 1): the forward copy, the held SYNC, the D forward transmitter. -/

namespace Sys2Proof.Machine

/-- Whether a thing in the sending order is a data character; only these count towards the 64 (R16). -/
def FwdItem.isData : FwdItem → Bool
  | .data _ => true
  | .sof | .syncSof | .eof | .eoa | .syncPlace => false

/-- The data characters in the forward buffer (R16), the one being sent not among them (log entry 30). -/
def dataCount (order : List FwdItem) : Nat := order.countP FwdItem.isData

/-- The forward overruns counter is raised (R12). -/
def Node.countOverrun (n : Node) : Node := { n with fwd := { n.fwd with overruns := raiseCounter n.fwd.overruns } }

/-- A mark is placed at the end of the sending order: SOF, EOF or EOA, which do not count towards the 64 (R16). -/
def Node.placeMark (n : Node) (x : FwdItem) : Node := { n with link := { n.link with order := n.link.order ++ [x] } }

/-- The forward copy's state changes (R14). -/
def Node.setCopy (n : Node) (c : CopyState) : Node :=
  { n with link := { n.link with passage := { n.link.passage with copy := c } } }

/-! ## The forward copy (R14 to R17) -/

/-- A data character of the copy is placed, or meets a full buffer and closes the copy with EOA (R17). Nothing is placed
unless the copy is OPEN (R14). `checked` bytes enter the second running check value as they enter the buffer. -/
def Node.placeData (n : Node) (checked : Bool) (b : Byte) : Node :=
  if n.link.passage.copy = .opened then
    if dataCount n.link.order < Config.forwardCapacity then
      { n with
        link := { n.link with
          order := n.link.order ++ [.data b]
          passage := { n.link.passage with
            outCheck := if checked then checkByte n.link.passage.outCheck b else n.link.passage.outCheck } } }
    else ((n.placeMark .eoa).setCopy .closed).countOverrun
  else n

/-- A run of data characters of the copy is placed (R14). -/
def Node.placeRun (n : Node) (checked : Bool) (bs : List Byte) : Node := bs.foldl (fun n b => n.placeData checked b) n

/-- The forward copy of a PASS frame begins: SOF and the eight header bytes with the hop raised (R14). -/
def Node.beginCopy (n : Node) (h : FwdHeader) : Node :=
  ((n.placeMark .sof).setCopy .opened).placeRun true h.passedOn.bytes

/-- The terminator of an OPEN copy is placed, and the copy is CLOSED (R15). -/
def Node.endCopy (n : Node) (terminator : FwdItem) : Node :=
  if n.link.passage.copy = .opened then (n.placeMark terminator).setCopy .closed else n

/-! ## The held SYNC (R19, R20) -/

/-- The fifteen data bytes of a held SYNC: header, time field, check value (R19). -/
def HeldSync.bytes (h : HeldSync) : List Byte := h.hdr.bytes ++ bytes40 h.time ++ bytes16 h.check

/-- The held SYNC with its time field fixed and its check value computed over header and payload (R20). -/
def HeldSync.withTime (h : HeldSync) (t : BitVec 40) : HeldSync :=
  { h with time := t, check := checkValue (h.hdr.bytes ++ bytes40 t) }

/-- The characters of a held SYNC placed as a copy in the buffer, under the overrun rule (R19): how many of the bytes find
room, and whether the copy ends whole. -/
def syncCopy (order : List FwdItem) (bs : List Byte) : List FwdItem :=
  let room := Config.forwardCapacity - dataCount order
  order ++ [.syncSof] ++ (bs.take room).map .data ++ [if bs.length ≤ room then .eof else .eoa]

/-- An accepted SYNC becomes the held SYNC (R19): it enters the empty SYNC store and takes its place in the sending order,
or is placed in the forward buffer as a copy. -/
def Node.holdSync (n : Node) (h : HeldSync) : Node :=
  if n.link.store = none then
    { n with link := { n.link with store := some h, order := n.link.order ++ [.syncPlace] } }
  else
    let m := { n with link := { n.link with order := syncCopy n.link.order h.bytes } }
    if h.bytes.length ≤ Config.forwardCapacity - dataCount n.link.order then m else m.countOverrun

/-- The bytes of a held SYNC's copy with the schedule unit's field written into those time field bytes that were placed,
and the check value when all fifteen were (R19, R20). -/
def rewriteSync (t : BitVec 40) (bs : List Byte) : List Byte :=
  let timed := bs.take 8 ++ (bytes40 t).take (bs.length - 8) ++ bs.drop 13
  if bs.length = 15 then timed.take 13 ++ bytes16 (checkValue (timed.take 13)) else timed

/-- The data byte of a thing in the sending order. -/
def FwdItem.byte? : FwdItem → Option Byte
  | .data b => some b
  | .sof | .syncSof | .eof | .eoa | .syncPlace => none

/-- The sending order behind the SOF of a held SYNC's copy, with that copy rewritten (R20). -/
def rewriteOrder (t : BitVec 40) (order : List FwdItem) : List FwdItem :=
  let bs := (order.takeWhile FwdItem.isData).filterMap FwdItem.byte?
  (rewriteSync t bs).map .data ++ order.dropWhile FwdItem.isData

/-! ## The D forward transmitter (R4, R16, R18, R20) -/

/-- Index of the EOF among the 17 characters of a held SYNC (R19). -/
def lastSyncCharacter : Nat := 16

/-- What the end of the character being sent brings about: the SOF of a held SYNC fixes its time field and check (R20,
R109), and the EOF of the held SYNC in the store empties it (R20). -/
def Node.forwardCharacterEnds (n : Node) : Node :=
  match n.link.fwdTx.current with
  | .store i =>
    if i = 0 then
      { n with link := { n.link with store := n.link.store.map fun h => h.withTime n.sched.outgoing } }
    else if i = lastSyncCharacter then { n with link := { n.link with store := none, order := n.link.order.drop 1 } }
    else n
  | .item .syncSof => { n with link := { n.link with order := rewriteOrder n.sched.outgoing n.link.order } }
  | .rest | .idle | .item _ => n

/-- Whether the character being sent stands within a frame of the buffer, before its terminator. -/
def FwdCurrent.withinCopy : FwdCurrent → Bool
  | .item .sof | .item .syncSof | .item (.data _) => true
  | .rest | .idle | .store _ | .item _ => false

/-- The transmitter takes a character (R4). -/
def Node.sendNext (n : Node) (x : FwdCurrent) (order : List FwdItem) : Node :=
  { n with link := { n.link with
      order := order
      fwdTx := { state := if x = .idle then .idling else .sending, current := x } } }

/-- An underrun (R18): the copy's next character has not been placed; EOA is sent, the copy is CLOSED, and forward
overruns is raised. -/
def Node.takeUnderrun (n : Node) : Node := ((n.sendNext (.item .eoa) []).setCopy .closed).countOverrun

/-- Whether the transmitter, while sending an OPEN copy, finds its next character not yet placed (R18). -/
def Node.starved (n : Node) : Bool :=
  n.link.fwdTx.current.withinCopy && n.link.passage.copy = .opened && n.link.order.isEmpty

/-- The next character taken at a character boundary, with the character before it ended (R4, R16, R18). A character taken from
the buffer leaves it here, as its sending starts, and no longer counts among the 64 (DESIGN CHOICE, log entry 30). -/
def Node.forwardTakeNext (n : Node) : Node :=
  match n.link.fwdTx.current with
  | .store i =>
    if i < lastSyncCharacter then n.sendNext (.store (i + 1)) n.link.order
    else
      match n.link.order with
      | [] => n.sendNext .idle []
      | .syncPlace :: rest => n.sendNext (.store 0) (.syncPlace :: rest)
      | x :: rest => n.sendNext (.item x) rest
  | .rest | .idle | .item _ =>
    match n.link.order with
    | [] => if n.starved then n.takeUnderrun else n.sendNext .idle []
    | .syncPlace :: rest => n.sendNext (.store 0) (.syncPlace :: rest)
    | x :: rest => n.sendNext (.item x) rest

/-- One character boundary of the D forward transmitter: the character being sent ends and the next is taken. A HELD
transmitter sends nothing (R4). -/
def Node.forwardCharacter (n : Node) : Node :=
  if n.link.fwdTx.state = .held then n else n.forwardCharacterEnds.forwardTakeNext

/-- Whether the transmitter stands between frames, so that the head of the order is what it sends next (R4). -/
def FwdCurrent.betweenFrames : FwdCurrent → Bool
  | .idle | .item .eof | .item .eoa => true
  | .store i => i = lastSyncCharacter
  | .rest | .item _ => false

/-- Whether the SOF of a held SYNC is the character being sent. -/
def FwdCurrent.isSyncSof : FwdCurrent → Bool
  | .store 0 | .item .syncSof => true
  | .rest | .idle | .store _ | .item _ => false

/-- The SOF of a held SYNC is sent (R20, R109). When it is not yet the character being sent, but is the next thing in
order, the character before it ends first (log entry 19). -/
def Node.sendSyncSof (n : Node) : Node :=
  if n.link.fwdTx.state = .held then n
  else if n.link.fwdTx.current.isSyncSof then n.forwardCharacter
  else if n.link.fwdTx.current.betweenFrames && n.forwardCharacter.link.fwdTx.current.isSyncSof then
    n.forwardCharacter.forwardCharacter
  else n

/-- The EOF of the held SYNC in the store is sent (R20): its remaining characters have gone, the store is empty. Nothing
happens unless its SOF has been sent (log entry 19). -/
def Node.sendSyncEof (n : Node) : Node :=
  match n.link.fwdTx.current with
  | .store i =>
    if i = 0 then n
    else
      ({ n with link := { n.link with
          fwdTx := { n.link.fwdTx with current := .store lastSyncCharacter } } } : Node).forwardCharacter
  | .rest | .idle | .item _ => n

/-- The transmitter finds the next character of the OPEN copy it is sending not yet placed (R18); otherwise nothing. -/
def Node.underrun (n : Node) : Node :=
  if n.starved then n.forwardCharacter else n

end Sys2Proof.Machine
end

