-- ==== Sys2Proof/Machine/OutputOps.lean ====
section
/-! DEFINITION. Operations of the output engine (chapter 7): offers, loads, starts, stops, triggers, ticks, pins. -/

namespace Sys2Proof.Machine

/-- The four output groups, in order. -/
def allGroups : List (Fin 4) := [0, 1, 2, 3]

/-- One group is replaced. -/
def Output.withGroup (o : Output) (g : Fin 4) (x : Group) : Output := { o with groups := o.groups.set g x }

/-- One channel is replaced. -/
def Output.withChannel (o : Output) (c : Fin 16) (x : Channel) : Output := { o with chans := o.chans.set c x }

/-- Every member channel of a group is changed by `f`; the others stand (R135). -/
def Output.mapMembers (o : Output) (g : Fin 4) (f : Channel → Channel) : Output :=
  { o with chans := o.chans.mapIdx fun _ ch => if ch.group = g then f ch else ch }

/-! ## Conversion (R99, R100) -/

/-- The compare before the limit: floor(level × N / 65535) (R99). -/
def compareAsked (level period : BitVec 16) : Nat := level.toNat * period.toNat / 65535

/-- The compare that a load gives: the compare asked for, limited to N − O (R99). -/
def compareLoaded (level period offset : BitVec 16) : BitVec 16 :=
  BitVec.ofNat 16 (min (compareAsked level period) (period.toNat - offset.toNat))

/-- Whether the load of a channel with period N clips its compare (R100). -/
def Channel.clips (ch : Channel) (period : BitVec 16) : Bool :=
  period.toNat - ch.stagedOffset.toNat < compareAsked ch.stagedLevel period

/-- The load of one member channel (R135, steps 2 to 4). -/
def Channel.load (ch : Channel) (period : BitVec 16) : Channel :=
  { ch with
    activeOffset := ch.stagedOffset
    compare := compareLoaded ch.stagedLevel period ch.stagedOffset
    lastActive := ch.stagedLevel
    pendingFlag := false }

/-- Whether the load of a group clips any member (R100). -/
def Output.clipsAt (o : Output) (g : Fin 4) : Bool :=
  o.chans.toList.any fun ch => ch.group = g && ch.clips o.groups[g].staged.period

/-- A load point of a group (R135), which leaves it in state `st` with count 0. -/
def Output.load (o : Output) (g : Fin 4) (st : GroupState) : Output :=
  let x := o.groups[g]
  { groups := o.groups.set g { x with state := st, mark := false, active := x.staged, count := 0 }
    chans := (o.mapMembers g fun ch => ch.load x.staged.period).chans
    clip := o.clip || o.clipsAt g }

/-! ## Starts, stops and triggers -/

/-- A start taken at an output tick (R129): a CONTINUOUS group enters RUNNING with a load, a ONE-SHOT group enters ARMED
with its missed-trigger count 0. A group without the mark takes no start. -/
def Output.takeStart (o : Output) (g : Fin 4) : Output :=
  let x := o.groups[g]
  if x.state = .idle && x.mark then
    match x.mode with
    | .continuous => o.load g .running
    | .oneShot => o.withGroup g { x with state := .armed, mark := false, count := 0, missed := 0 }
  else o

/-- A START of one group sets its mark when it is IDLE (R130, R118). -/
def Output.markStart (o : Output) (g : Fin 4) : Output :=
  let x := o.groups[g]
  if x.state = .idle then o.withGroup g { x with mark := true } else o

/-- A channel whose group is stopped: compare 0, staged offset active (R130). -/
def Channel.stopped (ch : Channel) : Channel := { ch with compare := 0, activeOffset := ch.stagedOffset }

/-- A stop of one group (R130). A group already IDLE loses its mark and nothing else changes. -/
def Output.stop (o : Output) (g : Fin 4) : Output :=
  let x := o.groups[g]
  if x.state = .idle then o.withGroup g { x with mark := false }
  else (o.mapMembers g Channel.stopped).withGroup g { x with state := .idle, mark := false, count := 0, active := x.staged }

/-- A sequence begins: PULSE with a load when the active delay is 0, else DELAY with count 0 (R131, R133). -/
def Output.beginSequence (o : Output) (g : Fin 4) : Output :=
  let x := o.groups[g]
  if x.active.delay = 0 then o.load g .pulse else o.withGroup g { x with state := .delay, mark := false, count := 0 }

/-- A trigger reaches a group (R131, R133); a group IDLE or RUNNING is left as it was. -/
def Output.trigger (o : Output) (g : Fin 4) : Output :=
  let x := o.groups[g]
  match x.state with
  | .armed => o.beginSequence g
  | .delay | .pulse =>
    match x.active.retrigger with
    | .ignore => o.withGroup g { x with missed := raiseMissed x.missed }
    | .restart => o.beginSequence g
  | .idle | .running => o

/-! ## Ticks of a group's output clock (R125, R129, R132, R135) -/

/-- The end of a period in RUNNING is a load point (R135). -/
def Output.wrap (o : Output) (g : Fin 4) : Output := if o.groups[g].state = .running then o.load g .running else o

/-- The end of DELAY enters PULSE with a load (R132). -/
def Output.endDelay (o : Output) (g : Fin 4) : Output := if o.groups[g].state = .delay then o.load g .pulse else o

/-- The end of PULSE returns the group to ARMED with count 0; compares and offsets stay (R132). -/
def Output.endPulse (o : Output) (g : Fin 4) : Output :=
  let x := o.groups[g]
  if x.state = .pulse then o.withGroup g { x with state := .armed, mark := false, count := 0 } else o

/-- The count advances by one (R125). -/
def Output.advance (o : Output) (g : Fin 4) : Output :=
  let x := o.groups[g]
  o.withGroup g { x with count := x.count + 1 }

/-- One tick of a group's output clock: a pending start is taken, the count advances, or the period or delay ends. -/
def Output.tick (o : Output) (g : Fin 4) : Output :=
  let x := o.groups[g]
  match x.state with
  | .idle => o.takeStart g
  | .armed => o
  | .running => if x.count.toNat + 1 < x.active.period.toNat then o.advance g else o.wrap g
  | .delay => if x.count.toNat + 1 < x.active.delay.toNat then o.advance g else o.endDelay g
  | .pulse => if x.count.toNat + 1 < x.active.period.toNat then o.advance g else o.endPulse g

/-! ## Staging records (R140) -/

/-- A taken offer (R140). -/
def Channel.take (ch : Channel) (level : BitVec 16) (origin : Origin) : Channel :=
  { ch with stagedLevel := level, pendingFlag := true, origin := origin }

/-- Whether an offer is refused: origin DATA or CUE while the supervision state is FAILSAFE (R140). -/
def offerRefused (inFailsafe : Bool) (origin : Origin) : Bool := inFailsafe && (origin = .data || origin = .cue)

/-- Offers to the staging records: channel c is offered `levels c`, if any (R94, R117, R140). -/
def Output.offer (o : Output) (inFailsafe : Bool) (origin : Origin) (levels : Vector (Option (BitVec 16)) 16) : Output :=
  if offerRefused inFailsafe origin then o
  else
    { o with
      chans := o.chans.mapIdx fun c ch =>
        match (levels.toList[c]?).join with
        | some level => ch.take level origin
        | none => ch }

/-- One level for each channel of a set (R117). -/
def levelsFor (targets : BitVec 16) (level : BitVec 16) : Vector (Option (BitVec 16)) 16 :=
  (Vector.replicate 16 (none : Option (BitVec 16))).mapIdx fun c _ => if targets.getLsbD c then some level else none

/-! ## Cue actions (R117, R118) -/

/-- The action of one cue, by the entry that carries it. -/
def Output.runCue (o : Output) (inFailsafe : Bool) (e : CueEntry) : Output :=
  match e.action with
  | .setLevel => o.offer inFailsafe .cue (levelsFor e.targets (e.level.getD 0))
  | .start => (groupsNamed (e.targets.extractLsb' 0 4)).foldl Output.markStart o
  | .stop => (groupsNamed (e.targets.extractLsb' 0 4)).foldl Output.stop o
  | .fire => (groupsNamed (e.targets.extractLsb' 0 4)).foldl Output.trigger o

/-- Cues act one after another, in queue order (R115, R118). -/
def Output.runCues (o : Output) (inFailsafe : Bool) (es : List CueEntry) : Output :=
  es.foldl (fun o e => o.runCue inFailsafe e) o

/-! ## Failsafe entry (R143) -/

/-- The level that a failsafe entry offers a channel (R64). -/
def FsEntry.offered (e : FsEntry) (ch : Channel) : BitVec 16 :=
  match e.kind with
  | .off => 0
  | .hold => ch.lastActive
  | .level => e.level

/-- The levels of the failsafe table for the channels as they stand (R143, step 1). -/
def Output.failsafeLevels (o : Output) (table : Vector FsEntry 16) : Vector (Option (BitVec 16)) 16 :=
  o.chans.mapIdx fun c ch => (table.toList[c]?).map fun e => e.offered ch

/-- A group's part in failsafe entry: an immediate wrap in RUNNING, a stop in ARMED, DELAY or PULSE (R143). -/
def Output.failsafeGroup (o : Output) (g : Fin 4) : Output :=
  match o.groups[g].state with
  | .running => o.load g .running
  | .armed | .delay | .pulse => o.stop g
  | .idle => o

/-- The output engine's part in failsafe entry (R143). -/
def Output.enterFailsafe (o : Output) (table : Vector FsEntry 16) : Output :=
  allGroups.foldl Output.failsafeGroup (o.offer true .failsafe (o.failsafeLevels table))

/-! ## Resets (R146) -/

/-- A group under an OUTPUTS reset: IDLE, mark clear, counts 0, staged settings active (R146). -/
def Group.resetOutputs (x : Group) : Group :=
  { x with state := .idle, mark := false, count := 0, active := x.staged, missed := 0 }

/-- A channel under an OUTPUTS reset: compare 0, staging record empty, staged offset active (R146). -/
def Channel.resetOutputs (ch : Channel) : Channel :=
  { ch with activeOffset := ch.stagedOffset, compare := 0, stagedLevel := 0, pendingFlag := false, origin := .none, lastActive := 0 }

/-- The output engine under an OUTPUTS reset: every setting and CLIP kept (R146, R100). -/
def Output.resetOutputs (o : Output) : Output :=
  { o with
    groups := o.groups.mapIdx fun _ x => x.resetOutputs
    chans := o.chans.mapIdx fun _ ch => ch.resetOutputs }

/-! ## Pins (R138, R139, R147) -/

/-- Whether a channel is active (R139). -/
def Output.channelActive (o : Output) (c : Fin 16) : Bool :=
  let ch := o.chans[c]
  let x := o.groups[ch.group]
  ch.enable && (x.state = .running || x.state = .pulse)
    && ch.activeOffset.toNat ≤ x.count.toNat && x.count.toNat < ch.activeOffset.toNat + ch.compare.toNat

/-- The level of pulse output OUTc, high or not: the channel's polarity maps active and inactive (R138); low while
RESETN is low (R147). -/
def Node.pinHigh (n : Node) (c : Fin 16) : Bool :=
  !n.link.resetLow && (n.out.channelActive c != n.out.chans[c].activeLow)

/-- Member channel set of a group, bit c naming channel c (R144). -/
def Output.members (o : Output) (g : Fin 4) : BitVec 16 :=
  (List.range 16).foldl (fun m c =>
    match o.chans.toList[c]? with
    | some ch => if ch.group = g then m ||| BitVec.ofNat 16 (2 ^ c) else m
    | none => m) 0

end Sys2Proof.Machine
end

