-- ==== Sys2Proof/Machine/TableOps.lean ====
section
/-! DEFINITION. Operations of the table store (chapter 4): entries, validation, the load session, banks. -/

namespace Sys2Proof.Machine

/-! ## Curves and banks (R63) -/

/-- The other bank. -/
def Bank.other : Bank → Bank
  | .a => .b
  | .b => .a

/-- The points of one bank of a curve. -/
def Curve.points (c : Curve) : Bank → Vector (BitVec 16) 33
  | .a => c.bankA
  | .b => c.bankB

/-- A point of one bank is written. -/
def Curve.write (c : Curve) (bank : Bank) (k : Nat) (level : BitVec 16) : Curve :=
  match bank with
  | .a => { c with bankA := c.bankA.setIfInBounds k level }
  | .b => { c with bankB := c.bankB.setIfInBounds k level }

/-- The active-bank marker flips (R63). -/
def Curve.flip (c : Curve) : Curve := { c with active := c.active.other }

/-- The marker of one curve flips (R63). -/
def Tables.flip (t : Tables) (c : Fin 4) : Tables := { t with curves := t.curves.set c t.curves[c].flip }

/-- The four markers, bit c 1 when bank B of curve c is active (R84). -/
def Tables.markers (t : Tables) : Byte :=
  (groupsNamed 0xF).foldl (fun m c => if t.curves[c].active = .b then m ||| BitVec.ofNat 8 (2 ^ c.val) else m) 0

/-! ## Validation (R65) -/

/-- A whole entry, gathered and validated: what is to be written, or the cause of Table 4-2. -/
inductive Gathered where
  | extraction (e : ExtEntry)
  | point (level : BitVec 16)
  | failsafe (e : FsEntry)
  | bad (cause : Byte)
  deriving DecidableEq, Repr

/-- Validation of an extraction entry, in the order of Table 4-2: none when it passes, else the cause. -/
def ExtEntry.fault (e : ExtEntry) : Option Byte :=
  if !e.valid then none
  else if e.targets = 0 then some 1
  else if !(e.curve.toNat ≤ 3 || e.curve.toNat = 7) then some 2
  else if (if e.wide then 1022 else 1023) < e.slot.toNat then some 3
  else none

/-- The bytes of a whole entry of a table, validated (R65). -/
def gather : TableId → List Byte → Gathered
  | .extraction, [c, s1, s0, t1, t0] =>
    match (ExtEntry.ofBytes c s1 s0 t1 t0).fault with
    | none => .extraction (ExtEntry.ofBytes c s1 s0 t1 t0)
    | some cause => .bad cause
  | .curve _, [h, l] => .point (word16 h l)
  | .failsafe, [k, h, l] =>
    match FsKind.ofCode k with
    | some kind => .failsafe { kind := kind, level := word16 h l }
    | none => .bad 4
  | _, _ => .bad 0

/-- A validated entry is written at an index, into the bank written for a curve (R72, step 2). -/
def Tables.writeEntry (t : Tables) (table : TableId) (bank : Option Bank) (i : Nat) (g : Gathered) : Tables :=
  match g, table, bank with
  | .extraction e, .extraction, _ => { t with extraction := t.extraction.setIfInBounds i e }
  | .point level, .curve c, some bank => { t with curves := t.curves.set c (t.curves[c].write bank i level) }
  | .failsafe e, .failsafe, _ => { t with failsafe := t.failsafe.setIfInBounds i e }
  | _, _, _ => t

/-! ## The load session (section 4.4) -/

/-- The cursor advances after an entry is written; at the window's last entry it returns to the window start and the wrap
count is raised (R73). -/
def Session.advance (x : Session) : Session :=
  if x.cursor + 1 < x.start + x.count then { x with cursor := x.cursor + 1 }
  else { x with cursor := x.start, wraps := raiseCounter x.wraps }

/-- What one TABLE DATA record has done so far: the entries it wrote, and the cause of the entry that failed (R76). -/
structure DataRun where
  tables : Tables
  wrote : Nat
  cause : Option Byte
  deriving DecidableEq, Repr

/-- One byte of a TABLE DATA record is gathered; a whole entry is validated and written, or stops the record (R72 to
R74). -/
def DataRun.byte (r : DataRun) (b : Byte) : DataRun :=
  match r.cause with
  | some _ => r
  | none =>
    let x := r.tables.session
    let bytes := x.partialBytes ++ [b]
    if bytes.length < x.table.entrySize then
      { r with tables := { r.tables with session := { x with partialBytes := bytes } } }
    else
      match gather x.table bytes with
      | .bad cause =>
        { r with tables := { r.tables with session := { x with partialBytes := [] } }, cause := some cause }
      | g =>
        { r with
          tables :=
            { r.tables.writeEntry x.table x.bank x.cursor g with
              session := { x with partialBytes := [], written := raiseCounter x.written }.advance }
          wrote := r.wrote + 1 }

/-- The bytes of one TABLE DATA record, one at a time, with the idle timer restarted (R72). -/
def Tables.takeData (t : Tables) (bs : List Byte) : DataRun :=
  bs.foldl DataRun.byte { tables := { t with session := { t.session with idle := 0 } }, wrote := 0, cause := none }

/-- The open session closes with a reason, without a flip: the partial buffer is discarded and counted, swapped is no, the
idle timer stops (R70, R77, R79); no bank is being written any longer (log entry 11). -/
def Session.close (x : Session) (reason : CloseReason) : Session :=
  { x with
    isOpen := false, bank := none, discarded := x.partialBytes.length, partialBytes := [], idle := 0, swapped := false,
    reason := reason }

/-- The bank a session opened on a table writes: the curve's inactive bank, none for the other tables (R68). -/
def Tables.bankFor (t : Tables) : TableId → Option Bank
  | .curve c => some t.curves[c].active.other
  | .extraction | .failsafe => none

/-- A session is opened on a window (R69), an open one having been closed as superseded (R70). -/
def Tables.openSession (t : Tables) (table : TableId) (start count : Nat) : Tables :=
  let x := if t.session.isOpen then t.session.close .superseded else t.session
  { t with
    session :=
      { x with
        isOpen := true, table := table, bank := t.bankFor table, start := start, count := count, cursor := start,
        partialBytes := [], written := 0, wraps := 0, idle := 0 } }

/-- The session idle limit closes the open session as EXPIRED (R79). -/
def Tables.expire (t : Tables) : Tables :=
  if t.session.isOpen then { t with session := t.session.close .expired } else t

/-- The load session record under a soft reset (R80): CLOSED with reason RESET, with or without an open session. -/
def Session.softReset (x : Session) : Session :=
  { (if x.isOpen then x.close .reset else x) with bank := none, partialBytes := [], idle := 0, swapped := false, reason := .reset }

/-- An OUTPUTS reset keeps tables and markers (R80). -/
def Tables.resetOutputs (t : Tables) : Tables := { t with session := t.session.softReset }

/-- A FULL or FACTORY reset restores the defaults of R66 (R80). -/
def Tables.resetFull (t : Tables) : Tables := { Tables.initial with session := t.session.softReset }

/-- The stored form of one entry (R83): index `i` of a table, of the bank named for a curve. -/
def Tables.entryBytes (t : Tables) (table : TableId) (bank : Bank) (i : Nat) : List Byte :=
  match table with
  | .extraction => (t.extraction.toList[i]?).elim [] ExtEntry.bytes
  | .curve c => ((t.curves[c].points bank).toList[i]?).elim [] bytes16
  | .failsafe => (t.failsafe.toList[i]?).elim [] FsEntry.bytes

/-- The bank a TABLE READ selects: ACTIVE or INACTIVE as the marker stands (R83). -/
def Tables.selectedBank (t : Tables) (table : TableId) (inactive : Bool) : Bank :=
  match table with
  | .curve c => if inactive then t.curves[c].active.other else t.curves[c].active
  | .extraction | .failsafe => .a

end Sys2Proof.Machine
end

