-- ==== Sys2Proof/Machine/ResetOps.lean ====
section
/-! DEFINITION. The soft resets of RESET NODE (R59, Table 3-7) and the pin reset (R22, R23, R174). -/

namespace Sys2Proof.Machine

/-- An OUTPUTS reset: session closed, last-data records cleared, cue queue flushed, outputs stopped (Table 3-7). -/
def Node.resetOutputs (n : Node) : Node :=
  { n with
    tables := n.tables.resetOutputs
    value := noLastData
    sched := n.sched.resetOutputs
    out := n.out.resetOutputs }

/-- A FULL reset: settings, tables, cache, supervision, sense unit and notice set default, counters zero, flags clear;
address, group set, position, last sequence and the queues of the return unit kept (Table 3-7). -/
def Node.resetFull (n : Node) : Node :=
  { n with
    fwd := { n.fwd with checkErrors := 0, aborts := 0, overruns := 0, enumOverrun := false }
    cmd := { n.cmd with cache := none, busy := 0 }
    tables := n.tables.resetFull
    value := noLastData
    sched := n.sched.resetFull
    out := .initial
    sense := .initial
    ret := { n.ret with enable := 0, relayDrops := 0, relayErrors := 0, noticeLosses := 0 }
    sup := .initial }

/-- A FACTORY reset: what FULL does, and the node unaddressed with an empty group set (R59, Table 2-5). -/
def Node.resetFactory (n : Node) : Node :=
  let m := n.resetFull
  { m with fwd := { m.fwd with address := 0, groups := [] } }

/-- The soft reset of a scope, taken by every block at one event (R59). -/
def Node.softReset (n : Node) : Scope → Node
  | .outputs => n.resetOutputs
  | .full => n.resetFull
  | .factory => n.resetFactory

/-- The falling edge of RESETN (R22, R174): both transmitters HELD, frames in sending cut off, reception records OUTSIDE,
forward buffer, SYNC store, return queues and relay reception area empty. -/
def Node.resetFall (n : Node) : Node :=
  { n with
    link := { n.link with
      resetLow := true, uRec := .outside, dRec := .outside, passage := .outside, order := [], store := none
      fwdTx := { state := .held, current := .rest }
      retTx := { state := .held, current := none } }
    ret := { n.ret with localQ := [], relayQ := [], area := [] } }

end Sys2Proof.Machine
end

