-- ==== Sys2Proof/Machine/SenseOps.lean ====
section
/-! DEFINITION. Operations of the sense unit (chapter 8): sample events, the filter, measuring, triggers, the result log. -/

namespace Sys2Proof.Machine

/-- The four sense inputs, in order. -/
def allInputs : List (Fin 4) := [0, 1, 2, 3]

/-- The longest count, 16,777,215 samples (R152). -/
def longestCount : BitVec 24 := 0xFFFFFF

/-- One sample raises the count while the phase counts; it saturates (R152). -/
def Input.raiseCount (x : Input) : Input :=
  if (x.phase = .counting || x.phase = .measuring) && x.count ≠ longestCount then { x with count := x.count + 1 } else x

/-- The filter (R150): the input after one raw sample, and the edge it carries, if any (true for a rising edge). -/
def Input.filter (x : Input) (raw : Bool) : Input × Option Bool :=
  match x.filtered with
  | none => ({ x with filtered := some raw, run := 0 }, none)
  | some level =>
    if raw = level then ({ x with run := 0 }, none)
    else if x.settings.filter.toNat ≤ x.run.toNat then ({ x with filtered := some raw, run := 0 }, some raw)
    else ({ x with run := x.run + 1 }, none)

/-- Whether an edge is a selected edge (R153, R155). -/
def SenseSettings.selects (st : SenseSettings) (rising : Bool) : Bool :=
  match st.edge with
  | .rising => rising
  | .falling => !rising
  | .both => true

/-- Whether an edge is the start edge of a width mode: rising in HIGH WIDTH, falling in LOW WIDTH (R154). -/
def SenseSettings.startsWidth (st : SenseSettings) (rising : Bool) : Bool :=
  match st.mode with
  | .highWidth => rising
  | .lowWidth => !rising
  | .off | .interval | .trigger => false

/-- Whether an edge is the closing edge of a width mode (R154). -/
def SenseSettings.closesWidth (st : SenseSettings) (rising : Bool) : Bool :=
  match st.mode with
  | .highWidth => !rising
  | .lowWidth => rising
  | .off | .interval | .trigger => false

/-- The kind of the entry a closing edge of a width mode makes (R154). -/
def SenseSettings.widthKind (st : SenseSettings) : ResultKind :=
  match st.mode with
  | .lowWidth => .low
  | .off | .interval | .highWidth | .trigger => .high

/-- What an edge makes an input do besides its own change: the kind and count of the entry appended, if any, and the
output groups triggered (R153 to R155). -/
structure EdgeEffect where
  result : Option (ResultKind × Option (BitVec 24))
  triggers : BitVec 4
  deriving DecidableEq, Repr

/-- No effect. -/
def EdgeEffect.nothing : EdgeEffect := { result := none, triggers := 0 }

/-- An edge is handled by the rule of the input's phase (R153 to R156). Table 8-3 says of WAIT_START only that the count is
'not kept': that the count of the width just closed stands there until the next start edge sets it to 0 is the model's choice
(log entry 28). -/
def Input.edge (x : Input) (rising : Bool) : Input × EdgeEffect :=
  match x.phase with
  | .first =>
    if x.settings.selects rising then ({ x with phase := .counting, count := 0 }, .nothing) else (x, .nothing)
  | .counting =>
    if x.settings.selects rising then
      ({ x with count := 0 }, { result := some (.interval, some x.count), triggers := 0 })
    else (x, .nothing)
  | .waitStart =>
    if x.settings.startsWidth rising then ({ x with phase := .measuring, count := 0 }, .nothing) else (x, .nothing)
  | .measuring =>
    if x.settings.closesWidth rising then
      ({ x with phase := .waitStart }, { result := some (x.settings.widthKind, some x.count), triggers := 0 })
    else (x, .nothing)
  | .ready =>
    if x.settings.selects rising then
      (if x.settings.lockout = 0 then x else { x with phase := .lockout, timer := 0 },
       { result := some (.trigger, none), triggers := x.settings.triggers })
    else (x, .nothing)
  | .off | .lockout => (x, .nothing)

/-- The result log with one entry appended: when 16 are held the oldest is removed and counted (R158). -/
def Sense.append (c : Sense) (e : LogEntry) : Sense :=
  if c.log.length < Config.logCapacity then { c with log := c.log ++ [e] }
  else { c with log := c.log.drop 1 ++ [e], losses := raiseCounter c.losses }

/-- The log entry of a result, stamped as the chain time stands (R157); LONG when the count is 16,777,215 (R152). -/
def logEntryOf (i : Fin 4) (kind : ResultKind) (count : Option (BitVec 24)) (stamp : Option (BitVec 40)) : LogEntry :=
  { input := i, kind := kind, count := count, isLong := decide (count = some longestCount), stamp := stamp }

/-- The effect of an edge on the log and on the output groups (R153 to R155, R157). -/
def Node.takeEdge (n : Node) (i : Fin 4) (x : Input) (eff : EdgeEffect) : Node :=
  let c := { n.sense with inputs := n.sense.inputs.set i x }
  { n with
    sense := match eff.result with
      | none => c
      | some (kind, count) => c.append (logEntryOf i kind count n.sched.stamp)
    out := (groupsNamed eff.triggers).foldl Output.trigger n.out }

/-- One sample event of an input with the raw level of its pin (R150); an input in phase OFF takes none. -/
def Node.sample (n : Node) (i : Fin 4) (raw : Bool) : Node :=
  let x := n.sense.inputs[i]
  if x.phase = .off then n
  else
    let y := x.raiseCount.filter raw
    match y.2 with
    | none => n.takeEdge i y.1 .nothing
    | some rising => n.takeEdge i (y.1.edge rising).1 (y.1.edge rising).2

/-- The sample event at which the filtered level becomes the given level (R150, log entry 20): nothing in phase OFF, or when
the filtered level is that level already. An unset filtered level is only set: there is no edge (R150, R151). -/
def Node.edgeTo (n : Node) (i : Fin 4) (level : Bool) : Node :=
  let x := n.sense.inputs[i]
  if x.phase = .off || x.filtered = some level then n
  else if x.filtered = none then n.sample i level
  else
    let y := ({ x.raiseCount with filtered := some level, run := 0 } : Input).edge level
    n.takeEdge i y.1 y.2

/-- The lockout's end returns the input to READY and stops the timer (R156). -/
def Sense.endLockout (c : Sense) (i : Fin 4) : Sense :=
  let x := c.inputs[i]
  if x.phase = .lockout then { c with inputs := c.inputs.set i { x with phase := .ready, timer := 0 } } else c

/-- The starting phase of a mode (R151). -/
def SenseMode.startingPhase : SenseMode → SensePhase
  | .off => .off
  | .interval => .first
  | .highWidth | .lowWidth => .waitStart
  | .trigger => .ready

/-- The report on SYNC (R160): when SENSE is enabled, the node has an address and the log holds an entry, up to 8 of the
oldest are carried by a notice; they leave the log if it is queued, else the notice is lost and counted. -/
def Node.reportOnSync (n : Node) : Node :=
  if n.ret.generates n.fwd.address .sense && n.sense.log ≠ [] then
    let carried := n.sense.log.take Config.reportCapacity
    { n with
      ret := n.ret.notice n.fwd.address .sense (byteOf carried.length :: carried.flatMap LogEntry.bytes)
      sense := if n.ret.hasFree then { n.sense with log := n.sense.log.drop Config.reportCapacity } else n.sense }
  else n

end Sys2Proof.Machine
end

