-- ==== Sys2Proof/Machine/SupervisionOps.lean ====
section
/-! DEFINITION. Operations of the supervision unit (chapter 10): qualifying frames, expiries, failsafe entry, recovery. -/

namespace Sys2Proof.Machine

/-- A timer started from zero with a duration (R176). -/
def timerFor (durationMs : BitVec 16) : Option Timer := some { elapsed := 0, duration := durationMs.toNat }

/-- Whether the state is FAILSAFE (R140). -/
def Supervision.inFailsafe (u : Supervision) : Bool := u.state = .failsafe

/-- The supervision timer starts from zero with the window now set (R179, R180). -/
def Supervision.startWindow (u : Supervision) : Supervision := { u with supTimer := timerFor u.window }

/-- A qualifying DATA frame in FAILSAFE, after the timer's restart (R184). -/
def Supervision.countData (u : Supervision) : List SupChange × Supervision :=
  if u.k = 0 then ([], { u with recovery := 0 })
  else if u.k.toNat ≤ u.recovery.toNat + 1 then
    ([{ before := .failsafe, after := .normal }], { u with state := .normal, recovery := 0 })
  else ([], { u with recovery := u.recovery + 1 })

/-- A qualifying frame (R180, R184): the changes of state it makes, and the unit after it. `isData` tells a matching DATA
frame from a SYNC. -/
def Supervision.qualify (u : Supervision) (isData : Bool) : List SupChange × Supervision :=
  match u.state with
  | .start => ([{ before := .start, after := .normal }], { u.startWindow with state := .normal })
  | .normal => ([], u.startWindow)
  | .holdover => ([{ before := .holdover, after := .normal }], { u.startWindow with state := .normal, holdTimer := none })
  | .failsafe => if isData then u.startWindow.countData else ([], u.startWindow)

/-- SUPERVISION notice records are handed over one after another (R165, R187). -/
def Node.supNotices (n : Node) (cs : List SupChange) : Node :=
  { n with ret := cs.foldl (fun r c => r.supNotice n.fwd.address c) n.ret }

/-- The supervision unit's part in the acceptance of a qualifying frame (R177, R180, R184, R187). -/
def Node.qualifyingFrame (n : Node) (isData : Bool) : Node :=
  { n with sup := (n.sup.qualify isData).2 }.supNotices (n.sup.qualify isData).1

/-- Failsafe entry (R183), in its order: the state, the output engine's part, the schedule unit's part, the notice. -/
def Node.enterFailsafe (n : Node) : Node :=
  ({ n with
      sup := { n.sup with state := .failsafe, supTimer := none, holdTimer := none, recovery := 0 }
      out := n.out.enterFailsafe n.tables.failsafe
      sched := n.sched.enterFailsafe } : Node).supNotices [{ before := .holdover, after := .failsafe }]

/-- The holdover timer expires (R182): failsafe entry when enabled, else the state stays and the timer is stopped. An
expiry with no running timer, or outside HOLDOVER, does not happen. -/
def Node.holdoverExpiry (n : Node) : Node :=
  if n.sup.state = .holdover && n.sup.holdTimer.isSome then
    if n.sup.failsafeOn then n.enterFailsafe else { n with sup := { n.sup with holdTimer := none } }
  else n

/-- The supervision timer expires (R181): NORMAL moves to HOLDOVER with the holdover timer started, which expires at this
same event when the holdover time is 0 (R182); FAILSAFE returns the recovery count to 0. -/
def Node.supervisionExpiry (n : Node) : Node :=
  if n.sup.supTimer.isSome then
    match n.sup.state with
    | .normal =>
      let m := { n with sup := { n.sup with state := .holdover, supTimer := none, holdTimer := timerFor n.sup.holdover } }.supNotices
        [{ before := .normal, after := .holdover }]
      if n.sup.holdover = 0 then m.holdoverExpiry else m
    | .failsafe => { n with sup := { n.sup with supTimer := none, recovery := 0 } }
    | .start | .holdover => n
  else n

end Sys2Proof.Machine
end

