-- ==== Sys2Proof/Machine/ValueOps.lean ====
section
/-! DEFINITION. The value path (chapter 5): the walk of a DATA frame, curve evaluation, offers and last-data records. -/

namespace Sys2Proof.Machine

/-- Evaluation of a slot value through the 33 points of a bank, in the four steps of R91. -/
def evalCurve (p : Vector (BitVec 16) 33) (v : Nat) : BitVec 16 :=
  let u := v * 65536 / 65535
  let i := min 31 (u / 2048)
  let r := u - 2048 * i
  let lo : Int := (p.toList.getD i 0).toNat
  let hi : Int := (p.toList.getD (i + 1) 0).toNat
  BitVec.ofInt 16 (lo + ((hi - lo) * r).tdiv 2048)

/-- The slot value of a live entry that is present in the payload (R88, R89); none when it is absent. -/
def ExtEntry.slotValue (e : ExtEntry) (payload : List Byte) : Option Nat :=
  if e.wide then
    match payload[e.slot.toNat]?, payload[e.slot.toNat + 1]? with
    | some h, some l => some (word16 h l).toNat
    | _, _ => none
  else (payload[e.slot.toNat]?).map fun b => 257 * b.toNat

/-- The level of a present entry by its CURVE field (R90): curve 0..3 through its active bank, else the value itself. -/
def Tables.levelOf (t : Tables) (e : ExtEntry) (v : Nat) : BitVec 16 :=
  if h : e.curve.toNat < 4 then
    let c := t.curves[e.curve.toNat]
    evalCurve (c.points c.active) v
  else BitVec.ofNat 16 v

/-- The working levels of the sixteen channels (R93). -/
abbrev Working := Vector (Option (BitVec 16)) 16

/-- The working levels when the walk begins. -/
def Working.empty : Working := Vector.replicate 16 none

/-- One entry of the walk (R87 to R90, R93): a vacant or absent entry changes nothing; a present entry sets the working
level of every channel in its target set. -/
def Tables.walkEntry (t : Tables) (payload : List Byte) (w : Working) (e : ExtEntry) : Working :=
  if !e.valid then w
  else
    match e.slotValue payload with
    | none => w
    | some v => w.mapIdx fun c x => if e.targets.getLsbD c then some (t.levelOf e v) else x

/-- The walk of the extraction list, entry 0 to entry 31 (R87). -/
def Tables.walk (t : Tables) (payload : List Byte) : Working :=
  t.extraction.toList.foldl (t.walkEntry payload) .empty

/-- Last-data records filled for the channels offered a level (R95). -/
def fillLastData (value : Vector (Option LastData) 16) (seq : Byte) (w : Working) : Vector (Option LastData) 16 :=
  value.mapIdx fun c old =>
    match (w.toList[c]?).join with
    | some level => some { seq := seq, level := level }
    | none => old

/-- A DATA frame is applied (R85): walk, offers with origin DATA, last-data records. -/
def Node.applyData (n : Node) (seq : Byte) (payload : List Byte) : Node :=
  let w := n.tables.walk payload
  { n with
    out := n.out.offer n.sup.inFailsafe .data w
    value := fillLastData n.value seq w }

/-- A DATA frame handed to the value path (R85, R86): the supervision unit takes the signal first, and the frame is
applied unless the state is then FAILSAFE. -/
def Node.dataAccepted (n : Node) (seq : Byte) (payload : List Byte) : Node :=
  let m := n.qualifyingFrame true
  if m.sup.inFailsafe then m else m.applyData seq payload

end Sys2Proof.Machine
end

