-- ==== Sys2Proof/Machine/CommandOps.lean ====
section
/-! DEFINITION. The commands of the node, record by record (chapters 2 to 10): parameters in, status and result data out. -/

namespace Sys2Proof.Machine

/-- Status OK with result data. -/
def Reply.ok (data : List Byte) : Reply := { status := .ok, data := data }

/-- BAD_LENGTH carries no data (R44). -/
def Reply.badLength : Reply := { status := .badLength, data := [] }

/-- OUT_OF_RANGE with no data. -/
def Reply.outOfRange : Reply := { status := .outOfRange, data := [] }

/-! ## IDENTIFY and STATUS (chapter 3) -/

/-- The group set as reported: a count of members, then the members in ascending order (R39, R191). -/
def Forwarding.groupData (f : Forwarding) : List Byte := byteOf f.groups.length :: f.groups

/-- IDENTIFY's result data (R55). -/
def Node.identifyData (n : Node) : List Byte :=
  [0x0A, 0x16, 0x01] ++ bytes16 (sourceOf n.fwd.address) ++ [n.fwd.position] ++ n.fwd.groupData ++ [16, 4, 4, 32, 16]

/-- IDENTIFY (R55). -/
def cmdIdentify (p : List Byte) (n : Node) : Reply × Node :=
  match p with
  | [] => (.ok n.identifyData, n)
  | _ => (.badLength, n)

/-- Whether a lane is LOCKED (R6). -/
def LaneState.isLocked : LaneState → Bool
  | .locked _ => true
  | .silent _ => false

/-- STATUS's result data (R56, Table 12-9). -/
def Node.statusData (n : Node) : List Byte :=
  [n.sup.state.code, n.sched.time.code,
   flagByte n.link.uLane.isLocked ||| (if n.link.dLane.isLocked then 2 else 0),
   n.link.fwdTx.state.code ||| n.link.retTx.state.code <<< 2,
   flagByte n.tables.session.isOpen, n.tables.session.table.code, n.tables.session.reason.code,
   byteOf n.sched.queue.length, byteOf n.sense.log.length, n.stickyFlags]
  ++ n.counters.flatMap bytes16

/-- STATUS (R56, R58). -/
def cmdStatus (p : List Byte) (n : Node) : Reply × Node :=
  match p with
  | [] => (.ok n.statusData, n)
  | [c] =>
    if c = 0 then (.ok n.statusData, n)
    else if c = 1 then (.ok n.statusData, n.clearStatus)
    else (.outOfRange, n)
  | _ => (.badLength, n)

/-- RESET NODE as a record (R59): the scope it names is reset when the frame's execution ends. -/
def cmdResetNode (p : List Byte) : Reply × Option Scope :=
  match p with
  | [c] =>
    match Scope.ofCode c with
    | some scope => (.ok [c], some scope)
    | none => (.outOfRange, none)
  | _ => (.badLength, none)

/-! ## SET GROUPS (chapter 2) -/

/-- A chain group number takes its place in the ascending list. -/
def insertGroup (g : Byte) : List Byte → List Byte
  | [] => [g]
  | x :: xs => if g.toNat < x.toNat then g :: x :: xs else x :: insertGroup g xs

/-- The forwarding unit with another group set. -/
def Node.withGroups (n : Node) (gs : List Byte) : Node := { n with fwd := { n.fwd with groups := gs } }

/-- A SET GROUPS result: its status with the group set as it stands after the record (R39). -/
def groupsReply (status : Status) (n : Node) : Reply × Node := ({ status := status, data := n.fwd.groupData }, n)

/-- ADD (R40). -/
def addGroup (g : Byte) (n : Node) : Reply × Node :=
  if g = 0 then groupsReply .outOfRange n
  else if n.fwd.groups.contains g then groupsReply .ok n
  else if n.fwd.groups.length < Config.groupSetCapacity then groupsReply .ok (n.withGroups (insertGroup g n.fwd.groups))
  else groupsReply .full n

/-- REMOVE (R40). -/
def removeGroup (g : Byte) (n : Node) : Reply × Node :=
  if g = 0 then groupsReply .outOfRange n
  else if n.fwd.groups.contains g then groupsReply .ok (n.withGroups (n.fwd.groups.erase g))
  else groupsReply .notFound n

/-- SET GROUPS (R39, R40): an operation code other than the three gives OUT_OF_RANGE with length 1 or 2 alike; a length
that does not suit the operation gives BAD_LENGTH. -/
def cmdSetGroups (p : List Byte) (n : Node) : Reply × Node :=
  match p with
  | [] => groupsReply .ok n
  | [op] =>
    match op.toNat with
    | 0 => groupsReply .ok (n.withGroups [])
    | 1 | 2 => (.badLength, n)
    | _ => groupsReply .outOfRange n
  | [op, g] =>
    match op.toNat with
    | 0 => (.badLength, n)
    | 1 => addGroup g n
    | 2 => removeGroup g n
    | _ => groupsReply .outOfRange n
  | _ => (.badLength, n)

/-! ## Tables (chapter 4) -/

/-- TABLE OPEN's result data (R71), of the session opened and the one it superseded. -/
def openData (before after : Tables) : List Byte :=
  let x := before.session
  bankCode after.session.bank ::
    if x.isOpen then
      1 :: x.table.code :: bytes16 x.written ++ bytes16 x.wraps ++ [byteOf x.partialBytes.length]
    else [0, 0, 0, 0, 0, 0, 0]

/-- TABLE OPEN (R69 to R71). -/
def cmdTableOpen (p : List Byte) (n : Node) : Reply × Node :=
  match p with
  | [id, start, count] =>
    match TableId.ofCode id with
    | none => (.outOfRange, n)
    | some table =>
      if count.toNat = 0 || table.entries < start.toNat + count.toNat then (.outOfRange, n)
      else
        let t := n.tables.openSession table start.toNat count.toNat
        (.ok (openData n.tables t), { n with tables := t })
  | _ => (.badLength, n)

/-- TABLE DATA's result (R76). -/
def dataReply (r : DataRun) : Reply :=
  let x := r.tables.session
  match r.cause with
  | none => .ok [byteOf r.wrote, byteOf x.cursor, byteOf x.partialBytes.length, 0xFF, 0]
  | some cause =>
    { status := .badEntry
      data := [byteOf r.wrote, byteOf x.cursor, byteOf x.partialBytes.length, byteOf x.cursor, cause] }

/-- TABLE DATA (R72 to R76). -/
def cmdTableData (p : List Byte) (n : Node) : Reply × Node :=
  if p = [] then (.badLength, n)
  else if n.tables.session.isOpen then
    let r := n.tables.takeData p
    (dataReply r, { n with tables := r.tables })
  else ({ status := .noSession, data := [] }, n)

/-- The summary that TABLE CLOSE reports (R78). -/
def Session.summary (x : Session) : List Byte :=
  x.table.code :: bytes16 x.written ++ bytes16 x.wraps ++ [byteOf x.discarded, flagByte x.swapped, x.reason.code]

/-- The open session closes by TABLE CLOSE, with the SWAP bit applied (R77): the tables after, and the status. -/
def Tables.closeSession (t : Tables) (swap : Bool) : Status × Tables :=
  let x := t.session.close .closed
  match swap, t.session.table with
  | true, .curve c => (.ok, { t.flip c with session := { x with swapped := true } })
  | true, .extraction | true, .failsafe => (.outOfRange, { t with session := x })
  | false, _ => (.ok, { t with session := x })

/-- TABLE CLOSE (R77, R78). -/
def cmdTableClose (p : List Byte) (n : Node) : Reply × Node :=
  match p with
  | [c] =>
    if n.tables.session.isOpen then
      let r := n.tables.closeSession (c.getLsbD 0)
      ({ status := r.1, data := r.2.session.summary }, { n with tables := r.2 })
    else ({ status := .noSession, data := n.tables.session.summary }, n)
  | _ => (.badLength, n)

/-- TABLE READ (R83). -/
def cmdTableRead (p : List Byte) (n : Node) : Reply × Node :=
  match p with
  | [id, sel, start, count] =>
    match TableId.ofCode id with
    | none => (.outOfRange, n)
    | some table =>
      if 1 < sel.toNat || count.toNat = 0 || table.entries < start.toNat + count.toNat then (.outOfRange, n)
      else
        let bank := n.tables.selectedBank table (sel.toNat = 1)
        (.ok ((List.range count.toNat).flatMap fun i => n.tables.entryBytes table bank (start.toNat + i)), n)
  | _ => (.badLength, n)

/-- Whether the open session is on a curve that a curve set names (R84). -/
def Tables.busyWith (t : Tables) (set : BitVec 4) : Bool :=
  t.session.isOpen &&
    match t.session.table with
    | .curve c => set.getLsbD c.val
    | .extraction | .failsafe => false

/-- BANK SWAP (R84). -/
def cmdBankSwap (p : List Byte) (n : Node) : Reply × Node :=
  match p with
  | [c] =>
    if 15 < c.toNat then ({ status := .outOfRange, data := [n.tables.markers] }, n)
    else if n.tables.busyWith (c.extractLsb' 0 4) then ({ status := .sessionBusy, data := [n.tables.markers] }, n)
    else
      let t := (groupsNamed (c.extractLsb' 0 4)).foldl Tables.flip n.tables
      (.ok [t.markers], { n with tables := t })
  | _ => (.badLength, n)

/-! ## Time and cues (chapter 6) -/

/-- The three time settings as reported (R110). -/
def Schedule.settingsData (c : Schedule) : List Byte := bytes16 c.lineDelay ++ bytes16 c.threshold ++ [c.late.code]

/-- CONFIGURE TIME (R110). -/
def cmdConfigureTime (p : List Byte) (n : Node) : Reply × Node :=
  match p with
  | [] => (.ok n.sched.settingsData, n)
  | [d1, d0, j1, j0, l] =>
    match LatePolicy.ofCode l with
    | none => ({ status := .outOfRange, data := n.sched.settingsData }, n)
    | some late =>
      if word16 j1 j0 = 0 then ({ status := .outOfRange, data := n.sched.settingsData }, n)
      else
        let c := { n.sched with lineDelay := word16 d1 d0, threshold := word16 j1 j0, late := late }
        (.ok c.settingsData, { n with sched := c })
  | _ => (.badLength, n)

/-- CUE CANCEL (R119). -/
def cmdCueCancel (p : List Byte) (n : Node) : Reply × Node :=
  match p with
  | [tag] =>
    if tag = 0 then (.outOfRange, n)
    else
      let kept := n.sched.queue.filter fun e => e.tag ≠ tag
      (.ok [byteOf (n.sched.queue.length - kept.length), byteOf kept.length],
       { n with sched := { n.sched with queue := kept } })
  | _ => (.badLength, n)

/-- CUE FLUSH (R120). -/
def cmdCueFlush (p : List Byte) (n : Node) : Reply × Node :=
  match p with
  | [] => (.ok [byteOf n.sched.queue.length], { n with sched := { n.sched with queue := [] } })
  | _ => (.badLength, n)

/-- CUE LIST (R121). -/
def cmdCueList (p : List Byte) (n : Node) : Reply × Node :=
  match p with
  | [start, count] =>
    if 31 < start.toNat || count.toNat = 0 || 16 < count.toNat then (.outOfRange, n)
    else
      let es := (n.sched.queue.drop start.toNat).take count.toNat
      (.ok (n.sched.time.code :: bytes32 n.sched.tick ++ [byteOf n.sched.queue.length, byteOf es.length]
        ++ es.flatMap CueEntry.bytes), n)
  | _ => (.badLength, n)

/-! ## Output groups and channels (chapter 7) -/

/-- Five settings in the order of CONFIGURE GROUP's parameters, 7 bytes (R126). -/
def settingsBytes (mode : Mode) (st : GroupSettings) : List Byte :=
  st.prescale.setWidth 8 :: bytes16 st.period ++ [mode.code] ++ bytes16 st.delay ++ [st.retrigger.code]

/-- CONFIGURE GROUP's result data: the group number, five active and five staged settings, 15 bytes (R126). -/
def Output.groupData (o : Output) (g : Fin 4) : List Byte :=
  let x := o.groups[g]
  byteOf g.val :: settingsBytes x.mode x.active ++ settingsBytes x.mode x.staged

/-- Whether a period length is greater than the staged offset of every member channel (R126, R127). -/
def Output.periodFits (o : Output) (g : Fin 4) (period : BitVec 16) : Bool :=
  o.chans.toList.all fun ch => ch.group ≠ g || ch.stagedOffset.toNat < period.toNat

/-- The five settings are written (R125): staged and active alike in IDLE, staged only in any other state. -/
def Group.configure (x : Group) (mode : Mode) (st : GroupSettings) : Group :=
  if x.state = .idle then { x with mode := mode, active := st, staged := st } else { x with mode := mode, staged := st }

/-- A group number in a parameter byte (R126): above 3 is out of range. -/
def groupNumber (b : Byte) : Option (Fin 4) := if h : b.toNat < 4 then some ⟨b.toNat, h⟩ else none

/-- A channel number in a parameter byte (R136): above 15 is out of range. -/
def channelNumber (b : Byte) : Option (Fin 16) := if h : b.toNat < 16 then some ⟨b.toNat, h⟩ else none

/-- CONFIGURE GROUP with settings, for a group in range (R126). -/
def configureGroup (g : Fin 4) (k n1 n0 m d1 d0 r : Byte) (n : Node) : Reply × Node :=
  let refuse (st : Status) : Reply × Node := ({ status := st, data := n.out.groupData g }, n)
  match Mode.ofCode m, Retrigger.ofCode r with
  | some mode, some retrigger =>
    if 12 < k.toNat || (word16 n1 n0).toNat < 2 || !n.out.periodFits g (word16 n1 n0) then refuse .outOfRange
    else if mode ≠ n.out.groups[g].mode && n.out.groups[g].state ≠ .idle then refuse .wrongState
    else
      let st := { prescale := k.extractLsb' 0 4, period := word16 n1 n0, delay := word16 d1 d0, retrigger := retrigger }
      let o := n.out.withGroup g (n.out.groups[g].configure mode st)
      (.ok (o.groupData g), { n with out := o })
  | _, _ => refuse .outOfRange

/-- CONFIGURE GROUP (R126). -/
def cmdConfigureGroup (p : List Byte) (n : Node) : Reply × Node :=
  match p with
  | [b] =>
    match groupNumber b with
    | some g => (.ok (n.out.groupData g), n)
    | none => (.outOfRange, n)
  | [b, k, n1, n0, m, d1, d0, r] =>
    match groupNumber b with
    | some g => configureGroup g k n1 n0 m d1 d0 r n
    | none => (.outOfRange, n)
  | _ => (.badLength, n)

/-- The state of a group with its start-pending mark in bit 7 (R130, Table 12-10). -/
def Group.stateByte (x : Group) : Byte := x.state.code ||| (if x.mark then 0x80 else 0)

/-- The four group states (R130). -/
def Output.statesData (o : Output) : List Byte := allGroups.map fun g => o.groups[g].stateByte

/-- START, STOP and FIRE GROUPS (R130): every named group is tested first; only if all pass does each take `act`. -/
def groupCommand (p : List Byte) (passes : GroupState → Bool) (act : Output → Fin 4 → Output) (n : Node) : Reply × Node :=
  match p with
  | [b] =>
    if 15 < b.toNat then ({ status := .outOfRange, data := n.out.statesData }, n)
    else
      let gs := groupsNamed (b.extractLsb' 0 4)
      if gs.all fun g => passes n.out.groups[g].state then
        (.ok (gs.foldl act n.out).statesData, { n with out := gs.foldl act n.out })
      else ({ status := .wrongState, data := n.out.statesData }, n)
  | _ => (.badLength, n)

/-- START GROUPS (R130): every named group must be IDLE. -/
def cmdStartGroups (p : List Byte) (n : Node) : Reply × Node := groupCommand p (fun st => st = .idle) Output.markStart n

/-- STOP GROUPS (R130): it passes in every state. -/
def cmdStopGroups (p : List Byte) (n : Node) : Reply × Node := groupCommand p (fun _ => true) Output.stop n

/-- FIRE GROUPS (R130): every named group must be in ARMED, DELAY or PULSE. -/
def cmdFireGroups (p : List Byte) (n : Node) : Reply × Node :=
  groupCommand p (fun st => st = .armed || st = .delay || st = .pulse) Output.trigger n

/-- The control byte of a channel: bit 0 ENABLE, bit 1 ACTIVE-LOW (R136). -/
def Channel.control (ch : Channel) : Byte := flagByte ch.enable ||| (if ch.activeLow then 2 else 0)

/-- CONFIGURE CHANNEL's result data, 7 bytes (R136). -/
def Output.channelData (o : Output) (c : Fin 16) : List Byte :=
  let ch := o.chans[c]
  [byteOf c.val, byteOf ch.group.val, ch.control] ++ bytes16 ch.stagedOffset ++ bytes16 ch.activeOffset

/-- A channel's settings are written (R136 to R138): a move drops the compare to 0; the offset is staged, and active at
once if the channel's group, after any move, is IDLE; after a move to a group not IDLE the active offset is 0. -/
def Channel.configure (ch : Channel) (g : Fin 4) (groupIdle enable activeLow : Bool) (offset : BitVec 16) : Channel :=
  { ch with
    group := g
    enable := enable
    activeLow := activeLow
    stagedOffset := offset
    activeOffset := if groupIdle then offset else if ch.group = g then ch.activeOffset else 0
    compare := if ch.group = g then ch.compare else 0 }

/-- CONFIGURE CHANNEL with settings, for a channel in range (R136). -/
def configureChannel (c : Fin 16) (g ctl o1 o0 : Byte) (n : Node) : Reply × Node :=
  match groupNumber g with
  | none => ({ status := .outOfRange, data := n.out.channelData c }, n)
  | some grp =>
    let x := n.out.groups[grp]
    if 3 < ctl.toNat || x.staged.period.toNat ≤ (word16 o1 o0).toNat then
      ({ status := .outOfRange, data := n.out.channelData c }, n)
    else
      let o := n.out.withChannel c
        (n.out.chans[c].configure grp (x.state = .idle) (ctl.getLsbD 0) (ctl.getLsbD 1) (word16 o1 o0))
      (.ok (o.channelData c), { n with out := o })

/-- CONFIGURE CHANNEL (R136). -/
def cmdConfigureChannel (p : List Byte) (n : Node) : Reply × Node :=
  match p with
  | [b] =>
    match channelNumber b with
    | some c => (.ok (n.out.channelData c), n)
    | none => (.outOfRange, n)
  | [b, g, ctl, o1, o0] =>
    match channelNumber b with
    | some c => configureChannel c g ctl o1 o0 n
    | none => (.outOfRange, n)
  | _ => (.badLength, n)

/-- GROUP STATE's result data, 21 bytes (R144). -/
def Output.groupStateData (o : Output) (g : Fin 4) : List Byte :=
  let x := o.groups[g]
  [x.state.code, flagByte x.mark] ++ settingsBytes x.mode x.active ++ settingsBytes x.mode x.staged ++ bytes16 x.count
    ++ [x.missed] ++ bytes16 (o.members g)

/-- GROUP STATE (R144). -/
def cmdGroupState (p : List Byte) (n : Node) : Reply × Node :=
  match p with
  | [b] =>
    match groupNumber b with
    | some g => (.ok (n.out.groupStateData g), n)
    | none => (.outOfRange, n)
  | _ => (.badLength, n)

/-- A last-data record as reported: present marker, sequence, level; 0 when empty (R145). -/
def lastDataBytes : Option LastData → List Byte
  | some d => [1, d.seq] ++ bytes16 d.level
  | none => [0, 0, 0, 0]

/-- CHANNEL STATE's result data, 15 bytes (R145). -/
def Node.channelStateData (n : Node) (c : Fin 16) : List Byte :=
  let ch := n.out.chans[c]
  [byteOf ch.group.val] ++ bytes16 ch.stagedLevel ++ [flagByte ch.pendingFlag, ch.origin.code] ++ bytes16 ch.lastActive
    ++ bytes16 ch.compare ++ bytes16 ch.activeOffset ++ lastDataBytes n.value[c]

/-- CHANNEL STATE (R145). -/
def cmdChannelState (p : List Byte) (n : Node) : Reply × Node :=
  match p with
  | [b] =>
    match channelNumber b with
    | some c => (.ok (n.channelStateData c), n)
    | none => (.outOfRange, n)
  | _ => (.badLength, n)

/-! ## Sense inputs (chapter 8) -/

/-- CONFIGURE SENSE's result data: the input number and the six settings, 8 bytes (R149). -/
def Sense.settingsData (c : Sense) (i : Fin 4) : List Byte :=
  let st := c.inputs[i].settings
  [byteOf i.val, st.mode.code, st.edge.code, st.prescale.setWidth 8, st.filter.setWidth 8, st.triggers.setWidth 8]
    ++ bytes16 st.lockout

/-- CONFIGURE SENSE with settings, for an input in range: the settings are written and the input restarts (R149, R151). -/
def configureSense (i : Fin 4) (m e k f t l1 l0 : Byte) (n : Node) : Reply × Node :=
  match SenseMode.ofCode m, EdgeSelect.ofCode e with
  | some mode, some edge =>
    if 3 < k.toNat || 15 < f.toNat || 15 < t.toNat then
      ({ status := .outOfRange, data := n.sense.settingsData i }, n)
    else
      let st : SenseSettings :=
        { mode := mode, edge := edge, prescale := k.extractLsb' 0 2, filter := f.extractLsb' 0 4,
          triggers := t.extractLsb' 0 4, lockout := word16 l1 l0 }
      let c := { n.sense with inputs := n.sense.inputs.set i (.restarted st mode.startingPhase) }
      (.ok (c.settingsData i), { n with sense := c })
  | _, _ => ({ status := .outOfRange, data := n.sense.settingsData i }, n)

/-- CONFIGURE SENSE (R149). -/
def cmdConfigureSense (p : List Byte) (n : Node) : Reply × Node :=
  match p with
  | [b] =>
    match groupNumber b with
    | some i => (.ok (n.sense.settingsData i), n)
    | none => (.outOfRange, n)
  | [b, m, e, k, f, t, l1, l0] =>
    match groupNumber b with
    | some i => configureSense i m e k f t l1 l0 n
    | none => (.outOfRange, n)
  | _ => (.badLength, n)

/-- SENSE READ (R159): up to the maximum count of the oldest entries leave the log and are returned. -/
def cmdSenseRead (p : List Byte) (n : Node) : Reply × Node :=
  match p with
  | [m] =>
    if m.toNat = 0 || 8 < m.toNat then (.outOfRange, n)
    else
      let es := n.sense.log.take m.toNat
      let rest := n.sense.log.drop m.toNat
      (.ok ([byteOf rest.length, byteOf es.length] ++ (n.sense.inputs.toList.map fun x => x.phase.code)
        ++ es.flatMap LogEntry.bytes), { n with sense := { n.sense with log := rest } })
  | _ => (.badLength, n)

/-! ## Notices and supervision (chapters 9 and 10) -/

/-- CONFIGURE NOTICES (R166). -/
def cmdConfigureNotices (p : List Byte) (n : Node) : Reply × Node :=
  match p with
  | [] => (.ok [n.ret.enable.setWidth 8], n)
  | [c] =>
    if 7 < c.toNat then ({ status := .outOfRange, data := [n.ret.enable.setWidth 8] }, n)
    else (.ok [c], { n with ret := { n.ret with enable := c.extractLsb' 0 3 } })
  | _ => (.badLength, n)

/-- The four supervision settings as reported (R178). -/
def Supervision.settingsData (u : Supervision) : List Byte :=
  bytes16 u.window ++ bytes16 u.holdover ++ [flagByte u.failsafeOn, u.k.setWidth 8]

/-- The settings of CONFIGURE SUPERVISION are written (R178); in HOLDOVER with the holdover timer stopped and failsafe
left enabled, the holdover timer starts from zero (R182). -/
def Supervision.configure (u : Supervision) (window holdover : BitVec 16) (failsafeOn : Bool) (k : BitVec 4) : Supervision :=
  { u with
    window := window
    holdover := holdover
    failsafeOn := failsafeOn
    k := k
    holdTimer := if u.state = .holdover && u.holdTimer = none && failsafeOn then timerFor holdover else u.holdTimer }

/-- CONFIGURE SUPERVISION (R178, R182). -/
def cmdConfigureSupervision (p : List Byte) (n : Node) : Reply × Node :=
  match p with
  | [] => (.ok n.sup.settingsData, n)
  | [w1, w0, h1, h0, e, k] =>
    let w := word16 w1 w0
    let h := word16 h1 h0
    if w.toNat = 0 || 1000 < w.toNat || 60000 < h.toNat || 1 < e.toNat || 15 < k.toNat then
      ({ status := .outOfRange, data := n.sup.settingsData }, n)
    else
      let u := n.sup.configure w h (e.toNat = 1) (k.extractLsb' 0 4)
      (.ok u.settingsData, { n with sup := u })
  | _ => (.badLength, n)

/-- RECOVER (R185): its data is the state after the record and the recovery count before it. -/
def cmdRecover (p : List Byte) (n : Node) : Reply × Node :=
  match p with
  | [] =>
    if n.sup.inFailsafe then
      (.ok [SupState.normal.code, n.sup.recovery.setWidth 8],
       { n with sup := { n.sup.startWindow with state := .normal, recovery := 0 } }.supNotices
         [{ before := .failsafe, after := .normal }])
    else ({ status := .wrongState, data := [n.sup.state.code, n.sup.recovery.setWidth 8] }, n)
  | _ => (.badLength, n)

/-! ## One record by its command -/

/-- The execution of a record: its reply, the node after it, and the scope of a RESET NODE that takes effect when the
frame's execution ends (R44, R59). -/
structure Executed where
  reply : Reply
  node : Node
  reset : Option Scope
  deriving DecidableEq, Repr

/-- A command other than RESET NODE leaves no reset behind. -/
def Executed.of (r : Reply × Node) : Executed := { reply := r.1, node := r.2, reset := none }

/-- A command record is executed (R44), by the command its opcode names. -/
def runCommand (c : Command) (p : List Byte) (n : Node) : Executed :=
  match c with
  | .identify => .of (cmdIdentify p n)
  | .status => .of (cmdStatus p n)
  | .resetNode => { reply := (cmdResetNode p).1, node := n, reset := (cmdResetNode p).2 }
  | .setGroups => .of (cmdSetGroups p n)
  | .tableOpen => .of (cmdTableOpen p n)
  | .tableData => .of (cmdTableData p n)
  | .tableClose => .of (cmdTableClose p n)
  | .tableRead => .of (cmdTableRead p n)
  | .bankSwap => .of (cmdBankSwap p n)
  | .configureTime => .of (cmdConfigureTime p n)
  | .cueCancel => .of (cmdCueCancel p n)
  | .cueFlush => .of (cmdCueFlush p n)
  | .cueList => .of (cmdCueList p n)
  | .configureGroup => .of (cmdConfigureGroup p n)
  | .startGroups => .of (cmdStartGroups p n)
  | .stopGroups => .of (cmdStopGroups p n)
  | .fireGroups => .of (cmdFireGroups p n)
  | .configureChannel => .of (cmdConfigureChannel p n)
  | .groupState => .of (cmdGroupState p n)
  | .channelState => .of (cmdChannelState p n)
  | .configureSense => .of (cmdConfigureSense p n)
  | .senseRead => .of (cmdSenseRead p n)
  | .configureNotices => .of (cmdConfigureNotices p n)
  | .configureSupervision => .of (cmdConfigureSupervision p n)
  | .recover => .of (cmdRecover p n)

end Sys2Proof.Machine
end

