-- ==== Sys2Proof/Machine/ManageOps.lean ====
section
/-! DEFINITION. MANAGE frames (chapter 3): parsing into records, room and truncation, refusal, replay, the response. -/

namespace Sys2Proof.Machine

/-- A MANAGE frame in execution (R42 to R48): the node as the records so far have left it, the result records placed, how
many there are, whether the frame is tripped, whether the response is TRUNCATED, and the reset that takes effect at the
end. -/
structure Run where
  node : Node
  out : List Byte
  count : Nat
  tripped : Bool
  truncated : Bool
  reset : Option Scope
  deriving DecidableEq, Repr

/-- The run of a frame before its first record. -/
def Run.start (n : Node) : Run := { node := n, out := [], count := 0, tripped := false, truncated := false, reset := none }

/-- A result record is reported (R46); in a frame with STOP-ON-ERROR a status other than OK trips the frame (R43). -/
def Run.report (r : Run) (stopOnError : Bool) (rec : ResultRecord) : Run :=
  { r with
    out := r.out ++ rec.bytes
    count := r.count + 1
    tripped := r.tripped || (stopOnError && rec.status ≠ .ok) }

/-- The room of a response (R47). -/
def Run.room (r : Run) : Nat := Config.responseRoom - r.out.length

/-- A whole record, not truncated, is skipped, refused for room, unknown, or executed (R43, R44, R47). A RESET NODE that
is executed with status OK trips the frame (R59). -/
def Run.record (r : Run) (answered stopOnError : Bool) (op : Byte) (p : List Byte) : Run :=
  if r.tripped then r.report stopOnError { opcode := op, status := .skipped, data := [] }
  else if answered && r.room < allowanceOf op then r.report stopOnError { opcode := op, status := .noRoom, data := [] }
  else
    match Command.ofOpcode op with
    | none => r.report stopOnError { opcode := op, status := .unknownCommand, data := [] }
    | some c =>
      let x := runCommand c p r.node
      let after := { r with node := x.node }.report stopOnError { opcode := op, status := x.reply.status, data := x.reply.data }
      { after with reset := x.reset, tripped := after.tripped || x.reset.isSome }

/-- The records of a payload are taken from its first byte, one after another (R41). A record that runs past the payload
gets BAD_LENGTH and ends parsing; in an answered frame room below 3 bytes truncates the response (R48). `fuel` is at
least the number of records. -/
def Run.records (answered stopOnError : Bool) : Nat → List Byte → Run → Run
  | 0, _, r => r
  | _ + 1, [], r => r
  | fuel + 1, op :: tail, r =>
    if answered && r.room < 3 then { r with truncated := true }
    else
      match tail with
      | [] => r.report stopOnError { opcode := op, status := .badLength, data := [] }
      | len :: rest =>
        if rest.length < len.toNat then r.report stopOnError { opcode := op, status := .badLength, data := [] }
        else
          Run.records answered stopOnError fuel (rest.drop len.toNat)
            (r.record answered stopOnError op (rest.take len.toNat))

/-- Every record of a payload, from its first byte (R41, R42). -/
def runFrame (n : Node) (answered stopOnError : Bool) (payload : List Byte) : Run :=
  Run.records answered stopOnError payload.length payload (.start n)

/-- The reset of a frame takes effect when its execution has ended (R59). -/
def Node.applyReset (n : Node) : Option Scope → Node
  | none => n
  | some scope => n.softReset scope

/-- The response to an answered frame (R46): source the node address held while the records run. -/
def responseFrame (address : BitVec 10) (seq : Byte) (r : Run) : RetFrame :=
  { kind := 0x81, flags := flagByte r.truncated, source := sourceOf address, seq := seq, count := byteOf r.count,
    payload := r.out }

/-- The entry the command unit takes at acceptance is filled with the response (R50). -/
def ReturnUnit.fillEntry (r : ReturnUnit) (at_ : Nat) (f : RetFrame) : ReturnUnit :=
  { r with localQ := r.localQ.set at_ { frame := f, sending := false } }

/-- The placeholder that stands in the command unit's entry while the records run (R50). -/
def reserved : RetFrame := { kind := 0x81, flags := 0, source := 0, seq := 0, count := 0, payload := [] }

/-- An answered frame is executed (R49 to R51): the entry is taken first, so that notices of its records stand behind the
response; the response is queued and, for a nonzero sequence, cached; then any reset takes effect (R52, R59). -/
def Node.executeAnswered (n : Node) (stopOnError : Bool) (seq : Byte) (payload : List Byte) : Node :=
  let r := runFrame { n with ret := n.ret.enqueue reserved } true stopOnError payload
  let f := responseFrame n.fwd.address seq r
  let m := { r.node with ret := r.node.ret.fillEntry n.ret.localQ.length f }
  let cached := if seq = 0 then m else { m with cmd := { m.cmd with lastSeq := some seq, cache := some f } }
  cached.applyReset r.reset

/-- A busy refusal: nothing is executed or queued, and busy refusals is raised (R49, R53). -/
def Node.busyRefusal (n : Node) : Node := { n with cmd := { n.cmd with busy := raiseCounter n.cmd.busy } }

/-- An answered MANAGE frame at its acceptance: busy refusal, replay or execution (R49). -/
def Node.answer (n : Node) (stopOnError : Bool) (seq : Byte) (payload : List Byte) : Node :=
  if !n.ret.hasFree then n.busyRefusal
  else
    match n.cmd.cache with
    | some f =>
      if seq ≠ 0 && n.cmd.lastSeq = some seq then { n with ret := n.ret.enqueue f }
      else n.executeAnswered stopOnError seq payload
    | none => n.executeAnswered stopOnError seq payload

/-- An unanswered MANAGE frame: the records run with no response, room test or truncation, and the cache and last
sequence are not consulted (R45). -/
def Node.executeUnanswered (n : Node) (stopOnError : Bool) (payload : List Byte) : Node :=
  let r := runFrame n false stopOnError payload
  r.node.applyReset r.reset

/-- A MANAGE frame handed to the command unit (R42, R45): answered when its destination mode is NODE. -/
def Node.manage (n : Node) (h : FwdHeader) (payload : List Byte) : Node :=
  if destMode h.dest = .node then n.answer (h.flags.getLsbD 0) h.seq payload
  else n.executeUnanswered (h.flags.getLsbD 0) payload

/-- One command record executed on its own (log entry 7): as the only record of an unanswered frame, with its result
record shown. -/
def Node.runRecord (n : Node) (c : Command) (p : List Byte) : Node :=
  let x := runCommand c p n
  { x.node.applyReset x.reset with
    shown := some { opcode := c.opcode, status := x.reply.status, data := x.reply.data } }

end Sys2Proof.Machine
end

