-- ==== Sys2Proof/Machine/FrameOps.lean ====
section
/-! DEFINITION. The end of a frame on the U forward lane (chapters 1 and 2): check error, abort, acceptance by kind. -/

namespace Sys2Proof.Machine

/-- The reception record of the U forward lane returns to OUTSIDE (R8, R27). -/
def Node.endURecord (n : Node) : Node := { n with link := { n.link with uRec := .outside, passage := .outside } }

/-- A frame in reception on the U forward lane is aborted (R11): its copy is closed with EOA (R15), the record is OUTSIDE,
forward aborts received is raised. -/
def Node.abortU (n : Node) : Node :=
  let m := (n.endCopy .eoa).endURecord
  { m with fwd := { m.fwd with aborts := raiseCounter m.fwd.aborts } }

/-- A frame on the U forward lane is a check error (R10): its copy is closed with EOA, forward check errors is raised. -/
def Node.checkErrorU (n : Node) : Node :=
  let m := (n.endCopy .eoa).endURecord
  { m with fwd := { m.fwd with checkErrors := raiseCounter m.fwd.checkErrors } }

/-! ## Enumeration (R33 to R37) -/

/-- The enumeration decision (Table 2-3). -/
def enumDecide (next : BitVec 16) (note : EnumNote) : EnumDecision :=
  if 1 ≤ next.toNat && next.toNat ≤ 1023 then
    if note.fill && note.address ≠ 0 then { take := none, next := next, overrun := false }
    else { take := some (next.setWidth 10), next := next + 1, overrun := false }
  else { take := none, next := next, overrun := true }

/-- The node address is set, with the change-of-address signal that empties the response cache (R32, R36, R52). -/
def Node.setAddress (n : Node) (a : BitVec 10) : Node :=
  if a = n.fwd.address then n
  else { n with fwd := { n.fwd with address := a }, cmd := { n.cmd with cache := none } }

/-- The acceptance of an enumerating frame (R36, R37). -/
def Node.enumerated (n : Node) (next : BitVec 16) (note : EnumNote) : Node :=
  let d := enumDecide next note
  let m := match d.take with
    | some a => n.setAddress a
    | none => n
  if d.overrun then { m with fwd := { m.fwd with enumOverrun := true } } else m

/-! ## SYNC and CUE (chapter 6) -/

/-- Cues act on the output engine, in order (R115, R117, R118). -/
def Node.runCues (n : Node) (es : List CueEntry) : Node := { n with out := n.out.runCues n.sup.inFailsafe es }

/-- The schedule unit's part in a SYNC acceptance, but for the signal at its end (R103 to R107). `t` is the new local time.
-/
def Node.syncSchedule (n : Node) (t : BitVec 40) : Node :=
  let r := n.sched.sync t
  let m := ({ n with sched := r.2 } : Node).runCues r.1.acting
  match r.1.jump with
  | some step => { m with ret := m.ret.timeNotice m.fwd.address step }
  | none => m

/-- Whether the supervision unit's part of a SYNC acceptance would hand over a notice that is generated (R180, R187). -/
def Node.syncRaisesNotice (n : Node) : Bool :=
  n.ret.generates n.fwd.address .supervision && (n.sup.state = .start || n.sup.state = .holdover)

/-- The supervision unit's part in a SYNC acceptance, and the schedule unit's with the sense unit's report at its end (R107,
R160). R177 does not order the supervision unit's part: where it hands over a notice, its place before, between or after
the other two is a free value (log entry 8); elsewhere the three places give one result. -/
def Node.syncParts (n : Node) (t : BitVec 40) : Node :=
  if n.syncRaisesNotice then
    let m := { n with choice := n.choice + 1 }
    match Config.syncSupervisionPlace n.choice with
    | .beforeSchedule => ((m.qualifyingFrame false).syncSchedule t).reportOnSync
    | .beforeReport => ((m.syncSchedule t).qualifyingFrame false).reportOnSync
    | .afterReport => (m.syncSchedule t).reportOnSync.qualifyingFrame false
  else ((n.qualifyingFrame false).syncSchedule t).reportOnSync

/-- An accepted SYNC of length 5 (R19, R24, R103): it becomes the held SYNC, and its time field plus the time since its
SOF is the new local time. -/
def Node.syncAccepted (n : Node) (h : FwdHeader) (field : BitVec 40) (check : BitVec 16) (elapsed : Nat) : Node :=
  (n.holdSync { hdr := h.passedOn, time := field, check := check }).syncParts (field + BitVec.ofNat 40 elapsed)

/-- A CUE frame handed to the schedule unit (R111, R112). -/
def Node.cueAccepted (n : Node) (payload : List Byte) : Node :=
  let r := n.sched.judgeAll n.fwd (parseCues payload.length payload)
  ({ n with sched := r.2 } : Node).runCues r.1

/-! ## Acceptance (R10, R24, R30) -/

/-- The match result of a frame (R27): the one noted at its header, or the test's result now when none was noted. -/
def Node.matchOf (n : Node) (h : FwdHeader) : Bool := n.link.passage.matched.getD (n.fwd.matchesDest h.dest)

/-- What was fixed at the header of an enumerating frame (R33), or stands now when nothing was noted. -/
def Node.noteOf (n : Node) (h : FwdHeader) : EnumNote :=
  n.link.passage.enumNote.getD { fill := h.flags.getLsbD 0, address := n.fwd.address }

/-- The position is the hop as received (R30). -/
def Node.setPosition (n : Node) (hop : Byte) : Node := { n with fwd := { n.fwd with position := hop } }

/-- The hand-off of an accepted frame by kind, length and match result (R24, R25). -/
def Node.handOff (n : Node) (h : FwdHeader) (payload : List Byte) (check : BitVec 16) (elapsed : Nat) (isMatch : Bool)
    (note : EnumNote) : Node :=
  if h.kind = kindData then if isMatch then n.dataAccepted h.seq payload else n
  else if h.kind = kindSync then
    match payload with
    | [a, b, c, d, e] => n.syncAccepted h (word40 a b c d e) check elapsed
    | _ => n
  else if h.kind = kindManage then if isMatch then n.manage h payload else n
  else if h.kind = kindCue then n.cueAccepted payload
  else if h.kind = kindEnumerate then
    match payload with
    | [a, b] => if isMatch then n.enumerated (word16 a b) note else n
    | _ => n
  else n

/-- A frame on the U forward lane is accepted (R10): EOF ends its open copy (R15), the record is OUTSIDE, the position is
set (R30), and the frame is handed to the block of its kind (R24). That the position is set before the hand-off, so that an
IDENTIFY in the frame reports the frame's own hop, is the model's choice (DESIGN CHOICE, log entry 31). -/
def Node.acceptU (n : Node) (h : FwdHeader) (payload : List Byte) (check : BitVec 16) (elapsed : Nat) : Node :=
  (((n.endCopy .eof).endURecord).setPosition h.hop).handOff h payload check elapsed (n.matchOf h) (n.noteOf h)

/-- The EOF of a frame with every byte its length field asks for (R10): a length over 1024 has aborted it at its header
(R11); a wrong check value is a check error; else it is accepted. -/
def Node.frameEnd (n : Node) (h : FwdHeader) (payload : List Byte) (check : BitVec 16) (elapsed : Nat) : Node :=
  if Config.maxPayload < payload.length then n.abortU
  else if check ≠ checkValue (h.bytes ++ payload) then n.checkErrorU
  else n.acceptU h payload check elapsed

end Sys2Proof.Machine
end

