-- ==== Sys2Proof/Machine/RxOps.lean ====
section
/-! DEFINITION. The receiving lanes (chapter 1): receive machine, reception record, disposition, forward copy, silence. -/

namespace Sys2Proof.Machine

/-! ## The reception record (R8, R9) -/

/-- The record an SOF opens (R9): HEADER, no header bytes, count 0, a fresh check value, arrival noted. Its other
fields are those of a record OUTSIDE (DESIGN CHOICE, log entry 29). -/
def Reception.opened : Reception := { Reception.outside with phase := .header }

/-- A header byte is appended and enters the check (R9). -/
def Reception.takeHeader (r : Reception) (b : Byte) : Reception := { r with hdr := r.hdr ++ [b], check := checkByte r.check b }

/-- A payload byte is counted and enters the check (R9). -/
def Reception.takePayload (r : Reception) (b : Byte) : Reception := { r with count := r.count + 1, check := checkByte r.check b }

/-- A byte of the received check value is counted (R9). -/
def Reception.takeCheck (r : Reception) (b : Byte) : Reception :=
  { r with count := r.count + 1, received := (r.received <<< 8) ||| b.setWidth 16 }

/-- The length field of the frame in reception. -/
def Reception.length (r : Reception) : Nat := lengthField r.hdr

/-- Whether exactly length + 2 bytes have arrived after the header (R10). -/
def Reception.complete (r : Reception) : Bool := r.phase = .body && r.count = r.length + 2

/-! ## The header's end on the U forward lane (R13, R27, R29, R33) -/

/-- Whether the destination of a kind is tested at the header (R27). -/
def destinationConsulted (kind : Byte) : Bool := kind = kindData || kind = kindManage || kind = kindEnumerate

/-- The disposition of a frame (R13, R25, R29). -/
def dispositionOf (h : FwdHeader) (isMatch : Bool) : Disposition :=
  if h.kind = kindManage && destMode h.dest = .node && isMatch then .absorb
  else if h.kind = kindSync && h.length.toNat = 5 then .hold
  else .pass

/-- Whether an ENUMERATE frame is enumerating at this node (R33). -/
def isEnumerating (h : FwdHeader) (isMatch : Bool) : Bool := h.kind = kindEnumerate && h.length.toNat = 2 && isMatch

/-- What the forwarding unit notes at the header's end (R13, R27, R33). -/
def Node.noteHeader (n : Node) (h : FwdHeader) : Node :=
  let isMatch := n.fwd.matchesDest h.dest
  { n with
    link := { n.link with
      passage := { n.link.passage with
        disposition := some (dispositionOf h (destinationConsulted h.kind && isMatch))
        matched := if destinationConsulted h.kind then some isMatch else none
        enumNote := if isEnumerating h isMatch then some { fill := h.flags.getLsbD 0, address := n.fwd.address } else none } } }

/-- The event that completes the eighth header byte on the U forward lane (R9, R13, R14): what is noted, the copy of a
PASS frame begun, and the abort of a length field over 1024 (R11). -/
def Node.headerComplete (n : Node) : Node :=
  let h := FwdHeader.ofBytes n.link.uRec.hdr
  let m := { n with link := { n.link with uRec := { n.link.uRec with phase := .body } } }.noteHeader h
  let k := if m.link.passage.disposition = some .pass then m.beginCopy h else m
  if Config.maxPayload < h.length.toNat then k.abortU else k

/-! ## Payload and check bytes on the U forward lane (R14, R35) -/

/-- The next-address bytes of the copy of an enumerating frame, placed together at the second of them (R35). -/
def Node.placeNextAddress (n : Node) (note : EnumNote) (first second : Byte) : Node :=
  n.placeRun true (bytes16 (enumDecide (word16 first second) note).next)

/-- A payload byte's place in the forward copy (R14): each as it arrives, but for the next-address field of an
enumerating frame, whose first byte is held (R35). -/
def Node.copyPayload (n : Node) (b : Byte) : Node :=
  match n.link.passage.enumNote with
  | none => n.placeData true b
  | some note =>
    match n.link.passage.heldByte with
    | none => { n with link := { n.link with passage := { n.link.passage with heldByte := some b } } }
    | some first =>
      ({ n with link := { n.link with passage := { n.link.passage with heldByte := none } } } : Node).placeNextAddress note first b

/-- A data character in BODY on the U forward lane (R9, R11, R14): a payload byte; a check byte, the outgoing check bytes
entering the copy when the second has arrived; or one byte too many, which aborts the frame. -/
def Node.bodyByteU (n : Node) (b : Byte) : Node :=
  let r := n.link.uRec
  if r.count < r.length then
    { n with link := { n.link with
        uRec := r.takePayload b
        passage := { n.link.passage with payload := n.link.passage.payload ++ [b] } } }.copyPayload b
  else if r.count < r.length + 2 then
    let m := { n with link := { n.link with uRec := r.takeCheck b } }
    if r.count = r.length + 1 then m.placeRun false (bytes16 n.link.passage.outCheck) else m
  else n.abortU

/-! ## Delivered characters and code errors (R9 to R11) -/

/-- An SOF opens a frame on the U forward lane (R9). -/
def Node.openU (n : Node) : Node := { n with link := { n.link with uRec := .opened, passage := .outside } }

/-- The frame logic of the U forward lane takes a delivered character or a reported code error (R9 to R11). -/
def Node.deliverU (n : Node) (c : RxChar) : Node :=
  match n.link.uRec.phase, c with
  | .outside, .sof => n.openU
  | .outside, .data _ | .outside, .idle | .outside, .eof | .outside, .eoa | .outside, .codeError => n
  | .header, .data b =>
    let m := { n with link := { n.link with uRec := n.link.uRec.takeHeader b } }
    if m.link.uRec.hdr.length = 8 then m.headerComplete else m
  | .body, .data b => n.bodyByteU b
  | .header, .sof | .body, .sof => n.abortU.openU
  | .body, .eof =>
    if n.link.uRec.complete then
      if n.link.uRec.received = n.link.uRec.check then
        n.acceptU (FwdHeader.ofBytes n.link.uRec.hdr) n.link.passage.payload n.link.uRec.received n.link.uRec.age
      else n.checkErrorU
    else n.abortU
  | .header, .eof | .header, .idle | .header, .eoa | .header, .codeError => n.abortU
  | .body, .idle | .body, .eoa | .body, .codeError => n.abortU

/-- A frame on the D return lane ends (R21): its outcome is reported to the return unit, and the record is OUTSIDE. -/
def Node.endD (n : Node) (o : ReturnOutcome) : Node :=
  { n with link := { n.link with dRec := .outside }, ret := n.ret.receive o }

/-- An SOF opens a frame on the D return lane (R9). -/
def Node.openD (n : Node) : Node := { n with link := { n.link with dRec := .opened }, ret := { n.ret with area := [] } }

/-- A data character in BODY on the D return lane (R9, R11, R169): the first 256 payload bytes are kept. -/
def Node.bodyByteD (n : Node) (b : Byte) : Node :=
  let r := n.link.dRec
  if r.count < r.length then
    { n with
      link := { n.link with dRec := r.takePayload b }
      ret := if n.ret.area.length < Config.maxRelayPayload then { n.ret with area := n.ret.area ++ [b] } else n.ret }
  else if r.count < r.length + 2 then { n with link := { n.link with dRec := r.takeCheck b } }
  else n.endD .aborted

/-- The frame logic of the D return lane takes a delivered character or a reported code error (R9 to R11, R21). -/
def Node.deliverD (n : Node) (c : RxChar) : Node :=
  match n.link.dRec.phase, c with
  | .outside, .sof => n.openD
  | .outside, .data _ | .outside, .idle | .outside, .eof | .outside, .eoa | .outside, .codeError => n
  | .header, .data b =>
    let r := n.link.dRec.takeHeader b
    if r.hdr.length = 8 then
      if Config.maxPayload < r.length then n.endD .aborted
      else { n with link := { n.link with dRec := { r with phase := .body } } }
    else { n with link := { n.link with dRec := r } }
  | .body, .data b => n.bodyByteD b
  | .header, .sof | .body, .sof => (n.endD .aborted).openD
  | .body, .eof =>
    if n.link.dRec.complete then
      if n.link.dRec.received = n.link.dRec.check then
        n.endD (.accepted n.link.dRec.hdr n.ret.area n.link.dRec.received)
      else n.endD .checkError
    else n.endD .aborted
  | .header, .eof | .header, .idle | .header, .eoa | .header, .codeError => n.endD .aborted
  | .body, .idle | .body, .eoa | .body, .codeError => n.endD .aborted

/-- The frame logic of a lane. -/
def Node.deliver (n : Node) : Lane → RxChar → Node
  | .u, c => n.deliverU c
  | .d, c => n.deliverD c

/-! ## The receive machine (R6, R7) -/

/-- Receive state of a lane. -/
def Link.laneState (l : Link) : Lane → LaneState
  | .u => l.uLane
  | .d => l.dLane

/-- The receive state of one lane is set. -/
def Node.setLane (n : Node) (lane : Lane) (st : LaneState) : Node :=
  match lane with
  | .u => { n with link := { n.link with uLane := st } }
  | .d => { n with link := { n.link with dLane := st } }

/-- A received character (Table 1-3): in SILENT it moves the lock count, and the sixteenth valid one locks the lane; in
LOCKED a valid one restarts the silence timer and is delivered, a code error is reported. -/
def Node.receive (n : Node) (lane : Lane) (c : RxChar) : Node :=
  match n.link.laneState lane with
  | .silent k =>
    if c.isValid then
      if k + 1 < Config.lockThreshold then n.setLane lane (.silent (k + 1)) else n.setLane lane (.locked 0)
    else n.setLane lane (.silent 0)
  | .locked _ => if c.isValid then (n.setLane lane (.locked 0)).deliver lane c else n.deliver lane c

/-- A frame in reception on a lane is aborted (R7, R11). -/
def Node.abortReception (n : Node) (lane : Lane) : Node :=
  match lane with
  | .u => if n.link.uRec.phase = .outside then n else n.abortU
  | .d => if n.link.dRec.phase = .outside then n else n.endD .aborted

/-- A LOCKED lane falls SILENT with lock count 0, aborting a frame in reception on it (R6, R7). -/
def Node.fallSilent (n : Node) (lane : Lane) : Node :=
  match n.link.laneState lane with
  | .silent _ => n
  | .locked _ => (n.setLane lane (.silent 0)).abortReception lane

/-! ## A return frame as a whole (R169) -/

/-- The outcome of a frame that ended on the D return lane (R10, R11, Table 9-5). -/
def returnOutcome (f : ReturnEnd) : ReturnOutcome :=
  let hdr := f.hdr.toList
  if !f.whole || Config.maxPayload < lengthField hdr || f.payload.length ≠ lengthField hdr then .aborted
  else if f.check ≠ checkValue (hdr ++ f.payload) then .checkError
  else .accepted hdr f.payload f.check

end Sys2Proof.Machine
end

