-- ==== Sys2Proof/Machine/ClockOps.lean ====
section
/-! DEFINITION. One period of the node's 48 MHz clock (R101, R125, R192): what runs on it, and the events that fall due in it.
-/

namespace Sys2Proof.Machine

/-- The tick count has reached the head entry's due time: the entries due at it leave and act (R115). Nothing happens
while the time state is INVALID (R116). -/
def Node.expireCues (n : Node) : Node :=
  if n.sched.time = .valid then ({ n with sched := n.sched.expire.2 } : Node).runCues n.sched.expire.1 else n

/-- CUE EXPIRY as a command: the tick count reaches the due time of the head entry, and every entry due then acts (R115,
log entry 3). -/
def Node.cueExpiry (n : Node) : Node :=
  match n.sched.time, n.sched.queue with
  | .valid, e :: _ => { n with sched := n.sched.reach e.due }.expireCues
  | _, _ => n

/-- A running timer is one clock period further. -/
def runTimer (t : Option Timer) : Option Timer := t.map fun x => { x with elapsed := x.elapsed + 1 }

/-- Whether a running timer has reached the duration it was started with (R176). -/
def timerDue : Option Timer → Bool
  | some x => x.duration * Config.clocksPerMs ≤ x.elapsed
  | none => false

/-- The silence timer of a LOCKED lane is one clock period further (R6). -/
def LaneState.run : LaneState → LaneState
  | .silent k => .silent k
  | .locked t => .locked (t + 1)

/-- Whether the silence timer has reached 64 character times (R6). -/
def LaneState.silenceDue (rate : BitVec 2) : LaneState → Bool
  | .silent _ => false
  | .locked t => Config.silenceCharacters * Config.characterClocks rate ≤ t

/-- The time since an SOF moves on with the chain time (R103). -/
def Reception.run (r : Reception) : Reception :=
  if r.phase = .outside then r else { r with age := r.age + Config.subTicksPerAdvance }

/-- The lockout timer of an input in LOCKOUT is one clock period further (R156). -/
def Input.run1 (x : Input) : Input := if x.phase = .lockout then { x with timer := x.timer + 1 } else x

/-- Everything that counts clock periods is one period further: the divider count, the silence, idle, lockout,
supervision and holdover timers (R192). -/
def Node.countPeriod (n : Node) : Node :=
  { n with
    clock := n.clock + 1
    link := { n.link with uLane := n.link.uLane.run, dLane := n.link.dLane.run }
    tables :=
      if n.tables.session.isOpen then
        { n.tables with session := { n.tables.session with idle := n.tables.session.idle + 1 } }
      else n.tables
    sense := { n.sense with inputs := n.sense.inputs.mapIdx fun _ x => x.run1 }
    sup := { n.sup with supTimer := runTimer n.sup.supTimer, holdTimer := runTimer n.sup.holdTimer } }

/-- At every third clock period the local chain time advances, and the entries due at the tick count it reaches act
(R101, R115). -/
def Node.advanceTime (n : Node) : Node :=
  if n.clock % Config.clocksPerAdvance = 0 then
    ({ n with
      sched := n.sched.advance
      link := { n.link with uRec := n.link.uRec.run, dRec := n.link.dRec.run } } : Node).expireCues
  else n

/-- A lane whose silence timer is due falls SILENT (R6). -/
def Node.silenceOf (n : Node) (lane : Lane) : Node :=
  if (n.link.laneState lane).silenceDue n.link.rate then n.fallSilent lane else n

/-- The session idle limit (R79). -/
def Node.idleLimit (n : Node) : Node :=
  if n.tables.session.isOpen && Config.sessionIdleMs * Config.clocksPerMs ≤ n.tables.session.idle then
    { n with tables := n.tables.expire }
  else n

/-- The lockout's end of an input whose timer has reached its setting (R156). -/
def Node.lockoutOf (n : Node) (i : Fin 4) : Node :=
  let x := n.sense.inputs[i]
  if x.phase = .lockout && x.settings.lockout.toNat * Config.clocksPerUs ≤ x.timer then
    { n with sense := n.sense.endLockout i }
  else n

/-- An input that is not OFF takes a sample event at each tick of its sample clock, which divides the 48 MHz clock by its
prescale divider (R150, R192, Table 8-2). The phase of that clock and the raw level of the pin are free values (log entry
14). -/
def Node.sampleOf (n : Node) (i : Fin 4) : Node :=
  let x := n.sense.inputs[i]
  let ticks := (n.clock + Config.samplePhase i x.settings.prescale) % Config.sampleClocks x.settings.prescale = 0
  if x.phase = .off then n else if ticks then n.sample i (Config.pinLevel n.clock i) else n

/-- The supervision and holdover timers that are due expire, the holdover timer first (R181, R182). -/
def Node.supervisionTimers (n : Node) : Node :=
  let m := if timerDue n.sup.holdTimer then n.holdoverExpiry else n
  if timerDue m.sup.supTimer then m.supervisionExpiry else m

/-- A group ticks at each advance that leaves the low k bits of the divider count at 0, with k the active prescale
(R125). -/
def Node.tickOf (n : Node) (g : Fin 4) : Node :=
  if n.clock % 2 ^ n.out.groups[g].active.prescale.toNat = 0 then { n with out := n.out.tick g } else n

/-- At a character boundary both transmitters go on to their next character (R4). -/
def Node.characterBoundary (n : Node) : Node :=
  if n.clock % Config.characterClocks n.link.rate = 0 then n.forwardCharacter.returnCharacter else n

/-- One period of the 48 MHz clock, with the events that fall due in it in a fixed order (log entries 1 and 9). The clock
does not run while RESETN is low (R192). -/
def Node.clockPeriod (n : Node) : Node :=
  if n.link.resetLow then n
  else
    let a := n.countPeriod.advanceTime
    let b := ((a.silenceOf .u).silenceOf .d).idleLimit
    let c := (allInputs.foldl Node.sampleOf (allInputs.foldl Node.lockoutOf b)).supervisionTimers
    (allGroups.foldl Node.tickOf c).characterBoundary

end Sys2Proof.Machine
end

