-- ==== Sys2Proof/Machine/State.lean ====
section
/-! DEFINITION. The state of the machine: the node and the commands that wait for it. -/

namespace Sys2Proof.Machine

/-- The reasons for a fault: none. No event of the spec stops the node, so no command raises a fault; every frame, record
or cue the node turns away is an effect on its state (INVENTORY.md, Faults). -/
inductive Fault where
  deriving DecidableEq, Repr

/-- The reasons for a refusal. -/
inductive Refusal where
  /-- Raised by the dispatcher alone, for a command whose meaning is not yet written; safe. No arm uses it: every row of
  the table has its meaning. -/
  | notModelled (mnemonic : String)
  deriving DecidableEq, Repr

/-- The machine: the node, and the queue of the commands that wait, first in, first out. -/
structure State where
  node : Node
  pending : List Instr
  deriving DecidableEq, Repr

/-- The machine right after a power reset (R23), with the RATE pins at 00 (log entry 4) and no command waiting. -/
def State.reset : State := { node := .released 0, pending := [] }

end Sys2Proof.Machine
end

