-- ==== Sys2Proof/Machine/Ops.lean ====
section
/-! DEFINITION. How a command acts on the machine: on the node, never on the queue of waiting commands. -/

namespace Sys2Proof.Machine

/-- The outcome of a command or an idle step. -/
abbrev Result := Host.Outcome State Fault Refusal

/-- The node is changed; the queue stands. -/
def State.act (s : State) (f : Node → Node) : Result := .next { s with node := f s.node }

/-- The node is changed unless RESETN is low, when no block takes an event (R22, R147, R163, R174, R189; log entry 15). -/
def State.awake (s : State) (f : Node → Node) : Result := s.act fun n => if n.link.resetLow then n else f n

/-- A command record of the given command on its own (log entry 7). -/
def State.single (s : State) (c : Command) (p : List Byte) : Result := s.awake fun n => n.runRecord c p

/-- A frame ends on the U forward lane whole (log entry 5). -/
def State.frame (s : State) (kind : Byte) (f : FwdFrame) (elapsed : Nat) : Result :=
  s.awake fun n => n.frameEnd (headerOf kind f) f.payload f.check elapsed

end Sys2Proof.Machine
end

