-- ==== Sys2Proof/Machine/Common.lean ====
section
/-! DEFINITION. The common commands as single records: IDENTIFY, STATUS, RESET NODE, SET GROUPS (chapters 2 and 3). -/

namespace Sys2Proof.Machine

/-- IDENTIFY (R55). -/
def execIdentify (p : List Byte) (s : State) : Result := s.single .identify p

/-- STATUS without CLEAR (R56): no parameter, or a control byte with bit 0 clear. -/
def execStatus (spare : Option (BitVec 7)) (rest : List Byte) (s : State) : Result :=
  s.single .status (match spare with
    | none => rest
    | some hi => (hi ++ 0#1) :: rest)

/-- STATUS with CLEAR (R58): a control byte with bit 0 set. -/
def execStatusClear (spare : BitVec 7) (rest : List Byte) (s : State) : Result := s.single .status ((spare ++ 1#1) :: rest)

/-- RESET NODE, scope OUTPUTS (R59). -/
def execResetNodeOutputs (rest : List Byte) (s : State) : Result := s.single .resetNode (Scope.outputs.code :: rest)

/-- RESET NODE, scope FULL (R59). -/
def execResetNodeFull (rest : List Byte) (s : State) : Result := s.single .resetNode (Scope.full.code :: rest)

/-- RESET NODE, scope FACTORY (R59). -/
def execResetNodeFactory (rest : List Byte) (s : State) : Result := s.single .resetNode (Scope.factory.code :: rest)

/-- SET GROUPS query (R39). -/
def execSetGroupsQuery (s : State) : Result := s.single .setGroups []

/-- SET GROUPS ADD (R39, R40). -/
def execSetGroupsAdd (rest : List Byte) (s : State) : Result := s.single .setGroups (1 :: rest)

/-- SET GROUPS REMOVE (R39, R40). -/
def execSetGroupsRemove (rest : List Byte) (s : State) : Result := s.single .setGroups (2 :: rest)

/-- SET GROUPS CLEAR (R39, R40). -/
def execSetGroupsClear (rest : List Byte) (s : State) : Result := s.single .setGroups (0 :: rest)

end Sys2Proof.Machine
end

