-- ==== Sys2Proof/Machine/Frames.lean ====
section
/-! DEFINITION. The frames of the U forward lane, each at the event that ends it (R10, R24). -/

namespace Sys2Proof.Machine

/-- DATA_FRAME (R24, R85). -/
def execDataFrame (f : FwdFrame) (s : State) : Result := s.frame kindData f 0

/-- SYNC_FRAME (R24, R103); `elapsed` is the time since the frame's SOF arrived, in sub-ticks of the node's clock. -/
def execSyncFrame (f : FwdFrame) (elapsed : BitVec 32) (s : State) : Result := s.frame kindSync f elapsed.toNat

/-- CUE_FRAME (R24, R111). -/
def execCueFrame (f : FwdFrame) (s : State) : Result := s.frame kindCue f 0

/-- ENUMERATE_FRAME (R24, R36). -/
def execEnumerateFrame (f : FwdFrame) (s : State) : Result := s.frame kindEnumerate f 0

/-- UNKNOWN_KIND_FRAME (R25). -/
def execUnknownKindFrame (kind : Byte) (f : FwdFrame) (s : State) : Result := s.frame kind f 0

/-- MANAGE_FRAME (R24, R42). -/
def execManageFrame (f : FwdFrame) (s : State) : Result := s.frame kindManage f 0

end Sys2Proof.Machine
end

