-- ==== Sys2Proof/Machine/Link.lean ====
section
/-! DEFINITION. The commands of the link ports and of power and pin reset (chapter 1). -/

namespace Sys2Proof.Machine

/-- POWER_ON (R23): every block takes its power-reset values, the RATE pins are sampled, both transmitters start IDLING. -/
def execPowerOn (pins : BitVec 2) (s : State) : Result := s.act fun _ => .released pins

/-- RESETN_FALL (R22). -/
def execResetnFall (s : State) : Result := s.act Node.resetFall

/-- RESETN_RELEASE (R23): the pin reset gives the values of the power reset. -/
def execResetnRelease (pins : BitVec 2) (s : State) : Result := s.act fun _ => .released pins

/-- CHARACTER_RECEIVED (R3, R6, R9 to R17). -/
def execCharacterReceived (lane : Lane) (info : BitVec 9) (stopAtRest : Bool) (s : State) : Result :=
  s.awake fun n => n.receive lane (classify info stopAtRest)

/-- LANE_SILENCE_TIMEOUT (R6, R7). -/
def execLaneSilenceTimeout (lane : Lane) (s : State) : Result := s.awake fun n => n.fallSilent lane

/-- UNDERRUN (R18). -/
def execUnderrun (s : State) : Result := s.awake Node.underrun

/-- HELD_SYNC_SOF_SENT (R20, R109). -/
def execHeldSyncSofSent (s : State) : Result := s.awake Node.sendSyncSof

/-- HELD_SYNC_SENT (R20). -/
def execHeldSyncSent (s : State) : Result := s.awake Node.sendSyncEof

/-- FORWARD_TRANSMITTER_CHARACTER (R4, R16). -/
def execForwardTransmitterCharacter (s : State) : Result := s.awake Node.forwardCharacter

end Sys2Proof.Machine
end

