-- ==== Sys2Proof/Machine/Outputs.lean ====
section
/-! DEFINITION. The commands of the output engine as single records, and the events of its output clocks (chapter 7). -/

namespace Sys2Proof.Machine

/-- CONFIGURE GROUP (R126). -/
def execConfigureGroup (p : List Byte) (s : State) : Result := s.single .configureGroup p

/-- START GROUPS (R130). -/
def execStartGroups (p : List Byte) (s : State) : Result := s.single .startGroups p

/-- STOP GROUPS (R130). -/
def execStopGroups (p : List Byte) (s : State) : Result := s.single .stopGroups p

/-- FIRE GROUPS (R130). -/
def execFireGroups (p : List Byte) (s : State) : Result := s.single .fireGroups p

/-- CONFIGURE CHANNEL (R136). -/
def execConfigureChannel (p : List Byte) (s : State) : Result := s.single .configureChannel p

/-- GROUP STATE (R144). -/
def execGroupState (p : List Byte) (s : State) : Result := s.single .groupState p

/-- CHANNEL STATE (R145). -/
def execChannelState (p : List Byte) (s : State) : Result := s.single .channelState p

/-- An event of the output engine. -/
def State.output (s : State) (f : Output → Output) : Result := s.awake fun n => { n with out := f n.out }

/-- START_TICK (R129). -/
def execStartTick (g : Fin 4) (s : State) : Result := s.output fun o => o.takeStart g

/-- PERIOD_WRAP (R135). -/
def execPeriodWrap (g : Fin 4) (s : State) : Result := s.output fun o => o.wrap g

/-- DELAY_END (R132). -/
def execDelayEnd (g : Fin 4) (s : State) : Result := s.output fun o => o.endDelay g

/-- PULSE_END (R132). -/
def execPulseEnd (g : Fin 4) (s : State) : Result := s.output fun o => o.endPulse g

/-- OUTPUT_CLOCK_TICK (R125, R132, R139). -/
def execOutputClockTick (g : Fin 4) (s : State) : Result := s.output fun o => o.tick g

end Sys2Proof.Machine
end

