-- ==== Sys2Proof/Machine/ReturnLane.lean ====
section
/-! DEFINITION. The commands and events of the return unit (chapter 9). -/

namespace Sys2Proof.Machine

/-- CONFIGURE NOTICES (R166). -/
def execConfigureNotices (p : List Byte) (s : State) : Result := s.single .configureNotices p

/-- RETURN_FRAME_RECEIVED (R169). -/
def execReturnFrameReceived (f : ReturnEnd) (s : State) : Result := s.awake fun n => n.endD (returnOutcome f)

/-- ARBITER_SELECT (R171). -/
def execArbiterSelect (s : State) : Result := s.awake Node.arbitrate

/-- RETURN_FRAME_SENT (R172). -/
def execReturnFrameSent (s : State) : Result := s.awake Node.endReturnFrame

end Sys2Proof.Machine
end

