-- ==== Sys2Proof/Machine/SenseInputs.lean ====
section
/-! DEFINITION. The commands and events of the sense unit (chapter 8). -/

namespace Sys2Proof.Machine

/-- CONFIGURE SENSE (R149, R151). -/
def execConfigureSense (p : List Byte) (s : State) : Result := s.single .configureSense p

/-- SENSE READ (R159). -/
def execSenseRead (p : List Byte) (s : State) : Result := s.single .senseRead p

/-- SENSE_EDGE (R150, R153 to R156): the sample event at which the filtered level becomes `level`. -/
def execSenseEdge (i : Fin 4) (level : Bool) (s : State) : Result := s.awake fun n => n.edgeTo i level

/-- LOCKOUT_END (R156). -/
def execLockoutEnd (i : Fin 4) (s : State) : Result := s.awake fun n => { n with sense := n.sense.endLockout i }

/-- SAMPLE_EVENT (R150, R152). -/
def execSampleEvent (i : Fin 4) (raw : Bool) (s : State) : Result := s.awake fun n => n.sample i raw

end Sys2Proof.Machine
end

