-- ==== Sys2Proof/Machine/Supervise.lean ====
section
/-! DEFINITION. The commands and events of the supervision unit (chapter 10). -/

namespace Sys2Proof.Machine

/-- CONFIGURE SUPERVISION (R178, R182). -/
def execConfigureSupervision (p : List Byte) (s : State) : Result := s.single .configureSupervision p

/-- RECOVER (R185). -/
def execRecover (p : List Byte) (s : State) : Result := s.single .recover p

/-- SUPERVISION_TIMER_EXPIRY (R181, R182). -/
def execSupervisionTimerExpiry (s : State) : Result := s.awake Node.supervisionExpiry

/-- HOLDOVER_TIMER_EXPIRY (R182, R183). -/
def execHoldoverTimerExpiry (s : State) : Result := s.awake Node.holdoverExpiry

end Sys2Proof.Machine
end

