-- ==== Sys2Proof/Machine/TableCommands.lean ====
section
/-! DEFINITION. The commands of the table store as single records, and the session's expiry (chapter 4). -/

namespace Sys2Proof.Machine

/-- TABLE OPEN (R69 to R71). -/
def execTableOpen (p : List Byte) (s : State) : Result := s.single .tableOpen p

/-- TABLE DATA (R72 to R76). -/
def execTableData (p : List Byte) (s : State) : Result := s.single .tableData p

/-- TABLE CLOSE with SWAP clear (R77, R78). -/
def execTableClose (spare : BitVec 7) (rest : List Byte) (s : State) : Result :=
  s.single .tableClose ((spare ++ 0#1) :: rest)

/-- TABLE CLOSE with SWAP set (R77, R78). -/
def execTableCloseSwap (spare : BitVec 7) (rest : List Byte) (s : State) : Result :=
  s.single .tableClose ((spare ++ 1#1) :: rest)

/-- SESSION_EXPIRY (R79). -/
def execSessionExpiry (s : State) : Result := s.awake fun n => { n with tables := n.tables.expire }

/-- TABLE READ (R83). -/
def execTableRead (p : List Byte) (s : State) : Result := s.single .tableRead p

/-- BANK SWAP (R84). -/
def execBankSwap (p : List Byte) (s : State) : Result := s.single .bankSwap p

end Sys2Proof.Machine
end

