-- ==== Sys2Proof/Machine/TimeAndCues.lean ====
section
/-! DEFINITION. The commands of the schedule unit as single records, and the expiry of cues (chapter 6). -/

namespace Sys2Proof.Machine

/-- CONFIGURE TIME (R110). -/
def execConfigureTime (p : List Byte) (s : State) : Result := s.single .configureTime p

/-- CUE CANCEL (R119). -/
def execCueCancel (p : List Byte) (s : State) : Result := s.single .cueCancel p

/-- CUE FLUSH (R120). -/
def execCueFlush (p : List Byte) (s : State) : Result := s.single .cueFlush p

/-- CUE LIST (R121). -/
def execCueList (p : List Byte) (s : State) : Result := s.single .cueList p

/-- CUE_EXPIRY (R115). -/
def execCueExpiry (s : State) : Result := s.awake Node.cueExpiry

end Sys2Proof.Machine
end

