-- ==== Sys2Proof/Machine/Dispatch.lean ====
section
/-! DEFINITION. Each command's meaning: one arm per row of spec/opcode_table.json, in its order. -/

namespace Sys2Proof.Machine

/-- The effect of a command on everything but the queue of waiting commands. -/
def exec (i : Instr) (s : State) : Host.Outcome State Fault Refusal :=
  match i with
  | .powerOn pins => Sys2Proof.Machine.execPowerOn pins s
  | .resetnFall => Sys2Proof.Machine.execResetnFall s
  | .resetnRelease pins => Sys2Proof.Machine.execResetnRelease pins s
  | .characterReceived lane info stopAtRest => Sys2Proof.Machine.execCharacterReceived lane info stopAtRest s
  | .laneSilenceTimeout lane => Sys2Proof.Machine.execLaneSilenceTimeout lane s
  | .underrun => Sys2Proof.Machine.execUnderrun s
  | .heldSyncSofSent => Sys2Proof.Machine.execHeldSyncSofSent s
  | .heldSyncSent => Sys2Proof.Machine.execHeldSyncSent s
  | .dataFrame f => Sys2Proof.Machine.execDataFrame f s
  | .syncFrame f elapsed => Sys2Proof.Machine.execSyncFrame f elapsed s
  | .cueFrame f => Sys2Proof.Machine.execCueFrame f s
  | .enumerateFrame f => Sys2Proof.Machine.execEnumerateFrame f s
  | .unknownKindFrame kind f => Sys2Proof.Machine.execUnknownKindFrame kind f s
  | .manageFrame f => Sys2Proof.Machine.execManageFrame f s
  | .identify p => Sys2Proof.Machine.execIdentify p s
  | .status spare rest => Sys2Proof.Machine.execStatus spare rest s
  | .statusClear spare rest => Sys2Proof.Machine.execStatusClear spare rest s
  | .resetNodeOutputs rest => Sys2Proof.Machine.execResetNodeOutputs rest s
  | .resetNodeFull rest => Sys2Proof.Machine.execResetNodeFull rest s
  | .resetNodeFactory rest => Sys2Proof.Machine.execResetNodeFactory rest s
  | .setGroupsQuery => Sys2Proof.Machine.execSetGroupsQuery s
  | .setGroupsAdd rest => Sys2Proof.Machine.execSetGroupsAdd rest s
  | .setGroupsRemove rest => Sys2Proof.Machine.execSetGroupsRemove rest s
  | .setGroupsClear rest => Sys2Proof.Machine.execSetGroupsClear rest s
  | .tableOpen p => Sys2Proof.Machine.execTableOpen p s
  | .tableData p => Sys2Proof.Machine.execTableData p s
  | .tableClose spare rest => Sys2Proof.Machine.execTableClose spare rest s
  | .tableCloseSwap spare rest => Sys2Proof.Machine.execTableCloseSwap spare rest s
  | .sessionExpiry => Sys2Proof.Machine.execSessionExpiry s
  | .tableRead p => Sys2Proof.Machine.execTableRead p s
  | .bankSwap p => Sys2Proof.Machine.execBankSwap p s
  | .configureTime p => Sys2Proof.Machine.execConfigureTime p s
  | .cueCancel p => Sys2Proof.Machine.execCueCancel p s
  | .cueFlush p => Sys2Proof.Machine.execCueFlush p s
  | .cueList p => Sys2Proof.Machine.execCueList p s
  | .cueExpiry => Sys2Proof.Machine.execCueExpiry s
  | .configureGroup p => Sys2Proof.Machine.execConfigureGroup p s
  | .startGroups p => Sys2Proof.Machine.execStartGroups p s
  | .stopGroups p => Sys2Proof.Machine.execStopGroups p s
  | .fireGroups p => Sys2Proof.Machine.execFireGroups p s
  | .configureChannel p => Sys2Proof.Machine.execConfigureChannel p s
  | .groupState p => Sys2Proof.Machine.execGroupState p s
  | .channelState p => Sys2Proof.Machine.execChannelState p s
  | .startTick g => Sys2Proof.Machine.execStartTick g s
  | .periodWrap g => Sys2Proof.Machine.execPeriodWrap g s
  | .delayEnd g => Sys2Proof.Machine.execDelayEnd g s
  | .pulseEnd g => Sys2Proof.Machine.execPulseEnd g s
  | .configureSense p => Sys2Proof.Machine.execConfigureSense p s
  | .senseEdge k level => Sys2Proof.Machine.execSenseEdge k level s
  | .lockoutEnd k => Sys2Proof.Machine.execLockoutEnd k s
  | .senseRead p => Sys2Proof.Machine.execSenseRead p s
  | .configureNotices p => Sys2Proof.Machine.execConfigureNotices p s
  | .configureSupervision p => Sys2Proof.Machine.execConfigureSupervision p s
  | .recover p => Sys2Proof.Machine.execRecover p s
  | .supervisionTimerExpiry => Sys2Proof.Machine.execSupervisionTimerExpiry s
  | .holdoverTimerExpiry => Sys2Proof.Machine.execHoldoverTimerExpiry s
  | .returnFrameReceived f => Sys2Proof.Machine.execReturnFrameReceived f s
  | .arbiterSelect => Sys2Proof.Machine.execArbiterSelect s
  | .returnFrameSent => Sys2Proof.Machine.execReturnFrameSent s
  | .outputClockTick g => Sys2Proof.Machine.execOutputClockTick g s
  | .sampleEvent k raw => Sys2Proof.Machine.execSampleEvent k raw s
  | .forwardTransmitterCharacter => Sys2Proof.Machine.execForwardTransmitterCharacter s

end Sys2Proof.Machine
end

