-- ==== Sys2Proof/Safety.lean ====
section
/-! DEFINITION. What a safe state is, block by block, in the terms that claims use: the relations that the spec says always
hold, and the words in which a command's result is stated. -/

namespace Sys2Proof.Machine

/-! ## Forwarding unit -/

/-- The group set holds at most four members, distinct (in ascending order) and none of them 0 (R38). -/
abbrev Forwarding.Sound (f : Forwarding) : Prop :=
  f.groups.length ≤ Config.groupSetCapacity ∧ f.groups.Pairwise (fun a b => a.toNat < b.toNat) ∧ ∀ g ∈ f.groups, g ≠ 0

/-! ## Table store -/

/-- An open session stands inside its window, and its window inside its table; its partial buffer is shorter than an entry;
on a curve, the bank it writes is not that curve's active bank (R67, R69). A closed session gathers nothing. -/
abbrev Tables.SessionSound (t : Tables) : Prop :=
  if t.session.isOpen then
    t.session.start ≤ t.session.cursor ∧ t.session.cursor < t.session.start + t.session.count
      ∧ t.session.start + t.session.count ≤ t.session.table.entries
      ∧ t.session.partialBytes.length < t.session.table.entrySize
      ∧ t.session.bank = t.bankFor t.session.table
  else t.session.partialBytes = [] ∧ t.session.idle = 0

/-- No entry of the extraction list breaks a test of Table 4-2 (R65). -/
abbrev Tables.EntriesSound (t : Tables) : Prop := ∀ e ∈ t.extraction.toList, e.fault = none

abbrev Tables.Sound (t : Tables) : Prop := t.SessionSound ∧ t.EntriesSound

/-! ## Schedule unit -/

/-- A queue entry has a level exactly when its action is SET LEVEL, and names output groups only in bits 0..3 otherwise
(R113). -/
abbrev CueEntry.Sound (e : CueEntry) : Prop :=
  if e.action = .setLevel then e.level.isSome else e.level = none ∧ e.targets &&& 0xFFF0 = 0

/-- The cue queue holds at most 32 entries, in order of due time, each later than the local tick count, and none while the
time state is INVALID (R113, R116). -/
abbrev Schedule.Sound (c : Schedule) : Prop :=
  c.queue.length ≤ Config.cueCapacity ∧ (c.time = .invalid → c.queue = [])
    ∧ (∀ e ∈ c.queue, later e.due c.tick) ∧ c.queue.Pairwise (fun a b => wait a.due c.tick ≤ wait b.due c.tick)
    ∧ ∀ e ∈ c.queue, e.Sound

/-! ## Output engine -/

/-- Settings within the ranges of Table 7-1. -/
abbrev GroupSettings.Sound (st : GroupSettings) : Prop := st.prescale.toNat ≤ 12 ∧ 2 ≤ st.period.toNat

/-- A group agrees with Table 7-3: its count, its mark, its mode and its settings by its state (R125, R128). -/
abbrev Group.Sound (x : Group) : Prop :=
  x.active.Sound ∧ x.staged.Sound ∧ (x.mark = true → x.state = .idle)
    ∧ (x.state = .idle → x.count = 0 ∧ x.active = x.staged)
    ∧ (x.state = .running → x.mode = .continuous ∧ x.count.toNat < x.active.period.toNat)
    ∧ (x.state = .armed → x.mode = .oneShot ∧ x.count = 0)
    ∧ (x.state = .delay → x.mode = .oneShot ∧ x.count.toNat < x.active.delay.toNat)
    ∧ (x.state = .pulse → x.mode = .oneShot ∧ x.count.toNat < x.active.period.toNat)

/-- A channel agrees with its group: staged offset below the staged period, active offset below the active period, active
compare plus active offset within the active period (R127); in an IDLE group the compare is 0 and the offsets are equal
(R130, R146). -/
abbrev Channel.Sound (ch : Channel) (x : Group) : Prop :=
  ch.stagedOffset.toNat < x.staged.period.toNat ∧ ch.activeOffset.toNat < x.active.period.toNat
    ∧ ch.compare.toNat + ch.activeOffset.toNat ≤ x.active.period.toNat
    ∧ (x.state = .idle → ch.compare = 0 ∧ ch.activeOffset = ch.stagedOffset)

abbrev Output.Sound (o : Output) : Prop :=
  (∀ g : Fin 4, o.groups[g].Sound) ∧ ∀ c : Fin 16, o.chans[c].Sound o.groups[o.chans[c].group]

/-! ## Sense unit -/

/-- The phases a mode has (Table 8-3). -/
def SenseMode.hasPhase : SenseMode → SensePhase → Bool
  | .off, p => p = .off
  | .interval, p => p = .first || p = .counting
  | .highWidth, p | .lowWidth, p => p = .waitStart || p = .measuring
  | .trigger, p => p = .ready || p = .lockout

/-- An input's phase belongs to its mode, its run count does not pass its filter length, its lockout timer runs in LOCKOUT
only, and in phase OFF its filtered level is unset (Table 8-3, R148, R150). -/
abbrev Input.Sound (x : Input) : Prop :=
  x.settings.mode.hasPhase x.phase = true ∧ x.run.toNat ≤ x.settings.filter.toNat
    ∧ (x.phase ≠ .lockout → x.timer = 0) ∧ (x.phase = .off → x.filtered = none)

/-- A log entry has a count exactly when it is no TRIGGER, and is LONG exactly at the longest count (R152, R157). -/
abbrev LogEntry.Sound (e : LogEntry) : Prop :=
  (e.kind = .trigger ↔ e.count = none) ∧ (e.isLong = true ↔ e.count = some longestCount)

/-- The result log holds at most 16 entries (R158), and every input and entry is sound. -/
abbrev Sense.Sound (c : Sense) : Prop :=
  (∀ i : Fin 4, c.inputs[i].Sound) ∧ c.log.length ≤ Config.logCapacity ∧ ∀ e ∈ c.log, e.Sound

/-! ## Supervision unit -/

/-- The supervision record agrees with Table 10-1: which timers run in which state; the recovery count is 0 outside
FAILSAFE (R180); the settings lie within Table 10-2. -/
abbrev Supervision.Sound (u : Supervision) : Prop :=
  (1 ≤ u.window.toNat ∧ u.window.toNat ≤ 1000 ∧ u.holdover.toNat ≤ 60000)
    ∧ (u.state ≠ .failsafe → u.recovery = 0)
    ∧ (u.state = .start → u.supTimer = none ∧ u.holdTimer = none)
    ∧ (u.state = .normal → u.supTimer.isSome ∧ u.holdTimer = none)
    ∧ (u.state = .holdover → u.supTimer = none)
    ∧ (u.state = .failsafe → u.holdTimer = none)

/-! ## Return unit and command unit -/

/-- The local response queue holds at most 8 frames of at most 240 payload bytes, the relay queue at most 4 of at most 256
(R167, R170); the relay reception area holds at most 256 bytes (R169). -/
abbrev ReturnUnit.Sound (r : ReturnUnit) : Prop :=
  r.localQ.length ≤ Config.localCapacity ∧ r.relayQ.length ≤ Config.relayCapacity
    ∧ r.area.length ≤ Config.maxRelayPayload
    ∧ (∀ e ∈ r.localQ, e.frame.payload.length ≤ Config.responseRoom)
    ∧ ∀ e ∈ r.relayQ, e.payload.length ≤ Config.maxRelayPayload

/-- The return unit is sound, and the cached response holds at most 240 payload bytes (R51). -/
abbrev Node.QueuesSound (n : Node) : Prop :=
  n.ret.Sound ∧ ∀ f ∈ n.cmd.cache, f.payload.length ≤ Config.responseRoom

/-! ## Link ports -/

/-- Whether the character being sent is one of the held SYNC in the SYNC store. -/
def FwdCurrent.fromStore : FwdCurrent → Bool
  | .store _ => true
  | .rest | .idle | .item _ => false

/-- The forward buffer holds at most 64 data characters (R16), beside the one being sent (log entry 30); the SYNC store is filled exactly when a held SYNC has its
place in the sending order (R16, R19), at the head of the order while its characters go out. -/
abbrev Link.Sound (l : Link) : Prop :=
  dataCount l.order ≤ Config.forwardCapacity
    ∧ l.order.countP (fun x => x = .syncPlace) = (if l.store.isSome then 1 else 0)
    ∧ (l.fwdTx.current.fromStore = true → l.order.head? = some .syncPlace)

/-- RESETN low is exactly when both transmitters are HELD; then both reception records are OUTSIDE, the buffer, the SYNC
store and both return queues are empty (R4, R22, R174). -/
abbrev Node.HeldSound (n : Node) : Prop :=
  (n.link.fwdTx.state = .held ↔ n.link.resetLow = true) ∧ (n.link.retTx.state = .held ↔ n.link.resetLow = true)
    ∧ (n.link.resetLow = true → n.link.uRec.phase = .outside ∧ n.link.dRec.phase = .outside ∧ n.link.order = []
        ∧ n.link.store = none ∧ n.link.retTx.current = none ∧ n.ret.localQ = [] ∧ n.ret.relayQ = [] ∧ n.ret.area = [])

/-! ## The whole node -/

/-- A safe state: every block is sound. A run is safe when each of its states is. -/
abbrev State.Safe (s : State) : Prop :=
  s.node.fwd.Sound ∧ s.node.tables.Sound ∧ s.node.sched.Sound ∧ s.node.out.Sound ∧ s.node.sense.Sound
    ∧ s.node.sup.Sound ∧ s.node.QueuesSound ∧ s.node.link.Sound ∧ s.node.HeldSound

/-! ## Words of the claims -/

/-- RESETN is high: the node takes events. -/
abbrev State.On (s : State) : Prop := s.node.link.resetLow = false

/-- The state with another node, the queue standing. -/
abbrev State.withNode (s : State) (n : Node) : State := { s with node := n }

/-- The state in which a command record leaves the node `n` and shows the result record it yields (log entry 7). -/
abbrev State.withResult (s : State) (n : Node) (opcode : Byte) (status : Status) (data : List Byte) : State :=
  { s with node := { n with shown := some { opcode := opcode, status := status, data := data } } }

/-- The frame row of a kind: 01h to 05h have a row of their own, every other kind is UNKNOWN_KIND_FRAME (Table 2-1, R25).
`elapsed` is read by SYNC_FRAME only. -/
def frameRow (kind : Byte) (f : FwdFrame) (elapsed : BitVec 32) : Instr :=
  if kind = 0x01 then .dataFrame f
  else if kind = 0x02 then .syncFrame f elapsed
  else if kind = 0x03 then .manageFrame f
  else if kind = 0x04 then .cueFrame f
  else if kind = 0x05 then .enumerateFrame f
  else .unknownKindFrame kind f

/-- A frame that is accepted at its EOF: a length field of 1024 or less, and a received check value equal to that of its
header and payload (R10). -/
abbrev Genuine (f : FwdFrame) (kind : Byte) : Prop :=
  f.payload.length ≤ 1024 ∧ f.check = checkValue ((headerOf kind f).bytes ++ f.payload)

/-- A frame on the U forward lane has ended: the terminator of its OPEN copy is placed (R15), its record is OUTSIDE (R8; its other
fields by log entry 29). -/
abbrev Node.frameEnded (n : Node) (terminator : FwdItem) : Node :=
  { n with
    link := { n.link with
      order := if n.link.passage.copy = .opened then n.link.order ++ [terminator] else n.link.order
      uRec := .outside
      passage := .outside } }

/-- An OPEN copy takes bytes as far as the 64 data characters of the forward buffer allow (R14, R16); at the first that finds
no room it is closed with EOA, the rest are not placed, and forward overruns is raised (R17). A character being sent has left
the buffer (log entry 30). Placed bytes enter the outgoing check if they are `checked`. A copy that is not OPEN takes nothing. -/
def Node.copyTakes (n : Node) (checked : Bool) (bytes : List Byte) : Node :=
  let room := 64 - dataCount n.link.order
  let placed := bytes.take room
  if n.link.passage.copy = .opened then
    { n with
      link := { n.link with
        order := n.link.order ++ placed.map .data ++ (if bytes.length ≤ room then [] else [.eoa])
        passage := { n.link.passage with
          copy := if bytes.length ≤ room then .opened else .closed
          outCheck := if checked then checkRun n.link.passage.outCheck placed else n.link.passage.outCheck } }
      fwd := if bytes.length ≤ room then n.fwd else { n.fwd with overruns := raiseCounter n.fwd.overruns } }
  else n

/-- An accepted frame has ended and set the position to its hop as received (R15, R30), before anything else it brings about
(log entry 31). -/
abbrev Node.frameArrived (n : Node) (f : FwdFrame) : Node :=
  { n.frameEnded .eof with fwd := { n.fwd with position := f.hop } }

/-- An accepted and answered MANAGE frame whose records change nothing: its response, with the result records given, joins the
local response queue, and is cached for a nonzero sequence (R46, R50, R51). -/
def Node.answers (n : Node) (f : FwdFrame) (count : Nat) (results : List Byte) : Node :=
  let r : RetFrame :=
    { kind := 0x81, flags := 0, source := n.fwd.address.setWidth 16, seq := f.seq, count := byteOf count, payload := results }
  { n.frameArrived f with
    ret := { n.ret with localQ := n.ret.localQ ++ [{ frame := r, sending := false }] }
    cmd := if f.seq = 0 then n.cmd else { n.cmd with lastSeq := some f.seq, cache := some r } }

/-- The supervision record after a qualifying frame in a state other than FAILSAFE (R180). -/
abbrev Supervision.normal (u : Supervision) : Supervision :=
  { u with
    state := .normal
    supTimer := some { elapsed := 0, duration := u.window.toNat }
    holdTimer := if u.state = .holdover then none else u.holdTimer }

/-- Load points of several groups at one event (R99, R100, R135): each group for which `into` names a state enters it with its
staged settings active and its count at 0; every member is converted with the period and the offset staged. -/
def Output.loads (o : Output) (into : Fin 4 → Option GroupState) : Output :=
  let period (c : Fin 16) : Nat := o.groups[o.chans[c].group].staged.period.toNat
  let asked (c : Fin 16) : Nat := o.chans[c].stagedLevel.toNat * period c / 65535
  let room (c : Fin 16) : Nat := period c - o.chans[c].stagedOffset.toNat
  { groups := .ofFn fun g =>
      match into g with
      | some st => { o.groups[g] with state := st, mark := false, count := 0, active := o.groups[g].staged }
      | none => o.groups[g]
    chans := .ofFn fun c =>
      match into o.chans[c].group with
      | some _ => { o.chans[c] with
          activeOffset := o.chans[c].stagedOffset, compare := BitVec.ofNat 16 (min (asked c) (room c))
          lastActive := o.chans[c].stagedLevel, pendingFlag := false }
      | none => o.chans[c]
    clip := o.clip || (List.finRange 16).any fun c => (into o.chans[c].group).isSome && room c < asked c }

/-- Stops of several groups at one event (R130). -/
def Output.stops (o : Output) (named : Fin 4 → Bool) : Output :=
  { o with
    groups := .ofFn fun g =>
      if !named g then o.groups[g]
      else if o.groups[g].state = .idle then { o.groups[g] with mark := false }
      else { o.groups[g] with state := .idle, mark := false, count := 0, active := o.groups[g].staged }
    chans := .ofFn fun c =>
      if named o.chans[c].group && o.groups[o.chans[c].group].state ≠ .idle then
        { o.chans[c] with compare := 0, activeOffset := o.chans[c].stagedOffset }
      else o.chans[c] }

/-- Triggers of several groups at one event (R131, R133). A group ARMED begins its sequence, and so does one in DELAY or PULSE
under RESTART: PULSE with a load when its active delay is 0, else DELAY. Under IGNORE the trigger is missed and counted. A
group IDLE or RUNNING is left as it was. -/
def Output.fires (o : Output) (named : Fin 4 → Bool) : Output :=
  let inSequence (g : Fin 4) : Bool := o.groups[g].state = .delay || o.groups[g].state = .pulse
  let begins (g : Fin 4) : Bool :=
    named g && (o.groups[g].state = .armed || (inSequence g && o.groups[g].active.retrigger = .restart))
  let pulsed := o.loads fun g => if begins g && o.groups[g].active.delay = 0 then some .pulse else none
  { pulsed with
    groups := .ofFn fun g =>
      if begins g && o.groups[g].active.delay ≠ 0 then { o.groups[g] with state := .delay, mark := false, count := 0 }
      else if named g && inSequence g && o.groups[g].active.retrigger = .ignore then
        { o.groups[g] with missed := if o.groups[g].missed = 255 then 255 else o.groups[g].missed + 1 }
      else pulsed.groups[g] }

/-- One cue acts on the output engine (R117, R118): SET LEVEL offers its level to its channels with origin CUE, unless in
FAILSAFE (R140); START sets the mark of each named group that is IDLE; STOP stops and FIRE triggers the named groups. -/
def Output.acts (o : Output) (inFailsafe : Bool) (e : CueEntry) : Output :=
  let named (g : Fin 4) : Bool := e.targets.getLsbD g
  match e.action with
  | .setLevel =>
    if inFailsafe then o
    else { o with
      chans := .ofFn fun c =>
        if e.targets.getLsbD c then
          { o.chans[c] with stagedLevel := e.level.getD 0, pendingFlag := true, origin := .cue }
        else o.chans[c] }
  | .start =>
    { o with groups := .ofFn fun g => if named g && o.groups[g].state = .idle then { o.groups[g] with mark := true } else o.groups[g] }
  | .stop => o.stops named
  | .fire => o.fires named

/-- A cue record as it stands in a payload (R111, Table 6-2); `level` is there for SET LEVEL only. -/
structure CueOnWire where
  due : BitVec 32
  tag : Byte
  action : CueAction
  dest : BitVec 16
  targets : BitVec 16
  level : BitVec 16
  deriving DecidableEq, Repr

/-- The bytes of a cue record: 12 for SET LEVEL, 10 for any other action (R111). -/
def CueOnWire.bytes (r : CueOnWire) : List Byte :=
  bytes32 r.due ++ [r.tag, r.action.code] ++ bytes16 r.dest ++ bytes16 r.targets
    ++ (if r.action = .setLevel then bytes16 r.level else [])

/-- The entry a cue record makes: its target set is a group set in bits 0 to 3, but for SET LEVEL, which has a level
(R111, R113). -/
def CueOnWire.entry (r : CueOnWire) : CueEntry :=
  { due := r.due, tag := r.tag, action := r.action
    targets := if r.action = .setLevel then r.targets else r.targets &&& 0x000F
    level := if r.action = .setLevel then some r.level else none }

/-- Parsing ends where fewer than 6 bytes remain, where the action byte names none of the four actions, or where fewer bytes
remain than the record's size (R111). -/
def EndsCues (tail : List Byte) : Prop :=
  tail.length < 6 ∨ (∀ a : CueAction, a.code ≠ tail.getD 5 0)
    ∨ ∃ a : CueAction, a.code = tail.getD 5 0 ∧ tail.length < if a = .setLevel then 12 else 10

/-- A command that is taken when it is due: its next state, or the state itself when it is not due. -/
def State.takes (s : State) (due : Bool) (c : Instr) : State :=
  match due, exec c s with
  | true, .next t => t
  | _, _ => s

/-! ## The records of a MANAGE frame (R41 to R48) -/

/-- A command record as it stands in a payload: opcode, parameter length, parameters (R41). -/
def recordBytes (x : Byte × List Byte) : List Byte := x.1 :: byteOf x.2.length :: x.2

/-- What is left of a payload runs past it: fewer than two bytes remain, or fewer than its length byte asks for (R41). -/
def runsPast : List Byte → Prop
  | [] => False
  | [_] => True
  | _ :: len :: rest => rest.length < len.toNat

/-- A payload is the whole records `rs` followed by `tail`, which is empty or runs past the payload (R41). -/
abbrev IsRecords (payload : List Byte) (rs : List (Byte × List Byte)) (tail : List Byte) : Prop :=
  (∀ x ∈ rs, x.2.length ≤ 255) ∧ payload = rs.flatMap recordBytes ++ tail ∧ (tail = [] ∨ runsPast tail)

/-- A payload holds a RESET NODE record of one of the scopes named (R59). -/
def HoldsReset (payload : List Byte) (scopes : List Scope) : Prop :=
  ∃ rs tail, IsRecords payload rs tail ∧ ∃ scope ∈ scopes, (0x03, [scope.code]) ∈ rs

/-- The next whole record of a frame. In an answered frame a room below 3 bytes truncates the response, and nothing more is
executed or reported (R47, R48). After the frame has tripped the record is SKIPPED (R43); an opcode of no command is
UNKNOWN_COMMAND (R44); in an answered frame a room below the command's allowance is NO_ROOM (R47). Otherwise it is executed
(R42). With STOP-ON-ERROR a status other than OK trips the frame; so does a RESET NODE executed with OK, whose scope takes
effect at the end (R43, R59). -/
def Run.taking (answered stopOnError : Bool) (r : Run) (x : Byte × List Byte) : Run :=
  let room := 240 - r.out.length
  let gives (m : Node) (status : Status) (data : List Byte) : Run := { r with
    node := m
    out := r.out ++ [x.1, status.code, byteOf data.length] ++ data
    count := r.count + 1
    tripped := r.tripped || (stopOnError && status ≠ .ok) }
  if r.truncated || (answered && room < 3) then { r with truncated := true }
  else if r.tripped then gives r.node .skipped []
  else match Command.ofOpcode x.1 with
    | none => gives r.node .unknownCommand []
    | some c =>
      if answered && room < c.allowance then gives r.node .noRoom []
      else
        let y := runCommand c x.2 r.node
        let after := gives y.node y.reply.status y.reply.data
        { after with reset := y.reset, tripped := after.tripped || y.reset.isSome }

/-- What is left after the whole records of a frame: nothing, or a record that runs past the payload, which gets BAD_LENGTH
with no data, unless the response is truncated there (R41, R48). -/
def Run.ending (answered stopOnError : Bool) (r : Run) (tail : List Byte) : Run :=
  match tail with
  | [] => r
  | op :: _ =>
    if r.truncated || (answered && 240 - r.out.length < 3) then { r with truncated := true }
    else { r with
      out := r.out ++ [op, Status.badLength.code, 0]
      count := r.count + 1
      tripped := r.tripped || stopOnError }

/-- The run of a frame over its records, from the node as the frame finds it (R41 to R48). -/
def Run.over (answered stopOnError : Bool) (n : Node) (rs : List (Byte × List Byte)) (tail : List Byte) : Run :=
  (rs.foldl (Run.taking answered stopOnError)
    { node := n, out := [], count := 0, tripped := false, truncated := false, reset := none }).ending answered stopOnError tail

end Sys2Proof.Machine
end

