-- ==== Sys2Proof/Certificates/Slice0/Obligations.lean ====
section
/-! DEFINITION. The statements for the provers. A statement that gives a next state as a record gives the whole of it: what
the record does not name is unchanged. -/

open Sys2Proof Sys2Proof.Machine

/-! ## The machine -/

/-- A step takes the command at the front of the queue and is its execution with the queue's rest. -/
def Obligations.StepRunsTheFrontCommand : Prop :=
  ∀ (c : Instr) (s : State), step { s with pending := c :: s.pending } = exec c s

/-- One step on an empty queue is one period of the node's clock (log entry 1): the divider count rises by one (R125), and at
every third period the local chain time advances by 16 sub-ticks, carrying into the tick count (R101). That the third period
is the one that makes the divider count a multiple of 3 is the model's reading (log entry 13). -/
def Obligations.IdleStepAdvancesDividerAndChainTime : Prop :=
  ∀ s : State, s.On → s.pending = [] →
    ∃ n, step s = .next (s.withNode n) ∧ n.clock = s.node.clock + 1
      ∧ n.sched.now = if (s.node.clock + 1) % 3 = 0 then s.node.sched.now + 16 else s.node.sched.now

/-- One step on an empty queue runs every timer for one period (log entry 1; R6, R79, R176, R192): a LOCKED lane falls SILENT at
64 character times of silence, an open session expires at 2000 ms without TABLE DATA, with its partial bytes counted and
dropped, and the supervision and holdover timers, while neither is due, only grow. In full: every count that runs goes one
period further, the time since a SOF by one advance, and then each event that is due is taken as its row: a cue expiry at the
tick count reached (R115), lane silence, the session's expiry, the lockout's end at the lockout setting (R156), a sample event
at the tick of an input's sample clock (R150, R192), the holdover and supervision expiries at their durations (R176, R181,
R182), a tick of a group's output clock when the low k bits of the divider count are 0 (R125), and at a character boundary the
next character of both transmitters (R4, R171, R172). The phases and the exact periods are the model's (log entries 6 and 13),
the order of the events in one period too (log entry 9); that the time since a SOF grows by 16 sub-ticks an advance is its
reading (log entry 21), and that the U return transmitter sends a frame as one, with a count of the characters sent and the two
rows of its end at one boundary (log entry 18); the sample clocks' phases and the pins' levels are free values (log
entry 14); the closed session's bank is none (log entry 11). -/
def Obligations.IdleStepRunsTheTimers : Prop :=
  (∀ s : State, s.On → s.pending = [] →
    let character : Nat := 11 * (16 / 2 ^ s.node.link.rate.toNat)
    let lane (x : LaneState) : LaneState := match x with
      | .silent k => .silent k
      | .locked t => if 64 * character ≤ t + 1 then .silent 0 else .locked (t + 1)
    let x := s.node.tables.session
    let session : Session :=
      if x.isOpen = false then x
      else if 2000 * 48000 ≤ x.idle + 1 then
        { x with
          isOpen := false, bank := none, discarded := x.partialBytes.length, partialBytes := [], idle := 0, swapped := false
          reason := .expired }
      else { x with idle := x.idle + 1 }
    let u := s.node.sup
    let more (y : Option Timer) : Option Timer := y.map fun z => { z with elapsed := z.elapsed + 1 }
    ∃ n, step s = .next (s.withNode n) ∧ n.link.uLane = lane s.node.link.uLane ∧ n.link.dLane = lane s.node.link.dLane
      ∧ n.tables = { s.node.tables with session := session }
      ∧ ((∀ z, u.supTimer = some z ∨ u.holdTimer = some z → z.elapsed + 1 < z.duration * 48000) →
        n.sup = { u with supTimer := more u.supTimer, holdTimer := more u.holdTimer }))
  ∧ ∀ s : State, s.On → s.pending = [] →
    let n := s.node
    let character : Nat := 11 * (16 / 2 ^ n.link.rate.toNat)
    let third : Bool := (n.clock + 1) % 3 = 0
    let lane (x : LaneState) : LaneState := match x with
      | .silent k => .silent k
      | .locked t => .locked (t + 1)
    let silent (x : LaneState) : Bool := match x with
      | .silent _ => false
      | .locked t => 64 * character ≤ t
    let since (r : Reception) : Reception := if third && r.phase ≠ .outside then { r with age := r.age + 16 } else r
    let more (y : Option Timer) : Option Timer := y.map fun z => { z with elapsed := z.elapsed + 1 }
    let due (y : Option Timer) : Bool := match y with
      | some z => z.duration * 48000 ≤ z.elapsed
      | none => false
    let time : BitVec 40 := if third then n.sched.now + 16 else n.sched.now
    let counted : State := s.withNode { n with
      clock := n.clock + 1
      link := { n.link with
        uLane := lane n.link.uLane, dLane := lane n.link.dLane, uRec := since n.link.uRec, dRec := since n.link.dRec }
      tables := { n.tables with
        session := if n.tables.session.isOpen then { n.tables.session with idle := n.tables.session.idle + 1 }
          else n.tables.session }
      sched := { n.sched with tick := time.extractLsb' 8 32, sub := time.extractLsb' 0 8 }
      sense := { n.sense with
        inputs := .ofFn fun i =>
          if n.sense.inputs[i].phase = .lockout then { n.sense.inputs[i] with timer := n.sense.inputs[i].timer + 1 }
          else n.sense.inputs[i] }
      sup := { n.sup with supTimer := more n.sup.supTimer, holdTimer := more n.sup.holdTimer } }
    let each (f : State → Fin 4 → State) (t : State) : State := f (f (f (f t 0) 1) 2) 3
    let a := counted.takes
      (third && n.sched.time = .valid && n.sched.queue.head?.map CueEntry.due = some (time.extractLsb' 8 32)) .cueExpiry
    let b := a.takes (silent a.node.link.uLane) (.laneSilenceTimeout .u)
    let c := b.takes (silent b.node.link.dLane) (.laneSilenceTimeout .d)
    let d := c.takes (c.node.tables.session.isOpen && 2000 * 48000 ≤ c.node.tables.session.idle) .sessionExpiry
    let e := each (fun t i =>
      let x := t.node.sense.inputs[i]
      t.takes (x.phase = .lockout && x.settings.lockout.toNat * 48 ≤ x.timer) (.lockoutEnd i)) d
    let f := each (fun t i =>
      let x := t.node.sense.inputs[i]
      t.takes (x.phase ≠ .off
          && (t.node.clock + Config.samplePhase i x.settings.prescale) % 8 ^ x.settings.prescale.toNat = 0)
        (.sampleEvent i (Config.pinLevel t.node.clock i))) e
    let g := f.takes (due f.node.sup.holdTimer) .holdoverTimerExpiry
    let h := g.takes (due g.node.sup.supTimer) .supervisionTimerExpiry
    let k := each (fun t i =>
      t.takes (t.node.clock % 2 ^ t.node.out.groups[i].active.prescale.toNat = 0) (.outputClockTick i)) h
    let m := k.takes true .forwardTransmitterCharacter
    let sent : State := match m.node.link.retTx.current with
      | none => m.takes true .arbiterSelect
      | some w =>
        if w.sent + 1 < w.bytes.length + 4 then
          m.withNode { m.node with
            link := { m.node.link with retTx := { m.node.link.retTx with current := some { w with sent := w.sent + 1 } } } }
        else (m.takes true .returnFrameSent).takes true .arbiterSelect
    step s = .next (if (n.clock + 1) % character = 0 then sent else k)

/-- Every command goes on, and none touches the queue of waiting commands. While RESETN is low no block takes an event: every
command but power and pin reset changes nothing (R22, R147, R163, R174, R189; log entry 15), and the clock does not run
(R192). -/
def Obligations.EveryCommandGoesOnAndResetnLowFreezes : Prop :=
  (∀ (c : Instr) (s : State), ∃ n, exec c s = .next (s.withNode n))
    ∧ ∀ s : State, s.node.link.resetLow = true →
      (∀ c : Instr, (∀ p, c ≠ .powerOn p) → c ≠ .resetnFall → (∀ p, c ≠ .resetnRelease p) → exec c s = .next s)
        ∧ (s.pending = [] → step s = .next s)

/-! ## Resets -/

/-- The release of a power or pin reset: the RATE pins are sampled, and every block takes its reset values. The machine
starts there, with the pins at 00 and nothing waiting (log entries 4 and 24). That a release acts in every state, RESETN high
too, is the model's choice (log entry 16); so are the values of its own fields, no result shown and 0 free choices made (log
entries 7 and 8), and those of a record OUTSIDE beside its phase (log entry 29). -/
def Obligations.ReleaseGivesEveryBlockItsResetValues : Prop :=
  (∀ s : State, s.pending = [] → exec (.powerOn 0) s = .next State.reset)
  ∧ ∀ (pins : BitVec 2) (c : Instr) (s : State), c = .powerOn pins ∨ c = .resetnRelease pins →
    exec c s = .next (s.withNode
      { link :=
          { resetLow := false, rate := pins, uLane := .silent 0, dLane := .silent 0, uRec := .outside, dRec := .outside,
            passage := .outside, order := [], store := none, fwdTx := { state := .idling, current := .idle },
            retTx := { state := .idling, current := none } }
        fwd :=
          { address := 0, groups := [], position := 0, enumOverrun := false, checkErrors := 0, aborts := 0, overruns := 0 }
        cmd := { cache := none, lastSeq := none, busy := 0 }
        tables :=
          { extraction := .replicate 32 { valid := false, wide := false, curve := 0, slot := 0, targets := 0 }
            curves := .replicate 4
              { bankA := .ofFn fun k => if k.val = 32 then 65535 else BitVec.ofNat 16 (2048 * k.val)
                bankB := .ofFn fun k => if k.val = 32 then 65535 else BitVec.ofNat 16 (2048 * k.val)
                active := .a }
            failsafe := .replicate 16 { kind := .off, level := 0 }
            session :=
              { isOpen := false, table := .extraction, bank := none, start := 0, count := 1, cursor := 0,
                partialBytes := [], written := 0, wraps := 0, idle := 0, discarded := 0, swapped := false,
                reason := .reset } }
        value := .replicate 16 none
        sched :=
          { tick := 0, sub := 0, time := .invalid, lineDelay := 0, threshold := 1000, late := .drop, queue := [],
            refusals := 0, lateDrops := 0, flushes := 0, timeJump := false }
        out :=
          { groups := .replicate 4
              { state := .idle, mark := false, count := 0, mode := .continuous
                active := { prescale := 4, period := 1000, delay := 0, retrigger := .ignore }
                staged := { prescale := 4, period := 1000, delay := 0, retrigger := .ignore }
                missed := 0 }
            chans := .replicate 16
              { group := 0, enable := true, activeLow := false, stagedOffset := 0, activeOffset := 0, compare := 0,
                stagedLevel := 0, pendingFlag := false, origin := .none, lastActive := 0 }
            clip := false }
        sense :=
          { inputs := .replicate 4
              { settings := { mode := .off, edge := .rising, prescale := 0, filter := 0, triggers := 0, lockout := 0 }
                phase := .off, filtered := none, run := 0, count := 0, timer := 0 }
            log := [], losses := 0 }
        ret :=
          { localQ := [], relayQ := [], area := [], lastServed := .relayQueue, enable := 0, relayDrops := 0,
            relayErrors := 0, noticeLosses := 0 }
        sup :=
          { state := .start, supTimer := none, holdTimer := none, recovery := 0, window := 100, holdover := 1000,
            failsafeOn := true, k := 3 }
        clock := 0
        choice := 0
        shown := none })

/-- The falling edge of RESETN: both transmitters are HELD with no terminator sent, both receptions are discarded without a
count, the forward buffer, the SYNC store, both return queues and the relay reception area are empty. That the receive states
of the lanes and every other block stand until the release is the model's reading (log entry 17); the other fields of a record OUTSIDE
are its choice (log entry 29). -/
def Obligations.ResetnFallCutsOffTheLink : Prop :=
  ∀ s : State,
    exec .resetnFall s = .next (s.withNode { s.node with
      link := { s.node.link with
        resetLow := true, uRec := .outside, dRec := .outside, passage := .outside, order := [], store := none
        fwdTx := { state := .held, current := .rest }
        retTx := { state := .held, current := none } }
      ret := { s.node.ret with localQ := [], relayQ := [], area := [] } })

/-! ## The receiving lanes -/

/-- R3 and the SILENT row of Table 1-3: a data character or one of the four valid control characters, with its stop bit at
rest, raises the lock count, the sixteenth locking the lane with its silence timer at 0; a code error returns the count to
0. Nothing else changes. -/
def Obligations.SilentLaneCountsValidCharacters : Prop :=
  ∀ (lane : Lane) (info : BitVec 9) (stop : Bool) (k : Nat) (s : State), s.On → s.node.link.laneState lane = .silent k →
    let valid := stop && (info.toNat < 256 || (256 ≤ info.toNat && info.toNat < 260))
    let state : LaneState := if !valid then .silent 0 else if k + 1 < 16 then .silent (k + 1) else .locked 0
    exec (.characterReceived lane info stop) s = .next (s.withNode { s.node with
      link := match lane with
        | .u => { s.node.link with uLane := state }
        | .d => { s.node.link with dLane := state } })

/-- Outside any frame on a LOCKED lane (R6, R9): every valid character restarts the silence timer, an SOF opens a fresh
record (on the D return lane it also claims the relay reception area, R169), and anything else is passed over or discarded
without a count; a code error does not restart the timer. The fields of a fresh record that R9 does not name are the model's
choice (log entry 29). -/
def Obligations.LockedLaneOutsideAFrame : Prop :=
  ∀ (info : BitVec 9) (stop : Bool) (t : Nat) (s : State), s.On →
    let lane : LaneState := if stop && (info.toNat < 256 || (256 ≤ info.toNat && info.toNat < 260)) then .locked 0
        else .locked t
    let opens := stop && info = 257
    let fresh : Reception := { phase := .header, hdr := [], count := 0, check := 0xFFFF, received := 0, age := 0 }
    (s.node.link.uLane = .locked t → s.node.link.uRec.phase = .outside →
      exec (.characterReceived .u info stop) s = .next (s.withNode { s.node with
        link := { s.node.link with
          uLane := lane
          uRec := if opens then fresh else s.node.link.uRec
          passage := if opens then .outside else s.node.link.passage } }))
    ∧ (s.node.link.dLane = .locked t → s.node.link.dRec.phase = .outside →
      exec (.characterReceived .d info stop) s = .next (s.withNode { s.node with
        link := { s.node.link with dLane := lane, dRec := if opens then fresh else s.node.link.dRec }
        ret := { s.node.ret with area := if opens then [] else s.node.ret.area } }))

/-- The eighth header byte on the U forward lane (R13, R14, R27, R29, R33): the disposition and what the destination test
found are noted, and for PASS the copy is begun with its SOF and its header bytes, the hop raised, as far as the buffer has
room. A length field over 1024 aborts the frame at this byte (R11, R15): the copy of a PASS frame is begun and closed at once,
and consists of SOF, the rewritten header bytes and EOA; an absorbed frame has none. Each header byte before the eighth is
appended and enters the check, and nothing else changes (R9). On the D return lane the same holds with no disposition and no
copy: the eighth byte opens BODY, or, with a length field over 1024, aborts the frame, a relay check error (R21, R169). The other
fields of a record OUTSIDE, and that a character being sent no longer counts among the 64 of the buffer, are the model's choice
(log entries 29 and 30). -/
def Obligations.HeaderEndFixesDispositionAndBeginsCopy : Prop :=
  (∀ (b : Byte) (t : Nat) (s : State), s.On → s.node.link.uLane = .locked t → s.node.link.uRec.phase = .header →
    s.node.link.uRec.hdr.length < 7 →
    let r := s.node.link.uRec
    exec (.characterReceived .u (b.setWidth 9) true) s = .next (s.withNode { s.node with link := { s.node.link with
      uLane := .locked 0, uRec := { r with hdr := r.hdr ++ [b], check := checkByte r.check b } } }))
  ∧ (∀ (b : Byte) (t : Nat) (s : State), s.On → s.node.link.dLane = .locked t → s.node.link.dRec.phase = .header →
    let r := s.node.link.dRec
    let length := 256 * (r.hdr.getD 6 0).toNat + b.toNat
    let m := { s.node with link := { s.node.link with dLane := .locked 0 } }
    let becomes (x : Reception) : Node := { m with link := { m.link with dRec := x } }
    let taken := { r with hdr := r.hdr ++ [b], check := checkByte r.check b }
    (r.hdr.length < 7 → exec (.characterReceived .d (b.setWidth 9) true) s = .next (s.withNode (becomes taken)))
    ∧ (r.hdr.length = 7 → exec (.characterReceived .d (b.setWidth 9) true) s = .next (s.withNode
        (if length ≤ 1024 then becomes { taken with phase := .body }
          else { becomes .outside with
            ret := { s.node.ret with area := [], relayErrors := raiseCounter s.node.ret.relayErrors } }))))
  ∧ ∀ (b : Byte) (t : Nat) (s : State), s.On → s.node.link.uLane = .locked t → s.node.link.uRec.phase = .header →
    s.node.link.uRec.hdr.length = 7 →
    let l := s.node.link
    let h := FwdHeader.ofBytes (l.uRec.hdr ++ [b])
    let isMatch := s.node.fwd.matchesDest h.dest
    let d : Disposition :=
      if h.kind = 0x03 ∧ destMode h.dest = .node ∧ isMatch = true then .absorb
      else if h.kind = 0x02 ∧ h.length.toNat = 5 then .hold
      else .pass
    let m := { s.node with
      link := { l with
        uLane := .locked 0
        uRec := { l.uRec with phase := .body, hdr := l.uRec.hdr ++ [b], check := checkByte l.uRec.check b }
        passage := { l.passage with
          disposition := some d
          matched := if h.kind = 0x01 ∨ h.kind = 0x03 ∨ h.kind = 0x05 then some isMatch else none
          enumNote :=
            if h.kind = 0x05 ∧ h.length.toNat = 2 ∧ isMatch = true then
              some { fill := h.flags.getLsbD 0, address := s.node.fwd.address }
            else none } } }
    let begun := { m with link := { m.link with
      order := l.order ++ [FwdItem.sof], passage := { m.link.passage with copy := .opened } } }
    let passedOn := { h with hop := if h.hop = 255 then 255 else h.hop + 1 }
    (h.length.toNat ≤ 1024 →
      exec (.characterReceived .u (b.setWidth 9) true) s = .next (s.withNode
        (if d = .pass then begun.copyTakes true passedOn.bytes else m)))
    ∧ (1024 < h.length.toNat → l.passage.copy = .absent →
      let still := { s.node with link := { l with uLane := .locked 0 } }
      let opened := { still with link := { still.link with
        order := l.order ++ [FwdItem.sof], passage := { l.passage with copy := .opened } } }
      let k := if d = .absorb then still else opened.copyTakes true passedOn.bytes
      exec (.characterReceived .u (b.setWidth 9) true) s = .next (s.withNode
        { k.frameEnded .eoa with fwd := { k.fwd with aborts := raiseCounter k.fwd.aborts } }))

/-- The bytes after the header of a frame that is not enumerating here (R9, R14, R17): a payload byte is counted, enters the
check and is kept, and an OPEN copy takes it; the first received check byte is only counted; at the second an OPEN copy takes
the two bytes of the outgoing check value in their place, high byte first. That the payload is kept here, and both check
bytes are placed at the second, is the model's reading (log entries 10 and 12). On the D return lane (R9, R21, R169) a payload
byte is counted and enters the check, the first 256 being kept in the relay reception area, and the two check bytes are
counted. That a character being sent no longer counts among the 64 of the buffer is the model's choice (log entry 30). -/
def Obligations.BodyBytesArePassedOn : Prop :=
  (∀ (b : Byte) (t : Nat) (s : State), s.On → s.node.link.dLane = .locked t → s.node.link.dRec.phase = .body →
    let r := s.node.link.dRec
    let area := s.node.ret.area
    let becomes (x : Reception) (kept : List Byte) : Host.Outcome State Fault Refusal :=
      .next (s.withNode { s.node with
        link := { s.node.link with dLane := .locked 0, dRec := x }, ret := { s.node.ret with area := kept } })
    (r.count < r.length → exec (.characterReceived .d (b.setWidth 9) true) s
      = becomes { r with count := r.count + 1, check := checkByte r.check b } (if area.length < 256 then area ++ [b] else area))
    ∧ (r.count = r.length ∨ r.count = r.length + 1 → exec (.characterReceived .d (b.setWidth 9) true) s
      = becomes { r with count := r.count + 1, received := (r.received <<< 8) ||| b.setWidth 16 } area))
  ∧ ∀ (b : Byte) (t : Nat) (s : State), s.On → s.node.link.uLane = .locked t → s.node.link.uRec.phase = .body →
    let l := s.node.link
    let kept := { s.node with link := { l with
      uLane := .locked 0
      uRec := { l.uRec with count := l.uRec.count + 1, check := checkByte l.uRec.check b }
      passage := { l.passage with payload := l.passage.payload ++ [b] } } }
    let noted := { s.node with link := { l with
      uLane := .locked 0
      uRec := { l.uRec with count := l.uRec.count + 1, received := (l.uRec.received <<< 8) ||| b.setWidth 16 } } }
    (l.uRec.count < l.uRec.length → l.passage.enumNote = none →
      exec (.characterReceived .u (b.setWidth 9) true) s = .next (s.withNode (kept.copyTakes true [b])))
    ∧ (l.uRec.count = l.uRec.length → exec (.characterReceived .u (b.setWidth 9) true) s = .next (s.withNode noted))
    ∧ (l.uRec.count = l.uRec.length + 1 →
      exec (.characterReceived .u (b.setWidth 9) true) s = .next (s.withNode
        (noted.copyTakes false [l.passage.outCheck.extractLsb' 8 8, l.passage.outCheck.extractLsb' 0 8])))

/-- The next-address field of an enumerating frame (R34, R35): the first byte is held, and at the second the copy takes both
bytes of the outgoing next-address together: one more than received when the node takes a number, else as received.
That a character being sent no longer counts among the 64 of the buffer is the model's choice (log entry 30). -/
def Obligations.NextAddressIsPassedOnWhole : Prop :=
  ∀ (b : Byte) (t : Nat) (note : EnumNote) (s : State), s.On → s.node.link.uLane = .locked t →
    s.node.link.uRec.phase = .body → s.node.link.uRec.count < s.node.link.uRec.length →
    s.node.link.passage.enumNote = some note →
    let l := s.node.link
    let m := { s.node with link := { l with
      uLane := .locked 0
      uRec := { l.uRec with count := l.uRec.count + 1, check := checkByte l.uRec.check b }
      passage := { l.passage with payload := l.passage.payload ++ [b] } } }
    (l.passage.heldByte = none →
      exec (.characterReceived .u (b.setWidth 9) true) s = .next (s.withNode
        { m with link := { m.link with passage := { m.link.passage with heldByte := some b } } }))
    ∧ ∀ first, l.passage.heldByte = some first →
      let next := word16 first b
      let out := if 1 ≤ next.toNat ∧ next.toNat ≤ 1023 ∧ ¬(note.fill = true ∧ note.address ≠ 0) then next + 1 else next
      exec (.characterReceived .u (b.setWidth 9) true) s = .next (s.withNode
        (({ m with link := { m.link with passage := { m.link.passage with heldByte := none } } } : Node).copyTakes true
          [out.extractLsb' 8 8, out.extractLsb' 0 8]))

/-- The aborts of R11: in HEADER or BODY an IDLE, an EOA, a code error, an EOF that finds fewer than length + 2 bytes, an SOF,
which opens a new frame, and in BODY one byte too many. On the U forward lane the open copy is closed with EOA, and forward
aborts received is raised; on the D return lane the frame is a relay check error and its reception area is released (R21,
R169). The other fields of a record OUTSIDE, and of a fresh one, are the model's choice (log entry 29). -/
def Obligations.ForwardFrameIsAborted : Prop :=
  ∀ (info : BitVec 9) (stop : Bool) (t : Nat) (s : State), s.On →
    let codeError : Bool := !stop || 260 ≤ info.toNat
    let sof : Bool := stop && info = 257
    let lane : LaneState := if codeError then .locked t else .locked 0
    let fresh : Reception := { phase := .header, hdr := [], count := 0, check := 0xFFFF, received := 0, age := 0 }
    let aborts (r : Reception) : Prop := r.phase ≠ .outside
      ∧ (codeError = true ∨ info = 256 ∨ info = 259 ∨ sof = true ∨ (info = 258 ∧ ¬(r.phase = .body ∧ r.count = r.length + 2))
        ∨ (info.toNat < 256 ∧ r.phase = .body ∧ r.length + 2 ≤ r.count))
    (s.node.link.uLane = .locked t → aborts s.node.link.uRec →
      let m := { s.node with link := { s.node.link with uLane := lane } }.frameEnded .eoa
      exec (.characterReceived .u info stop) s = .next (s.withNode { m with
        fwd := { s.node.fwd with aborts := raiseCounter s.node.fwd.aborts }
        link := if sof then { m.link with uRec := fresh } else m.link }))
    ∧ (s.node.link.dLane = .locked t → aborts s.node.link.dRec →
      exec (.characterReceived .d info stop) s = .next (s.withNode { s.node with
        link := { s.node.link with dLane := lane, dRec := if sof then fresh else .outside }
        ret := { s.node.ret with area := [], relayErrors := raiseCounter s.node.ret.relayErrors } }))

/-- A lane silent for 64 character times (R6, R7): a LOCKED lane falls SILENT with lock count 0; a frame in reception on it
is aborted, which closes its copy and is counted on U, and is a relay check error on D; a SILENT lane is not changed. That
the event is taken when commanded is the model's choice (log entry 2), and so are the other fields of a record OUTSIDE (log
entry 29). -/
def Obligations.SilenceDropsTheLaneAndAbortsItsFrame : Prop :=
  ∀ (t : Nat) (s : State), s.On →
    (s.node.link.uLane = .locked t →
      let m := { s.node with link := { s.node.link with uLane := .silent 0 } }
      exec (.laneSilenceTimeout .u) s = .next (s.withNode
        (if s.node.link.uRec.phase = .outside then m
         else { m.frameEnded .eoa with fwd := { s.node.fwd with aborts := raiseCounter s.node.fwd.aborts } })))
    ∧ (s.node.link.dLane = .locked t →
      let m := { s.node with link := { s.node.link with dLane := .silent 0 } }
      exec (.laneSilenceTimeout .d) s = .next (s.withNode
        (if s.node.link.dRec.phase = .outside then m
         else { m with
          link := { m.link with dRec := .outside }
          ret := { s.node.ret with relayErrors := raiseCounter s.node.ret.relayErrors, area := [] } })))
    ∧ ∀ lane k, s.node.link.laneState lane = .silent k → exec (.laneSilenceTimeout lane) s = .next s

/-- The EOF that ends a frame brings about what the frame's row stands for (log entry 5), the silence timer restarting with it.
On the U forward lane that is the frame row of the header, the payload, the received check value and the time since the SOF
(R10, R11); on the D return lane RETURN_FRAME_RECEIVED (R21, R169), where the relay reception area holds the first 256
payload bytes. -/
def Obligations.EofCharacterIsTheFrameRow : Prop :=
  (∀ (kind : Byte) (f : FwdFrame) (elapsed : BitVec 32) (t : Nat) (s : State), s.On → s.node.link.uLane = .locked t →
    s.node.link.uRec =
      { phase := .body, hdr := (headerOf kind f).bytes, count := f.payload.length + 2
        check := checkValue ((headerOf kind f).bytes ++ f.payload), received := f.check, age := elapsed.toNat } →
    s.node.link.passage.payload = f.payload → f.payload.length ≤ 1024 →
    exec (.characterReceived .u 258 true) s
      = exec (frameRow kind f elapsed) (s.withNode { s.node with link := { s.node.link with uLane := .locked 0 } }))
  ∧ ∀ (f : ReturnEnd) (t : Nat) (s : State), s.On → s.node.link.dLane = .locked t → f.whole = true →
    f.payload.length = lengthField f.hdr.toList → f.payload.length ≤ 1024 →
    s.node.link.dRec.phase = .body → s.node.link.dRec.hdr = f.hdr.toList →
    s.node.link.dRec.count = f.payload.length + 2 →
    s.node.link.dRec.check = checkValue (f.hdr.toList ++ f.payload) → s.node.link.dRec.received = f.check →
    s.node.ret.area = f.payload.take 256 →
    exec (.characterReceived .d 258 true) s
      = exec (.returnFrameReceived f) (s.withNode { s.node with link := { s.node.link with dLane := .locked 0 } })

/-! ## The D forward transmitter -/

/-- At the end of an IDLE or of a buffer character other than a held SYNC's SOF (R4, R16, R18), the transmitter takes the next
thing in order: a character of the buffer, or the SOF of the held SYNC in the store. With nothing in order it sends IDLE,
unless it is sending an OPEN copy: that is an underrun, sent as EOA, which closes the copy and is counted. UNDERRUN acts
then and only then: that it is taken when commanded, and that a character leaves the buffer as its sending starts, is the
model's choice (log entries 2 and 30). -/
def Obligations.TransmitterTakesTheNextInOrder : Prop :=
  ∀ s : State, s.On → s.node.link.fwdTx.state ≠ .held →
    (s.node.link.fwdTx.current = .idle ∨ ∃ x, s.node.link.fwdTx.current = .item x ∧ x ≠ .syncSof) →
    let l := s.node.link
    let starving := l.order = [] ∧ l.passage.copy = .opened
      ∧ (l.fwdTx.current = .item .sof ∨ ∃ b, l.fwdTx.current = .item (.data b))
    (∀ x rest, l.order = x :: rest → x ≠ .syncPlace →
      exec .forwardTransmitterCharacter s = .next (s.withNode { s.node with
        link := { l with order := rest, fwdTx := { state := .sending, current := .item x } } }))
    ∧ (∀ rest, l.order = .syncPlace :: rest →
      exec .forwardTransmitterCharacter s = .next (s.withNode { s.node with
        link := { l with fwdTx := { state := .sending, current := .store 0 } } }))
    ∧ (l.order = [] → ¬starving →
      exec .forwardTransmitterCharacter s = .next (s.withNode { s.node with
        link := { l with fwdTx := { state := .idling, current := .idle } } }))
    ∧ (starving → ∀ c, c = .forwardTransmitterCharacter ∨ c = .underrun →
      exec c s = .next (s.withNode { s.node with
        link := { l with
          fwdTx := { state := .sending, current := .item .eoa }, passage := { l.passage with copy := .closed } }
        fwd := { s.node.fwd with overruns := raiseCounter s.node.fwd.overruns } }))
    ∧ (¬starving → exec .underrun s = .next s)

/-- The sending of the held SYNC (R19, R20, R109): as its SOF is sent, its time field becomes the local chain time plus the
line delay compensation and its check value is computed; its other characters follow; when its EOF has been sent the SYNC
store is empty and the next thing in order is taken. A held SYNC placed in the buffer is rewritten in the same way; of one that
an overrun cut short only the time field bytes that were placed are rewritten, and no check value is (R19). That the two SYNC
rows may be commanded ahead of the character boundary, that the bytes of a cut copy else stand, and that a character leaves the
buffer as its sending starts, is the model's choice (log entries 19, 10 and 30). -/
def Obligations.HeldSyncIsSentWithTheTimeOfItsSof : Prop :=
  ∀ s : State, s.On → s.node.link.fwdTx.state ≠ .held →
    let l := s.node.link
    let time := s.node.sched.now + s.node.sched.lineDelay.setWidth 40
    (∀ h, l.store = some h →
      let timed := { h with time := time, check := checkValue (h.hdr.bytes ++ bytes40 time) }
      ∀ c, (l.fwdTx.current = .store 0 ∧ (c = .forwardTransmitterCharacter ∨ c = .heldSyncSofSent))
          ∨ (l.fwdTx.current = .idle ∧ l.order.head? = some .syncPlace ∧ c = .heldSyncSofSent) →
        exec c s = .next (s.withNode { s.node with
          link := { l with store := some timed, fwdTx := { state := .sending, current := .store 1 } } }))
    ∧ (∀ i, 0 < i → i < 16 → l.fwdTx.current = .store i →
      exec .forwardTransmitterCharacter s = .next (s.withNode { s.node with
        link := { l with fwdTx := { state := .sending, current := .store (i + 1) } } }))
    ∧ (∀ i rest, 0 < i → i ≤ 16 → l.fwdTx.current = .store i → l.order = .syncPlace :: rest →
      rest.head? ≠ some .syncPlace →
      ∀ c, (c = .forwardTransmitterCharacter ∧ i = 16) ∨ c = .heldSyncSent →
        exec c s = .next (s.withNode { s.node with
          link := { l with
            store := none, order := rest.drop 1
            fwdTx := match rest with
              | [] => { state := .idling, current := .idle }
              | x :: _ => { state := .sending, current := .item x } } }))
    ∧ ((∀ i, 0 < i → l.fwdTx.current ≠ .store i) → exec .heldSyncSent s = .next s)
    ∧ (∀ (bs : List Byte) (rest : List FwdItem), l.fwdTx.current = .item .syncSof → l.order = bs.map .data
        ++ .eof :: rest → bs.length = 15 →
      let field := bs.take 8 ++ bytes40 time
      let out := field ++ bytes16 (checkValue field)
      ∀ c, c = .forwardTransmitterCharacter ∨ c = .heldSyncSofSent →
        exec c s = .next (s.withNode { s.node with
          link := { l with
            order := (out.drop 1).map .data ++ .eof :: rest
            fwdTx := { state := .sending, current := .item (.data (out.headD 0)) } } }))
    ∧ ∀ (bs : List Byte) (rest : List FwdItem), l.fwdTx.current = .item .syncSof → l.order = bs.map .data
        ++ .eoa :: rest → bs.length < 15 →
      let out := bs.take 8 ++ (bytes40 time).take (bs.length - 8) ++ bs.drop 13
      let cut := out.map .data ++ .eoa :: rest
      ∀ c, c = .forwardTransmitterCharacter ∨ c = .heldSyncSofSent →
        exec c s = .next (s.withNode { s.node with
          link := { l with order := cut.drop 1, fwdTx := { state := .sending, current := .item (cut.headD .eoa) } } })

/-! ## Frames on the U forward lane -/

/-- Frames no block acts on. A length field over 1024 aborts the frame and a wrong check value makes it a check error: its
open copy is closed with EOA and its counter is raised (R10, R11, R12). An accepted frame that R24 hands to no block (an
unknown kind, a SYNC of another length than 5, an ENUMERATE of another length than 2, a DATA, MANAGE or ENUMERATE frame that
does not match) sets the position, its copy ends in EOF, and nothing else happens (R25, R30). That a frame row is the event
of its EOF, a payload over 1024 aborted there, is the model's choice (log entries 5 and 22), and so are the other fields of a
record OUTSIDE (log entry 29). -/
def Obligations.FrameForNoBlockIsCountedOrPassed : Prop :=
  ∀ (kind : Byte) (f : FwdFrame) (elapsed : BitVec 32) (s : State), s.On →
    let isMatch := s.node.link.passage.matched.getD (s.node.fwd.matchesDest f.dest)
    (1024 < f.payload.length → exec (frameRow kind f elapsed) s = .next (s.withNode { s.node.frameEnded .eoa with
      fwd := { s.node.fwd with aborts := raiseCounter s.node.fwd.aborts } }))
    ∧ (f.payload.length ≤ 1024 → f.check ≠ checkValue ((headerOf kind f).bytes ++ f.payload) →
      exec (frameRow kind f elapsed) s = .next (s.withNode { s.node.frameEnded .eoa with
        fwd := { s.node.fwd with checkErrors := raiseCounter s.node.fwd.checkErrors } }))
    ∧ (Genuine f kind →
      (kind = 0 ∨ 5 < kind.toNat ∨ (kind = 0x02 ∧ f.payload.length ≠ 5) ∨ (kind = 0x05 ∧ f.payload.length ≠ 2)
        ∨ ((kind = 0x01 ∨ kind = 0x03 ∨ kind = 0x05) ∧ isMatch = false)) →
      exec (frameRow kind f elapsed) s = .next (s.withNode (s.node.frameArrived f)))

/-- Whatever an accepted frame brings about at the node, a reset included, the position is then its hop as received, and the
reception record is OUTSIDE (R8, R30, R31). That a frame row is the event of its EOF, and the other fields of a record OUTSIDE,
are the model's choice (log entries 5 and 29). -/
def Obligations.AcceptedFrameSetsThePosition : Prop :=
  ∀ (kind : Byte) (f : FwdFrame) (elapsed : BitVec 32) (s : State), s.On → Genuine f kind →
    ∃ n, exec (frameRow kind f elapsed) s = .next (s.withNode n) ∧ n.fwd.position = f.hop ∧ n.link.uRec = .outside
      ∧ n.link.passage = .outside

/-- A matching DATA frame outside FAILSAFE (R85 to R95, R180): supervision is NORMAL with its timer restarted, and each
channel is offered, with origin DATA, the level of the highest-indexed live entry that targets it and is present in the
payload; its last-data record takes the frame's sequence and that level. A channel no present entry targets keeps all it
held. That a frame row is the event of its EOF is the model's choice (log entry 5). -/
def Obligations.DataFrameOffersTheLevelsOfItsWalk : Prop :=
  ∀ (f : FwdFrame) (s : State), s.On → Genuine f 0x01 →
    s.node.link.passage.matched.getD (s.node.fwd.matchesDest f.dest) = true → s.node.sup.state ≠ .failsafe →
    let present (e : ExtEntry) : Bool := e.valid && e.slot.toNat + (if e.wide then 2 else 1) ≤ f.payload.length
    let byte (i : Nat) : Nat := (f.payload.getD i 0).toNat
    let value (e : ExtEntry) : Nat :=
      if e.wide then 256 * byte e.slot.toNat + byte (e.slot.toNat + 1) else 257 * byte e.slot.toNat
    let level (c : Fin 16) : Option (BitVec 16) :=
      (s.node.tables.extraction.toList.reverse.find? fun e => present e && e.targets.getLsbD c).map
        fun e => s.node.tables.levelOf e (value e)
    exec (.dataFrame f) s = .next (s.withNode { s.node.frameArrived f with
      sup := s.node.sup.normal
      ret :=
        if s.node.sup.state = .normal then s.node.ret
        else s.node.ret.supNotice s.node.fwd.address { before := s.node.sup.state, after := .normal }
      out := { s.node.out with
        chans := .ofFn fun c =>
          match level c with
          | some x => { s.node.out.chans[c] with stagedLevel := x, pendingFlag := true, origin := .data }
          | none => s.node.out.chans[c] }
      value := .ofFn fun c =>
        match level c with
        | some x => some { seq := f.seq, level := x }
        | none => s.node.value[c] })

/-- A matching DATA frame in FAILSAFE (R85, R180, R184): the supervision timer restarts. With K 0 the recovery count is 0;
below K it is raised, and the frame is not applied; at K the node is NORMAL with count 0, a notice is handed over, and the
frame acts as in NORMAL. That a frame row is the event of its EOF is the model's choice (log entry 5). -/
def Obligations.DataFrameInFailsafeCountsTowardsRecovery : Prop :=
  ∀ (f : FwdFrame) (s : State), s.On → Genuine f 0x01 →
    s.node.link.passage.matched.getD (s.node.fwd.matchesDest f.dest) = true → s.node.sup.state = .failsafe →
    let u := { s.node.sup with supTimer := some { elapsed := 0, duration := s.node.sup.window.toNat } }
    (s.node.sup.k = 0 →
      exec (.dataFrame f) s = .next (s.withNode { s.node.frameArrived f with sup := { u with recovery := 0 } }))
    ∧ (s.node.sup.recovery.toNat + 1 < s.node.sup.k.toNat →
      exec (.dataFrame f) s = .next (s.withNode { s.node.frameArrived f with
        sup := { u with recovery := s.node.sup.recovery + 1 } }))
    ∧ (s.node.sup.k ≠ 0 → s.node.sup.k.toNat ≤ s.node.sup.recovery.toNat + 1 →
      exec (.dataFrame f) s = exec (.dataFrame f) (s.withNode { s.node with
        sup := { s.node.sup with state := .normal, recovery := 0 }
        ret := s.node.ret.supNotice s.node.fwd.address { before := .failsafe, after := .normal } }))

/-- An accepted SYNC of length 5 (R19, R103 to R106, R160, R180). It becomes the held SYNC, in the empty SYNC store or else
as a copy in the buffer under the overrun rule. The local chain time becomes its time field plus the time since its SOF; from
VALID the step is a time jump, a forward step, none, or a backward step, each with its effect on the queue. Supervision
restarts its timer, and is NORMAL unless in FAILSAFE. Three records may be handed over: SUPERVISION when the state was START or
HOLDOVER (R187), TIME with the step at a time jump (R105), and the sense unit's report of up to 8 of the oldest results, which
leave the log if it is queued (R160). TIME stands before the report (R107); R177 leaves open whether SUPERVISION stands before,
between or after them (a free value, log entry 8). With every notice disabled nothing is reported; with SENSE alone enabled, an
address, a free entry and a result to report, the report is queued. That a frame row is the event of its EOF, that it carries
the time since its SOF, and that a character being sent no longer counts among the 64 of the buffer, is the model's choice (log
entries 5, 21 and 30). -/
def Obligations.SyncFrameSetsTheTimeAndIsHeld : Prop :=
  ∀ (f : FwdFrame) (elapsed : BitVec 32) (a b c d e : Byte) (s : State), s.On → Genuine f 0x02 → f.payload = [a, b, c, d, e] →
    let m := s.node.frameArrived f
    let q := s.node.sched
    let time := word40 a b c d e + elapsed.setWidth 40
    let tick : BitVec 32 := time.extractLsb' 8 32
    let step : Int := (tick - q.tick).toInt
    let set := { q with tick := tick, sub := time.extractLsb' 0 8, time := .valid }
    let held : HeldSync :=
      { hdr := { kind := 0x02, flags := f.flags, dest := f.dest, seq := f.seq,
                 hop := if f.hop = 255 then 255 else f.hop + 1, length := 5 }
        time := word40 a b c d e, check := f.check }
    let room := 64 - dataCount m.link.order
    let jumps := q.time = .valid ∧ q.threshold.toNat < step.natAbs
    let passed := q.queue.takeWhile fun x => !later x.due tick
    let carried := q.queue.filter fun x => 2 ^ 31 ≤ wait x.due tick
    let acting : List CueEntry :=
      if q.time = .invalid ∨ jumps then [] else if 0 < step then passed
      else if step < 0 ∧ q.late = .apply then carried else []
    ∃ n, exec (.syncFrame f elapsed) s = .next (s.withNode n)
      ∧ n.link = (if s.node.link.store = none then
            { m.link with store := some held, order := m.link.order ++ [.syncPlace] }
          else { m.link with
            order := m.link.order ++ [.syncSof] ++ (held.bytes.take room).map .data ++ [if 15 ≤ room then .eof else .eoa] })
      ∧ n.fwd = (if s.node.link.store = none ∨ 15 ≤ room then m.fwd
          else { m.fwd with overruns := raiseCounter m.fwd.overruns })
      ∧ n.sched = (if q.time = .invalid then set
          else if jumps then
            { set with queue := [], timeJump := true, flushes := if q.queue = [] then q.flushes else raiseCounter q.flushes }
          else if 0 < step then { set with queue := q.queue.dropWhile fun x => !later x.due tick }
          else if step < 0 then
            { set with
              queue := q.queue.filter fun x => !decide (2 ^ 31 ≤ wait x.due tick)
              lateDrops := if q.late = .drop then raiseTimes carried.length q.lateDrops else q.lateDrops }
          else set)
      ∧ n.out = acting.foldl (fun o x => o.acts (s.node.sup.state = .failsafe) x) s.node.out
      ∧ n.sup = (if s.node.sup.state = .failsafe then
            { s.node.sup with supTimer := some { elapsed := 0, duration := s.node.sup.window.toNat } }
          else s.node.sup.normal)
      ∧ n.tables = s.node.tables ∧ n.value = s.node.value ∧ n.cmd = s.node.cmd ∧ n.clock = s.node.clock
      ∧ (let address := s.node.fwd.address
        let supervision (x : ReturnUnit × Sense) : ReturnUnit × Sense :=
          if s.node.sup.state = .start ∨ s.node.sup.state = .holdover then
            (x.1.supNotice address { before := s.node.sup.state, after := .normal }, x.2)
          else x
        let jump (x : ReturnUnit × Sense) : ReturnUnit × Sense :=
          if jumps then (x.1.timeNotice address (tick - q.tick), x.2) else x
        let report (x : ReturnUnit × Sense) : ReturnUnit × Sense :=
          if x.1.enable.getLsbD 2 = true ∧ address ≠ 0 ∧ x.2.log ≠ [] then
            (x.1.notice address .sense (byteOf (x.2.log.take 8).length :: (x.2.log.take 8).flatMap LogEntry.bytes),
              if x.1.localQ.length < 8 then { x.2 with log := x.2.log.drop 8 } else x.2)
          else x
        let found := (s.node.ret, s.node.sense)
        (n.ret, n.sense) = report (jump (supervision found)) ∨ (n.ret, n.sense) = report (supervision (jump found))
          ∨ (n.ret, n.sense) = supervision (report (jump found)))
      ∧ (s.node.ret.enable = 0 → n.ret = s.node.ret ∧ n.sense = s.node.sense)
      ∧ (s.node.ret.enable = 4 → s.node.fwd.address ≠ 0 → s.node.ret.localQ.length < 8 → s.node.sense.log ≠ [] →
        let carriedLog := s.node.sense.log.take 8
        n.sense = { s.node.sense with log := s.node.sense.log.drop 8 }
          ∧ n.ret = { s.node.ret with localQ := s.node.ret.localQ ++ [
            { frame :=
                { kind := 0x82, flags := 0, source := s.node.fwd.address.setWidth 16, seq := 0, count := 1
                  payload := [2, byteOf (1 + 11 * carriedLog.length), byteOf carriedLog.length]
                    ++ carriedLog.flatMap LogEntry.bytes }
              sending := false }] })

/-- A CUE frame (R28, R111, R112, R113, R117): its payload is a run of cue records, up to where parsing ends; every payload is
such a run, and what stands after it is not looked at. The records are taken in payload order, each judged against the queue
and the outputs as those before it have left them. One whose destination does not match is passed over; a matching one is
judged by the first line of Table 6-3 that fits it, and is refused, executed at once, discarded as late, or queued behind every
entry not due later. A SET LEVEL executed offers its level to its channels with origin CUE, unless in FAILSAFE; START sets the
mark of the groups named that are IDLE, STOP stops and FIRE triggers the groups named (R118). That a frame row is the event of
its EOF is the model's choice (log entry 5). -/
def Obligations.CueRecordIsJudgedByTable6_3 : Prop :=
  (∀ payload : List Byte, ∃ (rs : List CueOnWire) (tail : List Byte),
    payload = rs.flatMap CueOnWire.bytes ++ tail ∧ EndsCues tail)
  ∧ (∀ (f : FwdFrame) (rs : List CueOnWire) (tail : List Byte) (s : State), s.On → Genuine f 0x04 →
    f.payload = rs.flatMap CueOnWire.bytes ++ tail → EndsCues tail →
    let judged (m : Node) (r : CueOnWire) : Node :=
      let q := m.sched
      let refused := { m with sched := { q with refusals := raiseCounter q.refusals } }
      let executed := { m with out := m.out.acts (s.node.sup.state = .failsafe) r.entry }
      if s.node.fwd.matchesDest r.dest = false then m
      else if q.time = .invalid then refused
      else if r.due = q.tick then executed
      else if later r.due q.tick = false then
        if q.late = .drop then { m with sched := { q with lateDrops := raiseCounter q.lateDrops } } else executed
      else if 32 ≤ q.queue.length then refused
      else
        { m with sched := { q with
            queue := (q.queue.takeWhile fun x => wait x.due q.tick ≤ wait r.due q.tick) ++ r.entry ::
              q.queue.dropWhile fun x => wait x.due q.tick ≤ wait r.due q.tick } }
    exec (.cueFrame f) s = .next (s.withNode (rs.foldl judged (s.node.frameArrived f))))
  ∧ ∀ (r : CueOnWire) (inFailsafe : Bool) (o : Output),
    let named (g : Fin 4) : Bool := r.targets.getLsbD g
    (r.action = .setLevel → o.acts inFailsafe r.entry = if inFailsafe then o else { o with
        chans := .ofFn fun c =>
          if r.targets.getLsbD c then { o.chans[c] with stagedLevel := r.level, pendingFlag := true, origin := .cue }
          else o.chans[c] })
    ∧ (r.action = .start → o.acts inFailsafe r.entry = { o with
        groups := .ofFn fun g => if named g && o.groups[g].state = .idle then { o.groups[g] with mark := true } else o.groups[g] })
    ∧ (r.action = .stop → o.acts inFailsafe r.entry = o.stops named)
    ∧ (r.action = .fire → o.acts inFailsafe r.entry = o.fires named)

/-- An enumerating frame (R34, R36, R37, R52): a next-address of 1 to 1023 is taken, unless FILL was set at the header of a
node that had an address; a change of address empties the response cache; any other next-address sets ENUMERATION OVERRUN.
That a frame row is the event of its EOF is the model's choice (log entry 5). -/
def Obligations.EnumeratingFrameGivesTheAddress : Prop :=
  ∀ (f : FwdFrame) (a b : Byte) (s : State), s.On → Genuine f 0x05 → f.payload = [a, b] →
    s.node.link.passage.matched.getD (s.node.fwd.matchesDest f.dest) = true →
    let note := s.node.link.passage.enumNote.getD { fill := f.flags.getLsbD 0, address := s.node.fwd.address }
    let next := word16 a b
    let m := s.node.frameArrived f
    exec (.enumerateFrame f) s = .next (s.withNode
      (if ¬(1 ≤ next.toNat ∧ next.toNat ≤ 1023) then { m with fwd := { m.fwd with enumOverrun := true } }
        else if note.fill = true ∧ note.address ≠ 0 then m
        else
          { m with
            fwd := { m.fwd with address := next.setWidth 10 }
            cmd := { s.node.cmd with
              cache := if next.setWidth 10 = s.node.fwd.address then s.node.cmd.cache else none } }))

/-! ## MANAGE frames -/

/-- An answered MANAGE frame that finds no free entry is refused busy and counted; one that repeats the last sequence
accepted while the cache is filled is answered with the cached frame, and no record runs (R49, R51, R53). That a frame row is
the event of its EOF is the model's choice (log entry 5). -/
def Obligations.BusyRefusalAndReplay : Prop :=
  ∀ (f : FwdFrame) (s : State), s.On → Genuine f 0x03 → destMode f.dest = .node →
    s.node.link.passage.matched.getD (s.node.fwd.matchesDest f.dest) = true →
    (8 ≤ s.node.ret.localQ.length →
      exec (.manageFrame f) s = .next (s.withNode { s.node.frameArrived f with
        cmd := { s.node.cmd with busy := raiseCounter s.node.cmd.busy } }))
    ∧ ∀ r, s.node.ret.localQ.length < 8 → f.seq ≠ 0 → s.node.cmd.lastSeq = some f.seq → s.node.cmd.cache = some r →
      exec (.manageFrame f) s = .next (s.withNode { s.node.frameArrived f with
        ret := { s.node.ret with localQ := s.node.ret.localQ ++ [{ frame := r, sending := false }] } })

/-- An answered MANAGE frame that is executed puts exactly one response in the local response queue, whatever its records are
(R46, R47, R50): it stands next behind the frames already queued, ahead of every notice its records raised, has kind 81h, the
address held while the records ran and the frame's sequence, and holds at most 240 payload bytes. Its result records are those
of `Run.over`: the frame's records taken in payload order, with STOP-ON-ERROR and SKIPPED (R43), UNKNOWN_COMMAND (R44), NO_ROOM
and TRUNCATED (R47, R48) and a record that runs past the payload (R41); every payload is such records. Opcodes and allowances
are those of Table 12-11; every other opcode names no command. An unanswered frame runs its records in the same way, with no
room to test and no response (R45). That a frame row is the event of its EOF, and that the position is the frame's own hop
before its records run, is the model's choice (log entries 5 and 31). -/
def Obligations.ExecutedFrameQueuesOneResponse : Prop :=
  (∀ c : Command, (c.opcode.toNat, c.allowance) = match c with
      | .identify => (0x01, 19)
      | .status => (0x02, 35)
      | .resetNode => (0x03, 4)
      | .setGroups => (0x04, 8)
      | .tableOpen => (0x10, 11)
      | .tableData => (0x11, 8)
      | .tableClose => (0x12, 11)
      | .tableRead => (0x13, 163)
      | .bankSwap => (0x14, 4)
      | .configureTime => (0x20, 8)
      | .cueCancel => (0x21, 5)
      | .cueFlush => (0x22, 4)
      | .cueList => (0x23, 170)
      | .configureGroup => (0x30, 18)
      | .startGroups => (0x31, 7)
      | .stopGroups => (0x32, 7)
      | .fireGroups => (0x33, 7)
      | .configureChannel => (0x34, 10)
      | .groupState => (0x35, 24)
      | .channelState => (0x36, 18)
      | .configureSense => (0x40, 11)
      | .senseRead => (0x41, 97)
      | .configureNotices => (0x50, 4)
      | .configureSupervision => (0x51, 9)
      | .recover => (0x52, 5))
  ∧ (∀ (b : Byte) (c : Command), Command.ofOpcode b = some c ↔ c.opcode = b)
  ∧ (∀ (f : FwdFrame) (s : State), s.On → s.node.fwd.Sound → Genuine f 0x03 → destMode f.dest = .node →
    s.node.link.passage.matched.getD (s.node.fwd.matchesDest f.dest) = true → s.node.ret.localQ.length < 8 →
    ¬(f.seq ≠ 0 ∧ s.node.cmd.lastSeq = some f.seq ∧ s.node.cmd.cache ≠ none) →
    ∃ n r notices, exec (.manageFrame f) s = .next (s.withNode n)
      ∧ n.ret.localQ = s.node.ret.localQ ++ { frame := r, sending := false } :: notices
      ∧ r.kind = 0x81 ∧ r.source = s.node.fwd.address.setWidth 16 ∧ r.seq = f.seq ∧ r.payload.length ≤ 240
      ∧ (∀ x ∈ notices, x.frame.kind = 0x82)
      ∧ n.cmd.lastSeq = if f.seq = 0 then s.node.cmd.lastSeq else some f.seq)
  ∧ (∀ payload : List Byte, ∃ rs tail, IsRecords payload rs tail)
  ∧ ∀ (f : FwdFrame) (rs : List (Byte × List Byte)) (tail : List Byte) (s : State), s.On → Genuine f 0x03 →
    IsRecords f.payload rs tail →
    s.node.link.passage.matched.getD (s.node.fwd.matchesDest f.dest) = true →
    let m := s.node.frameArrived f
    let stopOnError := f.flags.getLsbD 0
    (destMode f.dest ≠ .node →
      let x := Run.over false stopOnError m rs tail
      exec (.manageFrame f) s = .next (s.withNode (x.node.applyReset x.reset)))
    ∧ (destMode f.dest = .node → s.node.ret.localQ.length < 8 →
      ¬(f.seq ≠ 0 ∧ s.node.cmd.lastSeq = some f.seq ∧ s.node.cmd.cache ≠ none) →
      let taken := { m with ret := { m.ret with localQ := m.ret.localQ ++ [{ frame := reserved, sending := false }] } }
      let x := Run.over true stopOnError taken rs tail
      let r : RetFrame :=
        { kind := 0x81, flags := if x.truncated then 1 else 0, source := s.node.fwd.address.setWidth 16, seq := f.seq
          count := byteOf x.count, payload := x.out }
      let answered := { x.node with
        ret := { x.node.ret with
          localQ := x.node.ret.localQ.set s.node.ret.localQ.length { frame := r, sending := false } }
        cmd := if f.seq = 0 then x.node.cmd else { x.node.cmd with lastSeq := some f.seq, cache := some r } }
      exec (.manageFrame f) s = .next (s.withNode (answered.applyReset x.reset)))

/-- A MANAGE frame of one record (R41, R44 to R46, R50, R51, R59): unanswered, the record runs and its reset then takes
effect; answered, the record runs with the response's entry already taken, the response carries its result record, a nonzero
sequence caches it, and then the reset takes effect. That a frame row is the event of its EOF, and that the position is the
frame's own hop before its record runs, is the model's choice (log entries 5 and 31). -/
def Obligations.OneRecordFrameRunsItsCommand : Prop :=
  ∀ (f : FwdFrame) (c : Command) (p : List Byte) (s : State), s.On → Genuine f 0x03 → p.length ≤ 255 →
    f.payload = c.opcode :: byteOf p.length :: p →
    s.node.link.passage.matched.getD (s.node.fwd.matchesDest f.dest) = true →
    (destMode f.dest ≠ .node →
      let x := runCommand c p (s.node.frameArrived f)
      exec (.manageFrame f) s = .next (s.withNode (x.node.applyReset x.reset)))
    ∧ (destMode f.dest = .node → s.node.ret.localQ.length < 8 →
      ¬(f.seq ≠ 0 ∧ s.node.cmd.lastSeq = some f.seq ∧ s.node.cmd.cache ≠ none) →
      let m := s.node.frameArrived f
      let taken := { m with ret := { m.ret with localQ := m.ret.localQ ++ [{ frame := reserved, sending := false }] } }
      let x := runCommand c p taken
      let r : RetFrame :=
        { kind := 0x81, flags := 0, source := s.node.fwd.address.setWidth 16, seq := f.seq, count := 1
          payload := [c.opcode, x.reply.status.code, byteOf x.reply.data.length] ++ x.reply.data }
      let answered := { x.node with
        ret := { x.node.ret with
          localQ := x.node.ret.localQ.set s.node.ret.localQ.length { frame := r, sending := false } }
        cmd := if f.seq = 0 then x.node.cmd else { x.node.cmd with lastSeq := some f.seq, cache := some r } }
      exec (.manageFrame f) s = .next (s.withNode (answered.applyReset x.reset)))

/-! ## Common commands -/

/-- IDENTIFY and STATUS (R55, R56, R58) report what the blocks hold and, but for CLEAR, change nothing. CLEAR sets the eleven
counters to zero and clears the three sticky flags; its report holds the values from before. A control byte with another bit
set is OUT_OF_RANGE, and nothing is cleared. That a record row is the one record of an unanswered frame, its result shown, is
the model's choice (log entry 7). -/
def Obligations.IdentifyAndStatusReport : Prop :=
  ∀ s : State, s.On →
    let n := s.node
    let flag (b : Bool) (v : Nat) : Nat := if b then v else 0
    let counters : List Counter :=
      [n.fwd.checkErrors, n.fwd.aborts, n.fwd.overruns, n.cmd.busy, n.ret.relayDrops, n.ret.relayErrors,
       n.ret.noticeLosses, n.sched.refusals, n.sched.lateDrops, n.sched.flushes, n.sense.losses]
    let report : List Byte :=
      [n.sup.state.code, n.sched.time.code, byteOf (flag n.link.uLane.isLocked 1 + flag n.link.dLane.isLocked 2),
       byteOf (n.link.fwdTx.state.code.toNat + 4 * n.link.retTx.state.code.toNat),
       byteOf (flag n.tables.session.isOpen 1), n.tables.session.table.code, n.tables.session.reason.code,
       byteOf n.sched.queue.length, byteOf n.sense.log.length,
       byteOf (flag n.fwd.enumOverrun 1 + flag n.out.clip 2 + flag n.sched.timeJump 4)]
      ++ counters.flatMap bytes16
    let cleared := { n with
      fwd := { n.fwd with checkErrors := 0, aborts := 0, overruns := 0, enumOverrun := false }
      cmd := { n.cmd with busy := 0 }
      ret := { n.ret with relayDrops := 0, relayErrors := 0, noticeLosses := 0 }
      sched := { n.sched with refusals := 0, lateDrops := 0, flushes := 0, timeJump := false }
      sense := { n.sense with losses := 0 }
      out := { n.out with clip := false } }
    exec (.identify []) s = .next (s.withResult n 0x01 .ok
        ([0x0A, 0x16, 0x01] ++ bytes16 (n.fwd.address.setWidth 16) ++ [n.fwd.position, byteOf n.fwd.groups.length]
          ++ n.fwd.groups ++ [16, 4, 4, 32, 16]))
      ∧ exec (.status none []) s = .next (s.withResult n 0x02 .ok report)
      ∧ exec (.status (some 0) []) s = .next (s.withResult n 0x02 .ok report)
      ∧ exec (.statusClear 0 []) s = .next (s.withResult cleared 0x02 .ok report)
      ∧ ∀ other : BitVec 7, other ≠ 0 → ∀ c, c = .status (some other) [] ∨ c = .statusClear other [] →
        exec c s = .next (s.withResult n 0x02 .outOfRange [])

/-- A command record whose parameter length is not one its command accepts gives BAD_LENGTH with no data, and changes nothing
(R44, and the lengths each command's rule gives). That a record row is the one record of an unanswered frame, its result
shown, is the model's choice (log entry 7). -/
def Obligations.UnacceptedLengthGivesBadLength : Prop :=
  ∀ (p : List Byte) (hi : BitVec 7) (s : State), s.On →
    let bad (c : Instr) (opcode : Byte) : Prop := exec c s = .next (s.withResult s.node opcode .badLength [])
    let l := p.length
    (l ≠ 0 → bad (.identify p) 0x01 ∧ bad (.status (some hi) p) 0x02 ∧ bad (.statusClear hi p) 0x02
        ∧ bad (.resetNodeOutputs p) 0x03 ∧ bad (.resetNodeFull p) 0x03 ∧ bad (.resetNodeFactory p) 0x03
        ∧ bad (.setGroupsClear p) 0x04 ∧ bad (.tableClose hi p) 0x12 ∧ bad (.tableCloseSwap hi p) 0x12
        ∧ bad (.cueFlush p) 0x22 ∧ bad (.recover p) 0x52)
      ∧ (l ≠ 1 → bad (.setGroupsAdd p) 0x04 ∧ bad (.setGroupsRemove p) 0x04 ∧ bad (.bankSwap p) 0x14
        ∧ bad (.cueCancel p) 0x21 ∧ bad (.startGroups p) 0x31 ∧ bad (.stopGroups p) 0x32 ∧ bad (.fireGroups p) 0x33
        ∧ bad (.groupState p) 0x35 ∧ bad (.channelState p) 0x36 ∧ bad (.senseRead p) 0x41)
      ∧ (l = 0 → bad (.tableData p) 0x11)
      ∧ (l ≠ 2 → bad (.cueList p) 0x23)
      ∧ (l ≠ 3 → bad (.tableOpen p) 0x10)
      ∧ (l ≠ 4 → bad (.tableRead p) 0x13)
      ∧ (l ≠ 0 ∧ l ≠ 1 → bad (.configureNotices p) 0x50)
      ∧ (l ≠ 0 ∧ l ≠ 5 → bad (.configureTime p) 0x20)
      ∧ (l ≠ 0 ∧ l ≠ 6 → bad (.configureSupervision p) 0x51)
      ∧ (l ≠ 1 ∧ l ≠ 5 → bad (.configureChannel p) 0x34)
      ∧ (l ≠ 1 ∧ l ≠ 8 → bad (.configureGroup p) 0x30 ∧ bad (.configureSense p) 0x40)

/-- RESET NODE by scope (R59, Table 3-7): OUTPUTS closes the session, clears the last-data records, flushes the cue queue and
stops the outputs, keeping every setting; FULL gives every setting, table, counter and flag its reset value and keeps
address, group set, position, last sequence, chain time and the queues of the return unit; FACTORY also makes the node
unaddressed and empties the group set. No scope reaches the link ports. A scope byte above 2, which no row of the table names,
is OUT_OF_RANGE with no data, and resets nothing. That a record row is the one record of an unanswered frame, its result shown,
and a frame row the event of its EOF, is the model's choice (log entries 7 and 5). -/
def Obligations.ResetNodeResetsItsScope : Prop :=
  (∀ (f : FwdFrame) (c : Byte) (s : State), s.On → Genuine f 0x03 → f.payload = [0x03, 1, c] → 2 < c.toNat →
    s.node.link.passage.matched.getD (s.node.fwd.matchesDest f.dest) = true →
    (destMode f.dest ≠ .node → exec (.manageFrame f) s = .next (s.withNode (s.node.frameArrived f)))
    ∧ (destMode f.dest = .node → s.node.ret.localQ.length < 8 →
      ¬(f.seq ≠ 0 ∧ s.node.cmd.lastSeq = some f.seq ∧ s.node.cmd.cache ≠ none) →
      exec (.manageFrame f) s = .next (s.withNode (s.node.answers f 1 [0x03, 3, 0]))))
  ∧ ∀ s : State, s.On →
    let n := s.node
    let x := n.tables.session
    let session := { x with
      isOpen := false, bank := none, partialBytes := [], idle := 0, swapped := false, reason := .reset
      discarded := if x.isOpen then x.partialBytes.length else x.discarded }
    let r := State.reset.node
    let full := { n with
      fwd := { n.fwd with checkErrors := 0, aborts := 0, overruns := 0, enumOverrun := false }
      cmd := { n.cmd with cache := none, busy := 0 }
      tables := { r.tables with session := session }
      value := r.value
      sched := { r.sched with tick := n.sched.tick, sub := n.sched.sub }
      out := r.out
      sense := r.sense
      ret := { n.ret with enable := 0, relayDrops := 0, relayErrors := 0, noticeLosses := 0 }
      sup := r.sup }
    exec (.resetNodeOutputs []) s = .next (s.withResult
        { n with
          tables := { n.tables with session := session }
          value := r.value
          sched := { n.sched with queue := [] }
          out := { n.out with
            groups := .ofFn fun g => { n.out.groups[g] with
              state := .idle, mark := false, count := 0, missed := 0, active := n.out.groups[g].staged }
            chans := .ofFn fun c => { n.out.chans[c] with
              activeOffset := n.out.chans[c].stagedOffset, compare := 0, stagedLevel := 0, pendingFlag := false
              origin := .none, lastActive := 0 } } }
        0x03 .ok [0])
      ∧ exec (.resetNodeFull []) s = .next (s.withResult full 0x03 .ok [1])
      ∧ exec (.resetNodeFactory []) s = .next (s.withResult
        { full with fwd := { full.fwd with address := 0, groups := [] } } 0x03 .ok [2])

/-- SET GROUPS (R39, R40): a query changes nothing; CLEAR empties the set; ADD and REMOVE follow the table of R40, a group
number of 0 being OUT_OF_RANGE. The result is the set after the record, a count and the members in ascending order. An
operation code above 2, which no row of the table names, is OUT_OF_RANGE with length 1 or 2 alike, and changes nothing. That a
record row is the one record of an unanswered frame, its result shown, and a frame row the event of its EOF, is the model's
choice (log entries 7 and 5). -/
def Obligations.SetGroupsFollowsItsTable : Prop :=
  (∀ (f : FwdFrame) (op g : Byte) (s : State), s.On → Genuine f 0x03 →
    f.payload = [0x04, 1, op] ∨ f.payload = [0x04, 2, op, g] → 2 < op.toNat →
    s.node.link.passage.matched.getD (s.node.fwd.matchesDest f.dest) = true →
    let gs := s.node.fwd.groups
    (destMode f.dest ≠ .node → exec (.manageFrame f) s = .next (s.withNode (s.node.frameArrived f)))
    ∧ (destMode f.dest = .node → s.node.ret.localQ.length < 8 →
      ¬(f.seq ≠ 0 ∧ s.node.cmd.lastSeq = some f.seq ∧ s.node.cmd.cache ≠ none) →
      exec (.manageFrame f) s = .next (s.withNode
        (s.node.answers f 1 ([0x04, 3, byteOf (gs.length + 1), byteOf gs.length] ++ gs)))))
  ∧ ∀ (g : Byte) (s : State), s.On → s.node.fwd.Sound →
    let gs := s.node.fwd.groups
    let holds (c : Instr) (status : Status) (after : List Byte) : Prop :=
      exec c s = .next (s.withResult { s.node with fwd := { s.node.fwd with groups := after } } 0x04 status
        (byteOf after.length :: after))
    holds .setGroupsQuery .ok gs
      ∧ holds (.setGroupsClear []) .ok []
      ∧ (if g = 0 then holds (.setGroupsAdd [g]) .outOfRange gs
        else if g ∈ gs then holds (.setGroupsAdd [g]) .ok gs
        else if gs.length < 4 then
          holds (.setGroupsAdd [g]) .ok (gs.filter (fun x => x.toNat < g.toNat) ++ g :: gs.filter fun x => g.toNat < x.toNat)
        else holds (.setGroupsAdd [g]) .full gs)
      ∧ (if g = 0 then holds (.setGroupsRemove [g]) .outOfRange gs
        else if g ∈ gs then holds (.setGroupsRemove [g]) .ok (gs.filter (· ≠ g))
        else holds (.setGroupsRemove [g]) .notFound gs)

/-! ## Tables -/

/-- TABLE OPEN (R68 to R71): an unsuitable table id or window changes nothing. Otherwise an open session is superseded, its
partial bytes counted and dropped, and a session opens at the window's start, on a curve writing its inactive bank; the
result tells what the superseded session had stored. That a record row is the one record of an unanswered frame, its result
shown, is the model's choice (log entry 7). -/
def Obligations.TableOpenOpensASession : Prop :=
  ∀ (table : TableId) (id start count : Byte) (s : State), s.On →
    let x := s.node.tables.session
    let entries : Nat := match table with
      | .extraction => 32
      | .curve _ => 33
      | .failsafe => 16
    let bank : Option Bank := match table with
      | .curve c => some (if s.node.tables.curves[c].active = .a then .b else .a)
      | .extraction | .failsafe => none
    (5 < id.toNat → exec (.tableOpen [id, start, count]) s = .next (s.withResult s.node 0x10 .outOfRange []))
      ∧ (id = table.code → count = 0 ∨ entries < start.toNat + count.toNat →
        exec (.tableOpen [id, start, count]) s = .next (s.withResult s.node 0x10 .outOfRange []))
      ∧ (id = table.code → count ≠ 0 → start.toNat + count.toNat ≤ entries →
        exec (.tableOpen [id, start, count]) s = .next (s.withResult
          { s.node with tables := { s.node.tables with
            session :=
              { isOpen := true, table := table, bank := bank, start := start.toNat, count := count.toNat
                cursor := start.toNat, partialBytes := [], written := 0, wraps := 0, idle := 0
                discarded := if x.isOpen then x.partialBytes.length else x.discarded
                swapped := if x.isOpen then false else x.swapped
                reason := if x.isOpen then .superseded else x.reason } } }
          0x10 .ok
          (bankCode bank :: if x.isOpen then
              [1, x.table.code] ++ bytes16 x.written ++ bytes16 x.wraps ++ [byteOf x.partialBytes.length]
            else [0, 0, 0, 0, 0, 0, 0])))

/-- One entry of TABLE DATA (R65, R72 to R74, R76). A record that leaves the entry short only adds to the partial buffer; one
that completes it validates it and writes it at the cursor, into the bank written for a curve; the cursor advances and wraps
at the window's end. A bad entry is not written, and its bytes are dropped. Every executed record restarts the idle timer;
with no session open it is NO_SESSION. That a record row is the one record of an unanswered frame, its result shown, is the
model's choice (log entry 7). -/
def Obligations.TableDataWritesAnEntry : Prop :=
  ∀ (p : List Byte) (s : State), s.On → p ≠ [] →
    let t := s.node.tables
    let x := t.session
    let bytes := x.partialBytes ++ p
    let next := if x.cursor + 1 < x.start + x.count then x.cursor + 1 else x.start
    let advanced := { x with
      partialBytes := [], idle := 0, written := raiseCounter x.written, cursor := next
      wraps := if x.cursor + 1 < x.start + x.count then x.wraps else raiseCounter x.wraps }
    let wrote (u : Tables) : Prop :=
      exec (.tableData p) s = .next (s.withResult { s.node with tables := { u with session := advanced } } 0x11 .ok
        [1, byteOf next, 0, 0xFF, 0])
    let failed (cause : Byte) : Prop :=
      exec (.tableData p) s = .next (s.withResult
        { s.node with tables := { t with session := { x with partialBytes := [], idle := 0 } } } 0x11 .badEntry
        [0, byteOf x.cursor, 0, byteOf x.cursor, cause])
    (x.isOpen = false → exec (.tableData p) s = .next (s.withResult s.node 0x11 .noSession []))
      ∧ (x.isOpen = true → bytes.length < x.table.entrySize →
        exec (.tableData p) s = .next (s.withResult
          { s.node with tables := { t with session := { x with partialBytes := bytes, idle := 0 } } } 0x11 .ok
          [0, byteOf x.cursor, byteOf bytes.length, 0xFF, 0]))
      ∧ (x.isOpen = true → x.table = .extraction → ∀ c s1 s0 t1 t0, bytes = [c, s1, s0, t1, t0] →
        let e : ExtEntry :=
          { valid := c.getLsbD 7, wide := c.getLsbD 3, curve := c.extractLsb' 0 3, slot := word16 s1 s0
            targets := word16 t1 t0 }
        if e.valid = true ∧ e.targets = 0 then failed 1
        else if e.valid = true ∧ 4 ≤ e.curve.toNat ∧ e.curve ≠ 7 then failed 2
        else if e.valid = true ∧ (if e.wide then 1022 else 1023) < e.slot.toNat then failed 3
        else wrote { t with extraction := t.extraction.setIfInBounds x.cursor e })
      ∧ (∀ (c : Fin 4) (bank : Bank) (h l : Byte), x.isOpen = true → x.table = .curve c →
        x.bank = some bank → bytes = [h, l] →
        let u := t.curves[c]
        wrote { t with
          curves := t.curves.set c
            (if bank = .a then { u with bankA := u.bankA.setIfInBounds x.cursor (word16 h l) }
             else { u with bankB := u.bankB.setIfInBounds x.cursor (word16 h l) }) })
      ∧ (x.isOpen = true → x.table = .failsafe → ∀ k h l, bytes = [k, h, l] →
        let kind : FsKind := if k = 0 then .off else if k = 1 then .hold else .level
        if 2 < k.toNat then failed 4
        else wrote { t with failsafe := t.failsafe.setIfInBounds x.cursor { kind := kind, level := word16 h l } })

/-- A TABLE DATA record of many bytes, and an entry that straddles records (R72 to R76): with a session open, a record `p ++ q`
does what `p` and `q` do one after the other. When `p` alone ends with OK, its result is that of `q`, but that it counts the
entries `p` wrote too; when `p` alone ends with BAD_ENTRY the bytes `q` are discarded, and the result is that of `p`. A record
thus does what its entries do one by one, each as TableDataWritesAnEntry says. That a record row is the one record of an
unanswered frame, its result shown, is the model's choice (log entry 7). -/
def Obligations.EntriesStraddleRecords : Prop :=
  ∀ (p q : List Byte) (s : State), s.On → s.node.tables.session.isOpen = true → p ≠ [] → q ≠ [] →
    ∃ (t u : State) (wp wq : Byte) (dp dq : List Byte) (ep eq : Status),
      exec (.tableData p) s = .next t ∧ exec (.tableData q) t = .next u
      ∧ t.node.shown = some { opcode := 0x11, status := ep, data := wp :: dp }
      ∧ u.node.shown = some { opcode := 0x11, status := eq, data := wq :: dq }
      ∧ (ep = .ok ∨ ep = .badEntry)
      ∧ (ep = .ok → exec (.tableData (p ++ q)) s = .next (s.withResult u.node 0x11 eq ((wp + wq) :: dq)))
      ∧ (ep = .badEntry → exec (.tableData (p ++ q)) s = .next t)

/-- TABLE CLOSE and the session's expiry (R77 to R79). The open session closes with its partial bytes counted and dropped;
SWAP flips the marker of the session's curve, and is OUT_OF_RANGE for another table, which closes all the same; the result is
the summary. With no session open TABLE CLOSE is NO_SESSION with the last summary, and nothing expires. That a record row is
the one record of an unanswered frame, and that an expiry is taken when commanded, is the model's choice (log entries 2 and
7), and that the bank of a closed session is none its reading (log entry 11). -/
def Obligations.SessionCloses : Prop :=
  ∀ (hi : BitVec 7) (s : State), s.On →
    let t := s.node.tables
    let x := t.session
    let closed (swapped : Bool) (reason : CloseReason) : Session := { x with
      isOpen := false, bank := none, discarded := x.partialBytes.length, partialBytes := [], idle := 0
      swapped := swapped, reason := reason }
    let summary (y : Session) : List Byte :=
      [y.table.code] ++ bytes16 y.written ++ bytes16 y.wraps ++ [byteOf y.discarded, if y.swapped then 1 else 0, y.reason.code]
    let ends (c : Instr) (status : Status) (y : Session) : Prop :=
      exec c s = .next (s.withResult { s.node with tables := { t with session := y } } 0x12 status (summary y))
    (x.isOpen = true →
      ends (.tableClose hi []) .ok (closed false .closed)
        ∧ (∀ c : Fin 4, x.table = .curve c →
          exec (.tableCloseSwap hi []) s = .next (s.withResult
            { s.node with tables := { t with
              curves := t.curves.set c { t.curves[c] with active := if t.curves[c].active = .a then .b else .a }
              session := closed true .closed } }
            0x12 .ok (summary (closed true .closed))))
        ∧ (x.table = .extraction ∨ x.table = .failsafe → ends (.tableCloseSwap hi []) .outOfRange (closed false .closed))
        ∧ exec .sessionExpiry s = .next (s.withNode { s.node with tables := { t with session := closed false .expired } }))
      ∧ (x.isOpen = false →
        ends (.tableClose hi []) .noSession x ∧ ends (.tableCloseSwap hi []) .noSession x ∧ exec .sessionExpiry s = .next s)

/-- TABLE READ (R83): a table id above 5, a selector above 1, a count of 0 or a window past the table's end is OUT_OF_RANGE;
otherwise the entries named are returned in their stored form, a curve's from the bank selected, and nothing changes. That a
record row is the one record of an unanswered frame, its result shown, is the model's choice (log entry 7). -/
def Obligations.TableReadReturnsStoredEntries : Prop :=
  ∀ (id sel start count : Byte) (s : State), s.On →
    let t := s.node.tables
    let entries : Nat := if id.toNat = 0 then 32 else if id.toNat = 5 then 16 else 33
    let window {α : Type} (xs : List α) (stored : α → List Byte) : List Byte :=
      ((xs.drop start.toNat).take count.toNat).flatMap stored
    let extraction (e : ExtEntry) : List Byte :=
      [byteOf ((if e.valid then 128 else 0) + (if e.wide then 8 else 0) + e.curve.toNat)] ++ bytes16 e.slot ++ bytes16 e.targets
    let failsafe (e : FsEntry) : List Byte := (match e.kind with | .off => 0 | .hold => 1 | .level => 2) :: bytes16 e.level
    if 5 < id.toNat ∨ 1 < sel.toNat ∨ count.toNat = 0 ∨ entries < start.toNat + count.toNat then
      exec (.tableRead [id, sel, start, count]) s = .next (s.withResult s.node 0x13 .outOfRange [])
    else
      (id = 0 → exec (.tableRead [id, sel, start, count]) s
          = .next (s.withResult s.node 0x13 .ok (window t.extraction.toList extraction)))
        ∧ (∀ c : Fin 4, id.toNat = c.val + 1 →
          let bankB : Bool := (t.curves[c].active = .b) != (sel.toNat = 1)
          exec (.tableRead [id, sel, start, count]) s = .next (s.withResult s.node 0x13 .ok
            (window (if bankB then t.curves[c].bankB else t.curves[c].bankA).toList bytes16)))
        ∧ (id = 5 → exec (.tableRead [id, sel, start, count]) s
          = .next (s.withResult s.node 0x13 .ok (window t.failsafe.toList failsafe)))

/-- BANK SWAP (R84): a set with any of bits 4..7 is OUT_OF_RANGE; a session open on a named curve makes the whole record
SESSION_BUSY; otherwise the marker of every named curve flips at once. The result is the four markers after the record. That
a record row is the one record of an unanswered frame, its result shown, is the model's choice (log entry 7). -/
def Obligations.BankSwapFlipsEveryNamedCurve : Prop :=
  ∀ (set : Byte) (s : State), s.On →
    let t := s.node.tables
    let markers (u : Vector Curve 4) : Byte :=
      byteOf ((if u[0].active = .b then 1 else 0) + (if u[1].active = .b then 2 else 0) + (if u[2].active = .b then 4 else 0)
        + (if u[3].active = .b then 8 else 0))
    let busy := t.session.isOpen = true ∧ ∃ c : Fin 4, t.session.table = .curve c ∧ set.getLsbD c = true
    let flipped : Vector Curve 4 := .ofFn fun c =>
      if set.getLsbD c then { t.curves[c] with active := if t.curves[c].active = .a then .b else .a } else t.curves[c]
    (15 < set.toNat → exec (.bankSwap [set]) s = .next (s.withResult s.node 0x14 .outOfRange [markers t.curves]))
      ∧ (set.toNat ≤ 15 → busy → exec (.bankSwap [set]) s = .next (s.withResult s.node 0x14 .sessionBusy [markers t.curves]))
      ∧ (set.toNat ≤ 15 → ¬busy → exec (.bankSwap [set]) s
        = .next (s.withResult { s.node with tables := { t with curves := flipped } } 0x14 .ok [markers flipped]))

/-! ## Settings, time and cues -/

/-- CONFIGURE TIME, CONFIGURE NOTICES and CONFIGURE SUPERVISION (R110, R166, R178, R182): with no parameter they report their
settings; with a value out of its range nothing changes; otherwise every setting is written. CONFIGURE SUPERVISION starts the
holdover timer when it finds it stopped in HOLDOVER and leaves failsafe enabled. The result is the settings after the record.
That a record row is the one record of an unanswered frame, its result shown, is the model's choice (log entry 7). -/
def Obligations.SettingsAreWrittenOrRefused : Prop :=
  (∀ (d1 d0 j1 j0 l : Byte) (s : State), s.On →
    let q := s.node.sched
    let data (x : Schedule) : List Byte := bytes16 x.lineDelay ++ bytes16 x.threshold ++ [if x.late = .apply then 1 else 0]
    let set := { q with
      lineDelay := word16 d1 d0, threshold := word16 j1 j0, late := if l = 1 then LatePolicy.apply else .drop }
    exec (.configureTime []) s = .next (s.withResult s.node 0x20 .ok (data q))
      ∧ exec (.configureTime [d1, d0, j1, j0, l]) s =
        if word16 j1 j0 = 0 ∨ 1 < l.toNat then .next (s.withResult s.node 0x20 .outOfRange (data q))
        else .next (s.withResult { s.node with sched := set } 0x20 .ok (data set)))
  ∧ (∀ (c : Byte) (s : State), s.On →
    exec (.configureNotices []) s = .next (s.withResult s.node 0x50 .ok [s.node.ret.enable.setWidth 8])
      ∧ exec (.configureNotices [c]) s =
        if 7 < c.toNat then .next (s.withResult s.node 0x50 .outOfRange [s.node.ret.enable.setWidth 8])
        else .next (s.withResult { s.node with ret := { s.node.ret with enable := c.setWidth 3 } } 0x50 .ok [c]))
  ∧ ∀ (w1 w0 h1 h0 e k : Byte) (s : State), s.On →
    let u := s.node.sup
    let data (x : Supervision) : List Byte :=
      bytes16 x.window ++ bytes16 x.holdover ++ [if x.failsafeOn then 1 else 0, x.k.setWidth 8]
    let set := { u with
      window := word16 w1 w0, holdover := word16 h1 h0, failsafeOn := decide (e = 1), k := k.setWidth 4
      holdTimer := if u.state = .holdover ∧ u.holdTimer = none ∧ e = 1 then
          some { elapsed := 0, duration := (word16 h1 h0).toNat }
        else u.holdTimer }
    exec (.configureSupervision []) s = .next (s.withResult s.node 0x51 .ok (data u))
      ∧ exec (.configureSupervision [w1, w0, h1, h0, e, k]) s =
        if word16 w1 w0 = 0 ∨ 1000 < (word16 w1 w0).toNat ∨ 60000 < (word16 h1 h0).toNat ∨ 1 < e.toNat ∨ 15 < k.toNat then
          .next (s.withResult s.node 0x51 .outOfRange (data u))
        else .next (s.withResult { s.node with sup := set } 0x51 .ok (data set))

/-- CUE CANCEL (R119) removes every entry with its tag, wherever it stands, and keeps the order of the rest; its result is
the number removed and the depth after it. A tag of 0 is OUT_OF_RANGE, a parameter length other than 1 is BAD_LENGTH, and
neither changes anything. Its allowance is 5. In an unanswered frame it does the same. That a record row is the one record of
an unanswered frame, its result shown, and a frame row the event of its EOF, is the model's choice (log entries 7 and 5). -/
def Obligations.CueCancelRemovesItsTag : Prop :=
  Command.allowance .cueCancel = 5 ∧ ∀ (p : List Byte) (tag : Byte) (s : State), s.On →
    let q := s.node.sched
    let kept := q.queue.filter fun e => e.tag ≠ tag
    let gone := q.queue.filter fun e => e.tag = tag
    (p.length ≠ 1 → exec (.cueCancel p) s = .next (s.withResult s.node 0x21 .badLength []))
      ∧ exec (.cueCancel [tag]) s = (if tag = 0 then .next (s.withResult s.node 0x21 .outOfRange [])
        else .next (s.withResult { s.node with sched := { q with queue := kept } } 0x21 .ok
          [byteOf gone.length, byteOf kept.length]))
      ∧ ∀ f : FwdFrame, Genuine f 0x03 → destMode f.dest ≠ .node →
        s.node.link.passage.matched.getD (s.node.fwd.matchesDest f.dest) = true → f.payload = [0x21, 1, tag] → tag ≠ 0 →
        exec (.manageFrame f) s = .next (s.withNode { s.node.frameArrived f with sched := { q with queue := kept } })

/-- CUE FLUSH (R120) removes every entry and executes none; it raises no counter and leaves the time as it was; an expiry
after it finds nothing. A parameter length other than 0 is BAD_LENGTH. Its allowance is 4. That a record row is the one
record of an unanswered frame, its result shown, and that an expiry is taken when commanded, is the model's choice (log entries
7 and 2). -/
def Obligations.CueFlushEmptiesTheQueue : Prop :=
  Command.allowance .cueFlush = 4 ∧ ∀ (p : List Byte) (s : State), s.On →
    (p ≠ [] → exec (.cueFlush p) s = .next (s.withResult s.node 0x22 .badLength []))
      ∧ exec (.cueFlush []) s = .next (s.withResult { s.node with sched := { s.node.sched with queue := [] } } 0x22 .ok
        [byteOf s.node.sched.queue.length])
      ∧ ∀ t, exec (.cueFlush []) s = .next t → exec .cueExpiry t = .next t

/-- CUE EXPIRY (R115, R116): with the time state VALID, every entry due at the head's due time leaves from the head, and they
act one after another in queue order, SET LEVEL, START, STOP and FIRE each as R117 and R118 say. The chain time stands at that
due time, the sub-tick below one advance past it (the model's choice, log entry 3). With the time INVALID or the queue empty
nothing happens. -/
def Obligations.CueExpiryExecutesTheDueEntries : Prop :=
  ∀ s : State, s.On →
    let q := s.node.sched
    (∀ e rest, q.time = .valid → q.queue = e :: rest →
      exec .cueExpiry s = .next (s.withNode { s.node with
        sched := { q with
          tick := e.due, sub := if e.due = q.tick then q.sub else byteOf (q.sub.toNat % 16)
          queue := q.queue.dropWhile fun x => x.due = e.due }
        out := (q.queue.takeWhile fun x => x.due = e.due).foldl
          (fun o x => o.acts (s.node.sup.state = .failsafe) x) s.node.out }))
      ∧ (q.time = .invalid ∨ q.queue = [] → exec .cueExpiry s = .next s)

/-! ## Output engine -/

/-- CONFIGURE GROUP (R125 to R127): a group number above 3 and a setting out of range are OUT_OF_RANGE, a change of mode
outside IDLE is WRONG_STATE, and neither changes anything; otherwise all five settings are written, staged and active alike
in IDLE, staged only elsewhere. The result is the group number and the active and staged settings after the record. That a
record row is the one record of an unanswered frame, its result shown, is the model's choice (log entry 7). -/
def Obligations.ConfigureGroupSetsOrStages : Prop :=
  ∀ (g : Fin 4) (b k n1 n0 m d1 d0 r : Byte) (s : State), s.On →
    let o := s.node.out
    let x := o.groups[g]
    let five (mode : Mode) (st : GroupSettings) : List Byte :=
      [st.prescale.setWidth 8] ++ bytes16 st.period ++ [if mode = .oneShot then 1 else 0] ++ bytes16 st.delay
        ++ [if st.retrigger = .restart then 1 else 0]
    let data (y : Group) : List Byte := [byteOf g.val] ++ five y.mode y.active ++ five y.mode y.staged
    let mode : Mode := if m = 1 then .oneShot else .continuous
    let settings : GroupSettings :=
      { prescale := k.setWidth 4, period := word16 n1 n0, delay := word16 d1 d0
        retrigger := if r = 1 then .restart else .ignore }
    let written : Group :=
      if x.state = .idle then { x with mode := mode, active := settings, staged := settings }
      else { x with mode := mode, staged := settings }
    let refused := 12 < k.toNat ∨ (word16 n1 n0).toNat < 2 ∨ 1 < m.toNat ∨ 1 < r.toNat
      ∨ ∃ c : Fin 16, o.chans[c].group = g ∧ (word16 n1 n0).toNat ≤ o.chans[c].stagedOffset.toNat
    let answers (p : List Byte) (status : Status) (y : List Byte) : Prop :=
      exec (.configureGroup p) s = .next (s.withResult s.node 0x30 status y)
    (3 < b.toNat → answers [b] .outOfRange [] ∧ answers [b, k, n1, n0, m, d1, d0, r] .outOfRange [])
      ∧ (b.toNat = g.val → answers [b] .ok (data x)
        ∧ (refused → answers [b, k, n1, n0, m, d1, d0, r] .outOfRange (data x))
        ∧ (¬refused → mode ≠ x.mode → x.state ≠ .idle → answers [b, k, n1, n0, m, d1, d0, r] .wrongState (data x))
        ∧ (¬refused → mode = x.mode ∨ x.state = .idle →
          exec (.configureGroup [b, k, n1, n0, m, d1, d0, r]) s = .next (s.withResult
            { s.node with out := { o with groups := o.groups.set g written } } 0x30 .ok (data written))))

/-- START, STOP and FIRE GROUPS (R130, R131, R133) act on every named group or on none: a set with any of bits 4..7 is
OUT_OF_RANGE, a named group in a state that the command does not accept makes the record WRONG_STATE. START sets the mark,
STOP stops, FIRE triggers. The result is the four states after the record, with the mark in bit 7. That a record row is the
one record of an unanswered frame, its result shown, is the model's choice (log entry 7). -/
def Obligations.GroupCommandsActOnAllNamedOrNone : Prop :=
  ∀ (set : Byte) (s : State), s.On →
    let o := s.node.out
    let named (g : Fin 4) : Bool := set.getLsbD g
    let states (u : Output) : List Byte := (List.finRange 4).map fun g =>
      byteOf ((match u.groups[g].state with
        | .idle => 0
        | .running => 1
        | .armed => 2
        | .delay => 3
        | .pulse => 4) + if u.groups[g].mark then 128 else 0)
    let marked : Output :=
      { o with groups := .ofFn fun g => if named g then { o.groups[g] with mark := true } else o.groups[g] }
    let fireable (st : GroupState) : Prop := st = .armed ∨ st = .delay ∨ st = .pulse
    let gives (c : Instr) (opcode : Byte) (status : Status) (after : Output) : Prop :=
      exec c s = .next (s.withResult { s.node with out := after } opcode status (states after))
    (15 < set.toNat → gives (.startGroups [set]) 0x31 .outOfRange o ∧ gives (.stopGroups [set]) 0x32 .outOfRange o
        ∧ gives (.fireGroups [set]) 0x33 .outOfRange o)
      ∧ (set.toNat ≤ 15 →
        (if ∀ g, named g = true → o.groups[g].state = .idle then gives (.startGroups [set]) 0x31 .ok marked
          else gives (.startGroups [set]) 0x31 .wrongState o)
        ∧ gives (.stopGroups [set]) 0x32 .ok (o.stops named)
        ∧ ((∀ g, named g = true → fireable o.groups[g].state) → gives (.fireGroups [set]) 0x33 .ok (o.fires named))
        ∧ (¬(∀ g, named g = true → fireable o.groups[g].state) → gives (.fireGroups [set]) 0x33 .wrongState o))

/-- CONFIGURE CHANNEL (R136 to R138): a channel number above 15, a group above 3, a control byte above 3 and an offset not
below the staged period of the group named are OUT_OF_RANGE and change nothing. Otherwise group, enable, polarity and staged
offset are written; a move drops the compare to 0; the active offset is the staged one in an IDLE group, 0 after a move to
another group, and stands otherwise. That a record row is the one record of an unanswered frame, its result shown, is the
model's choice (log entry 7). -/
def Obligations.ConfigureChannelMovesAndSets : Prop :=
  ∀ (c : Fin 16) (g : Fin 4) (b gb ctl o1 o0 : Byte) (s : State), s.On →
    let o := s.node.out
    let ch := o.chans[c]
    let data (y : Channel) : List Byte :=
      [byteOf c.val, byteOf y.group.val, byteOf ((if y.enable then 1 else 0) + if y.activeLow then 2 else 0)]
        ++ bytes16 y.stagedOffset ++ bytes16 y.activeOffset
    let offset := word16 o1 o0
    let written : Channel := { ch with
      group := g, enable := ctl.getLsbD 0, activeLow := ctl.getLsbD 1, stagedOffset := offset
      activeOffset := if o.groups[g].state = .idle then offset else if ch.group = g then ch.activeOffset else 0
      compare := if ch.group = g then ch.compare else 0 }
    let refuses (p : List Byte) (y : List Byte) : Prop :=
      exec (.configureChannel p) s = .next (s.withResult s.node 0x34 .outOfRange y)
    (15 < b.toNat → refuses [b] [] ∧ refuses [b, gb, ctl, o1, o0] [])
      ∧ (b.toNat = c.val →
        exec (.configureChannel [b]) s = .next (s.withResult s.node 0x34 .ok (data ch))
        ∧ (3 < gb.toNat → refuses [b, gb, ctl, o1, o0] (data ch))
        ∧ (gb.toNat = g.val →
          if 3 < ctl.toNat ∨ o.groups[g].staged.period.toNat ≤ offset.toNat then refuses [b, gb, ctl, o1, o0] (data ch)
          else exec (.configureChannel [b, gb, ctl, o1, o0]) s = .next (s.withResult
            { s.node with out := { o with chans := o.chans.set c written } } 0x34 .ok (data written))))

/-- CUE LIST, GROUP STATE and CHANNEL STATE (R121, R144, R145) report and change nothing. CUE LIST: a start index above 31 or
a count of 0 or above 16 is OUT_OF_RANGE; otherwise time state, tick count, depth, number of entries, and the entries from
the start index on in queue order, 10 bytes each. GROUP STATE and CHANNEL STATE: a number out of range is OUT_OF_RANGE. That
a record row is the one record of an unanswered frame, its result shown, is the model's choice (log entry 7). -/
def Obligations.StateReports : Prop :=
  ∀ (start count b : Byte) (g : Fin 4) (c : Fin 16) (s : State), s.On →
    let q := s.node.sched
    let listed := (q.queue.drop start.toNat).take count.toNat
    let stored (e : CueEntry) : List Byte :=
      bytes32 e.due ++ [e.tag, match e.action with | .setLevel => 1 | .start => 2 | .stop => 3 | .fire => 4]
        ++ bytes16 e.targets ++ (match e.level with | some l => bytes16 l | none => [0, 0])
    let x := s.node.out.groups[g]
    let ch := s.node.out.chans[c]
    let five (st : GroupSettings) : List Byte :=
      [st.prescale.setWidth 8] ++ bytes16 st.period ++ [if x.mode = .oneShot then 1 else 0] ++ bytes16 st.delay
        ++ [if st.retrigger = .restart then 1 else 0]
    let groupData (members : BitVec 16) : List Byte :=
      ([match x.state with | .idle => 0 | .running => 1 | .armed => 2 | .delay => 3 | .pulse => 4, if x.mark then 1 else 0]
        : List Byte) ++ five x.active ++ five x.staged ++ bytes16 x.count ++ [x.missed] ++ bytes16 members
    let channelData : List Byte :=
      [byteOf ch.group.val] ++ bytes16 ch.stagedLevel
        ++ ([if ch.pendingFlag then 1 else 0, match ch.origin with | .none => 0 | .data => 1 | .cue => 2 | .failsafe => 3]
          : List Byte)
        ++ bytes16 ch.lastActive ++ bytes16 ch.compare ++ bytes16 ch.activeOffset
        ++ (match s.node.value[c] with | some d => [1, d.seq] ++ bytes16 d.level | none => [0, 0, 0, 0])
    let gives (i : Instr) (opcode : Byte) (status : Status) (y : List Byte) : Prop :=
      exec i s = .next (s.withResult s.node opcode status y)
    (if 31 < start.toNat ∨ count = 0 ∨ 16 < count.toNat then gives (.cueList [start, count]) 0x23 .outOfRange []
      else gives (.cueList [start, count]) 0x23 .ok ([if q.time = .valid then 1 else 0] ++ bytes32 q.tick
        ++ [byteOf q.queue.length, byteOf listed.length] ++ listed.flatMap stored))
      ∧ (3 < b.toNat → gives (.groupState [b]) 0x35 .outOfRange [])
      ∧ (b.toNat = g.val → ∃ members : BitVec 16, (∀ i : Fin 16, members.getLsbD i = decide (s.node.out.chans[i].group = g))
        ∧ gives (.groupState [b]) 0x35 .ok (groupData members))
      ∧ (15 < b.toNat → gives (.channelState [b]) 0x36 .outOfRange [])
      ∧ (b.toNat = c.val → gives (.channelState [b]) 0x36 .ok channelData)

/-- The events of a group's output clock (R125, R129, R132, R135). A start tick takes a marked group into RUNNING with a load, or
into ARMED with no load and its missed-trigger count 0; the period's end in RUNNING and the delay's end are load points; the
pulse's end returns to ARMED. A tick of the clock raises the count of a group RUNNING, in DELAY or in PULSE, or is the event
that ends its period, delay or pulse. In any other state each event changes nothing (the model's choice, log entry 2). -/
def Obligations.GroupEventsStartLoadAndEnd : Prop :=
  ∀ (g : Fin 4) (s : State), s.On →
    let o := s.node.out
    let x := o.groups[g]
    let after (u : Output) : Host.Outcome State Fault Refusal := .next (s.withNode { s.node with out := u })
    let load (st : GroupState) : Output := o.loads fun h => if h = g then some st else none
    let becomes (y : Group) : Output := { o with groups := o.groups.set g y }
    let counts := after (becomes { x with count := x.count + 1 })
    exec (.startTick g) s = (if x.state = .idle ∧ x.mark = true then
          if x.mode = .continuous then after (load .running)
          else after (becomes { x with state := .armed, mark := false, count := 0, missed := 0 })
        else .next s)
      ∧ exec (.periodWrap g) s = (if x.state = .running then after (load .running) else .next s)
      ∧ exec (.delayEnd g) s = (if x.state = .delay then after (load .pulse) else .next s)
      ∧ exec (.pulseEnd g) s = (if x.state = .pulse then
          after (becomes { x with state := .armed, mark := false, count := 0 }) else .next s)
      ∧ exec (.outputClockTick g) s = match x.state with
        | .idle => exec (.startTick g) s
        | .armed => .next s
        | .running => if x.count.toNat + 1 < x.active.period.toNat then counts else exec (.periodWrap g) s
        | .delay => if x.count.toNat + 1 < x.active.delay.toNat then counts else exec (.delayEnd g) s
        | .pulse => if x.count.toNat + 1 < x.active.period.toNat then counts else exec (.pulseEnd g) s

/-- The pulse outputs (R127, R138, R139, R147). While RESETN is low every output is low. Otherwise a channel that is disabled, or
whose group is neither RUNNING nor in PULSE, shows its inactive level; else it shows its active level at the counts from its
offset O up to O + C, which lie within the period, so that it is active at C of the N counts. -/
def Obligations.PulseOutputsShowTheWaveform : Prop :=
  ∀ (c : Fin 16) (n : Node), n.out.Sound →
    let ch := n.out.chans[c]
    let x := n.out.groups[ch.group]
    let period := x.active.period.toNat
    let at_ (k : Nat) : Node :=
      { n with out := { n.out with groups := n.out.groups.set ch.group { x with count := BitVec.ofNat 16 k } } }
    (n.link.resetLow = true → n.pinHigh c = false)
      ∧ (n.link.resetLow = false → ch.enable = false ∨ x.state = .idle ∨ x.state = .armed ∨ x.state = .delay →
        n.pinHigh c = ch.activeLow)
      ∧ (n.link.resetLow = false → ch.enable = true → x.state = .running ∨ x.state = .pulse →
        (∀ k < period, (at_ k).pinHigh c
            = (decide (ch.activeOffset.toNat ≤ k ∧ k < ch.activeOffset.toNat + ch.compare.toNat) != ch.activeLow))
          ∧ ((List.range period).countP fun k => (at_ k).pinHigh c != ch.activeLow) = ch.compare.toNat)

/-! ## Sense unit -/

/-- CONFIGURE SENSE and SENSE READ (R149, R151, R159). CONFIGURE SENSE: an input number above 3 and a setting out of range
are OUT_OF_RANGE and change nothing; otherwise the six settings are written and the input restarts in the starting phase of
its mode. SENSE READ: a maximum count of 0 or above 8 is OUT_OF_RANGE; otherwise the oldest entries, up to the maximum count,
leave the log and are returned, 11 bytes each, with the depth after and the four phases. That a record row is the one record
of an unanswered frame, its result shown, is the model's choice (log entry 7). -/
def Obligations.SenseCommandsConfigureAndRead : Prop :=
  ∀ (i : Fin 4) (b m e k f t l1 l0 : Byte) (s : State), s.On →
    let u := s.node.sense
    let phaseCode (p : SensePhase) : Byte := match p with
      | .off => 0
      | .first => 1
      | .counting => 2
      | .waitStart => 3
      | .measuring => 4
      | .ready => 5
      | .lockout => 6
    let data (st : SenseSettings) : List Byte :=
      [byteOf i.val, match st.mode with | .off => 0 | .interval => 1 | .highWidth => 2 | .lowWidth => 3 | .trigger => 4,
        match st.edge with | .rising => 0 | .falling => 1 | .both => 2, st.prescale.setWidth 8, st.filter.setWidth 8,
        st.triggers.setWidth 8] ++ bytes16 st.lockout
    let mode : SenseMode :=
      if m = 0 then .off else if m = 1 then .interval else if m = 2 then .highWidth else if m = 3 then .lowWidth else .trigger
    let start : SensePhase := match mode with
      | .off => .off
      | .interval => .first
      | .highWidth | .lowWidth => .waitStart
      | .trigger => .ready
    let settings : SenseSettings :=
      { mode := mode, edge := if e = 0 then .rising else if e = 1 then .falling else .both
        prescale := k.setWidth 2, filter := f.setWidth 4, triggers := t.setWidth 4, lockout := word16 l1 l0 }
    let restarted : Input := { settings := settings, phase := start, filtered := none, run := 0, count := 0, timer := 0 }
    let configure (p : List Byte) (n : Node) (status : Status) (y : List Byte) : Prop :=
      exec (.configureSense p) s = .next (s.withResult n 0x40 status y)
    let returned := u.log.take m.toNat
    let stored (x : LogEntry) : List Byte :=
      [byteOf x.input.val, match x.kind with | .interval => 0 | .high => 1 | .low => 2 | .trigger => 3,
        byteOf ((if x.isLong then 1 else 0) + if x.stamp = none then 0 else 2)]
        ++ bytes24 (x.count.getD 0) ++ bytes32 ((x.stamp.getD 0).extractLsb' 8 32) ++ [(x.stamp.getD 0).extractLsb' 0 8]
    (3 < b.toNat → configure [b] s.node .outOfRange [] ∧ configure [b, m, e, k, f, t, l1, l0] s.node .outOfRange [])
      ∧ (b.toNat = i.val →
        configure [b] s.node .ok (data u.inputs[i].settings)
        ∧ if 4 < m.toNat ∨ 2 < e.toNat ∨ 3 < k.toNat ∨ 15 < f.toNat ∨ 15 < t.toNat then
            configure [b, m, e, k, f, t, l1, l0] s.node .outOfRange (data u.inputs[i].settings)
          else configure [b, m, e, k, f, t, l1, l0]
            { s.node with sense := { u with inputs := u.inputs.set i restarted } } .ok (data settings))
      ∧ (if m = 0 ∨ 8 < m.toNat then exec (.senseRead [m]) s = .next (s.withResult s.node 0x41 .outOfRange [])
        else exec (.senseRead [m]) s = .next (s.withResult
          { s.node with sense := { u with log := u.log.drop m.toNat } } 0x41 .ok
          ([byteOf (u.log.length - m.toNat), byteOf returned.length, phaseCode u.inputs[0].phase, phaseCode u.inputs[1].phase,
            phaseCode u.inputs[2].phase, phaseCode u.inputs[3].phase] ++ returned.flatMap stored)))

/-- A sample event (R150, R152) raises the count of an input that counts, up to the longest, and applies the filter: an unset
level is set with no edge; a level like the filtered one clears the run; a different one lengthens the run until it passes
the filter length, which makes the sample an edge. An input in phase OFF takes none. That samples may be commanded with the raw
level of the pin, and that one past the filter length is the SENSE_EDGE row, is the model's choice (log entries 14 and 20). -/
def Obligations.SampleEventCountsAndFilters : Prop :=
  ∀ (i : Fin 4) (raw : Bool) (s : State), s.On →
    let u := s.node.sense
    let x := u.inputs[i]
    let y : Input :=
      if x.phase = .counting ∨ x.phase = .measuring then
        { x with count := if x.count.toNat = 16777215 then x.count else x.count + 1 }
      else x
    let becomes (z : Input) : Host.Outcome State Fault Refusal :=
      .next (s.withNode { s.node with sense := { u with inputs := u.inputs.set i z } })
    exec (.sampleEvent i raw) s =
      if x.phase = .off then .next s
      else if x.filtered = none then becomes { y with filtered := some raw, run := 0 }
      else if x.filtered = some raw then becomes { y with run := 0 }
      else if x.run.toNat + 1 < x.settings.filter.toNat + 1 then becomes { y with run := x.run + 1 }
      else exec (.senseEdge i raw) s

/-- An edge is handled by the rule of the input's phase, at its sample event (R152 to R158; that the row is the sample event that
carries the edge, without a test of the filter length, is the model's choice, log entry 20). An unset filtered level is only
set, with no edge (R150, R151). The count left in WAIT_START is the model's choice (log entry 28). An entry is appended with
the chain time as its stamp while the time state is VALID; the oldest of 16 is lost and counted first. A selected edge in READY
triggers the groups named and starts a lockout unless it is 0. The lockout's end returns the input to READY; that it is taken in LOCKOUT whenever commanded, and else
changes nothing, is the model's choice (log entry 2). -/
def Obligations.EdgesActByPhaseAndLockoutsEnd : Prop :=
  ∀ (i : Fin 4) (level : Bool) (s : State), s.On →
    let n := s.node
    let u := n.sense
    let x := u.inputs[i]
    let raised : BitVec 24 := if x.count.toNat = 16777215 then x.count else x.count + 1
    let selected : Bool := match x.settings.edge with
      | .rising => level
      | .falling => !level
      | .both => true
    let becomes (phase : SensePhase) (count : BitVec 24) (timer : Nat) : Sense :=
      let y := { x with filtered := some level, run := 0, phase := phase, count := count, timer := timer }
      { u with inputs := u.inputs.set i y }
    let logged (v : Sense) (kind : ResultKind) (count : Option (BitVec 24)) : Sense :=
      let entry : LogEntry :=
        { input := i, kind := kind, count := count, isLong := decide (count = some 0xFFFFFF)
          stamp := if n.sched.time = .valid then some (n.sched.tick ++ n.sched.sub) else none }
      if u.log.length < 16 then { v with log := u.log ++ [entry] }
      else { v with log := u.log.tail ++ [entry], losses := raiseCounter u.losses }
    let goes (v : Sense) : Host.Outcome State Fault Refusal := .next (s.withNode { n with sense := v })
    (x.Sound → exec (.senseEdge i level) s =
        if x.phase = .off ∨ x.filtered = some level then .next s
        else if x.filtered = none then exec (.sampleEvent i level) s
        else match x.phase with
          | .off => .next s
          | .first => if selected then goes (becomes .counting 0 x.timer) else goes (becomes .first x.count x.timer)
          | .counting =>
            if selected then goes (logged (becomes .counting 0 x.timer) .interval (some raised))
            else goes (becomes .counting raised x.timer)
          | .waitStart =>
            if level = decide (x.settings.mode = .highWidth) then goes (becomes .measuring 0 x.timer)
            else goes (becomes .waitStart x.count x.timer)
          | .measuring =>
            if level = decide (x.settings.mode = .highWidth) then goes (becomes .measuring raised x.timer)
            else goes (logged (becomes .waitStart raised x.timer)
              (if x.settings.mode = .highWidth then .high else .low) (some raised))
          | .ready =>
            if selected then .next (s.withNode { n with
              sense := logged (if x.settings.lockout = 0 then becomes .ready x.count x.timer else becomes .lockout x.count 0)
                .trigger none
              out := n.out.fires fun g => x.settings.triggers.getLsbD g })
            else goes (becomes .ready x.count x.timer)
          | .lockout => goes (becomes .lockout x.count x.timer))
      ∧ exec (.lockoutEnd i) s = (if x.phase = .lockout then
            goes { u with inputs := u.inputs.set i { x with phase := .ready, timer := 0 } }
          else .next s)

/-! ## Notices, supervision and failsafe -/

/-- A notice record handed over (R164, R165, R187): discarded without a trace while its category is disabled or the address is 0;
else queued as one frame behind every frame in the local response queue, or lost and counted when it holds 8. A SUPERVISION
record holds the state before and after, a TIME record the step. -/
def Obligations.NoticeIsDiscardedQueuedOrLost : Prop :=
  ∀ (r : ReturnUnit) (address : BitVec 10) (category : Category) (data : List Byte) (change : SupChange) (step : BitVec 32),
    let code : Nat := match category with
      | .supervision => 0
      | .time => 1
      | .sense => 2
    let supCode (x : SupState) : Byte := match x with
      | .start => 0
      | .normal => 1
      | .holdover => 2
      | .failsafe => 3
    let frame : RetFrame :=
      { kind := 0x82, flags := 0, source := address.setWidth 16, seq := 0, count := 1
        payload := [byteOf code, byteOf data.length] ++ data }
    r.notice address category data =
        (if address = 0 ∨ r.enable.getLsbD code = false then r
          else if r.localQ.length < 8 then { r with localQ := r.localQ ++ [{ frame := frame, sending := false }] }
          else { r with noticeLosses := raiseCounter r.noticeLosses })
      ∧ r.supNotice address change = r.notice address .supervision [supCode change.before, supCode change.after]
      ∧ r.timeNotice address step = r.notice address .time
          [step.extractLsb' 24 8, step.extractLsb' 16 8, step.extractLsb' 8 8, step.extractLsb' 0 8]

/-- RECOVER and the expiries of the two supervision timers (R123, R143, R181 to R183, R185, R187). The supervision timer's
expiry moves NORMAL to HOLDOVER with the holdover timer started, and at a holdover time of 0 the holdover expires at the same
event; in FAILSAFE it returns the recovery count to 0. The holdover timer's expiry stops it, and with failsafe enabled enters
FAILSAFE: a failsafe level to every channel, a wrap of every RUNNING group, a stop of every group in ARMED, DELAY or PULSE,
the cue queue flushed and counted, the time INVALID, a notice. A timer that does not run does not expire (log entry 2).
RECOVER is one record of an unanswered frame (log entry 7). -/
def Obligations.TimersExpireAndRecoverEndsFailsafe : Prop :=
  ∀ s : State, s.On →
    let n := s.node
    let u := n.sup
    let supCode (x : SupState) : Byte := match x with
      | .start => 0
      | .normal => 1
      | .holdover => 2
      | .failsafe => 3
    let notified (m : Node) (before after : SupState) : Node :=
      { m with ret := m.ret.supNotice m.fwd.address { before := before, after := after } }
    let offered : Output := { n.out with
      chans := .ofFn fun c => { n.out.chans[c] with
          stagedLevel := (match n.tables.failsafe[c].kind with
            | .off => 0
            | .hold => n.out.chans[c].lastActive
            | .level => n.tables.failsafe[c].level)
          pendingFlag := true
          origin := .failsafe } }
    let wrapped := offered.loads fun g => if n.out.groups[g].state = .running then some .running else none
    let stopped := wrapped.stops fun g =>
      n.out.groups[g].state = .armed || n.out.groups[g].state = .delay || n.out.groups[g].state = .pulse
    let failsafe (m : Node) : Node := notified
      { m with
        sup := { u with state := .failsafe, supTimer := none, holdTimer := none, recovery := 0 }
        out := stopped
        sched := { n.sched with
            queue := [], time := .invalid
            flushes := if n.sched.queue = [] then n.sched.flushes else raiseCounter n.sched.flushes } }
      .holdover .failsafe
    let held := notified
      { n with
        sup := { u with
          state := .holdover, supTimer := none, holdTimer := some { elapsed := 0, duration := u.holdover.toNat } } }
      .normal .holdover
    exec .holdoverTimerExpiry s = (if u.state = .holdover ∧ u.holdTimer ≠ none then
          .next (s.withNode (if u.failsafeOn then failsafe n else { n with sup := { u with holdTimer := none } }))
        else .next s)
      ∧ exec .supervisionTimerExpiry s = (if u.supTimer = none then .next s
        else match u.state with
          | .normal => .next (s.withNode (if u.holdover ≠ 0 then held
              else if u.failsafeOn then failsafe held
              else { held with sup := { u with state := .holdover, supTimer := none, holdTimer := none } }))
          | .failsafe => .next (s.withNode { n with sup := { u with supTimer := none, recovery := 0 } })
          | .start | .holdover => .next s)
      ∧ exec (.recover []) s = (if u.state = .failsafe then
          .next (s.withResult
            (notified
              { n with
                sup := { u with
                  state := .normal, recovery := 0, supTimer := some { elapsed := 0, duration := u.window.toNat } } }
              .failsafe .normal)
            0x52 .ok [1, u.recovery.setWidth 8])
        else .next (s.withResult n 0x52 .wrongState [supCode u.state, u.recovery.setWidth 8]))

/-! ## Return unit -/

/-- A frame ends on the D return lane (R169, Table 9-5). A frame not whole, with a length field over 1024, or with another
number of payload bytes is aborted, one with a wrong check value is a check error: relay check errors is raised. An accepted
one of at most 256 payload bytes joins a relay queue of fewer than 4, byte for byte; any other accepted one raises relay
drops. The record is OUTSIDE and the reception area released in every case. The row stands for the event that ends the frame
(log entry 5); the other fields of a record OUTSIDE are the model's choice (log entry 29). -/
def Obligations.ReturnFrameIsRelayedOrCounted : Prop :=
  ∀ (f : ReturnEnd) (s : State), s.On →
    let r := s.node.ret
    let length := 256 * (f.hdr[6]).toNat + (f.hdr[7]).toNat
    let ends (r : ReturnUnit) : Host.Outcome State Fault Refusal :=
      .next (s.withNode { s.node with link := { s.node.link with dRec := .outside }, ret := { r with area := [] } })
    exec (.returnFrameReceived f) s =
      if f.whole = false ∨ 1024 < length ∨ f.payload.length ≠ length ∨ f.check ≠ checkValue (f.hdr.toList ++ f.payload) then
        ends { r with relayErrors := raiseCounter r.relayErrors }
      else if length ≤ 256 ∧ r.relayQ.length < 4 then
        ends { r with
          relayQ := r.relayQ ++ [{ hdr := f.hdr.toList, payload := f.payload, check := f.check, sending := false }] }
      else ends { r with relayDrops := raiseCounter r.relayDrops }

/-- The arbiter and the end of a transmission (R167, R170 to R172, Table 9-6). At a free boundary, with frames waiting in one
queue only, or in both with the other queue last served, the oldest waiting frame is marked, handed to the transmitter and
its queue is last served; with none waiting the transmitter sends IDLE. A transmitter HELD or busy is not free. At its EOF
the frame sent leaves its queue, and the transmitter stays SENDING exactly when another frame waits. That a frame is sent as
one, with two rows for its boundary, is the model's reading (log entry 18). That both rows are taken when commanded,
RETURN_FRAME_SENT at any count of characters sent, and change nothing where the part cannot take them, is the model's choice
(log entry 2). -/
def Obligations.ArbiterServesOldestAndAlternates : Prop :=
  ∀ s : State, s.On →
    let n := s.node
    let r := n.ret
    let waitsL : Prop := ∃ e ∈ r.localQ, e.sending = false
    let waitsR : Prop := ∃ e ∈ r.relayQ, e.sending = false
    let sends (m : ReturnUnit) (w : OnWire) : Host.Outcome State Fault Refusal :=
      .next (s.withNode { n with ret := m, link := { n.link with retTx := { state := .sending, current := some w } } })
    (n.link.retTx.state = .held ∨ n.link.retTx.current ≠ none → exec .arbiterSelect s = .next s)
      ∧ (n.link.retTx.state ≠ .held → n.link.retTx.current = none →
        (¬waitsL → ¬waitsR → exec .arbiterSelect s
            = .next (s.withNode { n with link := { n.link with retTx := { state := .idling, current := none } } }))
        ∧ (∀ sent e rest, r.localQ = sent ++ e :: rest → (∀ x ∈ sent, x.sending = true) → e.sending = false →
          ¬waitsR ∨ r.lastServed = .relayQueue →
          exec .arbiterSelect s = sends
            { r with localQ := sent ++ { e with sending := true } :: rest, lastServed := .localQueue }
            { queue := .localQueue, bytes := e.frame.header ++ e.frame.payload
              check := checkValue (e.frame.header ++ e.frame.payload), sent := 0 })
        ∧ (∀ sent e rest, r.relayQ = sent ++ e :: rest → (∀ x ∈ sent, x.sending = true) → e.sending = false →
          ¬waitsL ∨ r.lastServed = .localQueue →
          exec .arbiterSelect s = sends
            { r with relayQ := sent ++ { e with sending := true } :: rest, lastServed := .relayQueue }
            { queue := .relayQueue, bytes := e.hdr ++ e.payload, check := e.check, sent := 0 }))
      ∧ (n.link.retTx.current = none → exec .returnFrameSent s = .next s)
      ∧ ∀ w, n.link.retTx.current = some w →
        let freed : ReturnUnit := match w.queue with
          | .localQueue => { r with localQ := r.localQ.eraseP fun e => e.sending }
          | .relayQueue => { r with relayQ := r.relayQ.eraseP fun e => e.sending }
        let more : Prop := (∃ e ∈ freed.localQ, e.sending = false) ∨ ∃ e ∈ freed.relayQ, e.sending = false
        ∃ st, exec .returnFrameSent s = .next (s.withNode
            { n with ret := freed, link := { n.link with retTx := { state := st, current := none } } })
          ∧ (more → st = .sending) ∧ (¬more → st = .idling)

/-! ## The whole machine -/

/-- Every step keeps the machine safe: each block stands in the relations that the spec says always hold. -/
def Obligations.EveryStepKeepsTheMachineSafe : Prop :=
  ∀ s t : State, s.Safe → step s = .next t → t.Safe

/-- The machine is safe right after reset. -/
def Obligations.ResetIsSafe : Prop := State.reset.Safe

/-- The time state (R102): a command can make it VALID only by the acceptance of a SYNC of length 5, as a frame row or at the EOF
character of the U forward lane; it can make it INVALID only as a power or pin reset, a RESET NODE of scope FULL or FACTORY, as
a row or as a record of an accepted MANAGE frame that matches, or a timer expiry that enters FAILSAFE. An idle step can make it
INVALID only by entering FAILSAFE, and never VALID. That a step on an empty queue is a clock period, and a frame row the event
of its EOF, is the model's choice (log entries 1 and 5). -/
def Obligations.TimeStateChangesOnlyAtItsEvents : Prop :=
  ∀ (c : Instr) (s t : State), c.wellFormed = true →
    let valid (x : State) : Prop := x.node.sched.time = .valid
    let r := s.node.link.uRec
    let h := FwdHeader.ofBytes r.hdr
    let payload := s.node.link.passage.payload
    let isMatch (dest : BitVec 16) : Prop := s.node.link.passage.matched.getD (s.node.fwd.matchesDest dest) = true
    let accepted := c = .characterReceived .u 258 true ∧ r.phase = .body ∧ r.count = r.length + 2 ∧ r.received = r.check
    (exec c s = .next t → ¬valid s → valid t →
        (∃ f elapsed, c = .syncFrame f elapsed ∧ Genuine f 0x02 ∧ f.payload.length = 5)
          ∨ (accepted ∧ h.kind = 0x02 ∧ payload.length = 5))
      ∧ (exec c s = .next t → valid s → ¬valid t →
        (∃ pins, c = .powerOn pins) ∨ (∃ pins, c = .resetnRelease pins) ∨ c = .resetNodeFull [] ∨ c = .resetNodeFactory []
          ∨ (c = .holdoverTimerExpiry ∨ c = .supervisionTimerExpiry) ∧ s.node.sup.failsafeOn = true
            ∧ t.node.sup.state = .failsafe
          ∨ (∃ f, c = .manageFrame f ∧ Genuine f 0x03 ∧ isMatch f.dest ∧ HoldsReset f.payload [.full, .factory])
          ∨ (accepted ∧ h.kind = 0x03 ∧ isMatch h.dest ∧ HoldsReset payload [.full, .factory]))
      ∧ (s.pending = [] → step s = .next t → ¬valid s → ¬valid t)
      ∧ (s.pending = [] → step s = .next t → valid s → ¬valid t →
        s.node.sup.failsafeOn = true ∧ t.node.sup.state = .failsafe)

/-- The node address (R32, R52): a command can change it only as an accepted and matching ENUMERATE frame of length 2, a RESET NODE
of scope FACTORY, as a row or as a record of an accepted MANAGE frame that matches, which makes it 0, or a power or pin reset,
and every change leaves the response cache empty. An idle step keeps it. That a step on an empty queue is a clock period, and a
frame row the event of its EOF, is the model's choice (log entries 1 and 5). -/
def Obligations.AddressChangesOnlyAtItsEvents : Prop :=
  ∀ (c : Instr) (s t : State), c.wellFormed = true →
    let r := s.node.link.uRec
    let h := FwdHeader.ofBytes r.hdr
    let payload := s.node.link.passage.payload
    let isMatch (dest : BitVec 16) : Prop := s.node.link.passage.matched.getD (s.node.fwd.matchesDest dest) = true
    let accepted := c = .characterReceived .u 258 true ∧ r.phase = .body ∧ r.count = r.length + 2 ∧ r.received = r.check
    (exec c s = .next t → t.node.fwd.address ≠ s.node.fwd.address →
        t.node.cmd.cache = none
          ∧ ((∃ f, c = .enumerateFrame f ∧ Genuine f 0x05 ∧ isMatch f.dest ∧ f.payload.length = 2)
            ∨ (∃ f, c = .manageFrame f ∧ Genuine f 0x03 ∧ isMatch f.dest ∧ HoldsReset f.payload [.factory]
              ∧ t.node.fwd.address = 0)
            ∨ (∃ pins, c = .powerOn pins ∨ c = .resetnRelease pins)
            ∨ c = .resetNodeFactory []
            ∨ (accepted ∧ h.kind = 0x05 ∧ isMatch h.dest ∧ payload.length = 2)
            ∨ (accepted ∧ h.kind = 0x03 ∧ isMatch h.dest ∧ HoldsReset payload [.factory] ∧ t.node.fwd.address = 0)))
      ∧ (s.pending = [] → step s = .next t → t.node.fwd.address = s.node.fwd.address)

/-! ## Curves and destinations -/

/-- Curve evaluation (R91): the four steps in exact integer arithmetic, the level between the two points of its segment. -/
def Obligations.CurveEvaluationIsExact : Prop :=
  ∀ (p : Vector (BitVec 16) 33) (v : Nat), v ≤ 65535 →
    let u := v * 65536 / 65535
    let i := min 31 (u / 2048)
    let r := u - 2048 * i
    let lo : Int := (p.toList.getD i 0).toNat
    let hi : Int := (p.toList.getD (i + 1) 0).toNat
    let level : Int := (evalCurve p v).toNat
    level = lo + ((hi - lo) * (r : Int)).tdiv 2048
      ∧ (v < 65535 → u = v) ∧ (v = 65535 → u = 65536) ∧ i ≤ 31 ∧ r ≤ 2048
      ∧ (lo ≤ hi → lo ≤ level ∧ level ≤ hi) ∧ (hi ≤ lo → hi ≤ level ∧ level ≤ lo)

/-- What follows from the arithmetic of curve evaluation (R92): the end points and the points at multiples of 2048 are met
exactly, between two points the level moves by 1/2048 of the rise a step, a flat segment gives its level throughout, and the
default curve gives v, or v − 1 for 63489 to 65534. -/
def Obligations.CurveMeetsItsPoints : Prop :=
  (∀ (p : Vector (BitVec 16) 33) (v : Nat), v ≤ 65535 →
    let u := v * 65536 / 65535
    let i := min 31 (u / 2048)
    (v = 0 → evalCurve p v = p[0]) ∧ (v = 65535 → evalCurve p v = p[32])
      ∧ (∀ k : Fin 32, v = 2048 * k.val → u - 2048 * i = 0 ∧ evalCurve p v = p[k.val])
      ∧ (∀ (k : Fin 32) (r : Nat), r < 2048 → v = 2048 * k.val + r → v < 65535 →
        let lo : Int := p[k.val].toNat
        let hi : Int := p[k.val + 1].toNat
        ((evalCurve p v).toNat : Int) = lo + ((hi - lo) * r).tdiv 2048)
      ∧ (∀ k : Fin 32, i = k.val → p[k.val] = p[k.val + 1] → evalCurve p v = p[k.val]))
  ∧ ∀ v : Nat, v ≤ 65535 →
    let identity : Vector (BitVec 16) 33 := .ofFn fun k => BitVec.ofNat 16 (min (2048 * k.val) 65535)
    Tables.initial.curves[0].bankA = identity
      ∧ (v ≤ 63488 ∨ v = 65535 → (evalCurve identity v).toNat = v)
      ∧ (63489 ≤ v → v ≤ 65534 → (evalCurve identity v).toNat = v - 1)
      ∧ (∀ b : Byte, v = 257 * b.toNat →
        (evalCurve identity v).toNat = if b.toNat ≤ 247 ∨ b.toNat = 255 then 257 * b.toNat else 257 * b.toNat - 1)

/-- Destination matching (R26, R38, Table 2-2): NODE matches the node's own address unless it is 0, GROUP the members of the
group set, ALL always, NONE never. -/
def Obligations.DestinationMatchesByItsMode : Prop :=
  ∀ (f : Forwarding) (dest : BitVec 16), f.Sound →
    let mode := dest.toNat / 16384
    let value := dest.toNat % 16384
    (mode = 0 → (f.matchesDest dest = true ↔ value = f.address.toNat ∧ f.address ≠ 0))
      ∧ (mode = 0 → value = 0 ∨ 1024 ≤ value → f.matchesDest dest = false)
      ∧ (mode = 1 → (f.matchesDest dest = true ↔ ∃ g ∈ f.groups, g.toNat = value))
      ∧ (mode = 1 → value = 0 ∨ 256 ≤ value → f.matchesDest dest = false)
      ∧ (mode = 2 → f.matchesDest dest = true)
      ∧ (mode = 3 → f.matchesDest dest = false)
end

