-- ==== Sys2Proof/Laws/LinkSound.lean ====
section
/-! SUPPORT. The operations of the link ports keep their soundness (R16, R19). -/

namespace Sys2Proof.Machine

-- One proof at a time: side by side, their threads' stacks pass the memory limit of a check.
set_option Elab.async false

/-- The number of places of a held SYNC in the sending order. -/
abbrev syncPlaces (order : List FwdItem) : Nat := order.countP fun x => x = .syncPlace

@[simp] theorem dataCount_append (a b : List FwdItem) : dataCount (a ++ b) = dataCount a + dataCount b := by
  simp [dataCount]

/-- A change that leaves the order, the SYNC store and the character being sent. -/
theorem Link.Sound.congr {l m : Link} (h : l.Sound) (ho : m.order = l.order) (hs : m.store = l.store)
    (hc : m.fwdTx.current = l.fwdTx.current) : m.Sound := by
  unfold Link.Sound
  rw [ho, hs, hc]
  exact h

/-- Something other than a held SYNC's place is appended. -/
theorem Link.Sound.append {l m : Link} (h : l.Sound) (xs : List FwdItem) (ho : m.order = l.order ++ xs)
    (hs : m.store.isSome = l.store.isSome) (hc : m.fwdTx.current = l.fwdTx.current) (hx : syncPlaces xs = 0)
    (room : dataCount l.order + dataCount xs ≤ Config.forwardCapacity) : m.Sound := by
  obtain ⟨_, h2, h3⟩ := h
  unfold Link.Sound
  rw [ho, hs, hc]
  refine ⟨by simpa using room, ?_, fun q => ?_⟩
  · rw [List.countP_append, h2]
    show _ + syncPlaces xs = _
    rw [hx, Nat.add_zero]
  · rw [List.head?_append, h3 q]
    rfl

theorem Node.placeMark_sound {n : Node} (h : n.link.Sound) (x : FwdItem) (hx : x = .sof ∨ x = .eof ∨ x = .eoa) :
    (n.placeMark x).link.Sound := by
  refine h.append [x] rfl rfl rfl ?_ ?_
  · rcases hx with rfl | rfl | rfl <;> rfl
  · have := h.1
    rcases hx with rfl | rfl | rfl <;> exact this

theorem Node.placeData_sound {n : Node} (h : n.link.Sound) (k : Bool) (b : Byte) : (n.placeData k b).link.Sound := by
  unfold Node.placeData
  split
  · split
    · rename_i lt
      exact h.append [.data b] rfl rfl rfl rfl lt
    · have k := Node.placeMark_sound h .eoa (by simp)
      exact ⟨k.1, k.2.1, k.2.2⟩
  · exact h

theorem Node.placeRun_sound (k : Bool) : ∀ (bs : List Byte) {n : Node}, n.link.Sound → (n.placeRun k bs).link.Sound
  | [], _, h => h
  | b :: bs, _, h => Node.placeRun_sound k bs (Node.placeData_sound h k b)

theorem Node.beginCopy_sound {n : Node} (h : n.link.Sound) (x : FwdHeader) : (n.beginCopy x).link.Sound := by
  have k := Node.placeMark_sound h .sof (by simp)
  have k : ((n.placeMark .sof).setCopy .opened).link.Sound := ⟨k.1, k.2.1, k.2.2⟩
  unfold Node.beginCopy
  generalize x.passedOn.bytes = bs
  exact Node.placeRun_sound _ _ k

theorem Node.endCopy_sound {n : Node} (h : n.link.Sound) (x : FwdItem) (hx : x = .eof ∨ x = .eoa) :
    (n.endCopy x).link.Sound := by
  unfold Node.endCopy
  split
  · have k := Node.placeMark_sound h x (.inr hx)
    exact ⟨k.1, k.2.1, k.2.2⟩
  · exact h

/-- Data characters hold no place of a held SYNC, and each counts once. -/
theorem map_data_counts (bs : List Byte) : dataCount (bs.map .data) = bs.length ∧ syncPlaces (bs.map .data) = 0 := by
  induction bs with
  | nil => exact ⟨rfl, rfl⟩
  | cons b bs ih =>
    simp only [List.map_cons, dataCount, syncPlaces, List.countP_cons, List.length_cons] at ih ⊢
    simp [ih.1, ih.2, FwdItem.isData]

theorem Node.holdSync_sound {n : Node} (h : n.link.Sound) (x : HeldSync) : (n.holdSync x).link.Sound := by
  unfold Node.holdSync
  split
  · rename_i empty
    obtain ⟨h1, h2, h3⟩ := h
    rw [empty] at h2
    refine ⟨?_, ?_, fun q => ?_⟩
    · show dataCount (n.link.order ++ [FwdItem.syncPlace]) ≤ _
      rw [dataCount_append]; exact h1
    · show (n.link.order ++ [FwdItem.syncPlace]).countP _ = 1
      rw [List.countP_append, h2]; rfl
    · show (n.link.order ++ [FwdItem.syncPlace]).head? = _
      rw [List.head?_append, h3 q]; rfl
  · simp only
    have key : ({ n.link with order := syncCopy n.link.order x.bytes } : Link).Sound := by
      let room := Config.forwardCapacity - dataCount n.link.order
      refine h.append ([.syncSof] ++ ((x.bytes.take room).map .data ++ [if x.bytes.length ≤ room then .eof else .eoa]))
        ?_ rfl rfl ?_ ?_
      · simp [syncCopy, room]
      · have := (map_data_counts (x.bytes.take room)).2
        simp only [syncPlaces, List.countP_append] at this ⊢
        rw [this]
        split <;> rfl
      · have := (map_data_counts (x.bytes.take room)).1
        rw [dataCount_append, dataCount_append, this, List.length_take]
        have h1 := h.1
        have z : dataCount [if x.bytes.length ≤ room then FwdItem.eof else FwdItem.eoa] = 0 := by split <;> rfl
        have y : dataCount [FwdItem.syncSof] = 0 := rfl
        rw [z, y]
        omega
    split
    · exact key
    · exact key.congr rfl rfl rfl

/-- A rewritten held SYNC has as many bytes as it had (R20). -/
theorem rewriteSync_length (t : BitVec 40) (bs : List Byte) : (rewriteSync t bs).length = bs.length := by
  have e : (bs.take 8 ++ (bytes40 t).take (bs.length - 8) ++ bs.drop 13).length = bs.length := by
    have : (bytes40 t).length = 5 := rfl
    simp only [List.length_append, List.length_take, List.length_drop, this]
    omega
  unfold rewriteSync
  simp only
  split
  · rename_i q
    have : ∀ w, (bytes16 w).length = 2 := fun _ => rfl
    rw [List.length_append, this, List.length_take, e, q]
    rfl
  · exact e

/-- The bytes of a run of data characters. -/
theorem filterMap_byte_length : ∀ (l : List FwdItem), (∀ x ∈ l, x.isData = true) →
    (l.filterMap FwdItem.byte?).length = l.length
  | [], _ => rfl
  | x :: xs, h => by
    have ih := filterMap_byte_length xs fun y m => h y (by simp [m])
    have hx := h x (by simp)
    cases x <;> simp_all [FwdItem.isData, FwdItem.byte?]

theorem rewriteOrder_counts (t : BitVec 40) (order : List FwdItem) :
    dataCount (rewriteOrder t order) = dataCount order ∧ syncPlaces (rewriteOrder t order) = syncPlaces order := by
  have split := List.takeWhile_append_dropWhile (p := FwdItem.isData) (l := order)
  have all : ∀ x ∈ order.takeWhile FwdItem.isData, x.isData = true := fun x m => List.mem_takeWhile_imp m
  have len := filterMap_byte_length _ all
  have c := map_data_counts (rewriteSync t ((order.takeWhile FwdItem.isData).filterMap FwdItem.byte?))
  rw [rewriteSync_length, len] at c
  have d : dataCount (order.takeWhile FwdItem.isData) = (order.takeWhile FwdItem.isData).length :=
    List.countP_eq_length.2 all
  have p : syncPlaces (order.takeWhile FwdItem.isData) = 0 := by
    refine List.countP_eq_zero.2 fun x m => ?_
    have := all x m
    cases x <;> simp_all [FwdItem.isData]
  constructor
  · conv => rhs; rw [← split]
    simp only [rewriteOrder, dataCount_append, c.1, d]
  · conv => rhs; rw [← split]
    have c2 := c.2
    simp only [rewriteOrder, syncPlaces, List.countP_append] at c2 p ⊢
    rw [c2, p]

/-- The next thing in order is taken, with the character before it gone from the store's place. -/
theorem Node.takeHead_sound {n : Node} (h1 : dataCount n.link.order ≤ Config.forwardCapacity)
    (h2 : syncPlaces n.link.order = if n.link.store.isSome then 1 else 0) :
    (match n.link.order with
      | [] => n.sendNext .idle []
      | .syncPlace :: rest => n.sendNext (.store 0) (.syncPlace :: rest)
      | x :: rest => n.sendNext (.item x) rest).link.Sound := by
  split
  · rename_i e
    rw [e] at h1 h2
    exact ⟨h1, h2, nofun⟩
  · rename_i rest e
    rw [e] at h1 h2
    exact ⟨h1, h2, fun _ => rfl⟩
  · rename_i x rest ne e
    rw [e] at h1 h2
    have hx : x ≠ .syncPlace := ne
    refine ⟨?_, ?_, nofun⟩
    · show dataCount rest ≤ _
      simp only [dataCount, List.countP_cons] at h1 ⊢
      omega
    · show syncPlaces rest = if n.link.store.isSome then 1 else 0
      simpa [syncPlaces, List.countP_cons, hx] using h2

theorem Node.takeUnderrun_sound {n : Node} (h : n.link.Sound) (e : n.link.order = []) : n.takeUnderrun.link.Sound := by
  obtain ⟨h1, h2, _⟩ := h
  rw [e] at h1 h2
  exact ⟨h1, h2, nofun⟩

/-- One character boundary of the D forward transmitter (R4, R16, R18, R20). -/
theorem Node.forwardCharacter_sound {n : Node} (h : n.link.Sound) : n.forwardCharacter.link.Sound := by
  have other : ∀ m : Node, m.link.Sound → (∀ i, m.link.fwdTx.current ≠ .store i) → m.forwardTakeNext.link.Sound := by
    intro m hm ns
    unfold Node.forwardTakeNext
    split
    · rename_i i q; exact absurd q (ns i)
    all_goals
      have t := Node.takeHead_sound hm.1 hm.2.1
      split
      · rename_i e
        split
        · exact Node.takeUnderrun_sound hm e
        · rw [e] at t; exact t
      · rename_i e; rw [e] at t; exact t
      · rename_i ne e
        rw [e] at t
        split at t
        · simp_all
        · rename_i q; cases q; exact absurd rfl ne
        · rename_i q; cases q; exact t
  unfold Node.forwardCharacter
  split
  · exact h
  · obtain ⟨h1, h2, h3⟩ := h
    unfold Node.forwardCharacterEnds
    split
    · rename_i i ci
      rw [ci] at h3
      have hd := h3 rfl
      split
      · rename_i z
        subst z
        unfold Node.forwardTakeNext
        simp only [ci]
        rw [if_pos (by decide)]
        refine ⟨h1, ?_, fun _ => hd⟩
        show n.link.order.countP _ = if (n.link.store.map _).isSome then 1 else 0
        rw [Option.isSome_map]; exact h2
      · split
        · rename_i z
          subst z
          unfold Node.forwardTakeNext
          simp only [ci]
          rw [if_neg (by decide)]
          cases q : n.link.order with
          | nil => rw [q] at hd; cases hd
          | cons x rest =>
            rw [q] at hd h1 h2
            cases hd
            have k : syncPlaces rest = 0 := by
              have : n.link.store.isSome = true := by
                by_contra c
                rw [if_neg c] at h2
                simp at h2
              rw [if_pos this] at h2
              simpa [syncPlaces] using h2
            exact Node.takeHead_sound (n := { n with link := { n.link with store := none, order := rest } }) h1 k
        · unfold Node.forwardTakeNext
          simp only [ci]
          split
          · exact ⟨h1, h2, fun _ => hd⟩
          · cases q : n.link.order with
            | nil => rw [q] at hd; cases hd
            | cons x rest =>
              rw [q] at hd h1 h2
              cases hd
              exact ⟨h1, h2, fun _ => rfl⟩
    · rename_i ci
      have c := rewriteOrder_counts n.sched.outgoing n.link.order
      refine other _ ⟨?_, ?_, ?_⟩ ?_
      · show dataCount (rewriteOrder _ _) ≤ _
        rw [c.1]; exact h1
      · show syncPlaces (rewriteOrder _ _) = _
        rw [c.2]; exact h2
      · show (FwdCurrent.fromStore n.link.fwdTx.current = true → _)
        rw [ci]; nofun
      · intro i q
        rw [show n.link.fwdTx.current = .item .syncSof from ci] at q
        cases q
    all_goals
      refine other _ ⟨h1, h2, h3⟩ fun i q => ?_
      simp_all

theorem Node.sendSyncSof_sound {n : Node} (h : n.link.Sound) : n.sendSyncSof.link.Sound := by
  have h' := Node.forwardCharacter_sound h
  unfold Node.sendSyncSof
  split
  · exact h
  · split
    · exact h'
    · split
      · exact Node.forwardCharacter_sound h'
      · exact h

theorem Node.sendSyncEof_sound {n : Node} (h : n.link.Sound) : n.sendSyncEof.link.Sound := by
  unfold Node.sendSyncEof
  split
  · rename_i i ci
    split
    · exact h
    · refine Node.forwardCharacter_sound ?_
      obtain ⟨h1, h2, h3⟩ := h
      exact ⟨h1, h2, fun _ => h3 (by rw [ci]; rfl)⟩
  all_goals exact h

theorem Node.underrun_sound {n : Node} (h : n.link.Sound) : n.underrun.link.Sound := by
  unfold Node.underrun
  split
  · exact Node.forwardCharacter_sound h
  · exact h

end Sys2Proof.Machine
end

