-- ==== Sys2Proof/Laws/OutputSound.lean ====
section
/-! SUPPORT. The operations of the output engine keep its soundness (R125, R127, R128). -/

namespace Sys2Proof.Machine

-- One proof at a time: side by side, their threads' stacks pass the memory limit of a check.
set_option Elab.async false

/-- The compare a load gives, with the offset, stays within the period (R99, R127). -/
theorem compareLoaded_add_le (l n o : BitVec 16) (h : o.toNat < n.toNat) :
    (compareLoaded l n o).toNat + o.toNat ≤ n.toNat := by
  have hn := n.isLt
  unfold compareLoaded
  rw [BitVec.toNat_ofNat, Nat.mod_eq_of_lt (by omega)]
  omega

theorem Output.withGroup_self (o : Output) (g : Fin 4) (x : Group) : (o.withGroup g x).groups[g] = x := by
  simp [Output.withGroup]

theorem Output.withGroup_ne (o : Output) {g k : Fin 4} (x : Group) (e : g ≠ k) :
    (o.withGroup g x).groups[k] = o.groups[k] := by
  simp [Output.withGroup, Fin.val_inj, e]

/-- Soundness with the group of a channel named apart. -/
theorem Output.sound_iff (o : Output) : o.Sound ↔ (∀ g : Fin 4, o.groups[g].Sound)
    ∧ ∀ (c : Fin 16) (g : Fin 4), o.chans[c].group = g → o.chans[c].Sound o.groups[g] :=
  ⟨fun h => ⟨h.1, fun c _ e => e ▸ h.2 c⟩, fun h => ⟨h.1, fun c => h.2 c _ rfl⟩⟩

/-- One group and its members are replaced together. -/
theorem Output.Sound.regroup {o : Output} (h : o.Sound) (g : Fin 4) (x : Group) (f : Channel → Channel) (hx : x.Sound)
    (hg : ∀ ch, (f ch).group = ch.group)
    (hc : ∀ ch : Channel, ch.group = g → ch.Sound o.groups[g] → (f ch).Sound x) :
    ((o.mapMembers g f).withGroup g x).Sound := by
  have hch (c : Fin 16) : ((o.mapMembers g f).withGroup g x).chans[c]
      = if o.chans[c].group = g then f o.chans[c] else o.chans[c] := by
    simp [Output.mapMembers, Output.withGroup]
  have h2 := (Output.sound_iff o).1 h
  refine (Output.sound_iff _).2 ⟨fun k => ?_, fun c k => ?_⟩
  · by_cases e : g = k
    · subst e; rw [Output.withGroup_self]; exact hx
    · rw [Output.withGroup_ne _ _ e]; exact h.1 k
  · rw [hch]
    by_cases e : o.chans[c].group = g
    · rw [if_pos e, hg, e]
      rintro rfl
      rw [Output.withGroup_self]
      exact hc _ e (h2.2 c _ e)
    · rw [if_neg e]
      intro ek
      rw [Output.withGroup_ne _ _ (fun q => e (ek.trans q.symm))]
      exact h2.2 c k ek

/-- The group record alone is replaced. -/
theorem Output.Sound.withGroup {o : Output} (h : o.Sound) (g : Fin 4) (x : Group) (hx : x.Sound)
    (hc : ∀ ch : Channel, ch.group = g → ch.Sound o.groups[g] → ch.Sound x) : (o.withGroup g x).Sound := by
  have e : (o.mapMembers g id).withGroup g x = o.withGroup g x := by
    have : o.chans.mapIdx (fun _ ch => if ch.group = g then id ch else ch) = o.chans := by
      ext i hi : 1; simp
    simp only [Output.mapMembers, Output.withGroup, this]
  exact e ▸ h.regroup g x id hx (fun _ => rfl) hc

/-- Changes of the sticky flag alone. -/
theorem Output.Sound.flag {o : Output} (h : o.Sound) (b : Bool) : ({ o with clip := b } : Output).Sound := h

/-- Changes of the staging records alone. -/
theorem Output.Sound.restage {o : Output} (h : o.Sound) (v : Vector Channel 16)
    (hv : ∀ c : Fin 16, v[c].group = o.chans[c].group ∧ v[c].stagedOffset = o.chans[c].stagedOffset
      ∧ v[c].activeOffset = o.chans[c].activeOffset ∧ v[c].compare = o.chans[c].compare) :
    ({ o with chans := v } : Output).Sound := by
  refine (Output.sound_iff _).2 ⟨h.1, fun c g e => ?_⟩
  obtain ⟨e1, e2, e3, e4⟩ := hv c
  have := ((Output.sound_iff o).1 h).2 c g (e1 ▸ e)
  show v[c].Sound o.groups[g]
  unfold Channel.Sound
  rw [e2, e3, e4]
  exact this

theorem Output.Sound.offer {o : Output} (h : o.Sound) (b : Bool) (r : Origin) (ls : Vector (Option (BitVec 16)) 16) :
    (o.offer b r ls).Sound := by
  unfold Output.offer
  split
  · exact h
  · refine h.restage _ fun c => ?_
    simp only [Fin.getElem_fin, Vector.getElem_mapIdx]
    split <;> simp [Channel.take]

/-- A load as a change of one group and its members, and of the sticky flag. -/
theorem Output.load_eq (o : Output) (g : Fin 4) (st : GroupState) :
    o.load g st = { ((o.mapMembers g fun ch => ch.load o.groups[g].staged.period).withGroup g
      { o.groups[g] with state := st, mark := false, active := o.groups[g].staged, count := 0 })
        with clip := o.clip || o.clipsAt g } := rfl

/-- The group record a load leaves (R135) is sound where the state it enters is one of the group's mode. -/
theorem Group.Sound.loaded {x : Group} (h : x.Sound) (st : GroupState)
    (hst : st = .running ∧ x.mode = .continuous ∨ st = .pulse ∧ x.mode = .oneShot) :
    ({ x with state := st, mark := false, active := x.staged, count := 0 } : Group).Sound := by
  have z : (0 : BitVec 16).toNat < x.staged.period.toNat := by
    have := h.2.1.2
    rw [show (0 : BitVec 16).toNat = 0 from rfl]
    omega
  rcases hst with ⟨rfl, m⟩ | ⟨rfl, m⟩
  · exact ⟨h.2.1, h.2.1, nofun, nofun, fun _ => ⟨m, z⟩, nofun, nofun, nofun⟩
  · exact ⟨h.2.1, h.2.1, nofun, nofun, nofun, nofun, nofun, fun _ => ⟨m, z⟩⟩

/-- A load point (R135) into a state whose mode is the group's. -/
theorem Output.Sound.load {o : Output} (h : o.Sound) (g : Fin 4) (st : GroupState)
    (hst : st = .running ∧ o.groups[g].mode = .continuous ∨ st = .pulse ∧ o.groups[g].mode = .oneShot) :
    (o.load g st).Sound := by
  have ne : st ≠ .idle := by rcases hst with ⟨rfl, _⟩ | ⟨rfl, _⟩ <;> nofun
  have k := h.regroup g { o.groups[g] with state := st, mark := false, active := o.groups[g].staged, count := 0 }
    (fun ch => ch.load o.groups[g].staged.period) ((h.1 g).loaded st hst) (fun _ => rfl)
    fun ch _ hs => ⟨hs.1, hs.1, compareLoaded_add_le _ _ _ hs.1, fun e => absurd e ne⟩
  rw [Output.load_eq]
  exact ⟨k.1, k.2⟩

theorem Output.Sound.takeStart {o : Output} (h : o.Sound) (g : Fin 4) : (o.takeStart g).Sound := by
  unfold Output.takeStart
  have hg := h.1 g
  simp only
  split
  · rename_i c
    simp only [Bool.and_eq_true, decide_eq_true_eq] at c
    split
    · exact h.load g _ (.inl ⟨rfl, by assumption⟩)
    · rename_i m
      refine h.withGroup g _ ?_ ?_
      · exact ⟨hg.1, hg.2.1, nofun, nofun, nofun, fun _ => ⟨m, rfl⟩, nofun, nofun⟩
      · intro ch _ hs
        exact ⟨hs.1, hs.2.1, hs.2.2.1, nofun⟩
  · exact h

theorem Output.Sound.markStart {o : Output} (h : o.Sound) (g : Fin 4) : (o.markStart g).Sound := by
  unfold Output.markStart
  have hg := h.1 g
  simp only
  split
  · rename_i c
    refine h.withGroup g _ ⟨hg.1, hg.2.1, fun _ => c, hg.2.2.2⟩ fun ch _ hs => hs
  · exact h

theorem Output.Sound.stop {o : Output} (h : o.Sound) (g : Fin 4) : (o.stop g).Sound := by
  unfold Output.stop
  have hg := h.1 g
  simp only
  split
  · exact h.withGroup g _ ⟨hg.1, hg.2.1, nofun, hg.2.2.2⟩ fun ch _ hs => hs
  · refine h.regroup g _ _ ?_ (fun _ => rfl) ?_
    · exact ⟨hg.2.1, hg.2.1, nofun, fun _ => ⟨rfl, rfl⟩, nofun, nofun, nofun, nofun⟩
    · intro ch _ hs
      refine ⟨hs.1, hs.1, ?_, fun _ => ⟨rfl, rfl⟩⟩
      have := hs.1
      show (0 : BitVec 16).toNat + ch.stagedOffset.toNat ≤ _
      rw [show (0 : BitVec 16).toNat = 0 from rfl, Nat.zero_add]
      exact Nat.le_of_lt this

theorem Output.Sound.beginSequence {o : Output} (h : o.Sound) (g : Fin 4) (m : o.groups[g].mode = .oneShot) :
    (o.beginSequence g).Sound := by
  unfold Output.beginSequence
  have hg := h.1 g
  simp only
  split
  · exact h.load g _ (.inr ⟨rfl, m⟩)
  · rename_i c
    refine h.withGroup g _ ?_ ?_
    · refine ⟨hg.1, hg.2.1, by simp, by simp, by simp, by simp, fun _ => ⟨m, ?_⟩, nofun⟩
      have : o.groups[g].active.delay.toNat ≠ 0 := fun e => c (BitVec.eq_of_toNat_eq e)
      simpa using Nat.pos_of_ne_zero this
    · intro ch _ hs
      exact ⟨hs.1, hs.2.1, hs.2.2.1, nofun⟩

theorem Output.Sound.trigger {o : Output} (h : o.Sound) (g : Fin 4) : (o.trigger g).Sound := by
  unfold Output.trigger
  have hg := h.1 g
  have hm : (o.withGroup g { o.groups[g] with missed := raiseMissed o.groups[g].missed }).Sound :=
    h.withGroup g _ hg fun ch _ hs => hs
  simp only
  split
  · rename_i c; exact h.beginSequence g (hg.2.2.2.2.2.1 c).1
  · rename_i c
    split
    · exact hm
    · exact h.beginSequence g (hg.2.2.2.2.2.2.1 c).1
  · rename_i c
    split
    · exact hm
    · exact h.beginSequence g (hg.2.2.2.2.2.2.2 c).1
  · exact h
  · exact h

theorem Output.Sound.wrap {o : Output} (h : o.Sound) (g : Fin 4) : (o.wrap g).Sound := by
  unfold Output.wrap
  split
  · rename_i c; exact h.load g _ (.inl ⟨rfl, ((h.1 g).2.2.2.2.1 c).1⟩)
  · exact h

theorem Output.Sound.endDelay {o : Output} (h : o.Sound) (g : Fin 4) : (o.endDelay g).Sound := by
  unfold Output.endDelay
  split
  · rename_i c; exact h.load g _ (.inr ⟨rfl, ((h.1 g).2.2.2.2.2.2.1 c).1⟩)
  · exact h

theorem Output.Sound.endPulse {o : Output} (h : o.Sound) (g : Fin 4) : (o.endPulse g).Sound := by
  unfold Output.endPulse
  have hg := h.1 g
  simp only
  split
  · rename_i c
    refine h.withGroup g _ ⟨hg.1, hg.2.1, by simp, by simp, by simp, fun _ => ⟨(hg.2.2.2.2.2.2.2 c).1, rfl⟩, by simp, nofun⟩ ?_
    intro ch _ hs
    exact ⟨hs.1, hs.2.1, hs.2.2.1, nofun⟩
  · exact h

theorem Output.Sound.tick {o : Output} (h : o.Sound) (g : Fin 4) : (o.tick g).Sound := by
  unfold Output.tick Output.advance
  have hg := h.1 g
  have bump (c : BitVec 16) (n : BitVec 16) (l : c.toNat + 1 < n.toNat) : (c + 1).toNat < n.toNat := by
    have := n.isLt
    rw [BitVec.toNat_add, Nat.mod_eq_of_lt] <;> simp <;> omega
  simp only
  split
  · exact h.takeStart g
  · exact h
  · rename_i c
    split
    · refine h.withGroup g _ ?_ fun ch _ hs => ⟨hs.1, hs.2.1, hs.2.2.1, hs.2.2.2⟩
      refine ⟨hg.1, hg.2.1, hg.2.2.1, ?_⟩
      have := bump _ _ ‹_›
      have m := (hg.2.2.2.2.1 c).1
      simp_all
    · exact h.wrap g
  · rename_i c
    split
    · refine h.withGroup g _ ?_ fun ch _ hs => ⟨hs.1, hs.2.1, hs.2.2.1, hs.2.2.2⟩
      refine ⟨hg.1, hg.2.1, hg.2.2.1, ?_⟩
      have := bump _ _ ‹_›
      have m := (hg.2.2.2.2.2.2.1 c).1
      simp_all
    · exact h.endDelay g
  · rename_i c
    split
    · refine h.withGroup g _ ?_ fun ch _ hs => ⟨hs.1, hs.2.1, hs.2.2.1, hs.2.2.2⟩
      refine ⟨hg.1, hg.2.1, hg.2.2.1, ?_⟩
      have := bump _ _ ‹_›
      have m := (hg.2.2.2.2.2.2.2 c).1
      simp_all
    · exact h.endPulse g

/-- An operation taken for each group of a list. -/
theorem Output.Sound.foldl {f : Output → Fin 4 → Output} (hf : ∀ o : Output, o.Sound → ∀ g, (f o g).Sound) :
    ∀ (gs : List (Fin 4)) {o : Output}, o.Sound → (gs.foldl f o).Sound
  | [], _, h => h
  | g :: gs, _, h => Output.Sound.foldl hf gs (hf _ h g)

theorem Output.Sound.runCue {o : Output} (h : o.Sound) (b : Bool) (e : CueEntry) : (o.runCue b e).Sound := by
  unfold Output.runCue
  split
  · exact h.offer _ _ _
  · exact Output.Sound.foldl (fun _ h g => h.markStart g) _ h
  · exact Output.Sound.foldl (fun _ h g => h.stop g) _ h
  · exact Output.Sound.foldl (fun _ h g => h.trigger g) _ h

theorem Output.Sound.runCues (b : Bool) : ∀ (es : List CueEntry) {o : Output}, o.Sound → (o.runCues b es).Sound
  | [], _, h => h
  | e :: es, _, h => Output.Sound.runCues b es (h.runCue b e)

theorem Output.Sound.failsafeGroup {o : Output} (h : o.Sound) (g : Fin 4) : (o.failsafeGroup g).Sound := by
  unfold Output.failsafeGroup
  split
  · rename_i c; exact h.load g _ (.inl ⟨rfl, ((h.1 g).2.2.2.2.1 c).1⟩)
  · exact h.stop g
  · exact h.stop g
  · exact h.stop g
  · exact h

theorem Output.Sound.enterFailsafe {o : Output} (h : o.Sound) (t : Vector FsEntry 16) : (o.enterFailsafe t).Sound :=
  Output.Sound.foldl (fun _ h g => h.failsafeGroup g) _ (h.offer _ _ _)

theorem Output.Sound.resetOutputs {o : Output} (h : o.Sound) : o.resetOutputs.Sound := by
  refine ⟨fun g => ?_, fun c => ?_⟩
  · have := (h.1 g).2.1
    simp only [Output.resetOutputs, Fin.getElem_fin, Vector.getElem_mapIdx, Group.resetOutputs]
    exact ⟨this, this, nofun, fun _ => ⟨rfl, rfl⟩, nofun, nofun, nofun, nofun⟩
  · have := (h.2 c).1
    simp only [Output.resetOutputs, Fin.getElem_fin, Vector.getElem_mapIdx, Group.resetOutputs, Channel.resetOutputs] at this ⊢
    refine ⟨this, this, ?_, fun _ => ⟨rfl, rfl⟩⟩
    rw [show (0 : BitVec 16).toNat = 0 from rfl, Nat.zero_add]
    exact Nat.le_of_lt this

theorem Output.initial_sound : Output.initial.Sound := by decide

/-! ## The commands of the output engine -/

/-- The group record alone is replaced, by one that fits the members as they stand. -/
theorem Output.Sound.setGroup {o : Output} (h : o.Sound) (g : Fin 4) (x : Group) (hx : x.Sound)
    (hc : ∀ c : Fin 16, o.chans[c].group = g → o.chans[c].Sound x) : (o.withGroup g x).Sound := by
  refine (Output.sound_iff _).2 ⟨fun k => ?_, fun c k ek => ?_⟩
  · by_cases q : g = k
    · subst q; rw [Output.withGroup_self]; exact hx
    · rw [Output.withGroup_ne _ _ q]; exact h.1 k
  · by_cases q : g = k
    · subst q; rw [Output.withGroup_self]; exact hc c ek
    · rw [Output.withGroup_ne _ _ q]; exact ((Output.sound_iff o).1 h).2 c k ek

theorem Group.configure_idle {x : Group} (i : x.state = .idle) (mode : Mode) (st : GroupSettings) :
    x.configure mode st = { x with mode := mode, active := st, staged := st } := by simp [Group.configure, i]

theorem Group.configure_busy {x : Group} (i : x.state ≠ .idle) (mode : Mode) (st : GroupSettings) :
    x.configure mode st = { x with mode := mode, staged := st } := by simp [Group.configure, i]

theorem Group.Sound.configured {x : Group} (h : x.Sound) (mode : Mode) (st : GroupSettings) (hst : st.Sound)
    (hm : mode = x.mode ∨ x.state = .idle) : (x.configure mode st).Sound := by
  by_cases i : x.state = .idle
  · rw [Group.configure_idle i]
    have n : ∀ y : GroupState, y ≠ .idle → x.state ≠ y := fun y hy e => hy (e.symm.trans i)
    exact ⟨hst, hst, fun _ => i, fun _ => ⟨(h.2.2.2.1 i).1, rfl⟩, fun r => absurd r (n _ nofun),
      fun r => absurd r (n _ nofun), fun r => absurd r (n _ nofun), fun r => absurd r (n _ nofun)⟩
  · rw [Group.configure_busy i, hm.resolve_right i]
    exact ⟨h.1, hst, h.2.2.1, fun r => absurd r i, h.2.2.2.2⟩

theorem Channel.Sound.configured {ch : Channel} {x : Group} (h : ch.Sound x) (mode : Mode) (st : GroupSettings)
    (f : ch.stagedOffset.toNat < st.period.toNat) : ch.Sound (x.configure mode st) := by
  by_cases i : x.state = .idle
  · obtain ⟨e0, eo⟩ := h.2.2.2 i
    rw [Group.configure_idle i]
    refine ⟨f, ?_, ?_, fun _ => ⟨e0, eo⟩⟩
    · rw [eo]; exact f
    · rw [eo, e0, show (0 : BitVec 16).toNat = 0 from rfl, Nat.zero_add]
      exact Nat.le_of_lt f
  · rw [Group.configure_busy i]
    exact ⟨f, h.2.1, h.2.2.1, fun r => absurd r i⟩

/-- Settings written to a group (R125, R126). -/
theorem Output.Sound.configureGroup {o : Output} (h : o.Sound) (g : Fin 4) (mode : Mode) (st : GroupSettings)
    (hst : st.Sound) (hfit : o.periodFits g st.period = true)
    (hm : mode = o.groups[g].mode ∨ o.groups[g].state = .idle) :
    (o.withGroup g (o.groups[g].configure mode st)).Sound := by
  refine h.setGroup g _ ((h.1 g).configured mode st hst hm) fun c e => ?_
  refine (((Output.sound_iff o).1 h).2 c g e).configured mode st ?_
  have := (List.all_eq_true.1 hfit) o.chans[c] (by simp)
  simp only [Bool.or_eq_true, decide_eq_true_eq, ne_eq] at this
  exact this.resolve_left (fun n => n e)

/-- One channel replaced by one that fits its group. -/
theorem Output.Sound.withChannel {o : Output} (h : o.Sound) (c : Fin 16) (x : Channel) (g : Fin 4) (hg : x.group = g)
    (hx : x.Sound o.groups[g]) : (o.withChannel c x).Sound := by
  refine (Output.sound_iff _).2 ⟨h.1, fun k g' => ?_⟩
  by_cases q : c = k
  · subst q
    have : (o.withChannel c x).chans[c] = x := by simp [Output.withChannel]
    rw [this]
    rintro rfl
    subst hg
    exact hx
  · have : (o.withChannel c x).chans[k] = o.chans[k] := by simp [Output.withChannel, Fin.val_inj, q]
    rw [this]
    exact ((Output.sound_iff o).1 h).2 k g'

/-- Settings written to a channel (R136, R137). -/
theorem Output.Sound.configureChannel {o : Output} (h : o.Sound) (c : Fin 16) (g : Fin 4) (en al : Bool)
    (off : BitVec 16) (ho : off.toNat < o.groups[g].staged.period.toNat) :
    (o.withChannel c (o.chans[c].configure g (o.groups[g].state = .idle) en al off)).Sound := by
  refine h.withChannel c _ g rfl ?_
  have hg := h.1 g
  have two := hg.1.2
  by_cases i : o.groups[g].state = .idle
  · have ea := (hg.2.2.2.1 i).2
    have cmp : (if o.chans[c].group = g then o.chans[c].compare else 0) = 0 := by
      split
      · rename_i e; exact ((((Output.sound_iff o).1 h).2 c g e).2.2.2 i).1
      · rfl
    refine ⟨ho, ?_, ?_, ?_⟩
    · simp only [Channel.configure, i, decide_true, if_true, ea]; exact ho
    · simp only [Channel.configure, i, decide_true, if_true, ea, cmp]
      rw [show (0 : BitVec 16).toNat = 0 from rfl, Nat.zero_add]
      exact Nat.le_of_lt ho
    · intro _
      simp only [Channel.configure, i, decide_true, if_true, cmp, and_self]
  · by_cases e : o.chans[c].group = g
    · have hs := ((Output.sound_iff o).1 h).2 c g e
      refine ⟨ho, ?_, ?_, fun r => absurd r i⟩
      · simp only [Channel.configure, i, decide_false, e, if_true]; exact hs.2.1
      · simp only [Channel.configure, i, decide_false, e, if_true]; exact hs.2.2.1
    · refine ⟨ho, ?_, ?_, fun r => absurd r i⟩
      · simp only [Channel.configure, i, decide_false, e, if_false, Bool.false_eq_true]
        rw [show (0 : BitVec 16).toNat = 0 from rfl]; omega
      · simp only [Channel.configure, i, decide_false, e, if_false, Bool.false_eq_true]
        rw [show (0 : BitVec 16).toNat = 0 from rfl]; omega

end Sys2Proof.Machine
end

