-- ==== Sys2Proof/Laws/RecordSound.lean ====
section
/-! SUPPORT. The supervision record, the group set and the result sizes: what their operations keep (R38, R47, R176). -/

namespace Sys2Proof.Machine

-- One proof at a time: side by side, their threads' stacks pass the memory limit of a check.
set_option Elab.async false

/-! ## Supervision record (Table 10-1) -/

theorem Supervision.Sound.qualify {u : Supervision} (h : u.Sound) (d : Bool) : (u.qualify d).2.Sound := by
  obtain ⟨h1, h2, h3, h4, h5, h6⟩ := h
  unfold Supervision.qualify
  split
  · rename_i q
    exact ⟨h1, fun _ => h2 (by simp [q]), nofun, fun _ => ⟨rfl, (h3 q).2⟩, nofun, nofun⟩
  · rename_i q
    exact ⟨h1, h2, fun r => absurd (q.symm.trans r) nofun, fun _ => ⟨rfl, (h4 q).2⟩, fun r => absurd (q.symm.trans r) nofun,
      fun r => absurd (q.symm.trans r) nofun⟩
  · rename_i q
    exact ⟨h1, fun _ => h2 (by simp [q]), nofun, fun _ => ⟨rfl, rfl⟩, nofun, nofun⟩
  · rename_i q
    have base : ∀ k : BitVec 4, ({ u.startWindow with recovery := k } : Supervision).Sound := fun k =>
      ⟨h1, fun r => absurd q r, fun r => absurd (q.symm.trans r) nofun, fun r => absurd (q.symm.trans r) nofun,
        fun r => absurd (q.symm.trans r) nofun, fun _ => h6 q⟩
    split
    · unfold Supervision.countData
      split
      · exact base 0
      · split
        · exact ⟨h1, fun _ => rfl, nofun, fun _ => ⟨rfl, h6 q⟩, nofun, nofun⟩
        · exact base _
    · exact base u.recovery

theorem Supervision.Sound.holdTimer {u : Supervision} (h : u.Sound) (q : u.state = .holdover) (t : Option Timer) :
    ({ u with holdTimer := t } : Supervision).Sound := by
  obtain ⟨h1, h2, h3, h4, h5, h6⟩ := h
  exact ⟨h1, h2, fun r => absurd (q.symm.trans r) nofun, fun r => absurd (q.symm.trans r) nofun, h5,
    fun r => absurd (q.symm.trans r) nofun⟩

/-- Both timers run on (R176). -/
theorem Supervision.Sound.run {u : Supervision} (h : u.Sound) :
    ({ u with supTimer := runTimer u.supTimer, holdTimer := runTimer u.holdTimer } : Supervision).Sound := by
  obtain ⟨h1, h2, h3, h4, h5, h6⟩ := h
  exact ⟨h1, h2, fun q => by simp [h3 q, runTimer], fun q => ⟨by simpa [runTimer] using (h4 q).1, by simp [(h4 q).2, runTimer]⟩,
    fun q => by simp [h5 q, runTimer], fun q => by simp [h6 q, runTimer]⟩

theorem Supervision.Sound.configure {u : Supervision} (h : u.Sound) (w t : BitVec 16) (e : Bool) (k : BitVec 4)
    (hw : 1 ≤ w.toNat ∧ w.toNat ≤ 1000) (ht : t.toNat ≤ 60000) : (u.configure w t e k).Sound := by
  obtain ⟨_, h2, h3, h4, h5, h6⟩ := h
  have keep : u.state ≠ .holdover → (u.configure w t e k).holdTimer = u.holdTimer := by
    intro n
    simp [Supervision.configure, n]
  refine ⟨⟨hw.1, hw.2, ht⟩, h2, fun q => ⟨(h3 q).1, ?_⟩, fun q => ⟨(h4 q).1, ?_⟩, h5, fun q => ?_⟩
  · rw [keep (fun r => absurd (q.symm.trans r) nofun)]; exact (h3 q).2
  · rw [keep (fun r => absurd (q.symm.trans r) nofun)]; exact (h4 q).2
  · rw [keep (fun r => absurd (q.symm.trans r) nofun)]; exact h6 q

theorem Supervision.initial_sound : Supervision.initial.Sound := by decide

/-! ## Group set (R38, R40) -/

theorem insertGroup_mem (g x : Byte) : ∀ l, x ∈ insertGroup g l ↔ x = g ∨ x ∈ l
  | [] => by simp [insertGroup]
  | y :: ys => by
    unfold insertGroup
    split
    · simp
    · simp only [List.mem_cons, insertGroup_mem g x ys]
      constructor <;> rintro (h | h | h) <;> simp [h]

theorem insertGroup_length (g : Byte) : ∀ l, (insertGroup g l).length = l.length + 1
  | [] => rfl
  | y :: ys => by
    unfold insertGroup
    split
    · rfl
    · simp [insertGroup_length g ys]

theorem insertGroup_sorted (g : Byte) : ∀ l : List Byte, g ∉ l → l.Pairwise (fun a b => a.toNat < b.toNat) →
    (insertGroup g l).Pairwise (fun a b => a.toNat < b.toNat)
  | [], _, _ => by simp [insertGroup]
  | y :: ys, hn, h => by
    rw [List.pairwise_cons] at h
    unfold insertGroup
    split
    · rename_i lt
      refine List.pairwise_cons.2 ⟨fun b hb => ?_, List.pairwise_cons.2 h⟩
      rcases List.mem_cons.1 hb with rfl | hb
      · exact lt
      · exact Nat.lt_trans lt (h.1 b hb)
    · rename_i ge
      refine List.pairwise_cons.2 ⟨fun b hb => ?_, insertGroup_sorted g ys (fun m => hn (by simp [m])) h.2⟩
      rcases (insertGroup_mem g b ys).1 hb with rfl | hb
      · have : y.toNat ≠ b.toNat := fun e => hn (by simp [BitVec.eq_of_toNat_eq e])
        omega
      · exact h.1 b hb

theorem Forwarding.Sound.congr {f g : Forwarding} (h : f.Sound) (e : g.groups = f.groups) : g.Sound := by
  unfold Forwarding.Sound
  rw [e]
  exact h

theorem Forwarding.Sound.of_nil {f : Forwarding} (h : f.groups = []) : f.Sound := by simp [Forwarding.Sound, h]

theorem Forwarding.Sound.add {f : Forwarding} (h : f.Sound) (g : Byte) (h0 : g ≠ 0) (hn : g ∉ f.groups)
    (hl : f.groups.length < Config.groupSetCapacity) : ({ f with groups := insertGroup g f.groups } : Forwarding).Sound := by
  obtain ⟨_, h2, h3⟩ := h
  refine ⟨?_, insertGroup_sorted g _ hn h2, fun x m => ?_⟩
  · show (insertGroup g f.groups).length ≤ _
    rw [insertGroup_length]; omega
  · rcases (insertGroup_mem g x f.groups).1 m with rfl | m
    · exact h0
    · exact h3 x m

theorem Forwarding.Sound.remove {f : Forwarding} (h : f.Sound) (g : Byte) :
    ({ f with groups := f.groups.erase g } : Forwarding).Sound := by
  obtain ⟨h1, h2, h3⟩ := h
  have s : (f.groups.erase g).Sublist f.groups := List.erase_sublist
  exact ⟨Nat.le_trans s.length_le h1, h2.sublist s, fun x m => h3 x (s.subset m)⟩

/-! ## Result sizes (R47) -/

@[simp] theorem bytes16_length (w : BitVec 16) : (bytes16 w).length = 2 := rfl
@[simp] theorem bytes24_length (w : BitVec 24) : (bytes24 w).length = 3 := rfl
@[simp] theorem bytes32_length (w : BitVec 32) : (bytes32 w).length = 4 := rfl
@[simp] theorem bytes40_length (w : BitVec 40) : (bytes40 w).length = 5 := rfl
@[simp] theorem LogEntry.bytes_length (e : LogEntry) : e.bytes.length = 11 := rfl
@[simp] theorem CueEntry.bytes_length (e : CueEntry) : e.bytes.length = 10 := rfl
@[simp] theorem ExtEntry.bytes_length (e : ExtEntry) : e.bytes.length = 5 := rfl
@[simp] theorem FsEntry.bytes_length (e : FsEntry) : e.bytes.length = 3 := rfl
@[simp] theorem FwdHeader.bytes_length (h : FwdHeader) : h.bytes.length = 8 := rfl
@[simp] theorem RetFrame.header_length (f : RetFrame) : f.header.length = 8 := rfl
@[simp] theorem settingsBytes_length (m : Mode) (st : GroupSettings) : (settingsBytes m st).length = 7 := rfl
@[simp] theorem ResultRecord.bytes_length (r : ResultRecord) : r.bytes.length = 3 + r.data.length := by
  simp [ResultRecord.bytes]; omega

/-- A run of entries of one size. -/
theorem flatMap_length_le {α β : Type} (f : α → List β) (k : Nat) : ∀ (l : List α), (∀ a ∈ l, (f a).length ≤ k) →
    (l.flatMap f).length ≤ k * l.length
  | [], _ => by simp
  | x :: xs, h => by
    have := flatMap_length_le f k xs fun a m => h a (by simp [m])
    have := h x (by simp)
    simp only [List.flatMap_cons, List.length_append, List.length_cons, Nat.mul_add, Nat.mul_one]
    omega

end Sys2Proof.Machine
end

