-- ==== Sys2Proof/Laws/ReturnSound.lean ====
section
/-! SUPPORT. The operations of the return unit keep its soundness (R167, R169, R170). -/

namespace Sys2Proof.Machine

-- One proof at a time: side by side, their threads' stacks pass the memory limit of a check.
set_option Elab.async false

/-- A change that leaves both queues and the reception area. -/
theorem ReturnUnit.Sound.congr {r s : ReturnUnit} (h : r.Sound) (hl : s.localQ = r.localQ) (hr : s.relayQ = r.relayQ)
    (ha : s.area = r.area) : s.Sound := by
  unfold ReturnUnit.Sound
  rw [hl, hr, ha]
  exact h

theorem ReturnUnit.Sound.enqueue {r : ReturnUnit} (h : r.Sound) (f : RetFrame) (free : r.hasFree = true)
    (hf : f.payload.length ≤ Config.responseRoom) : (r.enqueue f).Sound := by
  obtain ⟨h1, h2, h3, h4, h5⟩ := h
  refine ⟨?_, h2, h3, fun e m => ?_, h5⟩
  · show (r.localQ ++ [_]).length ≤ _
    have := of_decide_eq_true free
    rw [List.length_append, List.length_singleton]
    omega
  · rcases List.mem_append.1 m with m | m
    · exact h4 e m
    · rw [List.mem_singleton.1 m]; exact hf

theorem ReturnUnit.Sound.notice {r : ReturnUnit} (h : r.Sound) (a : BitVec 10) (c : Category) (d : List Byte)
    (hd : d.length + 2 ≤ Config.responseRoom) : (r.notice a c d).Sound := by
  unfold ReturnUnit.notice
  split
  · split
    · rename_i free
      refine h.enqueue _ free ?_
      simp [noticeFrame]
      omega
    · exact h.congr rfl rfl rfl
  · exact h

theorem ReturnUnit.Sound.supNotice {r : ReturnUnit} (h : r.Sound) (a : BitVec 10) (c : SupChange) :
    (r.supNotice a c).Sound := h.notice _ _ _ (by show 2 + 2 ≤ 240; decide)

theorem ReturnUnit.Sound.timeNotice {r : ReturnUnit} (h : r.Sound) (a : BitVec 10) (t : BitVec 32) :
    (r.timeNotice a t).Sound := h.notice _ _ _ (by show 4 + 2 ≤ 240; decide)

theorem ReturnUnit.Sound.supNotices (a : BitVec 10) : ∀ (cs : List SupChange) {r : ReturnUnit}, r.Sound →
    (cs.foldl (fun r c => r.supNotice a c) r).Sound
  | [], _, h => h
  | c :: cs, _, h => ReturnUnit.Sound.supNotices a cs (h.supNotice a c)

theorem ReturnUnit.Sound.receive {r : ReturnUnit} (h : r.Sound) (o : ReturnOutcome)
    (ho : ∀ hdr p c, o = .accepted hdr p c → lengthField hdr ≤ Config.maxRelayPayload → p.length ≤ Config.maxRelayPayload) :
    (r.receive o).Sound := by
  obtain ⟨h1, h2, h3, h4, h5⟩ := h
  unfold ReturnUnit.receive
  split
  · split
    · rename_i q
      simp only [Bool.and_eq_true, decide_eq_true_eq] at q
      refine ⟨h1, ?_, Nat.zero_le _, h4, fun e m => ?_⟩
      · show (r.relayQ ++ [_]).length ≤ _
        rw [List.length_append, List.length_singleton]
        omega
      · rcases List.mem_append.1 m with m | m
        · exact h5 e m
        · rw [List.mem_singleton.1 m]; exact ho _ _ _ rfl q.1
    · exact ⟨h1, h2, Nat.zero_le _, h4, h5⟩
  · exact ⟨h1, h2, Nat.zero_le _, h4, h5⟩
  · exact ⟨h1, h2, Nat.zero_le _, h4, h5⟩

theorem markLocal_length : ∀ l, (markLocal l).length = l.length
  | [] => rfl
  | e :: es => by unfold markLocal; split <;> simp [markLocal_length es]

theorem markLocal_frame : ∀ (l : List LocalEntry), ∀ e ∈ markLocal l, ∃ x ∈ l, x.frame = e.frame
  | [], _, m => by simp [markLocal] at m
  | x :: xs, e, m => by
    unfold markLocal at m
    split at m
    · rcases List.mem_cons.1 m with rfl | m
      · exact ⟨e, by simp, rfl⟩
      · obtain ⟨y, my, q⟩ := markLocal_frame xs e m
        exact ⟨y, by simp [my], q⟩
    · rcases List.mem_cons.1 m with rfl | m
      · exact ⟨x, by simp, rfl⟩
      · exact ⟨e, by simp [m], rfl⟩

theorem markRelay_length : ∀ l, (markRelay l).length = l.length
  | [] => rfl
  | e :: es => by unfold markRelay; split <;> simp [markRelay_length es]

theorem markRelay_payload : ∀ (l : List RelayEntry), ∀ e ∈ markRelay l, ∃ x ∈ l, x.payload = e.payload
  | [], _, m => by simp [markRelay] at m
  | x :: xs, e, m => by
    unfold markRelay at m
    split at m
    · rcases List.mem_cons.1 m with rfl | m
      · exact ⟨e, by simp, rfl⟩
      · obtain ⟨y, my, q⟩ := markRelay_payload xs e m
        exact ⟨y, by simp [my], q⟩
    · rcases List.mem_cons.1 m with rfl | m
      · exact ⟨x, by simp, rfl⟩
      · exact ⟨e, by simp [m], rfl⟩

theorem ReturnUnit.Sound.serve {r : ReturnUnit} (h : r.Sound) (q : QueueName) : (r.serve q).Sound := by
  obtain ⟨h1, h2, h3, h4, h5⟩ := h
  cases q
  · refine ⟨(markLocal_length r.localQ).trans_le h1, h2, h3, fun e m => ?_, h5⟩
    obtain ⟨x, mx, q⟩ := markLocal_frame _ e m
    exact q ▸ h4 x mx
  · refine ⟨h1, (markRelay_length r.relayQ).trans_le h2, h3, h4, fun e m => ?_⟩
    obtain ⟨x, mx, q⟩ := markRelay_payload _ e m
    exact q ▸ h5 x mx

theorem ReturnUnit.Sound.release {r : ReturnUnit} (h : r.Sound) (q : QueueName) : (r.release q).Sound := by
  obtain ⟨h1, h2, h3, h4, h5⟩ := h
  cases q
  · have s : (r.localQ.eraseP fun e => e.sending).Sublist r.localQ := List.eraseP_sublist
    exact ⟨Nat.le_trans s.length_le h1, h2, h3, fun e m => h4 e (s.subset m), h5⟩
  · have s : (r.relayQ.eraseP fun e => e.sending).Sublist r.relayQ := List.eraseP_sublist
    exact ⟨h1, Nat.le_trans s.length_le h2, h3, h4, fun e m => h5 e (s.subset m)⟩

theorem ReturnUnit.Sound.fillEntry {r : ReturnUnit} (h : r.Sound) (i : Nat) (f : RetFrame)
    (hf : f.payload.length ≤ Config.responseRoom) : (r.fillEntry i f).Sound := by
  obtain ⟨h1, h2, h3, h4, h5⟩ := h
  refine ⟨?_, h2, h3, fun e m => ?_, h5⟩
  · show (r.localQ.set i _).length ≤ _
    rw [List.length_set]; exact h1
  · rcases List.mem_or_eq_of_mem_set m with m | rfl
    · exact h4 e m
    · exact hf

end Sys2Proof.Machine
end

