-- ==== Sys2Proof/Laws/ScheduleSound.lean ====
section
/-! SUPPORT. The operations of the schedule unit keep its soundness (R113, R116). -/

namespace Sys2Proof.Machine

-- One proof at a time: side by side, their threads' stacks pass the memory limit of a check.
set_option Elab.async false

/-- The wait as arithmetic on tick counts. -/
theorem wait_eq (due tick : BitVec 32) : wait due tick = (due.toNat + (2 ^ 32 - tick.toNat)) % 2 ^ 32 := by
  simp only [wait, BitVec.toNat_sub]
  congr 1
  have := tick.isLt
  omega

theorem later_iff (due tick : BitVec 32) : later due tick = true ↔ 1 ≤ wait due tick ∧ wait due tick < 2 ^ 31 := by
  simp [later, wait]

theorem due_eq_iff (due tick : BitVec 32) : due = tick ↔ wait due tick = 0 := by
  rw [wait_eq]
  have := due.isLt
  have := tick.isLt
  constructor
  · rintro rfl; omega
  · intro h; apply BitVec.eq_of_toNat_eq; omega

/-- In a list ordered by `f`, dropping the front elements up to `k` leaves elements past `k` only. -/
theorem dropWhile_gt {α : Type} (f : α → Nat) (p : α → Bool) (k : Nat) : ∀ (l : List α),
    l.Pairwise (fun a b => f a ≤ f b) → (∀ a ∈ l, p a = true ↔ f a ≤ k) → ∀ a ∈ l.dropWhile p, k < f a
  | [], _, _ => by simp
  | x :: xs, h, hp => by
    have hx := hp x (by simp)
    rw [List.pairwise_cons] at h
    by_cases c : p x = true
    · rw [List.dropWhile_cons_of_pos c]
      exact dropWhile_gt f p k xs h.2 (fun a ha => hp a (by simp [ha]))
    · rw [List.dropWhile_cons_of_neg c]
      intro a ha
      have : k < f x := by
        have : ¬ f x ≤ k := fun q => c (hx.2 q)
        omega
      rcases List.mem_cons.1 ha with rfl | ha
      · exact this
      · exact Nat.lt_of_lt_of_le this (h.1 a ha)

/-- The cue queue in order and within the half circle, where entries may already be due: what a move of the tick count
leaves before the entries due are taken. -/
abbrev Schedule.Near (c : Schedule) : Prop :=
  c.queue.length ≤ Config.cueCapacity ∧ (c.time = .invalid → c.queue = [])
    ∧ (∀ e ∈ c.queue, wait e.due c.tick < 2 ^ 31) ∧ c.queue.Pairwise (fun a b => wait a.due c.tick ≤ wait b.due c.tick)
    ∧ ∀ e ∈ c.queue, e.Sound

theorem Schedule.Sound.sublist {c : Schedule} (h : c.Sound) {q : List CueEntry} (s : q.Sublist c.queue) :
    ({ c with queue := q } : Schedule).Sound := by
  obtain ⟨h1, h2, h3, h4, h5⟩ := h
  refine ⟨Nat.le_trans s.length_le h1, fun e => ?_, fun e m => h3 e (s.subset m), h4.sublist s, fun e m => h5 e (s.subset m)⟩
  exact List.sublist_nil.1 (h2 e ▸ s)

/-- A change that leaves time, tick count and queue. -/
theorem Schedule.Sound.congr {c d : Schedule} (h : c.Sound) (hq : d.queue = c.queue) (ht : d.tick = c.tick)
    (hv : d.time = c.time) : d.Sound := by
  unfold Schedule.Sound
  rw [hq, ht, hv]
  exact h

/-- Without entries, any time state and tick count are sound. -/
theorem Schedule.Sound.of_nil {c : Schedule} (h : c.queue = []) : c.Sound := by
  simp [Schedule.Sound, h]

/-- The entries due are taken (R115). -/
theorem Schedule.Near.expire {c : Schedule} (h : c.Near) : c.expire.2.Sound := by
  obtain ⟨h1, h2, h3, h4, h5⟩ := h
  have s : (c.queue.dropWhile fun e => decide (e.due = c.tick)).Sublist c.queue := List.dropWhile_sublist _
  refine ⟨Nat.le_trans s.length_le h1, fun e => ?_, fun e m => ?_, h4.sublist s, fun e m => h5 e (s.subset m)⟩
  · show c.queue.dropWhile _ = []
    rw [h2 e]; rfl
  · rw [later_iff]
    refine ⟨?_, h3 e (s.subset m)⟩
    exact dropWhile_gt (fun e => wait e.due c.tick) _ 0 c.queue h4
      (fun a _ => by rw [decide_eq_true_eq, due_eq_iff]; exact ⟨Nat.le_of_eq, Nat.le_zero.1⟩) e m

/-- The advance by 16 sub-ticks moves the tick count by one tick at most (R101). -/
theorem Schedule.advance_tick (c : Schedule) : c.advance.tick = c.tick ∨ c.advance.tick = c.tick + 1 := by
  have ht := c.tick.isLt
  have hs := c.sub.isLt
  have e : c.advance.tick = (c.tick ++ c.sub + BitVec.ofNat 40 16).extractLsb' 8 32 := rfl
  have v : (c.tick ++ c.sub).toNat = c.tick.toNat * 256 + c.sub.toNat := by
    rw [BitVec.toNat_append, ← Nat.shiftLeft_add_eq_or_of_lt hs, Nat.shiftLeft_eq]
  have n : c.advance.tick.toNat = (c.tick.toNat * 256 + c.sub.toNat + 16) % 2 ^ 40 / 256 % 2 ^ 32 := by
    rw [e, BitVec.extractLsb'_toNat, BitVec.toNat_add, v, Nat.shiftRight_eq_div_pow]
    rfl
  by_cases q : c.sub.toNat + 16 < 256
  · left; apply BitVec.eq_of_toNat_eq; rw [n]; omega
  · right; apply BitVec.eq_of_toNat_eq; rw [n, BitVec.toNat_add]
    show _ = (c.tick.toNat + 1) % 2 ^ 32
    omega

theorem Schedule.Sound.advance {c : Schedule} (h : c.Sound) : c.advance.Near := by
  obtain ⟨h1, h2, h3, h4, h5⟩ := h
  have key : ∀ e ∈ c.queue, wait e.due c.advance.tick = wait e.due c.tick - (if c.advance.tick = c.tick then 0 else 1) := by
    intro e m
    have l := (later_iff _ _).1 (h3 e m)
    rcases c.advance_tick with q | q
    · rw [q]; simp
    · have ne : c.tick + 1 ≠ c.tick := by
        intro x
        have := congrArg BitVec.toNat x
        have lt := c.tick.isLt
        rw [BitVec.toNat_add] at this
        simp at this
        omega
      rw [q, if_neg ne]
      rw [wait_eq] at l ⊢
      rw [wait_eq, BitVec.toNat_add]
      have := c.tick.isLt
      have := e.due.isLt
      simp
      omega
  refine ⟨h1, h2, fun e m => ?_, ?_, h5⟩
  · rw [key e m]
    have l := (later_iff _ _).1 (h3 e m)
    omega
  · refine h4.imp_of_mem fun {a b} ma mb le => ?_
    rw [key a ma, key b mb]
    omega

/-- The chain time moved on to the head's due time (R115, log entry 3). -/
theorem Schedule.Sound.reach {c : Schedule} (h : c.Sound) {e : CueEntry} {q : List CueEntry} (hq : c.queue = e :: q) :
    (c.reach e.due).Near := by
  obtain ⟨h1, h2, h3, h4, h5⟩ := h
  have hq' : (c.reach e.due).queue = c.queue := by unfold Schedule.reach; split <;> rfl
  have ht' : (c.reach e.due).tick = e.due := by
    unfold Schedule.reach; split
    · rename_i x; exact x.symm
    · rfl
  have hv' : (c.reach e.due).time = c.time := by unfold Schedule.reach; split <;> rfl
  have key : ∀ x ∈ c.queue, wait x.due e.due = wait x.due c.tick - wait e.due c.tick ∧ wait e.due c.tick ≤ wait x.due c.tick := by
    intro x m
    have le : wait e.due c.tick ≤ wait x.due c.tick := by
      rw [hq] at m h4
      rcases List.mem_cons.1 m with rfl | m
      · exact Nat.le_refl _
      · exact (List.pairwise_cons.1 h4).1 x m
    refine ⟨?_, le⟩
    rw [wait_eq] at le ⊢
    rw [wait_eq] at le
    rw [wait_eq, wait_eq]
    have := x.due.isLt
    have := e.due.isLt
    have := c.tick.isLt
    omega
  unfold Schedule.Near
  rw [hq', ht', hv']
  refine ⟨h1, h2, fun x m => ?_, ?_, h5⟩
  · rw [(key x m).1]
    have := (later_iff _ _).1 (h3 x m)
    omega
  · refine h4.imp_of_mem fun {a b} ma mb le => ?_
    rw [(key a ma).1, (key b mb).1]
    omega

/-! ## SYNC (R103 to R106) -/

/-- The tick count after a SYNC, by the step. -/
theorem wait_step (due old new : BitVec 32) (s : Int) (hs : s = (new - old).toInt) (w : Int) (hw : w = wait due old)
    (b : -65535 ≤ s ∧ s ≤ 65535) (hl : 1 ≤ w ∧ w < 2 ^ 31) :
    (wait due new : Int) = if 0 ≤ w - s then w - s else w - s + 2 ^ 32 := by
  rw [wait_eq] at hw ⊢
  rw [BitVec.toInt_eq_toNat_cond, BitVec.toNat_sub] at hs
  have := due.isLt
  have := old.isLt
  have := new.isLt
  split at hs <;> split <;> omega

theorem Schedule.Sound.sync {c : Schedule} (h : c.Sound) (t : BitVec 40) : (c.sync t).2.Sound := by
  unfold Schedule.sync
  split
  · rename_i v
    exact Schedule.Sound.of_nil (h.2.1 v)
  · rename_i v
    obtain ⟨h1, h2, h3, h4, h5⟩ := h
    have th := c.threshold.isLt
    simp only
    split
    · exact Schedule.Sound.of_nil rfl
    · rename_i small
      have b : -65535 ≤ (t.extractLsb' 8 32 - c.tick).toInt ∧ (t.extractLsb' 8 32 - c.tick).toInt ≤ 65535 := by omega
      have key := fun (e : CueEntry) (m : e ∈ c.queue) =>
        wait_step e.due c.tick (t.extractLsb' 8 32) _ rfl _ rfl b
          (by have := (later_iff _ _).1 (h3 e m); omega)
      have lat := fun (e : CueEntry) (m : e ∈ c.queue) => (later_iff _ _).1 (h3 e m)
      split
      · rename_i fwd
        -- forward step
        have s : (c.queue.dropWhile fun e => !later e.due (t.extractLsb' 8 32)).Sublist c.queue := List.dropWhile_sublist _
        have far : ∀ e ∈ c.queue.dropWhile (fun e => !later e.due (t.extractLsb' 8 32)),
            (t.extractLsb' 8 32 - c.tick).toInt.toNat < wait e.due c.tick := by
          refine dropWhile_gt (fun e => wait e.due c.tick) _ _ c.queue h4 fun a ma => ?_
          have k := key a ma
          have l := lat a ma
          rw [Bool.not_eq_true', ← Bool.not_eq_true, later_iff]
          split at k <;> omega
        refine ⟨Nat.le_trans s.length_le h1, fun e => absurd (v.symm.trans e) nofun, fun e m => ?_, ?_,
          fun e m => h5 e (s.subset m)⟩
        · have k := key e (s.subset m)
          have l := lat e (s.subset m)
          have f := far e m
          show later e.due (t.extractLsb' 8 32) = true
          rw [later_iff]
          split at k <;> omega
        · refine (h4.sublist s).imp_of_mem fun {a b} ma mb le => ?_
          have ka := key a (s.subset ma)
          have kb := key b (s.subset mb)
          have fa := far a ma
          have fb := far b mb
          show wait a.due (t.extractLsb' 8 32) ≤ wait b.due (t.extractLsb' 8 32)
          split at ka <;> split at kb <;> omega
      · rename_i nfwd
        have keyb : ∀ e ∈ c.queue, (wait e.due (t.extractLsb' 8 32) : Int)
            = wait e.due c.tick - (t.extractLsb' 8 32 - c.tick).toInt := by
          intro e m
          have k := key e m
          split at k <;> omega
        split
        · -- backward step
          have s : (c.queue.filter fun e => !carriedPast (t.extractLsb' 8 32) e).Sublist c.queue := List.filter_sublist
          have base : ({ c.setTime t with queue := c.queue.filter fun e => !carriedPast (t.extractLsb' 8 32) e } : Schedule).Sound := by
            refine ⟨Nat.le_trans s.length_le h1, fun e => absurd (v.symm.trans e) nofun, fun e m => ?_, ?_,
              fun e m => h5 e (s.subset m)⟩
            · have k := keyb e (s.subset m)
              have l := lat e (s.subset m)
              have np := (List.mem_filter.1 m).2
              simp only [carriedPast, Bool.not_eq_true', decide_eq_false_iff_not] at np
              show later e.due (t.extractLsb' 8 32) = true
              rw [later_iff]
              omega
            · refine (h4.sublist s).imp_of_mem fun {a b} ma mb le => ?_
              have ka := keyb a (s.subset ma)
              have kb := keyb b (s.subset mb)
              show wait a.due (t.extractLsb' 8 32) ≤ wait b.due (t.extractLsb' 8 32)
              omega
          unfold Schedule.stepBackward
          simp only
          split
          · exact base.congr rfl rfl rfl
          · exact base
        · -- no step
          have z : t.extractLsb' 8 32 = c.tick := by
            have i : (t.extractLsb' 8 32 - c.tick).toInt = 0 := by omega
            have : t.extractLsb' 8 32 - c.tick = 0#32 := BitVec.eq_of_toInt_eq (by rw [i]; rfl)
            exact BitVec.sub_eq_iff_eq_add.1 this |>.trans (BitVec.zero_add _)
          exact Schedule.Sound.congr ⟨h1, h2, h3, h4, h5⟩ rfl z rfl

/-! ## Cue records (R111 to R113) -/

theorem insertCue_perm (tick : BitVec 32) (e : CueEntry) : ∀ l, (insertCue tick e l).Perm (e :: l)
  | [] => List.Perm.refl _
  | x :: xs => by
    unfold insertCue
    split
    · exact List.Perm.refl _
    · exact ((insertCue_perm tick e xs).cons x).trans (List.Perm.swap _ _ _)

/-- Insertion keeps the order of due times (R113). -/
theorem insertCue_sorted (tick : BitVec 32) (e : CueEntry) : ∀ l : List CueEntry,
    l.Pairwise (fun a b => wait a.due tick ≤ wait b.due tick) →
    (insertCue tick e l).Pairwise (fun a b => wait a.due tick ≤ wait b.due tick)
  | [], _ => by simp [insertCue]
  | x :: xs, h => by
    rw [List.pairwise_cons] at h
    unfold insertCue
    split
    · rename_i lt
      refine List.pairwise_cons.2 ⟨fun b hb => ?_, List.pairwise_cons.2 h⟩
      rcases List.mem_cons.1 hb with rfl | hb
      · omega
      · have := h.1 b hb; omega
    · rename_i ge
      refine List.pairwise_cons.2 ⟨fun b hb => ?_, insertCue_sorted tick e xs h.2⟩
      rcases List.mem_cons.1 ((insertCue_perm tick e xs).mem_iff.1 hb) with rfl | hb
      · omega
      · exact h.1 b hb

theorem Schedule.Sound.judge {c : Schedule} (h : c.Sound) (e : CueEntry) (he : e.Sound) : (c.judge e).2.Sound := by
  unfold Schedule.judge
  split
  · exact h.congr rfl rfl rfl
  · rename_i v
    split
    · exact h
    · rename_i ne
      split
      · split
        · exact h.congr rfl rfl rfl
        · exact h
      · rename_i lt
        split
        · exact h.congr rfl rfl rfl
        · rename_i room
          obtain ⟨h1, h2, h3, h4, h5⟩ := h
          have p := insertCue_perm c.tick e c.queue
          refine ⟨?_, fun x => absurd x v, fun x m => ?_, insertCue_sorted _ _ _ h4, fun x m => ?_⟩
          · show (insertCue c.tick e c.queue).length ≤ _
            rw [p.length_eq, List.length_cons]
            omega
          · rcases List.mem_cons.1 (p.mem_iff.1 m) with rfl | m
            · simpa using lt
            · exact h3 x m
          · rcases List.mem_cons.1 (p.mem_iff.1 m) with rfl | m
            · exact he
            · exact h5 x m

theorem Schedule.Sound.judgeAll (f : Forwarding) : ∀ (rs : List CueRecord) {c : Schedule}, c.Sound →
    (∀ r ∈ rs, r.entry.Sound) → (c.judgeAll f rs).2.Sound
  | [], _, h, _ => h
  | r :: rs, c, h, hr => by
    unfold Schedule.judgeAll
    simp only
    refine Schedule.Sound.judgeAll f rs ?_ fun x m => hr x (by simp [m])
    split
    · exact h.judge _ (hr r (by simp))
    · exact h

/-- A parsed cue record's entry is sound: bits 4..15 of a group set are 0, and a level stands only with SET LEVEL (R111,
R113). -/
theorem parseCue_sound {bs more : List Byte} {r : CueRecord} (h : parseCue bs = some (r, more)) : r.entry.Sound := by
  have mask : ∀ w : BitVec 16, w &&& 0x000F &&& 0xFFF0 = 0 := by
    intro w
    rw [BitVec.and_assoc, show (0x000F : BitVec 16) &&& 0xFFF0 = 0#16 from rfl]
    exact BitVec.and_zero
  unfold parseCue at h
  split at h
  · split at h
    · cases h
    · split at h
      · cases h; simp [CueEntry.Sound]
      · cases h
    · rename_i a ha na
      split at h
      · cases h
        have : a ≠ .setLevel := fun q => by subst q; simp_all
        simp only [CueEntry.Sound, this, if_false, true_and, decide_eq_true_eq]
        exact mask _
      · cases h
  · cases h

theorem parseCues_sound : ∀ (n : Nat) (bs : List Byte), ∀ r ∈ parseCues n bs, r.entry.Sound
  | 0, _ => by simp [parseCues]
  | n + 1, bs => by
    unfold parseCues
    split
    · simp
    · rename_i r more h
      intro x m
      rcases List.mem_cons.1 m with rfl | m
      · exact parseCue_sound h
      · exact parseCues_sound n more x m

/-! ## Failsafe entry and resets (R123, R124) -/

theorem Schedule.enterFailsafe_sound (c : Schedule) : c.enterFailsafe.Sound := Schedule.Sound.of_nil rfl
theorem Schedule.resetOutputs_sound (c : Schedule) : c.resetOutputs.Sound := Schedule.Sound.of_nil rfl
theorem Schedule.resetFull_sound (c : Schedule) : c.resetFull.Sound := Schedule.Sound.of_nil rfl

end Sys2Proof.Machine
end

