-- ==== Sys2Proof/Laws/SenseSound.lean ====
section
/-! SUPPORT. The operations of the sense unit keep its soundness (R148, R150, R152, R157, R158). -/

namespace Sys2Proof.Machine

-- One proof at a time: side by side, their threads' stacks pass the memory limit of a check.
set_option Elab.async false

/-- One input replaced by a sound one. -/
theorem Sense.Sound.setInput {c : Sense} (h : c.Sound) (i : Fin 4) {x : Input} (hx : x.Sound) :
    ({ c with inputs := c.inputs.set i x } : Sense).Sound := by
  refine ⟨fun k => ?_, h.2⟩
  by_cases q : i = k
  · subst q; simpa using hx
  · have : (c.inputs.set i x)[k] = c.inputs[k] := by simp [Fin.val_inj, q]
    show (c.inputs.set i x)[k].Sound
    rw [this]
    exact h.1 k

theorem Input.Sound.raiseCount {x : Input} (h : x.Sound) : x.raiseCount.Sound := by
  unfold Input.raiseCount
  split <;> exact h

/-- The filter keeps an input sound where it is sampled (R150). -/
theorem Input.Sound.filter {x : Input} (h : x.Sound) (on : x.phase ≠ .off) (raw : Bool) : (x.filter raw).1.Sound := by
  obtain ⟨h1, h2, h3, _⟩ := h
  have off : ∀ {p : Prop}, (x.phase = .off → p) := fun e => absurd e on
  unfold Input.filter
  split
  · exact ⟨h1, Nat.zero_le _, h3, off⟩
  · split
    · exact ⟨h1, Nat.zero_le _, h3, off⟩
    · split
      · exact ⟨h1, Nat.zero_le _, h3, off⟩
      · rename_i lt
        refine ⟨h1, ?_, h3, off⟩
        show (x.run + 1).toNat ≤ x.settings.filter.toNat
        have := x.settings.filter.isLt
        rw [BitVec.toNat_add, show (1 : BitVec 4).toNat = 1 from rfl, Nat.mod_eq_of_lt (by omega)]
        omega

theorem Input.filter_phase (x : Input) (raw : Bool) : (x.filter raw).1.phase = x.phase := by
  unfold Input.filter
  split
  · rfl
  · split
    · rfl
    · split <;> rfl

theorem Input.raiseCount_phase (x : Input) : x.raiseCount.phase = x.phase := by
  unfold Input.raiseCount
  split <;> rfl

/-- An edge keeps an input sound (R153 to R156). -/
theorem Input.Sound.edge {x : Input} (h : x.Sound) (rising : Bool) : (x.edge rising).1.Sound := by
  have h' := h
  obtain ⟨h1, h2, h3, h4⟩ := h
  unfold Input.edge
  split
  · rename_i p
    split
    · refine ⟨?_, h2, fun _ => h3 (by simp [p]), nofun⟩
      rw [p] at h1
      show x.settings.mode.hasPhase .counting = true
      revert h1
      cases x.settings.mode <;> decide
    · exact h'
  · split <;> exact h'
  · rename_i p
    split
    · refine ⟨?_, h2, fun _ => h3 (by simp [p]), nofun⟩
      rw [p] at h1
      show x.settings.mode.hasPhase .measuring = true
      revert h1
      cases x.settings.mode <;> decide
    · exact h'
  · rename_i p
    split
    · refine ⟨?_, h2, fun _ => h3 (by simp [p]), nofun⟩
      rw [p] at h1
      show x.settings.mode.hasPhase .waitStart = true
      revert h1
      cases x.settings.mode <;> decide
    · exact h'
  · rename_i p
    split
    · split
      · exact h'
      · refine ⟨?_, h2, fun q => absurd rfl q, nofun⟩
        rw [p] at h1
        show x.settings.mode.hasPhase .lockout = true
        revert h1
        cases x.settings.mode <;> decide
    · exact h'
  · exact h'
  · exact h'

/-- What an edge appends is a sound entry, for a count that is one of a measurement (R152, R157). -/
theorem Input.edge_result {x : Input} {rising : Bool} {k : ResultKind} {n : Option (BitVec 24)}
    (h : (x.edge rising).2.result = some (k, n)) : (k = .trigger ↔ n = none) := by
  unfold Input.edge at h
  split at h <;> try (split at h) <;> try cases h
  all_goals first
    | (simp; done)
    | (simp [SenseSettings.widthKind]; cases x.settings.mode <;> simp)
    | cases h

theorem logEntryOf_sound (i : Fin 4) (k : ResultKind) (n : Option (BitVec 24)) (st : Option (BitVec 40))
    (h : k = .trigger ↔ n = none) : (logEntryOf i k n st).Sound := ⟨h, by simp [logEntryOf]⟩

/-- Appending to the result log (R158). -/
theorem Sense.Sound.append {c : Sense} (h : c.Sound) (e : LogEntry) (he : e.Sound) : (c.append e).Sound := by
  obtain ⟨h1, h2, h3⟩ := h
  unfold Sense.append
  split
  · rename_i lt
    refine ⟨h1, ?_, fun x m => ?_⟩
    · show (c.log ++ [e]).length ≤ _
      rw [List.length_append, List.length_singleton]; omega
    · rcases List.mem_append.1 m with m | m
      · exact h3 x m
      · rw [List.mem_singleton.1 m]; exact he
  · refine ⟨h1, ?_, fun x m => ?_⟩
    · show (c.log.drop 1 ++ [e]).length ≤ _
      rw [List.length_append, List.length_singleton, List.length_drop]
      have : Config.logCapacity = 16 := rfl
      omega
    · rcases List.mem_append.1 m with m | m
      · exact h3 x (List.mem_of_mem_drop m)
      · rw [List.mem_singleton.1 m]; exact he

/-- A part of the result log. -/
theorem Sense.Sound.sublog {c : Sense} (h : c.Sound) {l : List LogEntry} (s : l.Sublist c.log) :
    ({ c with log := l } : Sense).Sound :=
  ⟨h.1, Nat.le_trans s.length_le h.2.1, fun x m => h.2.2 x (s.subset m)⟩

theorem Sense.Sound.endLockout {c : Sense} (h : c.Sound) (i : Fin 4) : (c.endLockout i).Sound := by
  unfold Sense.endLockout
  simp only
  split
  · rename_i p
    refine h.setInput i ?_
    obtain ⟨h1, h2, _, _⟩ := h.1 i
    refine ⟨?_, h2, fun _ => rfl, nofun⟩
    rw [p] at h1
    show c.inputs[i].settings.mode.hasPhase .ready = true
    revert h1
    cases c.inputs[i].settings.mode <;> decide
  · exact h

/-- The lockout timers run (R156). -/
theorem Sense.Sound.run {c : Sense} (h : c.Sound) :
    ({ c with inputs := c.inputs.mapIdx fun _ x => x.run1 } : Sense).Sound := by
  refine ⟨fun i => ?_, h.2⟩
  have hi := h.1 i
  simp only [Fin.getElem_fin, Vector.getElem_mapIdx] at hi ⊢
  unfold Input.run1
  split
  · rename_i p
    exact ⟨hi.1, hi.2.1, fun q => absurd p q, hi.2.2.2⟩
  · exact hi

/-- A restart in the starting phase of the mode set (R151). -/
theorem Input.restarted_sound (st : SenseSettings) : (Input.restarted st st.mode.startingPhase).Sound := by
  refine ⟨?_, Nat.zero_le _, fun _ => rfl, fun _ => rfl⟩
  show st.mode.hasPhase st.mode.startingPhase = true
  cases st.mode <;> rfl

theorem Sense.initial_sound : Sense.initial.Sound := by decide

end Sys2Proof.Machine
end

