-- ==== Sys2Proof/Laws/TableSound.lean ====
section
/-! SUPPORT. The operations of the table store keep its soundness (R65, R67, R68). -/

namespace Sys2Proof.Machine

-- One proof at a time: side by side, their threads' stacks pass the memory limit of a check.
set_option Elab.async false

/-- The bank a session would write depends on the active-bank markers alone. -/
theorem Tables.bankFor_congr {t u : Tables} (h : ∀ c : Fin 4, u.curves[c].active = t.curves[c].active) (x : TableId) :
    u.bankFor x = t.bankFor x := by
  cases x <;> simp only [Tables.bankFor, h]

/-- A store whose session is closed and gathers nothing. -/
theorem Tables.SessionSound.of_closed {t : Tables} (h : t.session.isOpen = false) (hp : t.session.partialBytes = [])
    (hi : t.session.idle = 0) : t.SessionSound := by
  unfold Tables.SessionSound
  rw [if_neg (by simp [h])]
  exact ⟨hp, hi⟩

/-- Writing a point keeps the markers. -/
theorem Curve.write_active (c : Curve) (bank : Bank) (k : Nat) (l : BitVec 16) :
    (c.write bank k l).active = c.active := by
  cases bank <;> rfl

/-- Writing an entry keeps the markers and the session. -/
theorem Tables.writeEntry_active (t : Tables) (x : TableId) (b : Option Bank) (i : Nat) (g : Gathered) (c : Fin 4) :
    (t.writeEntry x b i g).curves[c].active = t.curves[c].active := by
  unfold Tables.writeEntry
  split
  · rfl
  · rename_i k bank
    by_cases q : k = c
    · subst q
      simp [Curve.write_active]
    · simp [Fin.val_inj, q]
  · rfl
  · rfl

/-- What `gather` calls an extraction entry passes the tests of Table 4-2 (R65). -/
theorem gather_extraction {x : TableId} {bs : List Byte} {e : ExtEntry} (h : gather x bs = .extraction e) :
    e.fault = none := by
  unfold gather at h
  split at h
  · split at h
    · rename_i q; cases h; exact q
    · cases h
  · cases h
  · split at h <;> cases h
  · cases h

/-- Writing a gathered entry keeps the extraction list sound. -/
theorem Tables.EntriesSound.writeEntry {t : Tables} (h : t.EntriesSound) (x : TableId) (b : Option Bank) (i : Nat)
    (bs : List Byte) : (t.writeEntry x b i (gather x bs)).EntriesSound := by
  generalize q : gather x bs = g
  unfold Tables.writeEntry
  split
  · intro e m
    simp only [Vector.toList_setIfInBounds] at m
    rcases List.mem_or_eq_of_mem_set m with m | rfl
    · exact h e m
    · exact gather_extraction q
  · exact h
  · exact h
  · exact h

theorem Tables.EntriesSound.congr {t u : Tables} (h : t.EntriesSound) (e : u.extraction = t.extraction) :
    u.EntriesSound := by
  unfold Tables.EntriesSound
  rw [e]
  exact h

/-- The record of an open session, in its own words. -/
abbrev Tables.OpenSound (t : Tables) : Prop :=
  t.session.isOpen = true ∧ t.session.start ≤ t.session.cursor ∧ t.session.cursor < t.session.start + t.session.count
    ∧ t.session.start + t.session.count ≤ t.session.table.entries
    ∧ t.session.partialBytes.length < t.session.table.entrySize
    ∧ t.session.bank = t.bankFor t.session.table

theorem Tables.sessionSound_iff_open {t : Tables} (h : t.session.isOpen = true) : t.SessionSound ↔ t.OpenSound := by
  unfold Tables.SessionSound
  rw [if_pos h]
  exact ⟨fun k => ⟨h, k⟩, fun k => k.2⟩

theorem TableId.entrySize_pos (x : TableId) : 0 < x.entrySize := by cases x <;> simp [TableId.entrySize]

/-- One byte of a TABLE DATA record (R72 to R74). -/
theorem DataRun.byte_sound {r : DataRun} (h : r.tables.OpenSound) (e : r.tables.EntriesSound) (b : Byte) :
    (r.byte b).tables.OpenSound ∧ (r.byte b).tables.EntriesSound := by
  unfold DataRun.byte
  split
  · exact ⟨h, e⟩
  · obtain ⟨h0, h1, h2, h3, h4, h5⟩ := h
    simp only
    split
    · rename_i lt
      exact ⟨⟨h0, h1, h2, h3, lt, h5⟩, e.congr rfl⟩
    · split
      · exact ⟨⟨h0, h1, h2, h3, TableId.entrySize_pos _, h5⟩, e.congr rfl⟩
      · refine ⟨?_, (e.writeEntry _ _ _ _).congr rfl⟩
        have act := fun c => Tables.writeEntry_active r.tables r.tables.session.table r.tables.session.bank
          r.tables.session.cursor (gather r.tables.session.table (r.tables.session.partialBytes ++ [b])) c
        have bank := fun u (hu : ∀ c : Fin 4, u.curves[c].active = r.tables.curves[c].active) =>
          h5.trans (Tables.bankFor_congr (t := r.tables) (u := u) hu r.tables.session.table).symm
        unfold Session.advance
        simp only
        split
        · rename_i lt
          exact ⟨h0, Nat.le_succ_of_le h1, lt, h3, TableId.entrySize_pos _, bank _ act⟩
        · exact ⟨h0, Nat.le_refl _, by
            show r.tables.session.start < r.tables.session.start + r.tables.session.count
            omega, h3, TableId.entrySize_pos _, bank _ act⟩

theorem Tables.takeData_sound {t : Tables} (h : t.Sound) (o : t.session.isOpen = true) (bs : List Byte) :
    (t.takeData bs).tables.Sound := by
  have key : ∀ (bs : List Byte) (r : DataRun), r.tables.OpenSound → r.tables.EntriesSound →
      (bs.foldl DataRun.byte r).tables.OpenSound ∧ (bs.foldl DataRun.byte r).tables.EntriesSound := by
    intro bs
    induction bs with
    | nil => exact fun r a b => ⟨a, b⟩
    | cons x xs ih => exact fun r a b => ih _ (DataRun.byte_sound a b x).1 (DataRun.byte_sound a b x).2
  obtain ⟨h1, h2⟩ := h
  have k := (Tables.sessionSound_iff_open o).1 h1
  have := key bs { tables := { t with session := { t.session with idle := 0 } }, wrote := 0, cause := none } k (h2.congr rfl)
  exact ⟨(Tables.sessionSound_iff_open this.1.1).2 this.1, this.2⟩

theorem Tables.openSession_sound {t : Tables} (h : t.Sound) (x : TableId) (start count : Nat) (c0 : count ≠ 0)
    (hr : start + count ≤ x.entries) : (t.openSession x start count).Sound := by
  refine ⟨(Tables.sessionSound_iff_open rfl).2 ⟨rfl, Nat.le_refl _, ?_, hr, TableId.entrySize_pos _, ?_⟩, h.2.congr rfl⟩
  · show start < start + count; omega
  · exact (Tables.bankFor_congr (t := t) (u := t.openSession x start count) (fun _ => rfl) x).symm

theorem Session.close_closed (x : Session) (r : CloseReason) :
    (x.close r).isOpen = false ∧ (x.close r).partialBytes = [] ∧ (x.close r).idle = 0 := ⟨rfl, rfl, rfl⟩

theorem Tables.closeSession_sound {t : Tables} (h : t.Sound) (b : Bool) : (t.closeSession b).2.Sound := by
  unfold Tables.closeSession
  simp only
  split
  · exact ⟨Tables.SessionSound.of_closed rfl rfl rfl, h.2.congr rfl⟩
  · exact ⟨Tables.SessionSound.of_closed rfl rfl rfl, h.2.congr rfl⟩
  · exact ⟨Tables.SessionSound.of_closed rfl rfl rfl, h.2.congr rfl⟩
  · exact ⟨Tables.SessionSound.of_closed rfl rfl rfl, h.2.congr rfl⟩

theorem Tables.expire_sound {t : Tables} (h : t.Sound) : t.expire.Sound := by
  unfold Tables.expire
  split
  · exact ⟨Tables.SessionSound.of_closed rfl rfl rfl, h.2.congr rfl⟩
  · exact h

/-- The idle timer of an open session runs (R79). -/
theorem Tables.idle_sound {t : Tables} (h : t.Sound) (o : t.session.isOpen = true) (k : Nat) :
    ({ t with session := { t.session with idle := k } } : Tables).Sound := by
  refine ⟨?_, h.2.congr rfl⟩
  have := (Tables.sessionSound_iff_open o).1 h.1
  exact (Tables.sessionSound_iff_open (t := { t with session := { t.session with idle := k } }) o).2 this

theorem Tables.resetOutputs_sound {t : Tables} (h : t.Sound) : t.resetOutputs.Sound := by
  refine ⟨Tables.SessionSound.of_closed ?_ rfl rfl, h.2.congr rfl⟩
  show (if t.session.isOpen then t.session.close .reset else t.session).isOpen = false
  split
  · rfl
  · rename_i c; simpa using c

theorem Tables.initial_sound : Tables.initial.Sound := by decide

theorem Tables.resetFull_sound (t : Tables) : t.resetFull.Sound := by
  refine ⟨Tables.SessionSound.of_closed ?_ rfl rfl, Tables.initial_sound.2.congr rfl⟩
  show (if t.session.isOpen then t.session.close .reset else t.session).isOpen = false
  split
  · rfl
  · rename_i c; simpa using c

/-- A flip of a curve that no open session writes (R84). -/
theorem Tables.flip_sound {t : Tables} (h : t.Sound) (c : Fin 4)
    (hc : t.session.isOpen = true → t.session.table ≠ .curve c) : (t.flip c).Sound := by
  refine ⟨?_, h.2.congr rfl⟩
  by_cases o : t.session.isOpen = true
  · obtain ⟨h0, h1, h2, h3, h4, h5⟩ := (Tables.sessionSound_iff_open o).1 h.1
    refine (Tables.sessionSound_iff_open (t := t.flip c) o).2 ⟨h0, h1, h2, h3, h4, ?_⟩
    show t.session.bank = (t.flip c).bankFor t.session.table
    rw [h5]
    have ne := hc o
    cases q : t.session.table with
    | curve d =>
      rw [q] at ne
      have : c ≠ d := fun e => ne (e ▸ rfl)
      simp [Tables.bankFor, Tables.flip, Fin.val_inj, this]
    | extraction => rfl
    | failsafe => rfl
  · have := h.1
    unfold Tables.SessionSound at this ⊢
    rw [if_neg o] at this
    rw [if_neg (show ¬ (t.flip c).session.isOpen = true from o)]
    exact this

theorem Tables.flips_sound : ∀ (cs : List (Fin 4)) {t : Tables}, t.Sound →
    (t.session.isOpen = true → ∀ c ∈ cs, t.session.table ≠ .curve c) → (cs.foldl Tables.flip t).Sound
  | [], _, h, _ => h
  | c :: cs, t, h, hc => Tables.flips_sound cs (Tables.flip_sound h c fun o => hc o c (by simp)) fun o d m => hc o d (by simp [m])

end Sys2Proof.Machine
end

