-- ==== Sys2Proof/Laws/CommandSound.lean ====
section
/-! SUPPORT. What every change of an awake node keeps, block by block, and that each command record keeps it. -/

namespace Sys2Proof.Machine

-- One proof at a time: side by side, their threads' stacks pass the memory limit of a check.
set_option Elab.async false

/-- RESETN is high and no transmitter is HELD (R4). -/
def Node.Live (n : Node) : Prop :=
  n.link.resetLow = false ∧ n.link.fwdTx.state ≠ .held ∧ n.link.retTx.state ≠ .held

/-- The node `m`, reached from `n`, is sound block by block wherever `n` is. The size of what the return unit and the
cache hold rests on the group set, which IDENTIFY and SET GROUPS report (R47). -/
structure Node.Keeps (n m : Node) : Prop where
  fwd : n.fwd.Sound → m.fwd.Sound := by exact id
  tables : n.tables.Sound → m.tables.Sound := by exact id
  sched : n.sched.Sound → m.sched.Sound := by exact id
  out : n.out.Sound → m.out.Sound := by exact id
  sense : n.sense.Sound → m.sense.Sound := by exact id
  sup : n.sup.Sound → m.sup.Sound := by exact id
  queues : n.fwd.Sound → n.QueuesSound → m.QueuesSound := by exact fun _ => id
  link : n.link.Sound → m.link.Sound := by exact id
  live : n.Live → m.Live := by exact id

theorem Node.Keeps.rfl {n : Node} : n.Keeps n := {}

theorem Node.Keeps.of_eq {n m : Node} (h : m = n) : n.Keeps m := h ▸ .rfl

theorem Node.Keeps.trans {a b c : Node} (h : a.Keeps b) (k : b.Keeps c) : a.Keeps c where
  fwd x := k.fwd (h.fwd x)
  tables x := k.tables (h.tables x)
  sched x := k.sched (h.sched x)
  out x := k.out (h.out x)
  sense x := k.sense (h.sense x)
  sup x := k.sup (h.sup x)
  queues f x := k.queues (h.fwd f) (h.queues f x)
  link x := k.link (h.link x)
  live x := k.live (h.live x)

/-- SUPERVISION notices change the local response queue only. -/
theorem Node.supNotices_keeps (n : Node) (cs : List SupChange) : n.Keeps (n.supNotices cs) where
  queues := fun _ q => ⟨q.1.supNotices _ cs, q.2⟩

theorem Node.clearStatus_keeps (n : Node) : n.Keeps n.clearStatus where
  queues := fun _ q => ⟨q.1.congr (by rfl) (by rfl) (by rfl), q.2⟩
  sched h := h.congr (by rfl) (by rfl) (by rfl)

theorem cmdStatus_keeps (p : List Byte) (n : Node) : n.Keeps (cmdStatus p n).2 := by
  unfold cmdStatus
  split
  · exact .rfl
  · split
    · exact .rfl
    · split
      · exact n.clearStatus_keeps
      · exact .rfl
  · exact .rfl

theorem cmdSetGroups_keeps (p : List Byte) (n : Node) : n.Keeps (cmdSetGroups p n).2 := by
  unfold cmdSetGroups
  split
  · exact .rfl
  · split
    · exact { fwd := fun _ => Forwarding.Sound.of_nil (by rfl) }
    all_goals exact .rfl
  · split
    · exact .rfl
    · unfold addGroup
      split
      · exact .rfl
      · rename_i h0
        split
        · exact .rfl
        · rename_i nm
          split
          · rename_i lt
            exact { fwd := fun h => h.add _ h0 (by simpa using nm) lt }
          · exact .rfl
    · unfold removeGroup
      split
      · exact .rfl
      · split
        · exact { fwd := fun h => h.remove _ }
        · exact .rfl
    · exact .rfl
  · exact .rfl

theorem cmdTableOpen_keeps (p : List Byte) (n : Node) : n.Keeps (cmdTableOpen p n).2 := by
  unfold cmdTableOpen
  split
  · split
    · exact .rfl
    · split
      · exact .rfl
      · rename_i q
        simp only [Bool.or_eq_true, decide_eq_true_eq, not_or, Nat.not_lt] at q
        exact { tables := fun h => Tables.openSession_sound h _ _ _ q.1 q.2 }
  · exact .rfl

theorem cmdTableData_keeps (p : List Byte) (n : Node) : n.Keeps (cmdTableData p n).2 := by
  unfold cmdTableData
  split
  · exact .rfl
  · split
    · rename_i o
      exact { tables := fun h => Tables.takeData_sound h o p }
    · exact .rfl

theorem cmdTableClose_keeps (p : List Byte) (n : Node) : n.Keeps (cmdTableClose p n).2 := by
  unfold cmdTableClose
  split
  · split
    · exact { tables := fun h => Tables.closeSession_sound h _ }
    · exact .rfl
  · exact .rfl

theorem cmdBankSwap_keeps (p : List Byte) (n : Node) : n.Keeps (cmdBankSwap p n).2 := by
  unfold cmdBankSwap
  split
  · split
    · exact .rfl
    · split
      · exact .rfl
      · rename_i free
        refine { tables := fun h => Tables.flips_sound _ h fun o c m q => free ?_ }
        unfold Tables.busyWith
        rw [o, q]
        simpa using (List.mem_filter.1 m).2
  · exact .rfl

theorem cmdConfigureTime_keeps (p : List Byte) (n : Node) : n.Keeps (cmdConfigureTime p n).2 := by
  unfold cmdConfigureTime
  split
  · exact .rfl
  · split
    · exact .rfl
    · split
      · exact .rfl
      · exact { sched := fun h => h.congr (by rfl) (by rfl) (by rfl) }
  · exact .rfl

theorem cmdCueCancel_keeps (p : List Byte) (n : Node) : n.Keeps (cmdCueCancel p n).2 := by
  unfold cmdCueCancel
  split
  · split
    · exact .rfl
    · exact { sched := fun h => h.sublist List.filter_sublist }
  · exact .rfl

theorem cmdCueFlush_keeps (p : List Byte) (n : Node) : n.Keeps (cmdCueFlush p n).2 := by
  unfold cmdCueFlush
  split
  · exact { sched := fun _ => Schedule.Sound.of_nil (by rfl) }
  · exact .rfl

theorem cmdConfigureGroup_keeps (p : List Byte) (n : Node) : n.Keeps (cmdConfigureGroup p n).2 := by
  unfold cmdConfigureGroup
  split
  · split <;> exact .rfl
  · split
    · unfold configureGroup
      simp only
      split
      · rename_i mode retrigger _ _
        split
        · exact .rfl
        · split
          · exact .rfl
          · rename_i range change
            simp only [Bool.or_eq_true, decide_eq_true_eq, not_or, Nat.not_lt, Bool.not_eq_true', Bool.not_eq_false] at range
            refine { out := fun h => h.configureGroup _ mode _ ⟨?_, range.1.2⟩ range.2 ?_ }
            · rw [BitVec.extractLsb'_toNat]
              simp only [Nat.shiftRight_zero]
              omega
            · by_contra c
              rw [not_or] at c
              exact change (by simpa using c)
      · exact .rfl
    · exact .rfl
  · exact .rfl

theorem groupCommand_keeps (p : List Byte) (passes : GroupState → Bool) (act : Output → Fin 4 → Output)
    (hact : ∀ o : Output, o.Sound → ∀ g, (act o g).Sound) (n : Node) : n.Keeps (groupCommand p passes act n).2 := by
  unfold groupCommand
  split
  · split
    · exact .rfl
    · simp only
      split
      · exact { out := fun h => Output.Sound.foldl hact _ h }
      · exact .rfl
  · exact .rfl

theorem cmdConfigureChannel_keeps (p : List Byte) (n : Node) : n.Keeps (cmdConfigureChannel p n).2 := by
  unfold cmdConfigureChannel
  split
  · split <;> exact .rfl
  · split
    · unfold configureChannel
      split
      · exact .rfl
      · simp only
        split
        · exact .rfl
        · rename_i range
          simp only [Bool.or_eq_true, decide_eq_true_eq, not_or, Nat.not_le] at range
          exact { out := fun h => h.configureChannel _ _ _ _ _ range.2 }
    · exact .rfl
  · exact .rfl

theorem cmdConfigureSense_keeps (p : List Byte) (n : Node) : n.Keeps (cmdConfigureSense p n).2 := by
  unfold cmdConfigureSense
  split
  · split <;> exact .rfl
  · split
    · unfold configureSense
      split
      · split
        · exact .rfl
        · exact { sense := fun h => h.setInput _ (Input.restarted_sound _) }
      · exact .rfl
    · exact .rfl
  · exact .rfl

theorem cmdSenseRead_keeps (p : List Byte) (n : Node) : n.Keeps (cmdSenseRead p n).2 := by
  unfold cmdSenseRead
  split
  · split
    · exact .rfl
    · exact { sense := fun h => h.sublog (List.drop_sublist _ _) }
  · exact .rfl

theorem cmdConfigureNotices_keeps (p : List Byte) (n : Node) : n.Keeps (cmdConfigureNotices p n).2 := by
  unfold cmdConfigureNotices
  split
  · exact .rfl
  · split
    · exact .rfl
    · exact { queues := fun _ q => ⟨q.1.congr (by rfl) (by rfl) (by rfl), q.2⟩ }
  · exact .rfl

theorem cmdConfigureSupervision_keeps (p : List Byte) (n : Node) : n.Keeps (cmdConfigureSupervision p n).2 := by
  unfold cmdConfigureSupervision
  split
  · exact .rfl
  · simp only
    split
    · exact .rfl
    · rename_i range
      simp only [Bool.or_eq_true, decide_eq_true_eq, not_or, Nat.not_lt] at range
      refine { sup := fun h => h.configure _ _ _ _ ⟨?_, range.1.1.1.2⟩ range.1.1.2 }
      have := range.1.1.1.1
      omega
  · exact .rfl

theorem cmdRecover_keeps (p : List Byte) (n : Node) : n.Keeps (cmdRecover p n).2 := by
  unfold cmdRecover
  split
  · split
    · rename_i fs
      have q : n.sup.state = .failsafe := by simpa [Supervision.inFailsafe] using fs
      have k : n.Keeps { n with sup := { n.sup.startWindow with state := .normal, recovery := 0 } } :=
        { sup := fun h => ⟨h.1, fun _ => by rfl, nofun, fun _ => ⟨by rfl, h.2.2.2.2.2 q⟩, nofun, nofun⟩ }
      exact k.trans (Node.supNotices_keeps _ _)
    · exact .rfl
  · exact .rfl

/-- Every command record leaves every block sound (R41, R44). -/
theorem runCommand_keeps (c : Command) (p : List Byte) (n : Node) : n.Keeps (runCommand c p n).node := by
  have identify : (cmdIdentify p n).2 = n := by unfold cmdIdentify; split <;> rfl
  have tableRead : (cmdTableRead p n).2 = n := by unfold cmdTableRead; (repeat' split) <;> rfl
  have cueList : (cmdCueList p n).2 = n := by unfold cmdCueList; (repeat' split) <;> rfl
  have groupState : (cmdGroupState p n).2 = n := by unfold cmdGroupState; (repeat' split) <;> rfl
  have channelState : (cmdChannelState p n).2 = n := by unfold cmdChannelState; (repeat' split) <;> rfl
  cases c
  case identify => exact .of_eq identify
  case status => exact cmdStatus_keeps p n
  case resetNode => exact .rfl
  case setGroups => exact cmdSetGroups_keeps p n
  case tableOpen => exact cmdTableOpen_keeps p n
  case tableData => exact cmdTableData_keeps p n
  case tableClose => exact cmdTableClose_keeps p n
  case tableRead => exact .of_eq tableRead
  case bankSwap => exact cmdBankSwap_keeps p n
  case configureTime => exact cmdConfigureTime_keeps p n
  case cueCancel => exact cmdCueCancel_keeps p n
  case cueFlush => exact cmdCueFlush_keeps p n
  case cueList => exact .of_eq cueList
  case configureGroup => exact cmdConfigureGroup_keeps p n
  case startGroups => exact groupCommand_keeps p _ _ (fun _ h => h.markStart) n
  case stopGroups => exact groupCommand_keeps p _ _ (fun _ h => h.stop) n
  case fireGroups => exact groupCommand_keeps p _ _ (fun _ h => h.trigger) n
  case configureChannel => exact cmdConfigureChannel_keeps p n
  case groupState => exact .of_eq groupState
  case channelState => exact .of_eq channelState
  case configureSense => exact cmdConfigureSense_keeps p n
  case senseRead => exact cmdSenseRead_keeps p n
  case configureNotices => exact cmdConfigureNotices_keeps p n
  case configureSupervision => exact cmdConfigureSupervision_keeps p n
  case recover => exact cmdRecover_keeps p n

end Sys2Proof.Machine
end

