-- ==== Sys2Proof/Laws/AllowanceSound.lean ====
section
/-! SUPPORT. No result record is longer than its command's allowance (R47), so that a response stays within 240 payload
bytes. -/

namespace Sys2Proof.Machine

-- One proof at a time: side by side, their threads' stacks pass the memory limit of a check.
set_option Elab.async false

/-- A result of at most `k` bytes whatever the status. -/
abbrev Reply.atMost (r : Reply) (k : Nat) : Prop := r.data.length ≤ k

theorem cmdIdentify_atMost (p : List Byte) (n : Node) (h : n.fwd.Sound) : (cmdIdentify p n).1.atMost 16 := by
  have := h.1
  unfold cmdIdentify
  split
  · simp [Reply.ok, Node.identifyData, Forwarding.groupData, Reply.atMost]
    simp only [Config.groupSetCapacity] at this
    omega
  · exact Nat.zero_le _

theorem cmdStatus_atMost (p : List Byte) (n : Node) : (cmdStatus p n).1.atMost 32 := by
  unfold cmdStatus
  repeat' split
  all_goals first | exact Nat.zero_le _ | exact Nat.le_refl 32

theorem cmdResetNode_atMost (p : List Byte) : (cmdResetNode p).1.atMost 1 := by
  unfold cmdResetNode
  repeat' split
  all_goals first | exact Nat.zero_le _ | exact Nat.le_refl 1

theorem groupsReply_atMost (st : Status) (n : Node) (h : n.fwd.Sound) : (groupsReply st n).1.atMost 5 := by
  have := h.1
  simp only [groupsReply, Forwarding.groupData, Reply.atMost, List.length_cons]
  exact Nat.succ_le_succ this

theorem cmdSetGroups_atMost (p : List Byte) (n : Node) (h : n.fwd.Sound) : (cmdSetGroups p n).1.atMost 5 := by
  have after := (cmdSetGroups_keeps p n).fwd h
  have shape : (cmdSetGroups p n).1.data = [] ∨ (cmdSetGroups p n).1.data = (cmdSetGroups p n).2.fwd.groupData := by
    unfold cmdSetGroups addGroup removeGroup
    repeat' split
    all_goals first | exact .inl rfl | exact .inr rfl
  rcases shape with q | q
  · rw [Reply.atMost, q]; exact Nat.zero_le _
  · rw [Reply.atMost, q]; exact groupsReply_atMost .ok _ after

theorem cmdTableOpen_atMost (p : List Byte) (n : Node) : (cmdTableOpen p n).1.atMost 8 := by
  unfold cmdTableOpen
  repeat' split
  all_goals first | exact Nat.zero_le _ | skip
  unfold openData
  simp only [Reply.ok, Reply.atMost]
  split <;> simp

theorem cmdTableData_atMost (p : List Byte) (n : Node) : (cmdTableData p n).1.atMost 5 := by
  unfold cmdTableData
  split
  · exact Nat.zero_le _
  · split
    · simp only [dataReply]
      split <;> exact Nat.le_refl 5
    · exact Nat.zero_le _

theorem cmdTableClose_atMost (p : List Byte) (n : Node) : (cmdTableClose p n).1.atMost 8 := by
  unfold cmdTableClose
  repeat' split
  all_goals first | exact Nat.zero_le _ | exact Nat.le_refl 8

theorem Tables.entryBytes_length (t : Tables) (x : TableId) (k : Bank) (i : Nat) :
    (t.entryBytes x k i).length ≤ x.entrySize := by
  cases x <;> unfold Tables.entryBytes
  case extraction => cases t.extraction.toList[i]? <;> simp [TableId.entrySize]
  case curve c => dsimp only; cases ((t.curves[c].points k).toList[i]?) <;> simp [TableId.entrySize]
  case failsafe => cases t.failsafe.toList[i]? <;> simp [TableId.entrySize]

theorem cmdTableRead_atMost (p : List Byte) (n : Node) : (cmdTableRead p n).1.atMost 160 := by
  unfold cmdTableRead
  repeat' split
  all_goals first | exact Nat.zero_le _ | skip
  rename_i id sel start count _ table _ range
  simp only [Bool.or_eq_true, decide_eq_true_eq, not_or, Nat.not_lt] at range
  simp only [Reply.ok, Reply.atMost]
  refine Nat.le_trans (flatMap_length_le _ table.entrySize _ fun _ _ => Tables.entryBytes_length _ _ _ _) ?_
  rw [List.length_range]
  have := range.2
  cases table <;> simp only [TableId.entrySize, TableId.entries] at this ⊢ <;> omega

theorem cmdBankSwap_atMost (p : List Byte) (n : Node) : (cmdBankSwap p n).1.atMost 1 := by
  unfold cmdBankSwap
  repeat' split
  all_goals first | exact Nat.zero_le _ | exact Nat.le_refl 1

theorem cmdConfigureTime_atMost (p : List Byte) (n : Node) : (cmdConfigureTime p n).1.atMost 5 := by
  unfold cmdConfigureTime
  repeat' split
  all_goals first | exact Nat.zero_le _ | exact Nat.le_refl 5

theorem cmdCueCancel_atMost (p : List Byte) (n : Node) : (cmdCueCancel p n).1.atMost 2 := by
  unfold cmdCueCancel
  repeat' split
  all_goals first | exact Nat.zero_le _ | exact Nat.le_refl 2

theorem cmdCueFlush_atMost (p : List Byte) (n : Node) : (cmdCueFlush p n).1.atMost 1 := by
  unfold cmdCueFlush
  repeat' split
  all_goals first | exact Nat.zero_le _ | exact Nat.le_refl 1

theorem cmdCueList_atMost (p : List Byte) (n : Node) : (cmdCueList p n).1.atMost 167 := by
  unfold cmdCueList
  repeat' split
  all_goals first | exact Nat.zero_le _ | skip
  rename_i start count range
  simp only [Bool.or_eq_true, decide_eq_true_eq, not_or, Nat.not_lt] at range
  have k := flatMap_length_le CueEntry.bytes 10 ((n.sched.queue.drop start.toNat).take count.toNat)
    fun e _ => Nat.le_of_eq e.bytes_length
  have l : ((n.sched.queue.drop start.toNat).take count.toNat).length ≤ count.toNat := List.length_take_le _ _
  simp only [Reply.ok, Reply.atMost, List.length_append, List.length_cons, List.length_nil, bytes32_length]
  have := range.2
  omega

theorem cmdConfigureGroup_atMost (p : List Byte) (n : Node) : (cmdConfigureGroup p n).1.atMost 15 := by
  unfold cmdConfigureGroup configureGroup
  repeat' split
  all_goals first | exact Nat.zero_le _ | exact Nat.le_refl 15

theorem groupCommand_atMost (p : List Byte) (passes : GroupState → Bool) (act : Output → Fin 4 → Output) (n : Node) :
    (groupCommand p passes act n).1.atMost 4 := by
  unfold groupCommand
  repeat' split
  all_goals first | exact Nat.zero_le _ | exact Nat.le_refl 4 | skip
  simp only
  split <;> exact Nat.le_refl 4

theorem cmdConfigureChannel_atMost (p : List Byte) (n : Node) : (cmdConfigureChannel p n).1.atMost 7 := by
  unfold cmdConfigureChannel configureChannel
  repeat' split
  all_goals first | exact Nat.zero_le _ | exact Nat.le_refl 7 | skip
  simp only
  split <;> exact Nat.le_refl 7

theorem cmdGroupState_atMost (p : List Byte) (n : Node) : (cmdGroupState p n).1.atMost 21 := by
  unfold cmdGroupState
  repeat' split
  all_goals first | exact Nat.zero_le _ | exact Nat.le_refl 21

theorem cmdChannelState_atMost (p : List Byte) (n : Node) : (cmdChannelState p n).1.atMost 15 := by
  unfold cmdChannelState
  repeat' split
  all_goals first | exact Nat.zero_le _ | skip
  rename_i c _
  have : (lastDataBytes n.value[c]).length = 4 := by
    cases n.value[c] <;> rfl
  simp only [Reply.ok, Reply.atMost, Node.channelStateData, List.length_append, bytes16_length, this]
  exact Nat.le_refl 15

theorem cmdConfigureSense_atMost (p : List Byte) (n : Node) : (cmdConfigureSense p n).1.atMost 8 := by
  unfold cmdConfigureSense configureSense
  repeat' split
  all_goals first | exact Nat.zero_le _ | exact Nat.le_refl 8

theorem cmdSenseRead_atMost (p : List Byte) (n : Node) : (cmdSenseRead p n).1.atMost 94 := by
  unfold cmdSenseRead
  repeat' split
  all_goals first | exact Nat.zero_le _ | skip
  rename_i m range
  simp only [Bool.or_eq_true, decide_eq_true_eq, not_or, Nat.not_lt] at range
  have k := flatMap_length_le LogEntry.bytes 11 (n.sense.log.take m.toNat) fun e _ => Nat.le_of_eq e.bytes_length
  have l : (n.sense.log.take m.toNat).length ≤ m.toNat := List.length_take_le _ _
  simp only [Reply.ok, Reply.atMost, List.length_append, List.length_cons, List.length_nil, List.length_map, Vector.length_toList]
  have := range.2
  omega

theorem cmdConfigureNotices_atMost (p : List Byte) (n : Node) : (cmdConfigureNotices p n).1.atMost 1 := by
  unfold cmdConfigureNotices
  repeat' split
  all_goals first | exact Nat.zero_le _ | exact Nat.le_refl 1

theorem cmdConfigureSupervision_atMost (p : List Byte) (n : Node) : (cmdConfigureSupervision p n).1.atMost 6 := by
  unfold cmdConfigureSupervision
  simp only
  repeat' split
  all_goals first | exact Nat.zero_le _ | exact Nat.le_refl 6

theorem cmdRecover_atMost (p : List Byte) (n : Node) : (cmdRecover p n).1.atMost 2 := by
  unfold cmdRecover
  repeat' split
  all_goals first | exact Nat.zero_le _ | exact Nat.le_refl 2

/-- The result record of a command, three bytes before its data, fits the command's allowance (R47, Table 12-11). -/
theorem runCommand_allowance (c : Command) (p : List Byte) (n : Node) (h : n.fwd.Sound) :
    (runCommand c p n).reply.data.length + 3 ≤ c.allowance := by
  cases c
  case identify => exact Nat.add_le_add_right (cmdIdentify_atMost p n h) 3
  case status => exact Nat.add_le_add_right (cmdStatus_atMost p n) 3
  case resetNode => exact Nat.add_le_add_right (cmdResetNode_atMost p) 3
  case setGroups => exact Nat.add_le_add_right (cmdSetGroups_atMost p n h) 3
  case tableOpen => exact Nat.add_le_add_right (cmdTableOpen_atMost p n) 3
  case tableData => exact Nat.add_le_add_right (cmdTableData_atMost p n) 3
  case tableClose => exact Nat.add_le_add_right (cmdTableClose_atMost p n) 3
  case tableRead => exact Nat.add_le_add_right (cmdTableRead_atMost p n) 3
  case bankSwap => exact Nat.add_le_add_right (cmdBankSwap_atMost p n) 3
  case configureTime => exact Nat.add_le_add_right (cmdConfigureTime_atMost p n) 3
  case cueCancel => exact Nat.add_le_add_right (cmdCueCancel_atMost p n) 3
  case cueFlush => exact Nat.add_le_add_right (cmdCueFlush_atMost p n) 3
  case cueList => exact Nat.add_le_add_right (cmdCueList_atMost p n) 3
  case configureGroup => exact Nat.add_le_add_right (cmdConfigureGroup_atMost p n) 3
  case startGroups => exact Nat.add_le_add_right (groupCommand_atMost p _ _ n) 3
  case stopGroups => exact Nat.add_le_add_right (groupCommand_atMost p _ _ n) 3
  case fireGroups => exact Nat.add_le_add_right (groupCommand_atMost p _ _ n) 3
  case configureChannel => exact Nat.add_le_add_right (cmdConfigureChannel_atMost p n) 3
  case groupState => exact Nat.add_le_add_right (cmdGroupState_atMost p n) 3
  case channelState => exact Nat.add_le_add_right (cmdChannelState_atMost p n) 3
  case configureSense => exact Nat.add_le_add_right (cmdConfigureSense_atMost p n) 3
  case senseRead => exact Nat.add_le_add_right (cmdSenseRead_atMost p n) 3
  case configureNotices => exact Nat.add_le_add_right (cmdConfigureNotices_atMost p n) 3
  case configureSupervision => exact Nat.add_le_add_right (cmdConfigureSupervision_atMost p n) 3
  case recover => exact Nat.add_le_add_right (cmdRecover_atMost p n) 3

end Sys2Proof.Machine
end

