-- ==== Sys2Proof/Laws/FrameSound.lean ====
section
/-! SUPPORT. The frames of the U forward lane keep every block sound: MANAGE frames with their records, resets and
responses, SYNC, CUE, DATA and ENUMERATE frames, check errors and aborts. -/

namespace Sys2Proof.Machine

-- One proof at a time: side by side, their threads' stacks pass the memory limit of a check.
set_option Elab.async false

/-! ## Records and responses (R41 to R51) -/

theorem Run.report_node (r : Run) (k : Bool) (x : ResultRecord) : (r.report k x).node = r.node := rfl

theorem Run.record_keeps (r : Run) (answered k : Bool) (op : Byte) (p : List Byte) :
    r.node.Keeps (r.record answered k op p).node := by
  unfold Run.record
  split
  · exact .rfl
  · split
    · exact .rfl
    · split
      · exact .rfl
      · exact runCommand_keeps _ _ _

theorem Run.records_keeps (answered k : Bool) : ∀ (fuel : Nat) (bs : List Byte) (r : Run),
    r.node.Keeps (Run.records answered k fuel bs r).node
  | 0, _, _ => by unfold Run.records; exact .rfl
  | _ + 1, [], _ => by unfold Run.records; exact .rfl
  | fuel + 1, op :: tail, r => by
    unfold Run.records
    split
    · exact .rfl
    · split
      · exact .rfl
      · split
        · exact .rfl
        · exact (Run.record_keeps r answered k op _).trans (Run.records_keeps answered k fuel _ _)

/-- What is placed in an answered frame's response leaves its length within 240 bytes (R47). -/
theorem Run.record_fits (r : Run) (k : Bool) (op : Byte) (p : List Byte) (h : r.node.fwd.Sound)
    (room : r.out.length + 3 ≤ Config.responseRoom) :
    (r.record true k op p).out.length ≤ Config.responseRoom := by
  have three : ∀ st : Status, (r.report k { opcode := op, status := st, data := [] }).out.length ≤ Config.responseRoom := by
    intro st
    show (r.out ++ ResultRecord.bytes _).length ≤ _
    rw [List.length_append, ResultRecord.bytes_length]
    exact room
  unfold Run.record
  split
  · exact three .skipped
  · split
    · exact three .noRoom
    · rename_i noRoom
      split
      · exact three .unknownCommand
      · rename_i c e
        have a := runCommand_allowance c p r.node h
        show (r.out ++ ResultRecord.bytes _).length ≤ _
        rw [List.length_append, ResultRecord.bytes_length]
        simp only [Run.room, allowanceOf, e, Bool.true_and, decide_eq_true_eq, Nat.not_lt] at noRoom
        dsimp only
        omega

theorem Run.records_fits (k : Bool) : ∀ (fuel : Nat) (bs : List Byte) (r : Run), r.node.fwd.Sound →
    r.out.length ≤ Config.responseRoom → (Run.records true k fuel bs r).out.length ≤ Config.responseRoom
  | 0, _, _, _, h => by unfold Run.records; exact h
  | _ + 1, [], _, _, h => by unfold Run.records; exact h
  | fuel + 1, op :: tail, r, f, h => by
    unfold Run.records
    split
    · exact h
    · rename_i room
      have room : ¬ Config.responseRoom - r.out.length < 3 := fun q => room (by simp [Run.room, q])
      have room : r.out.length + 3 ≤ Config.responseRoom := by omega
      have bad : (r.report k { opcode := op, status := .badLength, data := [] }).out.length ≤ Config.responseRoom := by
        show (r.out ++ ResultRecord.bytes _).length ≤ _
        rw [List.length_append, ResultRecord.bytes_length]
        exact room
      split
      · exact bad
      · split
        · exact bad
        · exact Run.records_fits k fuel _ _ ((Run.record_keeps r true k op _).fwd f) (Run.record_fits r k op _ f room)

/-! ## Soft resets (R59) -/

theorem Node.softReset_keeps (n : Node) (scope : Scope) : n.Keeps (n.softReset scope) := by
  have full : n.Keeps n.resetFull :=
    { fwd := fun h => h.congr (by rfl)
      tables := fun _ => Tables.resetFull_sound _
      sched := fun _ => Schedule.resetFull_sound _
      out := fun _ => Output.initial_sound
      sense := fun _ => Sense.initial_sound
      sup := fun _ => Supervision.initial_sound
      queues := fun _ q => ⟨q.1.congr (by rfl) (by rfl) (by rfl), nofun⟩ }
  cases scope
  case outputs =>
    exact { tables := Tables.resetOutputs_sound, sched := fun _ => Schedule.resetOutputs_sound _, out := fun h => h.resetOutputs }
  case full => exact full
  case factory => exact full.trans { fwd := fun _ => Forwarding.Sound.of_nil (by rfl) }

theorem Node.applyReset_keeps (n : Node) (r : Option Scope) : n.Keeps (n.applyReset r) := by
  cases r
  · exact .rfl
  · exact n.softReset_keeps _

/-! ## MANAGE frames (R45, R49 to R51) -/

theorem Node.executeUnanswered_keeps (n : Node) (k : Bool) (payload : List Byte) : n.Keeps (n.executeUnanswered k payload) :=
  (Run.records_keeps false k payload.length payload (.start n)).trans (Node.applyReset_keeps _ _)

theorem Node.runRecord_keeps (n : Node) (c : Command) (p : List Byte) : n.Keeps (n.runRecord c p) :=
  ((runCommand_keeps c p n).trans (Node.applyReset_keeps _ _)).trans {}

theorem Node.executeAnswered_keeps (n : Node) (k : Bool) (seq : Byte) (payload : List Byte) (free : n.ret.hasFree = true) :
    n.Keeps (n.executeAnswered k seq payload) := by
  have first : n.Keeps { n with ret := n.ret.enqueue reserved } :=
    { queues := fun _ q => ⟨q.1.enqueue _ free (Nat.zero_le _), q.2⟩ }
  have run := first.trans (Run.records_keeps true k payload.length payload (.start { n with ret := n.ret.enqueue reserved }))
  have size : n.fwd.Sound → (responseFrame n.fwd.address seq
      (runFrame { n with ret := n.ret.enqueue reserved } true k payload)).payload.length ≤ Config.responseRoom :=
    fun h => Run.records_fits k payload.length payload (.start { n with ret := n.ret.enqueue reserved }) h (Nat.zero_le _)
  unfold Node.executeAnswered
  simp only
  refine Node.Keeps.trans ?_ (Node.applyReset_keeps _ _)
  split
  · exact { run with queues := fun f q => ⟨(run.queues f q).1.fillEntry _ _ (size f), (run.queues f q).2⟩ }
  · refine { run with queues := fun f q => ⟨(run.queues f q).1.fillEntry _ _ (size f), ?_⟩ }
    rintro _ ⟨⟩
    exact size f

theorem Node.manage_keeps (n : Node) (h : FwdHeader) (payload : List Byte) : n.Keeps (n.manage h payload) := by
  unfold Node.manage
  split
  · unfold Node.answer
    split
    · exact {}
    · rename_i free
      have free : n.ret.hasFree = true := by simpa using free
      split
      · rename_i f cached
        split
        · exact { queues := fun _ q => ⟨q.1.enqueue _ free (q.2 f cached), q.2⟩ }
        · exact n.executeAnswered_keeps _ _ _ free
      · exact n.executeAnswered_keeps _ _ _ free
  · exact n.executeUnanswered_keeps _ _

/-! ## The other kinds (R24) -/

theorem Node.endCopy_keeps (n : Node) (x : FwdItem) (hx : x = .eof ∨ x = .eoa) : n.Keeps (n.endCopy x) := by
  have l := fun h => Node.endCopy_sound (n := n) h x hx
  unfold Node.endCopy at l ⊢
  split
  · exact { link := by rw [if_pos ‹_›] at l; exact l }
  · exact .rfl

theorem Node.endURecord_keeps (n : Node) : n.Keeps n.endURecord := {}

theorem Node.abortU_keeps (n : Node) : n.Keeps n.abortU :=
  ((n.endCopy_keeps .eoa (.inr rfl)).trans (Node.endURecord_keeps _)).trans { fwd := fun h => h.congr (by rfl) }

theorem Node.checkErrorU_keeps (n : Node) : n.Keeps n.checkErrorU :=
  ((n.endCopy_keeps .eoa (.inr rfl)).trans (Node.endURecord_keeps _)).trans { fwd := fun h => h.congr (by rfl) }

theorem Node.setAddress_keeps (n : Node) (a : BitVec 10) : n.Keeps (n.setAddress a) := by
  unfold Node.setAddress
  split
  · exact .rfl
  · exact { fwd := fun h => h.congr (by rfl), queues := fun _ q => ⟨q.1, nofun⟩ }

theorem Node.enumerated_keeps (n : Node) (next : BitVec 16) (note : EnumNote) : n.Keeps (n.enumerated next note) := by
  unfold Node.enumerated
  have k : n.Keeps (match (enumDecide next note).take with
      | some a => n.setAddress a
      | none => n) := by
    split
    · exact n.setAddress_keeps _
    · exact .rfl
  simp only
  split
  · exact k.trans { fwd := fun h => h.congr (by rfl) }
  · exact k

theorem Node.runCues_keeps (n : Node) (es : List CueEntry) : n.Keeps (n.runCues es) where
  out h := Output.Sound.runCues _ es h

theorem Node.reportOnSync_keeps (n : Node) : n.Keeps n.reportOnSync := by
  unfold Node.reportOnSync
  split
  · have size : (byteOf (n.sense.log.take Config.reportCapacity).length ::
        (n.sense.log.take Config.reportCapacity).flatMap LogEntry.bytes).length + 2 ≤ Config.responseRoom := by
      have a := flatMap_length_le LogEntry.bytes 11 (n.sense.log.take Config.reportCapacity) fun e _ => Nat.le_of_eq e.bytes_length
      have b : (n.sense.log.take Config.reportCapacity).length ≤ Config.reportCapacity := List.length_take_le _ _
      rw [List.length_cons]
      simp only [Config.reportCapacity, Config.responseRoom] at a b ⊢
      omega
    have s : n.sense.Sound → (if n.ret.hasFree then { n.sense with log := n.sense.log.drop Config.reportCapacity }
        else n.sense : Sense).Sound := by
      intro h
      split
      · exact h.sublog (List.drop_sublist _ _)
      · exact h
    exact { queues := fun _ q => ⟨q.1.notice _ _ _ size, q.2⟩, sense := s }
  · exact .rfl

theorem Node.syncSchedule_keeps (n : Node) (t : BitVec 40) : n.Keeps (n.syncSchedule t) := by
  unfold Node.syncSchedule
  have k : n.Keeps (({ n with sched := (n.sched.sync t).2 } : Node).runCues (n.sched.sync t).1.acting) :=
    Node.Keeps.trans { sched := fun h => h.sync t } (Node.runCues_keeps _ _)
  simp only
  split
  · exact k.trans { queues := fun _ q => ⟨q.1.timeNotice _ _, q.2⟩ }
  · exact k

theorem Node.qualifyingFrame_keeps (n : Node) (d : Bool) : n.Keeps (n.qualifyingFrame d) :=
  Node.Keeps.trans { sup := fun h => h.qualify d } (Node.supNotices_keeps _ _)

theorem Node.syncParts_keeps (n : Node) (t : BitVec 40) : n.Keeps (n.syncParts t) := by
  unfold Node.syncParts
  split
  · dsimp only
    have c : n.Keeps { n with choice := n.choice + 1 } := {}
    split
    · exact ((c.trans (Node.qualifyingFrame_keeps _ _)).trans (Node.syncSchedule_keeps _ _)).trans (Node.reportOnSync_keeps _)
    · exact ((c.trans (Node.syncSchedule_keeps _ _)).trans (Node.qualifyingFrame_keeps _ _)).trans (Node.reportOnSync_keeps _)
    · exact ((c.trans (Node.syncSchedule_keeps _ _)).trans (Node.reportOnSync_keeps _)).trans (Node.qualifyingFrame_keeps _ _)
  · exact ((Node.qualifyingFrame_keeps _ _).trans (Node.syncSchedule_keeps _ _)).trans (Node.reportOnSync_keeps _)

theorem Node.holdSync_keeps (n : Node) (x : HeldSync) : n.Keeps (n.holdSync x) := by
  have l := fun h => Node.holdSync_sound (n := n) h x
  unfold Node.holdSync at l ⊢
  split
  · rename_i q
    rw [if_pos q] at l
    exact { link := l }
  · rename_i q
    rw [if_neg q] at l
    dsimp only at l ⊢
    split
    · rename_i r
      rw [if_pos r] at l
      exact { link := l }
    · rename_i r
      rw [if_neg r] at l
      exact { link := l, fwd := fun h => h.congr (by rfl) }

theorem Node.syncAccepted_keeps (n : Node) (h : FwdHeader) (f : BitVec 40) (c : BitVec 16) (e : Nat) :
    n.Keeps (n.syncAccepted h f c e) := (n.holdSync_keeps _).trans (Node.syncParts_keeps _ _)

theorem Node.cueAccepted_keeps (n : Node) (payload : List Byte) : n.Keeps (n.cueAccepted payload) :=
  Node.Keeps.trans { sched := fun h => Schedule.Sound.judgeAll _ _ h (parseCues_sound _ _) } (Node.runCues_keeps _ _)

theorem Node.dataAccepted_keeps (n : Node) (seq : Byte) (payload : List Byte) : n.Keeps (n.dataAccepted seq payload) := by
  unfold Node.dataAccepted
  dsimp only
  split
  · exact n.qualifyingFrame_keeps true
  · exact (n.qualifyingFrame_keeps true).trans { out := fun h => h.offer _ _ _ }

theorem Node.handOff_keeps (n : Node) (h : FwdHeader) (payload : List Byte) (c : BitVec 16) (e : Nat) (m : Bool)
    (note : EnumNote) : n.Keeps (n.handOff h payload c e m note) := by
  unfold Node.handOff
  split
  · split
    · exact n.dataAccepted_keeps _ _
    · exact .rfl
  · split
    · split
      · exact n.syncAccepted_keeps _ _ _ _
      · exact .rfl
    · split
      · split
        · exact n.manage_keeps _ _
        · exact .rfl
      · split
        · exact n.cueAccepted_keeps _
        · split
          · split
            · split
              · exact n.enumerated_keeps _ _
              · exact .rfl
            · exact .rfl
          · exact .rfl

theorem Node.acceptU_keeps (n : Node) (h : FwdHeader) (payload : List Byte) (c : BitVec 16) (e : Nat) :
    n.Keeps (n.acceptU h payload c e) :=
  (((n.endCopy_keeps .eof (.inl rfl)).trans (Node.endURecord_keeps _)).trans
    { fwd := fun h => h.congr (by rfl) }).trans (Node.handOff_keeps _ _ _ _ _ _ _)

/-- The end of a frame on the U forward lane (R10, R11, R24). -/
theorem Node.frameEnd_keeps (n : Node) (h : FwdHeader) (payload : List Byte) (c : BitVec 16) (e : Nat) :
    n.Keeps (n.frameEnd h payload c e) := by
  unfold Node.frameEnd
  split
  · exact n.abortU_keeps
  · split
    · exact n.checkErrorU_keeps
    · exact n.acceptU_keeps _ _ _ _

end Sys2Proof.Machine
end

