-- ==== Sys2Proof/Laws/EventSound.lean ====
section
/-! SUPPORT. The events of the lanes, the sense inputs, the timers and the clock keep every block sound. -/

namespace Sys2Proof.Machine

-- One proof at a time: side by side, their threads' stacks pass the memory limit of a check.
set_option Elab.async false

/-! ## Supervision (R181 to R183) -/

theorem Node.enterFailsafe_keeps (n : Node) : n.Keeps n.enterFailsafe := by
  have k : n.Keeps { n with
      sup := { n.sup with state := .failsafe, supTimer := none, holdTimer := none, recovery := 0 }
      out := n.out.enterFailsafe n.tables.failsafe
      sched := n.sched.enterFailsafe } :=
    { sup := fun h => ⟨h.1, nofun, nofun, nofun, nofun, fun _ => by rfl⟩
      out := fun h => h.enterFailsafe _
      sched := fun _ => Schedule.enterFailsafe_sound _ }
  exact k.trans (Node.supNotices_keeps _ _)

theorem Node.holdoverExpiry_keeps (n : Node) : n.Keeps n.holdoverExpiry := by
  unfold Node.holdoverExpiry
  split
  · rename_i q
    simp only [Bool.and_eq_true, decide_eq_true_eq] at q
    split
    · exact n.enterFailsafe_keeps
    · exact { sup := fun h => h.holdTimer q.1 none }
  · exact .rfl

theorem Node.supervisionExpiry_keeps (n : Node) : n.Keeps n.supervisionExpiry := by
  unfold Node.supervisionExpiry
  split
  · split
    · rename_i q
      have a : n.Keeps { n with
          sup := { n.sup with
            state := .holdover, supTimer := none, holdTimer := timerFor n.sup.holdover } } :=
        { sup := fun h => ⟨h.1, fun _ => h.2.1 (by simp [q]), nofun, nofun, fun _ => by rfl, nofun⟩ }
      have k := a.trans (Node.supNotices_keeps _ [{ before := .normal, after := .holdover }])
      dsimp only
      split
      · exact k.trans (Node.holdoverExpiry_keeps _)
      · exact k
    · rename_i q
      exact { sup := fun h => ⟨h.1, fun r => absurd q r, fun r => absurd (q.symm.trans r) nofun,
        fun r => absurd (q.symm.trans r) nofun, fun r => absurd (q.symm.trans r) nofun, fun _ => h.2.2.2.2.2 q⟩ }
    · exact .rfl
    · exact .rfl
  · exact .rfl

/-! ## Sense inputs (R150 to R157) -/

theorem Node.takeEdge_keeps (n : Node) (i : Fin 4) (x : Input) (eff : EdgeEffect)
    (hx : n.sense.inputs[i].Sound → x.Sound)
    (he : ∀ k c, eff.result = some (k, c) → (k = .trigger ↔ c = none)) : n.Keeps (n.takeEdge i x eff) := by
  refine { sense := fun h => ?_, out := fun h => Output.Sound.foldl (fun _ h => h.trigger) _ h }
  have s := h.setInput i (hx (h.1 i))
  unfold Node.takeEdge
  dsimp only
  split
  · exact s
  · rename_i k c q
    exact s.append _ (logEntryOf_sound _ _ _ _ (he k c q))

theorem Node.sample_keeps (n : Node) (i : Fin 4) (raw : Bool) : n.Keeps (n.sample i raw) := by
  unfold Node.sample
  dsimp only
  split
  · exact .rfl
  · rename_i on
    have on : n.sense.inputs[i].raiseCount.phase ≠ .off := by rw [Input.raiseCount_phase]; exact on
    have f : n.sense.inputs[i].Sound → (n.sense.inputs[i].raiseCount.filter raw).1.Sound := fun h => h.raiseCount.filter on raw
    split
    · exact n.takeEdge_keeps _ _ _ f nofun
    · exact n.takeEdge_keeps _ _ _ (fun h => (f h).edge _) fun _ _ => Input.edge_result

theorem Node.edgeTo_keeps (n : Node) (i : Fin 4) (level : Bool) : n.Keeps (n.edgeTo i level) := by
  unfold Node.edgeTo
  dsimp only
  split
  · exact .rfl
  · rename_i on
    simp only [Bool.or_eq_true, decide_eq_true_eq, not_or] at on
    split
    · exact n.sample_keeps i level
    · refine n.takeEdge_keeps _ _ _ (fun h => Input.Sound.edge ?_ _) fun _ _ => Input.edge_result
      have r := h.raiseCount
      refine ⟨r.1, Nat.zero_le _, r.2.2.1, fun q => ?_⟩
      rw [show _ = n.sense.inputs[i].phase from Input.raiseCount_phase _] at q
      exact absurd q on.1

/-! ## The receiving lanes (R6 to R17, R21) -/

theorem Node.placeData_keeps (n : Node) (k : Bool) (b : Byte) : n.Keeps (n.placeData k b) := by
  have l := fun h => Node.placeData_sound (n := n) h k b
  unfold Node.placeData at l ⊢
  split
  · rename_i q
    rw [if_pos q] at l
    split
    · rename_i r
      rw [if_pos r] at l
      exact { link := l }
    · rename_i r
      rw [if_neg r] at l
      exact { link := l }
  · exact .rfl

theorem Node.placeRun_keeps (k : Bool) : ∀ (bs : List Byte) (n : Node), n.Keeps (n.placeRun k bs)
  | [], _ => .rfl
  | b :: bs, n => (n.placeData_keeps k b).trans (Node.placeRun_keeps k bs _)

theorem Node.beginCopy_keeps (n : Node) (h : FwdHeader) : n.Keeps (n.beginCopy h) := by
  unfold Node.beginCopy
  generalize h.passedOn.bytes = bs
  exact Node.Keeps.trans
    { link := fun h => by have k := Node.placeMark_sound h .sof (by simp); exact ⟨k.1, k.2.1, k.2.2⟩ }
    (Node.placeRun_keeps true bs _)

theorem Node.headerComplete_keeps (n : Node) : n.Keeps n.headerComplete := by
  unfold Node.headerComplete
  dsimp only
  generalize FwdHeader.ofBytes n.link.uRec.hdr = h
  have a : n.Keeps (({ n with link := { n.link with uRec := { n.link.uRec with phase := .body } } } : Node).noteHeader h) := {}
  generalize ({ n with link := { n.link with uRec := { n.link.uRec with phase := .body } } } : Node).noteHeader h = m at a ⊢
  have k : n.Keeps (if m.link.passage.disposition = some .pass then m.beginCopy h else m) := by
    split
    · exact a.trans (m.beginCopy_keeps h)
    · exact a
  split
  · exact k.trans (Node.abortU_keeps _)
  · exact k

theorem Node.copyPayload_keeps (n : Node) (b : Byte) : n.Keeps (n.copyPayload b) := by
  unfold Node.copyPayload
  split
  · exact n.placeData_keeps _ _
  · split
    · exact {}
    · exact Node.Keeps.trans {} (Node.placeRun_keeps true _ _)

theorem Node.bodyByteU_keeps (n : Node) (b : Byte) : n.Keeps (n.bodyByteU b) := by
  unfold Node.bodyByteU
  dsimp only
  split
  · exact Node.Keeps.trans {} (Node.copyPayload_keeps _ b)
  · split
    · split
      · exact Node.Keeps.trans {} (Node.placeRun_keeps false _ _)
      · exact {}
    · exact n.abortU_keeps

theorem Node.deliverU_keeps (n : Node) (c : RxChar) : n.Keeps (n.deliverU c) := by
  have header : ∀ m : Node, n.Keeps m → n.Keeps (if m.link.uRec.hdr.length = 8 then m.headerComplete else m) := by
    intro m k
    split
    · exact k.trans m.headerComplete_keeps
    · exact k
  unfold Node.deliverU
  split
  all_goals first
    | exact .rfl
    | exact header _ {}
    | exact n.bodyByteU_keeps _
    | exact n.abortU_keeps
    | exact n.abortU_keeps.trans {}
    | exact { }
    | skip
  split
  · split
    · exact n.acceptU_keeps _ _ _ _
    · exact n.checkErrorU_keeps
  · exact n.abortU_keeps

/-- The return unit takes the end of a frame (R169, R170). -/
theorem Node.endD_keeps (n : Node) (o : ReturnOutcome)
    (ho : n.ret.Sound → ∀ hdr p c, o = .accepted hdr p c → lengthField hdr ≤ Config.maxRelayPayload →
      p.length ≤ Config.maxRelayPayload) : n.Keeps (n.endD o) where
  queues _ q := ⟨q.1.receive o (ho q.1), q.2⟩

theorem Node.openD_keeps (n : Node) : n.Keeps n.openD where
  queues _ q := ⟨⟨q.1.1, q.1.2.1, Nat.zero_le _, q.1.2.2.2⟩, q.2⟩

theorem Node.bodyByteD_keeps (n : Node) (b : Byte) : n.Keeps (n.bodyByteD b) := by
  unfold Node.bodyByteD
  dsimp only
  split
  · have room : n.ret.Sound →
        (if n.ret.area.length < Config.maxRelayPayload then { n.ret with area := n.ret.area ++ [b] } else n.ret : ReturnUnit).Sound := by
      intro h
      split
      · refine ⟨h.1, h.2.1, ?_, h.2.2.2⟩
        show (n.ret.area ++ [b]).length ≤ _
        rw [List.length_append, List.length_singleton]
        omega
      · exact h
    exact { queues := fun _ q => ⟨room q.1, q.2⟩ }
  · split
    · exact {}
    · exact n.endD_keeps _ nofun

theorem Node.deliverD_keeps (n : Node) (c : RxChar) : n.Keeps (n.deliverD c) := by
  have aborted := n.endD_keeps .aborted nofun
  unfold Node.deliverD
  split
  case h_7 =>
    dsimp only
    split
    · split
      · exact aborted
      · exact {}
    · exact {}
  all_goals first
    | exact .rfl
    | exact n.openD_keeps
    | exact n.bodyByteD_keeps _
    | exact aborted
    | exact aborted.trans (Node.openD_keeps _)
    | skip
  split
  · split
    · refine n.endD_keeps _ fun h hdr p c q _ => ?_
      cases q
      exact h.2.2.1
    · exact n.endD_keeps .checkError nofun
  · exact aborted

theorem Node.setLane_keeps (n : Node) (lane : Lane) (st : LaneState) : n.Keeps (n.setLane lane st) := by
  cases lane <;> exact {}

theorem Node.receive_keeps (n : Node) (lane : Lane) (c : RxChar) : n.Keeps (n.receive lane c) := by
  have deliver : ∀ m : Node, m.Keeps (m.deliver lane c) := fun m => by
    cases lane
    · exact m.deliverU_keeps c
    · exact m.deliverD_keeps c
  unfold Node.receive
  split
  · split
    · split
      · exact n.setLane_keeps _ _
      · exact n.setLane_keeps _ _
    · exact n.setLane_keeps _ _
  · split
    · exact (n.setLane_keeps _ _).trans (deliver _)
    · exact deliver n

theorem Node.fallSilent_keeps (n : Node) (lane : Lane) : n.Keeps (n.fallSilent lane) := by
  have reception : ∀ m : Node, m.Keeps (m.abortReception lane) := fun m => by
    cases lane
    · unfold Node.abortReception
      dsimp only
      split
      · exact .rfl
      · exact m.abortU_keeps
    · unfold Node.abortReception
      dsimp only
      split
      · exact .rfl
      · exact m.endD_keeps _ nofun
  unfold Node.fallSilent
  split
  · exact .rfl
  · exact (n.setLane_keeps _ _).trans (reception _)

/-- A frame accepted whole on the D return lane has the payload bytes its length field asks for. -/
theorem returnOutcome_length {f : ReturnEnd} {hdr p : List Byte} {c : BitVec 16} (h : returnOutcome f = .accepted hdr p c) :
    p.length = lengthField hdr := by
  unfold returnOutcome at h
  dsimp only at h
  split at h
  · cases h
  · rename_i q
    split at h
    · cases h
    · cases h
      simp only [Bool.or_eq_true, decide_eq_true_eq, not_or] at q
      exact not_not.1 q.2

theorem Node.returnFrame_keeps (n : Node) (f : ReturnEnd) : n.Keeps (n.endD (returnOutcome f)) :=
  n.endD_keeps _ fun _ _ _ _ q l => (returnOutcome_length q).trans_le l

/-! ## The transmitters (R4, R16 to R20, R171, R172) -/

theorem Node.sendNext_live {n : Node} (h : n.Live) (x : FwdCurrent) (o : List FwdItem) : (n.sendNext x o).Live := by
  refine ⟨h.1, ?_, h.2.2⟩
  unfold Node.sendNext
  dsimp only
  split <;> nofun

theorem Node.forwardCharacterEnds_same (n : Node) :
    ∃ l, n.forwardCharacterEnds = { n with link := l } ∧ l.resetLow = n.link.resetLow ∧ l.fwdTx = n.link.fwdTx ∧ l.retTx = n.link.retTx := by
  unfold Node.forwardCharacterEnds
  split
  · split
    · exact ⟨_, rfl, rfl, rfl, rfl⟩
    · split <;> exact ⟨_, rfl, rfl, rfl, rfl⟩
  all_goals exact ⟨_, rfl, rfl, rfl, rfl⟩

/-- The forward transmitter's next character changes the link ports and the forward overruns counter only. -/
theorem Node.forwardTakeNext_same (n : Node) :
    ∃ l c, n.forwardTakeNext = { n with link := l, fwd := { n.fwd with overruns := c } } := by
  unfold Node.forwardTakeNext
  repeat' split
  all_goals exact ⟨_, _, rfl⟩

theorem Node.forwardTakeNext_live {n : Node} (h : n.Live) : n.forwardTakeNext.Live := by
  unfold Node.forwardTakeNext
  repeat' split
  all_goals first | exact n.sendNext_live h (.item .eoa) [] | exact n.sendNext_live h _ _

theorem Node.forwardCharacter_keeps (n : Node) : n.Keeps n.forwardCharacter := by
  have lk := fun h => Node.forwardCharacter_sound (n := n) h
  unfold Node.forwardCharacter at lk ⊢
  split
  · exact .rfl
  · rename_i q
    rw [if_neg q] at lk
    obtain ⟨l, e, l1, l2, l3⟩ := n.forwardCharacterEnds_same
    rw [e] at lk ⊢
    have live : n.Live → ({ n with link := l } : Node).forwardTakeNext.Live := fun h =>
      Node.forwardTakeNext_live ⟨l1.trans h.1, by show l.fwdTx.state ≠ _; rw [l2]; exact h.2.1, by show l.retTx.state ≠ _; rw [l3]; exact h.2.2⟩
    obtain ⟨k, c, e⟩ := ({ n with link := l } : Node).forwardTakeNext_same
    rw [e] at lk live ⊢
    exact { link := lk, live := live }

theorem Node.sendSyncSof_keeps (n : Node) : n.Keeps n.sendSyncSof := by
  unfold Node.sendSyncSof
  split
  · exact .rfl
  · split
    · exact n.forwardCharacter_keeps
    · split
      · exact n.forwardCharacter_keeps.trans (Node.forwardCharacter_keeps _)
      · exact .rfl

theorem Node.sendSyncEof_keeps (n : Node) : n.Keeps n.sendSyncEof := by
  unfold Node.sendSyncEof
  split
  · rename_i i ci
    split
    · exact .rfl
    · refine Node.Keeps.trans ?_ (Node.forwardCharacter_keeps _)
      exact { link := fun h => ⟨h.1, h.2.1, fun _ => h.2.2 (by rw [ci]; rfl)⟩ }
  all_goals exact .rfl

theorem Node.underrun_keeps (n : Node) : n.Keeps n.underrun := by
  unfold Node.underrun
  split
  · exact n.forwardCharacter_keeps
  · exact .rfl

theorem Node.arbitrate_keeps (n : Node) : n.Keeps n.arbitrate := by
  unfold Node.arbitrate
  split
  · exact .rfl
  · split
    · exact { live := fun h => ⟨h.1, h.2.1, nofun⟩ }
    · exact { live := fun h => ⟨h.1, h.2.1, nofun⟩, queues := fun _ q => ⟨q.1.serve _, q.2⟩ }

theorem Node.endReturnFrame_keeps (n : Node) : n.Keeps n.endReturnFrame := by
  unfold Node.endReturnFrame
  split
  · exact .rfl
  · refine { live := fun h => ⟨h.1, h.2.1, ?_⟩, queues := fun _ q => ⟨q.1.release _, q.2⟩ }
    dsimp only
    split <;> nofun

theorem Node.returnCharacter_keeps (n : Node) : n.Keeps n.returnCharacter := by
  unfold Node.returnCharacter
  split
  · exact n.arbitrate_keeps
  · split
    · exact {}
    · exact n.endReturnFrame_keeps.trans (Node.arbitrate_keeps _)

/-! ## Cues and the clock (R101, R115, R125, R192) -/

theorem Node.expireCues_sched {n : Node} (h : n.sched.Near) : n.expireCues.sched.Sound := by
  unfold Node.expireCues
  split
  · exact h.expire
  · rename_i q
    have q : n.sched.time = .invalid := by
      cases t : n.sched.time
      · rfl
      · exact absurd t q
    exact Schedule.Sound.of_nil (h.2.1 q)

theorem Node.expireCues_keeps {n m : Node} (h : n.Keeps { m with sched := n.sched }) (near : n.sched.Sound → m.sched.Near) :
    n.Keeps m.expireCues := by
  have s : n.sched.Sound → m.expireCues.sched.Sound := fun k => Node.expireCues_sched (near k)
  unfold Node.expireCues at s ⊢
  split
  · rename_i v
    rw [if_pos v] at s
    exact { h with sched := s, out := fun k => Output.Sound.runCues _ _ (h.out k) }
  · rename_i v
    rw [if_neg v] at s
    exact { h with sched := s }

theorem Node.cueExpiry_keeps (n : Node) : n.Keeps n.cueExpiry := by
  unfold Node.cueExpiry
  split
  · rename_i e q _ hq
    exact Node.expireCues_keeps {} fun h => h.reach hq
  · exact .rfl

theorem Node.advanceTime_keeps (n : Node) : n.Keeps n.advanceTime := by
  unfold Node.advanceTime
  split
  · exact Node.expireCues_keeps {} fun h => h.advance
  · exact .rfl

theorem Node.countPeriod_keeps (n : Node) : n.Keeps n.countPeriod where
  tables h := by
    unfold Node.countPeriod
    dsimp only
    split
    · exact Tables.idle_sound h ‹_› _
    · exact h
  sense h := h.run
  sup h := h.run

theorem Node.silenceOf_keeps (n : Node) (lane : Lane) : n.Keeps (n.silenceOf lane) := by
  unfold Node.silenceOf
  split
  · exact n.fallSilent_keeps lane
  · exact .rfl

theorem Node.idleLimit_keeps (n : Node) : n.Keeps n.idleLimit := by
  unfold Node.idleLimit
  split
  · exact { tables := Tables.expire_sound }
  · exact .rfl

theorem Node.lockoutOf_keeps (n : Node) (i : Fin 4) : n.Keeps (n.lockoutOf i) := by
  unfold Node.lockoutOf
  dsimp only
  split
  · exact { sense := fun h => h.endLockout i }
  · exact .rfl

theorem Node.sampleOf_keeps (n : Node) (i : Fin 4) : n.Keeps (n.sampleOf i) := by
  unfold Node.sampleOf
  dsimp only
  split
  · exact .rfl
  · split
    · exact n.sample_keeps i _
    · exact .rfl

theorem Node.supervisionTimers_keeps (n : Node) : n.Keeps n.supervisionTimers := by
  have hold : ∀ m : Node, m.Keeps (if timerDue m.sup.holdTimer then m.holdoverExpiry else m) := fun m => by
    split
    · exact m.holdoverExpiry_keeps
    · exact .rfl
  have sup : ∀ m : Node, m.Keeps (if timerDue m.sup.supTimer then m.supervisionExpiry else m) := fun m => by
    split
    · exact m.supervisionExpiry_keeps
    · exact .rfl
  exact (hold n).trans (sup _)

theorem Node.tickOf_keeps (n : Node) (g : Fin 4) : n.Keeps (n.tickOf g) := by
  unfold Node.tickOf
  split
  · exact { out := fun h => h.tick g }
  · exact .rfl

theorem Node.characterBoundary_keeps (n : Node) : n.Keeps n.characterBoundary := by
  unfold Node.characterBoundary
  split
  · exact n.forwardCharacter_keeps.trans (Node.returnCharacter_keeps _)
  · exact .rfl

theorem Node.foldl_keeps {f : Node → Fin 4 → Node} (hf : ∀ (n : Node) (g : Fin 4), n.Keeps (f n g)) :
    ∀ (gs : List (Fin 4)) (n : Node), n.Keeps (gs.foldl f n)
  | [], _ => .rfl
  | g :: gs, n => (hf n g).trans (Node.foldl_keeps hf gs (f n g))

/-- One period of the node's clock (log entry 1). -/
theorem Node.clockPeriod_keeps (n : Node) : n.Keeps n.clockPeriod := by
  unfold Node.clockPeriod
  split
  · exact .rfl
  · exact ((((((((n.countPeriod_keeps.trans (Node.advanceTime_keeps _)).trans (Node.silenceOf_keeps _ _)).trans
      (Node.silenceOf_keeps _ _)).trans (Node.idleLimit_keeps _)).trans (Node.foldl_keeps Node.lockoutOf_keeps _ _)).trans
      (Node.foldl_keeps Node.sampleOf_keeps _ _)).trans
      (Node.supervisionTimers_keeps _)).trans (Node.foldl_keeps Node.tickOf_keeps _ _)).trans
      (Node.characterBoundary_keeps _)

end Sys2Proof.Machine
end

