-- ==== Sys2Proof/Laws/LinkSpec.lean ====
section
/-! SUPPORT. What each operation of the receiving lanes does, once over: characters, the forward copy, the end of a frame. -/

namespace Sys2Proof.Machine

-- One proof at a time: side by side, their threads' stacks pass the memory limit of a check.
set_option Elab.async false

/-! ## Characters (R3) -/

theorem classify_valid : ∀ (info : BitVec 9) (stop : Bool), (classify info stop).isValid
    = (stop && (info.toNat < 256 || (256 ≤ info.toNat && info.toNat < 260))) := by decide +kernel

theorem classify_data : ∀ b : Byte, classify (b.setWidth 9) true = .data b := by decide +kernel

theorem classify_eq_data : ∀ (info : BitVec 9) (stop : Bool),
    (stop = true ∧ info.toNat < 256 → classify info stop = .data (info.setWidth 8)) := by decide +kernel

theorem classify_eq_control : ∀ (info : BitVec 9) (stop : Bool),
    (classify info stop = .idle ↔ stop = true ∧ info = 256) ∧ (classify info stop = .sof ↔ stop = true ∧ info = 257)
      ∧ (classify info stop = .eof ↔ stop = true ∧ info = 258) ∧ (classify info stop = .eoa ↔ stop = true ∧ info = 259)
      ∧ (classify info stop = .codeError ↔ stop = false ∨ 260 ≤ info.toNat) := by decide +kernel

/-! ## The forward copy (R14, R16, R17) -/

/-- A run of bytes placed one after another is one taking of them. -/
theorem Node.placeRun_eq (k : Bool) : ∀ (bs : List Byte) (n : Node), n.placeRun k bs = n.copyTakes k bs := by
  intro bs
  induction bs with
  | nil =>
    intro n
    by_cases o : n.link.passage.copy = .opened
    · simp only [Node.placeRun, Node.copyTakes, checkRun, o]
      simp
      rw [← o]
    · simp [Node.placeRun, Node.copyTakes, o]
  | cons b bs ih =>
    intro n
    show (n.placeData k b).placeRun k bs = _
    rw [ih]
    unfold Node.placeData
    by_cases o : n.link.passage.copy = .opened
    · simp only [o, if_true]
      by_cases r : dataCount n.link.order < 64
      · have e : 64 - dataCount n.link.order = (64 - (dataCount n.link.order + 1)) + 1 := by omega
        have d : dataCount (n.link.order ++ [.data b]) = dataCount n.link.order + 1 := by
          simp [dataCount]
          rfl
        simp only [Config.forwardCapacity, r, if_true, Node.copyTakes, o, d, e, List.take_succ_cons, List.length_cons,
          Nat.add_le_add_iff_right, List.map_cons]
        cases k <;> simp [checkRun]
      · have e : 64 - dataCount n.link.order = 0 := by omega
        simp [Config.forwardCapacity, r, Node.copyTakes, o, e, Node.countOverrun, Node.setCopy, Node.placeMark, checkRun]
    · simp [o, Node.copyTakes]

/-- The copy of a PASS frame begins with its SOF, and then takes the header with the hop raised. -/
theorem Node.beginCopy_eq (n : Node) (h : FwdHeader) :
    n.beginCopy h = Node.copyTakes
      { n with link := { n.link with
        order := n.link.order ++ [.sof], passage := { n.link.passage with copy := .opened } } } true
      { h with hop := if h.hop = 255 then 255 else h.hop + 1 }.bytes := by
  have e : h.passedOn = { h with hop := if h.hop = 255 then 255 else h.hop + 1 } := by
    unfold FwdHeader.passedOn raiseHop
    split
    · rename_i q
      rw [q]
    · rfl
  rw [Node.beginCopy, Node.placeRun_eq, e]
  exact congrArg (fun m => Node.copyTakes m true _) rfl

/-! ## The end of a frame (R8, R10, R11, R15) -/

theorem Node.endRecord_eq (n : Node) (x : FwdItem) : (n.endCopy x).endURecord = n.frameEnded x := by
  unfold Node.endCopy
  split
  · rename_i o
    simp [Node.frameEnded, Node.endURecord, Node.placeMark, Node.setCopy, o]
  · rename_i o
    simp [Node.frameEnded, Node.endURecord, o]

theorem Node.abortU_eq (n : Node) :
    n.abortU = { n.frameEnded .eoa with fwd := { n.fwd with aborts := raiseCounter n.fwd.aborts } } := by
  unfold Node.abortU
  rw [Node.endRecord_eq]

theorem Node.checkErrorU_eq (n : Node) :
    n.checkErrorU = { n.frameEnded .eoa with fwd := { n.fwd with checkErrors := raiseCounter n.fwd.checkErrors } } := by
  unfold Node.checkErrorU
  rw [Node.endRecord_eq]

theorem Node.acceptU_eq (n : Node) (h : FwdHeader) (payload : List Byte) (check : BitVec 16) (elapsed : Nat) :
    n.acceptU h payload check elapsed
      = ({ n.frameEnded .eof with fwd := { n.fwd with position := h.hop } } : Node).handOff h payload check elapsed
          (n.matchOf h) (n.noteOf h) := by
  unfold Node.acceptU
  rw [Node.endRecord_eq]
  rfl

/-! ## Frame rows -/

theorem word16_bytes (w : BitVec 16) : word16 (w.extractLsb' 8 8) (w.extractLsb' 0 8) = w := by
  apply BitVec.eq_of_getLsbD_eq
  intro i hi
  rw [word16, BitVec.getLsbD_append]
  simp only [BitVec.getLsbD_extractLsb']
  by_cases q : i < 8
  · simp [q]
  · have a : 8 + (i - 8) = i := by omega
    have b : i - 8 < 8 := by omega
    simp [q, a, b]

/-- The eight bytes of a header spell that header. -/
theorem FwdHeader.ofBytes_bytes (h : FwdHeader) : FwdHeader.ofBytes h.bytes = h := by
  simp [FwdHeader.bytes, bytes16, FwdHeader.ofBytes, word16_bytes]

/-- The frame row of a kind is the end of a frame of that kind; only a SYNC reads the time since its SOF. -/
theorem exec_frameRow (kind : Byte) (f : FwdFrame) (e : BitVec 32) (s : State) :
    exec (frameRow kind f e) s = s.frame kind f (if kind = 2 then e.toNat else 0) := by
  unfold frameRow
  by_cases k1 : kind = 1
  · subst k1; rfl
  by_cases k2 : kind = 2
  · subst k2; rfl
  by_cases k3 : kind = 3
  · subst k3; rfl
  by_cases k4 : kind = 4
  · subst k4; rfl
  by_cases k5 : kind = 5
  · subst k5; rfl
  simp only [k1, k2, k3, k4, k5, if_false]
  rfl

/-- A genuine frame is accepted: it arrives, and is handed to the block of its kind. -/
theorem Node.frameEnd_genuine {f : FwdFrame} {kind : Byte} (g : Genuine f kind) (n : Node) (e : Nat) :
    n.frameEnd (headerOf kind f) f.payload f.check e
      = (n.frameArrived f).handOff (headerOf kind f) f.payload f.check e
          (n.link.passage.matched.getD (n.fwd.matchesDest f.dest))
          (n.link.passage.enumNote.getD { fill := f.flags.getLsbD 0, address := n.fwd.address }) := by
  have le : ¬ Config.maxPayload < f.payload.length := by
    have := g.1
    simp only [Config.maxPayload]
    omega
  rw [Node.frameEnd, if_neg le, if_neg (fun q => q g.2), Node.acceptU_eq]
  rfl

end Sys2Proof.Machine
end

