-- ==== Sys2Proof/Laws/OutputSpec.lean ====
section
/-! SUPPORT. What each operation of the output engine on several groups does, once over: loads, stops, triggers,
    failsafe entry. -/

namespace Sys2Proof.Machine

-- One proof at a time: side by side, their threads' stacks pass the memory limit of a check.
set_option Elab.async false

/-- Two output engines that agree group by group, channel by channel and in CLIP are equal. -/
theorem Output.ext_of {o p : Output} (hg : ∀ g : Fin 4, o.groups[g] = p.groups[g]) (hc : ∀ c : Fin 16, o.chans[c] = p.chans[c])
    (hk : o.clip = p.clip) : o = p := by
  obtain ⟨og, oc, ok⟩ := o
  obtain ⟨pg, pc, pk⟩ := p
  have a : og = pg := by ext i hi : 1; exact hg ⟨i, hi⟩
  have b : oc = pc := by ext i hi : 1; exact hc ⟨i, hi⟩
  subst a; subst b
  have : ok = pk := hk
  subst this; rfl

/-- An operation on one group: the group and its members are changed, CLIP is set when a member clips. -/
structure GroupAction (act : Output → Fin 4 → Output) (G : Group → Group) (C : Group → Channel → Channel) (K : Group →
    Channel → Bool) :
    Prop where
  groups : ∀ (o : Output) (g h : Fin 4), (act o g).groups[h] = if h = g then G o.groups[g] else o.groups[h]
  chans : ∀ (o : Output) (g : Fin 4) (c : Fin 16), (act o g).chans[c] = if o.chans[c].group =
      g then C o.groups[g] o.chans[c] else o.chans[c]
  same : ∀ x ch, (C x ch).group = ch.group
  clip : ∀ o g, (act o g).clip = (o.clip || (List.finRange 16).any fun c => decide (o.chans[c].group =
      g) && K o.groups[g] o.chans[c])

/-- The operation on several groups at once. -/
def Output.together (o : Output) (named : Fin 4 → Bool) (G : Group → Group) (C : Group → Channel → Channel) (K : Group →
    Channel → Bool) : Output :=
  { groups := .ofFn fun g => if named g then G o.groups[g] else o.groups[g]
    chans := .ofFn fun c => if named o.chans[c].group then C o.groups[o.chans[c].group] o.chans[c] else o.chans[c]
    clip := o.clip || (List.finRange 16).any fun c => named o.chans[c].group && K o.groups[o.chans[c].group] o.chans[c] }

/-- One group after another, each once, is all of them together: an action reads only its own group and its members. -/
theorem GroupAction.foldl {act G C K} (L : GroupAction act G C K) : ∀ (l : List (Fin 4)), l.Nodup → ∀ o : Output,
    l.foldl act o = Output.together o (fun g => decide (g ∈ l)) G C K := by
  intro l
  induction l with
  | nil =>
    intro _ o
    apply Output.ext_of <;> simp [Output.together]
  | cons a l ih =>
    intro nd o
    rw [List.nodup_cons] at nd
    rw [List.foldl_cons, ih nd.2]
    have grp : ∀ c : Fin 16, ((act o a).chans[c]).group = o.chans[c].group := by
      intro c; rw [L.chans]; split
      · exact L.same _ _
      · rfl
    have gs : ∀ h : Fin 4, h ≠ a → (act o a).groups[h] = o.groups[h] := fun h ne => by rw [L.groups, if_neg ne]
    apply Output.ext_of
    · intro h
      simp only [Output.together, Fin.getElem_fin, Vector.getElem_ofFn]
      have e := L.groups o a h
      simp only [Fin.getElem_fin] at e
      simp only [e]
      by_cases q : h = a
      · subst q
        simp [nd.1]
      · simp [q]
    · intro c
      have e := L.chans o a c
      have gc := grp c
      simp only [Output.together, Fin.getElem_fin, Vector.getElem_ofFn] at e gc ⊢
      simp only [gc]
      by_cases q : o.chans[c.val].group = a
      · have : ¬ (o.chans[c.val].group ∈ l) := by rw [q]; exact nd.1
        simp only [e, q]
        simp
        exact fun h => absurd h nd.1
      · have g2 := gs _ q
        simp only [Fin.getElem_fin] at g2
        simp only [List.mem_cons, q, false_or, e, if_false, g2]
    · simp only [Output.together]
      rw [L.clip, Bool.or_assoc]
      congr 1
      rw [Bool.eq_iff_iff]
      simp only [Bool.or_eq_true, List.any_eq_true, List.mem_finRange, true_and, Bool.and_eq_true, decide_eq_true_eq,
          List.mem_cons]
      have pt : ∀ c : Fin 16, o.chans[c].group ≠ a → (act o a).groups[((act o a).chans[c]).group] =
          o.groups[o.chans[c].group] ∧ (act o a).chans[c] = o.chans[c] := by
        intro c ne
        have e := L.chans o a c
        rw [if_neg ne] at e
        refine ⟨?_, e⟩
        have := gs (o.chans[c].group) ne
        simp only [e]
        exact this
      constructor
      · rintro (⟨c, h1, h2⟩ | ⟨c, h1, h2⟩)
        · exact ⟨c, .inl h1, by simpa only [h1] using h2⟩
        · rw [grp c] at h1
          have ne : o.chans[c].group ≠ a := fun q => nd.1 (q ▸ h1)
          obtain ⟨p1, p2⟩ := pt c ne
          refine ⟨c, .inr h1, ?_⟩
          rw [p1, p2] at h2
          exact h2
      · rintro ⟨c, h1 | h1, h2⟩
        · exact .inl ⟨c, h1, by simpa only [h1] using h2⟩
        · have ne : o.chans[c].group ≠ a := fun q => nd.1 (q ▸ h1)
          obtain ⟨p1, p2⟩ := pt c ne
          refine .inr ⟨c, by rw [grp c]; exact h1, ?_⟩
          rw [p1, p2]
          exact h2

/-- A group after its load point (R135). -/
def Group.loaded (st : GroupState) (x : Group) : Group := { x with state := st, mark := false, active := x.staged, count := 0 }

/-- A load (R135) is an action on one group. -/
theorem Output.load_action (st : GroupState) : GroupAction (fun o g => o.load g st) (Group.loaded st) (fun x ch => ch.load
    x.staged.period)
    (fun x ch => ch.clips x.staged.period) where
  groups o g h := by
    simp only [Output.load, Group.loaded, Fin.getElem_fin]
    by_cases e : h = g
    · subst e; simp
    · have : g.val ≠ h.val := fun q => e (Fin.ext q.symm)
      simp [this, e]
  chans o g c := by
    simp [Output.load, Output.mapMembers]
  same x ch := rfl
  clip o g := by
    simp only [Output.load, Output.clipsAt]
    congr 1
    rw [Bool.eq_iff_iff]
    simp only [List.any_eq_true, List.mem_finRange, true_and, Bool.and_eq_true]
    constructor
    · rintro ⟨ch, h, k⟩
      obtain ⟨i, hi, e⟩ := List.mem_iff_getElem.1 h
      have hi' : i < 16 := by simpa using hi
      refine ⟨⟨i, hi'⟩, ?_⟩
      simp only [Vector.getElem_toList] at e
      simp only [Fin.getElem_fin, e]
      exact k
    · rintro ⟨c, k⟩
      exact ⟨o.chans[c], by simp, k⟩

/-- A group after a stop (R130). -/
def Group.stopped (x : Group) : Group :=
  if x.state = .idle then { x with mark := false } else { x with state := .idle, mark := false, count := 0, active := x.staged }

/-- Reading the groups after one was replaced. -/
theorem groups_set (o : Output) (g : Fin 4) (x : Group) (h : Fin 4) : (o.groups.set g x)[h] = if h = g then x
    else o.groups[h] := by
    by_cases e : h = g
    · subst e; simp
    · have : g.val ≠ h.val := fun q => e (Fin.ext q.symm)
      simp [this, e]

/-- CLIP stands when no member clips. -/
theorem clip_unchanged (o : Output) (g : Fin 4) : o.clip = (o.clip || (List.finRange 16).any fun c => decide
    (o.chans[c].group = g) && false) := by
  simp

/-- A stop (R130) is an action on one group. -/
theorem Output.stop_action : GroupAction Output.stop Group.stopped (fun x ch => if x.state = .idle then ch
    else ch.stopped) (fun _ _ => false) where
  groups o g h := by
    unfold Output.stop Group.stopped
    by_cases i : o.groups[g].state = .idle
    · simp only [i, if_true, Output.withGroup]; exact groups_set o g _ h
    · simp only [i, if_false, Output.withGroup, Output.mapMembers]; exact groups_set o g _ h
  chans o g c := by
    unfold Output.stop
    by_cases i : o.groups[g].state = .idle
    · simp only [i, if_true, Output.withGroup, ite_self]
    · simp only [i, if_false, Output.withGroup, Output.mapMembers]; simp
  same x ch := by split <;> rfl
  clip o g := by
    rw [← clip_unchanged]
    unfold Output.stop
    simp only []
    split <;> rfl

/-- Whether a trigger begins a sequence in the group (R131, R133). -/
def Group.begins (x : Group) : Bool := x.state = .armed || ((x.state = .delay || x.state = .pulse) && x.active.retrigger =
    .restart)

/-- A group after a trigger (R131, R133). -/
def Group.fired (x : Group) : Group :=
  if Group.begins x then
    if x.active.delay = 0 then Group.loaded .pulse x else { x with state := .delay, mark := false, count := 0 }
  else if (x.state = .delay || x.state = .pulse) && x.active.retrigger = .ignore then { x with missed := raiseMissed x.missed }
  else x

/-- A trigger begins a sequence, is missed and counted, or does nothing. -/
theorem Output.trigger_cases (o : Output) (g : Fin 4) : o.trigger g =
    if Group.begins o.groups[g] then o.beginSequence g
    else if (o.groups[g].state = .delay || o.groups[g].state = .pulse) && o.groups[g].active.retrigger = .ignore then
      o.withGroup g { o.groups[g] with missed := raiseMissed o.groups[g].missed }
    else o := by
  unfold Output.trigger Group.begins
  dsimp only
  cases h : o.groups[g].state <;> cases k : o.groups[g].active.retrigger <;> simp

/-- A trigger (R131, R133) is an action on one group. -/
theorem Output.trigger_action : GroupAction Output.trigger Group.fired
    (fun x ch => if Group.begins x && x.active.delay = 0 then ch.load x.staged.period else ch)
    (fun x ch => Group.begins x && x.active.delay = 0 && ch.clips x.staged.period) where
  groups o g h := by
    rw [Output.trigger_cases]
    unfold Group.fired
    by_cases b : Group.begins o.groups[g]
    · simp only [b, if_true]
      unfold Output.beginSequence
      dsimp only
      by_cases d : o.groups[g].active.delay = 0
      · rw [if_pos d, if_pos d]; exact (Output.load_action .pulse).groups o g h
      · rw [if_neg d, if_neg d]; exact groups_set o g _ h
    · simp only [b]
      by_cases d : ((decide (o.groups[g].state = .delay) || decide (o.groups[g].state =
          .pulse)) && decide (o.groups[g].active.retrigger = .ignore)) = true
      · simp only [d]; exact groups_set o g _ h
      · simp only [Bool.eq_false_iff.2 d]
        by_cases e : h = g
        · subst e; simp
        · simp [e]
  chans o g c := by
    rw [Output.trigger_cases]
    by_cases b : Group.begins o.groups[g]
    · simp only [b, if_true]
      unfold Output.beginSequence
      dsimp only
      by_cases d : o.groups[g].active.delay = 0
      · rw [if_pos d]
        simp only [d, Bool.true_and, decide_true, if_true]
        exact (Output.load_action .pulse).chans o g c
      · rw [if_neg d]; simp only [decide_eq_false d, Bool.and_false, Bool.false_eq_true, if_false, ite_self]; rfl
    · simp only [Bool.eq_false_iff.2 b, Bool.false_eq_true, if_false, Bool.false_and, ite_self]
      split <;> rfl
  same x ch := by split <;> rfl
  clip o g := by
    rw [Output.trigger_cases]
    by_cases b : Group.begins o.groups[g]
    · simp only [b, if_true]
      unfold Output.beginSequence
      dsimp only
      by_cases d : o.groups[g].active.delay = 0
      · rw [if_pos d]
        simp only [d, Bool.true_and, decide_true]
        exact (Output.load_action .pulse).clip o g
      · rw [if_neg d]; simp [Output.withGroup]; intro x _ e; exact absurd e d
    · simp only [Bool.eq_false_iff.2 b, Bool.false_eq_true, if_false, Bool.false_and]
      rw [← clip_unchanged]
      split <;> rfl

theorem extract_low_bit (b : Byte) (g : Fin 4) : (b.extractLsb' 0 4).getLsbD g.val = b.getLsbD g.val := by
  have : ∀ (b : Byte) (g : Fin 4), (b.extractLsb' 0 4).getLsbD g.val = b.getLsbD g.val := by decide +kernel
  exact this b g

theorem mem_groupsNamed (m : BitVec 4) (g : Fin 4) : (g ∈ groupsNamed m) ↔ m.getLsbD g.val = true := by
  unfold groupsNamed
  rw [List.mem_filter]
  have : ∀ g : Fin 4, g ∈ [(0 : Fin 4), 1, 2, 3] := by decide
  exact ⟨fun h => h.2, fun h => ⟨this g, h⟩⟩

theorem nodup_groupsNamed (m : BitVec 4) : (groupsNamed m).Nodup := List.Nodup.filter _ (by decide)

/-- An action on every group of a set, in order, is the action on all of them together. -/
theorem GroupAction.foldl_named {act G C K} (L : GroupAction act G C K) (m : BitVec 4) (o : Output) :
    (groupsNamed m).foldl act o = Output.together o (fun g => m.getLsbD g.val) G C K := by
  rw [L.foldl _ (nodup_groupsNamed m)]
  congr 1
  funext g
  rw [Bool.eq_iff_iff, decide_eq_true_eq, mem_groupsNamed]

/-- Stops of several groups, as the claims write them. -/
theorem together_eq_stops (o : Output) (named : Fin 4 → Bool) :
    Output.together o named Group.stopped (fun x ch => if x.state = .idle then ch else ch.stopped) (fun _ _ => false) =
        o.stops named := by
  apply Output.ext_of
  · intro g
    simp only [Output.together, Output.stops, Group.stopped, Fin.getElem_fin, Vector.getElem_ofFn]
    cases named ⟨g.val, g.isLt⟩ <;> simp
  · intro c
    simp only [Output.together, Output.stops, Fin.getElem_fin, Vector.getElem_ofFn, Channel.stopped]
    cases h : named o.chans[c.val].group
    · simp
    · by_cases i : o.groups[o.chans[c.val].group.val].state = .idle <;> simp [i]
  · simp [Output.together, Output.stops]

/-- Loads of several groups, as the claims write them. -/
theorem together_eq_loads (o : Output) (named : Fin 4 → Bool) (st : Fin 4 → GroupState) (into : Fin 4 → Option GroupState)
    (G : Group → Group) (C : Group → Channel → Channel) (K : Group → Channel → Bool)
    (h1 : ∀ g, named g = true → into g = some (st g) ∧ G o.groups[g] = Group.loaded (st g) o.groups[g])
    (h2 : ∀ g, named g = false → into g = none)
    (h3 : ∀ g ch, named g = true → C o.groups[g] ch = ch.load o.groups[g].staged.period)
    (h4 : ∀ g ch, named g = true → K o.groups[g] ch = ch.clips o.groups[g].staged.period) :
    Output.together o named G C K = o.loads into := by
  apply Output.ext_of
  · intro g
    simp only [Output.together, Output.loads, Fin.getElem_fin, Vector.getElem_ofFn]
    cases h : named g
    · simp [h2 g h]
    · have := h1 g h
      simp only [Fin.getElem_fin] at this
      simp [this, Group.loaded]
  · intro c
    simp only [Output.together, Output.loads, Fin.getElem_fin, Vector.getElem_ofFn]
    cases h : named o.chans[c.val].group
    · simp [h2 _ h]
    · have a := h1 _ h
      have b := h3 _ o.chans[c.val] h
      simp only [Fin.getElem_fin] at a b
      simp only [a.1, if_true, b]
      rfl
  · simp only [Output.together, Output.loads]
    congr 2
    funext c
    cases h : named o.chans[c].group
    · simp only [h2 _ h]; rfl
    · have a := h1 _ h
      have b := h4 _ o.chans[c] h
      simp only [a.1, b]
      rfl

theorem raiseMissed_eq (m : Byte) : raiseMissed m = if m = 255 then 255 else m + 1 := by
  unfold raiseMissed
  split
  · rename_i h; exact h
  · rfl

theorem ite_ite_and (nm : Bool) (b d : Bool) {a c : Channel} : (if nm = true then (if (b && d) = true then a else c)
    else c) = if (nm && b && d) = true then a else c := by
  cases nm <;> simp

theorem Group.fired_eq (nm : Bool) (x : Group) :
    (if nm = true then Group.fired x else x) =
    if (nm && Group.begins x && decide (x.active.delay ≠ 0)) = true then { x with state := .delay, mark := false, count := 0 }
    else if (nm && (decide (x.state = .delay) || decide (x.state = .pulse)) && decide (x.active.retrigger = .ignore)) =
        true then
      { x with missed := if x.missed = 255 then 255 else x.missed + 1 }
    else if (nm && Group.begins x && decide (x.active.delay = 0)) = true then Group.loaded .pulse x else x := by
  cases nm
  · simp
  · unfold Group.fired
    by_cases hb : Group.begins x = true
    · rw [if_pos rfl, if_pos hb]
      simp only [hb, Bool.true_and]
      by_cases hd : x.active.delay = 0
      · have ni : ¬ (((decide (x.state = .delay) || decide (x.state = .pulse)) && decide (x.active.retrigger = .ignore)) =
            true) := by
          intro q
          rw [Bool.and_eq_true, decide_eq_true_eq] at q
          unfold Group.begins at hb
          rw [q.2] at hb
          have := q.1
          cases h : x.state <;> rw [h] at this hb <;> simp at this hb
        rw [if_pos hd, if_neg (by simp [hd]), if_neg ni, if_pos (by simp [hd])]
      · rw [if_neg hd, if_pos (by simpa using hd)]
    · rw [if_pos rfl, if_neg hb]
      simp only [Bool.eq_false_iff.2 hb, Bool.true_and, Bool.and_false, Bool.false_and, Bool.false_eq_true, if_false,
          raiseMissed_eq]

/-- Triggers of several groups, as the claims write them. -/
theorem together_eq_fires (o : Output) (named : Fin 4 → Bool) :
    Output.together o named Group.fired (fun x ch => if Group.begins x && x.active.delay =
        0 then ch.load x.staged.period else ch)
    (fun x ch => Group.begins x && x.active.delay = 0 && ch.clips x.staged.period) = o.fires named := by
  have e := together_eq_loads o (fun g => named g && Group.begins o.groups[g] && o.groups[g].active.delay = 0) (fun _ => .pulse)
    (fun g => if named g && Group.begins o.groups[g] && o.groups[g].active.delay = 0 then some .pulse else none)
    (Group.loaded .pulse) (fun x ch => ch.load x.staged.period) (fun x ch => ch.clips x.staged.period)
    (fun g h => ⟨by rw [if_pos h], rfl⟩) (fun g h => by rw [h]; rfl) (fun _ _ _ => rfl) (fun _ _ _ => rfl)
  have bb : ∀ g : Fin 4, (named g && (decide (o.groups[g].state = .armed) || ((decide (o.groups[g].state =
      .delay) || decide (o.groups[g].state = .pulse)) && decide (o.groups[g].active.retrigger = .restart)))) =
      (named g && Group.begins o.groups[g]) := fun g => rfl
  unfold Output.fires
  simp only [bb]
  have eg : ∀ g : Fin 4, (o.loads fun g => if named g && Group.begins o.groups[g] && o.groups[g].active.delay =
      0 then some .pulse else none).groups[g]
      = if named g && Group.begins o.groups[g] && o.groups[g].active.delay = 0 then Group.loaded .pulse o.groups[g]
          else o.groups[g] := by
    intro g; rw [← e]; simp [Output.together]
  have ec : ∀ c : Fin 16, (o.loads fun g => if named g && Group.begins o.groups[g] && o.groups[g].active.delay =
      0 then some .pulse else none).chans[c]
      = if named o.chans[c].group && Group.begins o.groups[o.chans[c].group] && o.groups[o.chans[c].group].active.delay =
          0 then o.chans[c].load o.groups[o.chans[c].group].staged.period else o.chans[c] := by
    intro c; rw [← e]; simp [Output.together]
  have ek := congrArg Output.clip e
  apply Output.ext_of
  · intro g
    have eg := eg g
    simp only [Output.together, Fin.getElem_fin, Vector.getElem_ofFn] at eg ⊢
    simp only [eg]
    exact Group.fired_eq _ _
  · intro c
    have ec := ec c
    simp only [Output.together, Fin.getElem_fin, Vector.getElem_ofFn] at ec ⊢
    rw [ec]
    exact ite_ite_and _ _ _
  · rw [← ek]
    simp only [Output.together]
    congr 2
    funext c
    cases named o.chans[c].group <;> simp

/-- An action on one group is the action on that group alone. -/
theorem GroupAction.single {act G C K} (L : GroupAction act G C K) (o : Output) (g : Fin 4) :
    act o g = Output.together o (fun h => decide (h = g)) G C K := by
  have := L.foldl [g] (by simp) o
  simpa using this

/-- The load of one group, as the claims write it. -/
theorem Output.load_eq_loads (o : Output) (g : Fin 4) (st : GroupState) : o.load g st = o.loads fun h => if h =
    g then some st else none := by
  rw [GroupAction.single (Output.load_action st) o g]
  exact together_eq_loads o _ (fun _ => st) _ _ _ _ (fun h e => ⟨by simp at e; simp [e],
      rfl⟩) (fun h e => by simp at e; simp [e]) (fun _ _ _ => rfl) (fun _ _ _ => rfl)

/-- STOP of every group named (R130). -/
theorem Output.stop_groupsNamed (m : BitVec 4) (o : Output) : (groupsNamed m).foldl Output.stop o =
    o.stops fun g => m.getLsbD g.val := by
  rw [GroupAction.foldl_named Output.stop_action, together_eq_stops]

/-- FIRE of every group named (R133). -/
theorem Output.trigger_groupsNamed (m : BitVec 4) (o : Output) : (groupsNamed m).foldl Output.trigger o =
    o.fires fun g => m.getLsbD g.val := by
  rw [GroupAction.foldl_named Output.trigger_action, together_eq_fires]

/-- A START (R118, R130) is an action on one group: an IDLE group is marked. -/
theorem Output.markStart_action :
    GroupAction Output.markStart (fun x => if x.state = .idle then { x with mark := true } else x) (fun _ ch => ch)
      (fun _ _ => false) where
  groups o g h := by
    unfold Output.markStart
    by_cases i : o.groups[g].state = .idle
    · simp only [i, if_true, Output.withGroup]; exact groups_set o g _ h
    · simp only [i, if_false]; split <;> simp_all
  chans o g c := by
    unfold Output.markStart
    simp only [ite_self]
    split <;> rfl
  same _ _ := rfl
  clip o g := by
    rw [← clip_unchanged]
    unfold Output.markStart
    dsimp only
    split <;> rfl

/-- The low four bits of a target set name the groups (R113). -/
theorem low_target (m : BitVec 16) (g : Fin 4) : (m.extractLsb' 0 4).getLsbD g.val = m.getLsbD g.val := by
  simp [g.isLt]

/-- One cue does what R117 and R118 say. -/
theorem Output.runCue_eq (o : Output) (inFailsafe : Bool) (e : CueEntry) : o.runCue inFailsafe e = o.acts inFailsafe e := by
  unfold Output.runCue Output.acts
  cases e.action
  · dsimp only
    unfold Output.offer offerRefused
    cases inFailsafe
    · simp only [Bool.false_and, Bool.false_eq_true, if_false]
      refine congrArg (fun v => ({ o with chans := v } : Output)) ?_
      ext c hc : 1
      simp only [Vector.getElem_mapIdx, Vector.getElem_ofFn, Vector.getElem?_toList, levelsFor, Fin.getElem_fin]
      rw [Vector.getElem?_eq_getElem hc]
      by_cases b : e.targets.getLsbD c
      · simp [b, Channel.take]
      · simp [b]
    · simp
  · dsimp only
    rw [GroupAction.foldl_named Output.markStart_action]
    apply Output.ext_of
    · intro g
      simp only [Output.together, low_target, Fin.getElem_fin, Vector.getElem_ofFn]
      cases e.targets.getLsbD g.val <;> simp
    · intro c
      simp [Output.together]
    · simp [Output.together]
  · simp only [Output.stop_groupsNamed, low_target]
  · simp only [Output.trigger_groupsNamed, low_target]

/-- Cues act one after another (R115, R118). -/
theorem Output.runCues_eq (o : Output) (inFailsafe : Bool) (es : List CueEntry) :
    o.runCues inFailsafe es = es.foldl (fun o e => o.acts inFailsafe e) o := by
  simp only [Output.runCues, Output.runCue_eq]

theorem Group.failsafe_eq (x : Group) :
    (if x.state = .running then Group.loaded .running x else if x.state = .idle then x else Group.stopped x) =
    (let y := if decide (x.state = .running) = true then Group.loaded .running x else x
     if (!(x.state = .armed || x.state = .delay || x.state = .pulse)) = true then y
     else if y.state = .idle then { y with mark := false }
     else { y with state := .idle, mark := false, count := 0, active := y.staged }) := by
  unfold Group.stopped
  cases hs : x.state <;> simp [hs]

/-- Failsafe entry (R143) loads every RUNNING group and stops every group in ARMED, DELAY or PULSE. -/
theorem Output.failsafeGroup_all (o : Output) : allGroups.foldl Output.failsafeGroup o =
    (o.loads fun g => if o.groups[g].state = .running then some .running else none).stops
      fun g => o.groups[g].state = .armed || o.groups[g].state = .delay || o.groups[g].state = .pulse := by
  have L : GroupAction Output.failsafeGroup (fun x => if x.state = .running then Group.loaded .running x else if x.state =
      .idle then x else Group.stopped x)
      (fun x ch => if x.state = .running then ch.load x.staged.period else if x.state = .idle then ch else ch.stopped)
      (fun x ch => decide (x.state = .running) && ch.clips x.staged.period) := by
    refine ⟨?_, ?_, ?_, ?_⟩
    · intro o g h
      unfold Output.failsafeGroup
      cases hs : o.groups[g].state
      · by_cases e : h = g
        · subst e; simp
        · simp [e]
      · dsimp only; rw [(Output.load_action .running).groups o g h]; simp only [if_true]
      all_goals dsimp only; rw [Output.stop_action.groups o g h]; simp only [reduceCtorEq, if_false]
    · intro o g c
      unfold Output.failsafeGroup
      cases hs : o.groups[g].state
      · simp
      · dsimp only; rw [(Output.load_action .running).chans o g c]; simp only [if_true]
      all_goals dsimp only; rw [Output.stop_action.chans o g c]; simp only [hs, reduceCtorEq, if_false]
    · intro x ch; split
      · rfl
      · split <;> rfl
    · intro o g
      unfold Output.failsafeGroup
      cases hs : o.groups[g].state
      · dsimp only; simp only [reduceCtorEq, decide_false, Bool.false_and]; exact clip_unchanged o g
      · dsimp only; rw [(Output.load_action .running).clip o g]; simp only [decide_true, Bool.true_and]
      all_goals dsimp only; rw [Output.stop_action.clip o g]; simp only [reduceCtorEq, decide_false, Bool.false_and]
  rw [L.foldl _ (by decide) o]
  have al : (fun g : Fin 4 => decide (g ∈ allGroups)) = fun _ => true := by funext g; revert g; decide
  rw [al]
  have e := together_eq_loads o (fun g => decide (o.groups[g].state = .running)) (fun _ => .running)
    (fun g => if o.groups[g].state = .running then some .running else none)
    (Group.loaded .running) (fun x ch => ch.load x.staged.period) (fun x ch => ch.clips x.staged.period)
    (fun g h => ⟨by rw [if_pos (by simpa using h)], rfl⟩) (fun g h => by rw [if_neg (by simpa using h)]) (fun _ _ _ => rfl)
        (fun _ _ _ => rfl)
  have eg : ∀ g : Fin 4, (o.loads fun g => if o.groups[g].state = .running then some .running else none).groups[g] =
      if decide (o.groups[g].state = .running) = true then Group.loaded .running o.groups[g] else o.groups[g] := by
    intro g; rw [← e]; simp [Output.together]
  have ec : ∀ c : Fin 16, (o.loads fun g => if o.groups[g].state = .running then some .running else none).chans[c] =
      if decide (o.groups[o.chans[c].group].state = .running) = true then o.chans[c].load
      o.groups[o.chans[c].group].staged.period else o.chans[c] := by
    intro c; rw [← e]; simp [Output.together]
  have ek := congrArg Output.clip e
  generalize o.loads (fun g => if o.groups[g].state = .running then some .running else none) = p at eg ec ek
  apply Output.ext_of
  · intro g
    have eg := eg g
    simp only [Output.together, Output.stops, Fin.getElem_fin, Vector.getElem_ofFn] at eg ⊢
    simp only [eg]
    exact Group.failsafe_eq _
  · intro c
    have ec := ec c
    have gg : p.chans[c].group = o.chans[c].group := by rw [ec]; split <;> rfl
    have eg := eg (o.chans[c].group)
    have e1 : p.groups[p.chans[c].group] = p.groups[o.chans[c].group] := by simp only [gg]
    have : ((p.stops fun g => o.groups[g].state = .armed || o.groups[g].state = .delay || o.groups[g].state =
        .pulse).chans[c]) =
      if ((o.groups[p.chans[c].group].state = .armed || o.groups[p.chans[c].group].state =
          .delay || o.groups[p.chans[c].group].state = .pulse) && p.groups[p.chans[c].group].state ≠ .idle) = true then
        { p.chans[c] with compare := 0, activeOffset := p.chans[c].stagedOffset } else p.chans[c] := by
      simp only [Output.stops, Fin.getElem_fin, Vector.getElem_ofFn]
    rw [this, e1, eg]
    have e2 : o.groups[p.chans[c].group] = o.groups[o.chans[c].group] := by simp only [gg]
    rw [e2, ec]
    simp only [Output.together, Fin.getElem_fin, Vector.getElem_ofFn]
    cases hs : o.groups[o.chans[c.val].group.val].state <;> simp [hs, Group.loaded, Channel.stopped]
  · simp only [Output.stops]
    rw [← ek]
    simp only [Output.together]
    congr 2

end Sys2Proof.Machine
end

