-- ==== Sys2Proof/Laws/State.lean ====
section
/-! SUPPORT. Each field of the machine under each of its updates, and what the shared operations over it answer. -/

namespace Sys2Proof.Machine

-- One proof at a time: side by side, their threads' stacks pass the memory limit of a check.
set_option Elab.async false

/-! ## Fields under updates -/

@[simp] theorem State.withNode_node (s : State) (n : Node) : (s.withNode n).node = n := rfl
@[simp] theorem State.withNode_pending (s : State) (n : Node) : (s.withNode n).pending = s.pending := rfl
@[simp] theorem State.withNode_self (s : State) : s.withNode s.node = s := rfl
@[simp] theorem State.withNode_withNode (s : State) (n m : Node) : (s.withNode n).withNode m = s.withNode m := rfl

@[simp] theorem State.withResult_shown (s : State) (n : Node) (op : Byte) (st : Status) (d : List Byte) :
    (s.withResult n op st d).node.shown = some { opcode := op, status := st, data := d } := rfl
@[simp] theorem State.withResult_pending (s : State) (n : Node) (op : Byte) (st : Status) (d : List Byte) :
    (s.withResult n op st d).pending = s.pending := rfl
@[simp] theorem State.withResult_link (s : State) (n : Node) (op : Byte) (st : Status) (d : List Byte) :
    (s.withResult n op st d).node.link = n.link := rfl
@[simp] theorem State.withResult_fwd (s : State) (n : Node) (op : Byte) (st : Status) (d : List Byte) :
    (s.withResult n op st d).node.fwd = n.fwd := rfl
@[simp] theorem State.withResult_cmd (s : State) (n : Node) (op : Byte) (st : Status) (d : List Byte) :
    (s.withResult n op st d).node.cmd = n.cmd := rfl
@[simp] theorem State.withResult_tables (s : State) (n : Node) (op : Byte) (st : Status) (d : List Byte) :
    (s.withResult n op st d).node.tables = n.tables := rfl
@[simp] theorem State.withResult_value (s : State) (n : Node) (op : Byte) (st : Status) (d : List Byte) :
    (s.withResult n op st d).node.value = n.value := rfl
@[simp] theorem State.withResult_sched (s : State) (n : Node) (op : Byte) (st : Status) (d : List Byte) :
    (s.withResult n op st d).node.sched = n.sched := rfl
@[simp] theorem State.withResult_out (s : State) (n : Node) (op : Byte) (st : Status) (d : List Byte) :
    (s.withResult n op st d).node.out = n.out := rfl
@[simp] theorem State.withResult_sense (s : State) (n : Node) (op : Byte) (st : Status) (d : List Byte) :
    (s.withResult n op st d).node.sense = n.sense := rfl
@[simp] theorem State.withResult_ret (s : State) (n : Node) (op : Byte) (st : Status) (d : List Byte) :
    (s.withResult n op st d).node.ret = n.ret := rfl
@[simp] theorem State.withResult_sup (s : State) (n : Node) (op : Byte) (st : Status) (d : List Byte) :
    (s.withResult n op st d).node.sup = n.sup := rfl
@[simp] theorem State.withResult_clock (s : State) (n : Node) (op : Byte) (st : Status) (d : List Byte) :
    (s.withResult n op st d).node.clock = n.clock := rfl
@[simp] theorem State.withResult_choice (s : State) (n : Node) (op : Byte) (st : Status) (d : List Byte) :
    (s.withResult n op st d).node.choice = n.choice := rfl

/-! ## The shared operations -/

theorem State.act_eq (s : State) (f : Node → Node) : s.act f = .next (s.withNode (f s.node)) := rfl

/-- With RESETN high a command changes the node. -/
theorem State.awake_on {s : State} (h : s.On) (f : Node → Node) : s.awake f = .next (s.withNode (f s.node)) := by
  simp [State.awake, State.act, h]

/-- With RESETN low it changes nothing (R22). -/
theorem State.awake_low {s : State} (h : s.node.link.resetLow = true) (f : Node → Node) : s.awake f = .next s := by
  simp [State.awake, State.act, h]

/-- A command record on its own (log entry 7). -/
theorem State.single_on {s : State} (h : s.On) (c : Command) (p : List Byte) :
    s.single c p = .next (s.withResult ((runCommand c p s.node).node.applyReset (runCommand c p s.node).reset) c.opcode
      (runCommand c p s.node).reply.status (runCommand c p s.node).reply.data) := State.awake_on h _

/-- A frame that ends on the U forward lane. -/
theorem State.frame_on {s : State} (h : s.On) (kind : Byte) (f : FwdFrame) (e : Nat) :
    s.frame kind f e = .next (s.withNode (s.node.frameEnd (headerOf kind f) f.payload f.check e)) := State.awake_on h _

/-- With RESETN low every command but the power and pin resets changes nothing (R22, log entry 15). -/
theorem exec_low {c : Instr} {s : State} (h : s.node.link.resetLow = true) (h1 : ∀ p, c ≠ .powerOn p) (h2 : c ≠ .resetnFall)
    (h3 : ∀ p, c ≠ .resetnRelease p) : exec c s = .next s := by
  obtain ⟨node, pending⟩ := s
  obtain ⟨link, _, _, _, _, _, _, _, _, _, _, _, _⟩ := node
  obtain ⟨_, _, _, _, _, _, _, _, _, _, _⟩ := link
  cases h
  cases c
  case powerOn p => exact absurd rfl (h1 p)
  case resetnFall => exact absurd rfl h2
  case resetnRelease p => exact absurd rfl (h3 p)
  all_goals rfl

/-- What a step does: the front command's execution, or one clock period (log entry 1). -/
theorem step_pending (s : State) (c : Instr) (rest : List Instr) (h : s.pending = c :: rest) :
    step s = exec c { s with pending := rest } := by
  simp [step, h]

theorem step_idle (s : State) (h : s.pending = []) : step s = .next (s.withNode s.node.clockPeriod) := by
  simp [step, h, State.act]

end Sys2Proof.Machine
end

