-- ==== Sys2Proof/Tests/Slice0.lean ====
section
/-! SUPPORT. Tests. Each takes one command on a small state and checks what the spec's own examples, tables and sums give;
each `witness_…` shows a state and operands that meet all the hypotheses of the statement it is named after, a clause at a
time where the statement has clauses of its own. -/

namespace Sys2Proof.Tests

open Sys2Proof.Machine

-- One proof at a time: side by side, their threads' stacks pass the memory limit of a check.
set_option Elab.async false

/-! ## Small states -/

def base : Node := State.reset.node

/-- The state with a node and nothing waiting. -/
def at_ (n : Node) : State := { node := n, pending := [] }

/-- The node after one command. -/
def after (c : Instr) (n : Node) : Node :=
  match exec c (at_ n) with
  | .next t => t.node
  | .fault x => nomatch x
  | .refused _ => n

/-- The node after one step on an empty queue. -/
def tickOnce (n : Node) : Node :=
  match step (at_ n) with
  | .next t => t.node
  | .fault x => nomatch x
  | .refused _ => n

/-- Opcode-less view of the result that a command record yields. -/
def replied (c : Instr) (n : Node) : Option (Status × List Nat) :=
  (after c n).shown.map fun r => (r.status, r.data.map BitVec.toNat)

/-- A forward frame with flags 0 and a right check value. -/
def frame (kind : Byte) (dest : BitVec 16) (seq hop : Byte) (payload : List Byte) : FwdFrame :=
  let f : FwdFrame := { flags := 0, dest := dest, seq := seq, hop := hop, payload := payload, check := 0 }
  { f with check := checkValue ((headerOf kind f).bytes ++ f.payload) }

/-- The local chain time of `t` ticks and `u` sub-ticks. -/
def timed (n : Node) (t u : Nat) : Node :=
  { n with sched := { n.sched with tick := BitVec.ofNat 32 t, sub := byteOf u, time := .valid } }

def withQueue (n : Node) (q : List CueEntry) : Node := { n with sched := { n.sched with queue := q } }

def withGroup (n : Node) (g : Fin 4) (x : Group) : Node := { n with out := n.out.withGroup g x }

def withChannel (n : Node) (c : Fin 16) (x : Channel) : Node := { n with out := n.out.withChannel c x }

def withInput (n : Node) (i : Fin 4) (x : Input) : Node :=
  { n with sense := { n.sense with inputs := n.sense.inputs.set i x } }

def inState (n : Node) (state : SupState) : Node := { n with sup := { n.sup with state := state } }

def withAddress (n : Node) (a : BitVec 10) (gs : List Byte) : Node :=
  { n with fwd := { n.fwd with address := a, groups := gs } }

def withSession (n : Node) (x : Session) : Node := { n with tables := { n.tables with session := x } }

def lockedU (n : Node) (r : Reception) (p : Passage) : Node :=
  { n with link := { n.link with uLane := .locked 0, uRec := r, passage := p } }

def bytesOf (xs : List Nat) : List Byte := xs.map byteOf

/-! ## Link ports (chapter 1) -/

/-- The check value of the digits 1 to 9 (R190). -/
theorem test_check_value_of_the_digits :
    checkValue [0x31, 0x32, 0x33, 0x34, 0x35, 0x36, 0x37, 0x38, 0x39] = 0x29B1 := by decide +kernel

/-- Table 1-1: 100h IDLE, 101h SOF, 102h EOF, 103h EOA; another ninth-bit value, or a low stop bit, is a code error. -/
theorem test_characters :
    classify 0x100 true = .idle ∧ classify 0x101 true = .sof ∧ classify 0x102 true = .eof ∧ classify 0x103 true = .eoa
      ∧ classify 0x104 true = .codeError ∧ classify 0x055 true = .data 0x55 ∧ classify 0x055 false = .codeError := by
  decide +kernel

/-- R6: the sixteenth valid character locks the lane. -/
theorem test_sixteenth_character_locks :
    (after (.characterReceived .d 0x100 true) { base with link := { base.link with dLane := .silent 15 } }).link.dLane
      = .locked 0 := by decide +kernel

/-- Section 1.10.1, character 9: the header of a DATA frame with hop 3 and length 20 is complete; the copy's SOF and eight
header bytes, with hop 4, stand in the buffer. -/
def headerSeven : Node :=
  lockedU base { Reception.outside with phase := .header, hdr := [0x01, 0, 0xC0, 0, 7, 3, 0] } .outside

theorem test_copy_begins_at_the_header :
    let n := after (.characterReceived .u 20 true) headerSeven
    n.link.order = .sof :: [0x01, 0, 0xC0, 0, 7, 4, 0, 20].map FwdItem.data ∧ n.link.passage.copy = .opened
      ∧ n.link.passage.disposition = some .pass ∧ n.link.uRec.phase = .body := by decide +kernel

/-- Section 1.10.1, character 32: the check values differ; EOA is placed and forward check errors goes from 0 to 1. -/
theorem test_late_check_error :
    let m := { base with link := { base.link with passage := { Passage.outside with copy := .opened } } }
    let n := after (.dataFrame { frame 0x01 0x8000 7 3 [1, 2] with check := 0 }) m
    n.link.order = [.eoa] ∧ n.fwd.checkErrors = 1 ∧ n.fwd.position = 0 := by decide +kernel

/-- R18: the transmitter finds nothing of an OPEN copy. -/
def starved : Node :=
  { base with
    link := { base.link with
      passage := { Passage.outside with copy := .opened }
      fwdTx := { state := .sending, current := .item (.data 5) } } }

theorem test_underrun :
    let n := after .underrun starved
    n.link.fwdTx.current = .item .eoa ∧ n.link.passage.copy = .closed ∧ n.fwd.overruns = 1 := by decide +kernel

/-- R7, R11: a frame cut off, its lane falling SILENT. -/
theorem test_lane_silence :
    let n := after (.laneSilenceTimeout .u) (lockedU base Reception.opened .outside)
    n.link.uLane = .silent 0 ∧ n.fwd.aborts = 1 ∧ n.link.uRec = .outside := by decide +kernel

/-- R22: after the falling edge of RESETN no event is taken. -/
theorem test_resetn_low :
    let n := after .resetnFall starved
    n.link.fwdTx.state = .held ∧ n.link.retTx.state = .held ∧ after (.identify []) n = n := by decide +kernel

/-- R5, R22: the release samples the RATE pins. -/
theorem test_release :
    let n := after (.resetnRelease 2) (after .resetnFall starved)
    n.link.rate = 2 ∧ n.link.resetLow = false ∧ n.fwd = base.fwd ∧ (after (.powerOn 3) starved).link.rate = 3 := by
  decide +kernel

/-- Section 6.8.1: node A's held SYNC leaves one character time, 3 ticks and 176 sub-ticks, after acceptance, with 320
sub-ticks of line delay: its field is 5,000,063 ticks and 160 sub-ticks. -/
def holding : Node :=
  let n := timed base 5000062 96
  { n with
    sched := { n.sched with lineDelay := 320 }
    link := { n.link with
      order := [.syncPlace]
      store := some { hdr := FwdHeader.ofBytes [0x02, 0, 0x80, 0, 1, 2, 0, 5], time := 0, check := 0 } } }

theorem test_held_sync_is_timed_at_its_sof :
    ((after .heldSyncSofSent holding).link.store.map fun h => (h.time.toNat / 256, h.time.toNat % 256))
      = some (5000063, 160) := by decide +kernel

/-- Section 1.10.2, characters 34 and 35: the held SYNC's EOF has gone out, the store is empty, the DATA copy's SOF follows. -/
theorem test_held_sync_sent :
    let m := { holding with
      link := { holding.link with
        order := [.syncPlace, .sof, .data 1]
        fwdTx := { state := .sending, current := .store 16 } } }
    let n := after .heldSyncSent m
    n.link.store = none ∧ n.link.order = [.data 1] ∧ n.link.fwdTx.current = .item .sof
      ∧ after .forwardTransmitterCharacter m = n := by decide +kernel

/-! ## Frame handling and addressing (chapter 2) -/

def next2 (hi lo : Nat) : FwdFrame := frame 0x05 0x8000 0 1 (bytesOf [hi, lo])

/-- Section 2.8.1: node A takes 1; position 1. Table 2-3: next-address 1024 sets ENUMERATION OVERRUN. -/
theorem test_enumerate :
    (after (.enumerateFrame (next2 0 1)) base).fwd.address = 1 ∧ (after (.enumerateFrame (next2 0 1)) base).fwd.position = 1
      ∧ (after (.enumerateFrame (next2 4 0)) base).fwd = { base.fwd with position := 1, enumOverrun := true } := by
  decide +kernel

/-- Section 2.8.1: the outgoing next-address at A is 2 for 1 received. Section 2.8.2: with FILL at A, which has address 1,
it is 2 for 2 received. -/
theorem test_next_address :
    let m (fill : Bool) (a : BitVec 10) := lockedU base
      { Reception.opened with phase := .body, hdr := (headerOf 0x05 (next2 0 0)).bytes, count := 1 }
      { Passage.outside with copy := .opened, enumNote := some { fill := fill, address := a }, heldByte := some 0 }
    (after (.characterReceived .u 1 true) (m false 0)).link.order = [.data 0, .data 2]
      ∧ (after (.characterReceived .u 2 true) (m true 1)).link.order = [.data 0, .data 2] := by decide +kernel

/-- R25: a frame of unknown kind only sets the position. -/
theorem test_unknown_kind :
    after (.unknownKindFrame 0x81 (frame 0x81 0x8000 0 9 [1])) base = { base with fwd := { base.fwd with position := 9 } } := by
  decide +kernel

/-- Section 2.8.4: six SET GROUPS records at node 7 with the group set 10, 20, in one answered frame. -/
theorem test_set_groups_frame :
    let p := [4, 2, 1, 30, 4, 2, 1, 20, 4, 2, 1, 40, 4, 2, 1, 50, 4, 2, 2, 60, 4, 2, 1, 0]
    let n := after (.manageFrame (frame 0x03 7 0 1 (bytesOf p))) (withAddress base 7 [10, 20])
    n.fwd.groups = [10, 20, 30, 40] ∧ (n.ret.localQ.map fun e => (e.frame.count.toNat, e.frame.payload)) = [(6, bytesOf
      [4, 0, 4, 3, 10, 20, 30, 4, 0, 4, 3, 10, 20, 30, 4, 0, 5, 4, 10, 20, 30, 40, 4, 7, 5, 4, 10, 20, 30, 40,
       4, 11, 5, 4, 10, 20, 30, 40, 4, 3, 5, 4, 10, 20, 30, 40])] := by decide +kernel

theorem test_set_groups :
    replied .setGroupsQuery (withAddress base 7 [10, 20]) = some (.ok, [2, 10, 20])
      ∧ replied (.setGroupsAdd [5]) (withAddress base 7 [10, 20]) = some (.ok, [3, 5, 10, 20])
      ∧ replied (.setGroupsRemove [10]) (withAddress base 7 [10, 20]) = some (.ok, [1, 20])
      ∧ replied (.setGroupsClear []) (withAddress base 7 [10, 20]) = some (.ok, [0]) := by decide +kernel

/-! ## Management frames and common commands (chapter 3) -/

/-- Section 3.10.1: twelve records, of which the last is cut off: count 11, length 240, TRUNCATED, and no reset. -/
theorem test_response_fills :
    let p := [1, 0, 2, 0, 2, 0, 2, 0, 2, 0, 2, 0, 2, 0, 2, 0, 4, 0, 1, 0, 3, 1, 1, 2, 0]
    let n := after (.manageFrame (frame 0x03 12 0 1 (bytesOf p))) (withAddress base 12 [10])
    (n.ret.localQ.map fun e => (e.frame.count.toNat, e.frame.payload.length, e.frame.flags.toNat)) = [(11, 240, 1)]
      ∧ (n.ret.localQ.map fun e => e.frame.payload.drop 226) = [bytesOf [2, 9, 0, 4, 0, 2, 1, 10, 1, 9, 0, 3, 9, 0]]
      ∧ n.cmd = base.cmd := by decide +kernel

/-- Section 3.10.2: the retry of frame 41 is answered from the cache, and no record runs. Had the queue been full, it would be
a busy refusal. -/
def node5 : Node := withAddress base 5 []
def frame41 : FwdFrame := frame 0x03 5 41 1 (bytesOf [4, 2, 1, 20])
def done41 : Node := after (.manageFrame frame41) node5
def full8 (n : Node) : Node := { n with ret := { n.ret with localQ := .replicate 8 { frame := reserved, sending := false } } }

theorem test_retry_is_replayed :
    let n := after (.manageFrame frame41) { done41 with fwd := { done41.fwd with groups := [] } }
    done41.fwd.groups = [20] ∧ done41.cmd.lastSeq = some 41 ∧ n.ret.localQ = done41.ret.localQ ++ done41.ret.localQ
      ∧ n.fwd.groups = [] ∧ n.cmd = done41.cmd := by decide +kernel

theorem test_busy_refusal :
    let n := after (.manageFrame frame41) (full8 done41)
    n.cmd = { done41.cmd with busy := 1 } ∧ n.ret.localQ.length = 8 := by decide +kernel

/-- Table 11-1: node 2's IDENTIFY, and its eight records, whose response has count 8 and length 80. -/
def node2 : Node := let n := withAddress base 2 [10]; { n with fwd := { n.fwd with position := 2 } }

theorem test_identify :
    replied (.identify []) node2 = some (.ok, [0x0A, 0x16, 1, 0, 2, 2, 1, 10, 16, 4, 4, 32, 16]) := by decide +kernel

theorem test_bring_up_frame :
    let p := [0x01, 0, 0x50, 1, 1, 0x10, 3, 0, 0, 1, 0x11, 5, 0x87, 0, 1, 0, 0x0F, 0x12, 1, 0,
      0x10, 3, 5, 0, 4, 0x11, 12, 1, 0, 0, 0, 0, 0, 2, 0x40, 0, 0, 0, 0, 0x12, 1, 0]
    let n := after (.manageFrame (frame 0x03 2 1 2 (bytesOf p))) node2
    (n.ret.localQ.map fun e => (e.frame.count.toNat, e.frame.payload.drop 16)) = [(8, bytesOf
      [0x50, 0, 1, 1, 0x10, 0, 8, 0, 0, 0, 0, 0, 0, 0, 0, 0x11, 0, 5, 1, 0, 0, 0xFF, 0,
       0x12, 0, 8, 0, 0, 1, 0, 1, 0, 0, 0, 0x10, 0, 8, 0, 0, 0, 0, 0, 0, 0, 0, 0x11, 0, 5, 4, 0, 0, 0xFF, 0,
       0x12, 0, 8, 5, 0, 4, 0, 1, 0, 0, 0])]
      ∧ n.tables.failsafe[2] = { kind := .level, level := 16384 } ∧ n.cmd.lastSeq = some 1 := by decide +kernel

/-- R58: CLEAR reports the counters and then clears them. -/
theorem test_status_clear :
    let m := { base with cmd := { base.cmd with busy := 1 }, out := { base.out with clip := true } }
    let n := after (.statusClear 0 []) m
    n.cmd.busy = 0 ∧ n.out.clip = false ∧ replied (.status none []) m = replied (.statusClear 0 []) m := by decide +kernel

/-- R59, Table 3-7: FULL keeps the address and the group set, FACTORY does not; OUTPUTS flushes the cue queue. -/
theorem test_reset_scopes :
    (after (.resetNodeFull []) node2).fwd = node2.fwd
      ∧ (after (.resetNodeFactory []) node2).fwd = { node2.fwd with address := 0, groups := [] }
      ∧ (after (.resetNodeOutputs []) (withQueue (timed base 5 0)
          [{ due := 9, tag := 0, action := .start, targets := 1, level := none }])).sched = (timed base 5 0).sched := by
  decide +kernel

/-! ## Tables (chapter 4) -/

def opened (table : TableId) (start count cursor : Nat) (buffer : List Nat) : Session :=
  { isOpen := true, table := table, bank := base.tables.bankFor table, start := start, count := count, cursor := cursor
    partialBytes := bytesOf buffer, written := 2, wraps := 0, idle := 7, discarded := 0, swapped := false, reason := .reset }

/-- Section 4.7.2, frame 2: 13 bytes after a wrap; the second entry is bad, and the bytes after it are discarded. -/
theorem test_table_data_wraps_and_fails :
    let m := withSession base (opened .extraction 4 3 6 [0x87, 0])
    let p := bytesOf [6, 0, 1, 0x87, 0, 4, 0, 0, 0x87, 0, 4, 0, 1]
    let x := (after (.tableData p) m).tables.session
    replied (.tableData p) m = some (.badEntry, [1, 4, 0, 4, 1]) ∧ x.cursor = 4 ∧ x.partialBytes = [] ∧ x.written = 3
      ∧ x.wraps = 1 ∧ (after (.tableData p) m).tables.extraction[6].slot = 6 := by decide +kernel

/-- Table 11-3: the curve session on bank B of curve 1 is superseded with 19 written and one byte waiting. -/
theorem test_table_open_supersedes :
    let m := withSession base { opened (.curve 1) 0 33 19 [1] with written := 19 }
    replied (.tableOpen [2, 0, 33]) m = some (.ok, [2, 1, 2, 0, 19, 0, 0, 1])
      ∧ (after (.tableOpen [2, 0, 33]) m).tables.session.cursor = 0 := by decide +kernel

/-- Section 4.7.3: the close with SWAP of a curve under load flips its marker; TABLE CLOSE without SWAP does not. -/
theorem test_table_close_swap :
    let m := withSession base { opened (.curve 2) 0 33 0 [] with written := 33, wraps := 1 }
    replied (.tableCloseSwap 0 []) m = some (.ok, [3, 0, 33, 0, 1, 0, 1, 0])
      ∧ (after (.tableCloseSwap 0 []) m).tables.curves[2].active = .b
      ∧ (after (.tableClose 0 []) m).tables.curves = base.tables.curves := by decide +kernel

/-- Section 4.7.3: BANK SWAP of curves 1 and 2 while a session is open on curve 2; with none open both are flipped. -/
theorem test_bank_swap :
    replied (.bankSwap [6]) (withSession base (opened (.curve 2) 0 33 0 [])) = some (.sessionBusy, [0])
      ∧ replied (.bankSwap [6]) base = some (.ok, [6]) := by decide +kernel

/-- Section 11.2: the session expires with one byte discarded; a TABLE CLOSE then gives NO_SESSION with the summary. -/
theorem test_session_expiry :
    let n := after .sessionExpiry (withSession base { opened (.curve 1) 0 33 19 [1] with written := 19 })
    n.tables.session.isOpen = false ∧ replied (.tableClose 0 []) n = some (.noSession, [2, 0, 19, 0, 0, 1, 0, 2]) := by
  decide +kernel

/-- R63, R83: points 1 and 32 of the default curve, and a default failsafe entry. -/
theorem test_table_read :
    replied (.tableRead [1, 0, 1, 1]) base = some (.ok, [0x08, 0]) ∧ replied (.tableRead [4, 1, 32, 1]) base = some (.ok, [255, 255])
      ∧ replied (.tableRead [5, 0, 15, 1]) base = some (.ok, [0, 0, 0])
      ∧ replied (.tableRead [5, 0, 15, 2]) base = some (.outOfRange, []) := by decide +kernel

/-! ## The value path (chapter 5) -/

def node21 : Node :=
  { base with
    sup := { base.sup with state := .normal, supTimer := some { elapsed := 9, duration := 100 } }
    tables := { base.tables with
      curves := base.tables.curves.set 1 { base.tables.curves[1] with
        bankA := .ofFn fun k => if k.val = 32 then 65535 else BitVec.ofNat 16 (64 * k.val * k.val) }
      extraction := (((base.tables.extraction.set 0
        { valid := true, wide := false, curve := 1, slot := 0, targets := 0x000F }).set
        1 { valid := true, wide := true, curve := 7, slot := 4, targets := 0x0010 }).set
        2 { valid := true, wide := false, curve := 1, slot := 10, targets := 0x0004 }).set
        4 { valid := true, wide := false, curve := 7, slot := 40, targets := 0x0020 } } }

def firstData : FwdFrame := frame 0x01 0x8000 17 1 (bytesOf [0x80, 0, 0, 0, 0x12, 0x34, 0, 0, 0, 0, 0xFF, 0])

/-- Section 5.8.1, the first frame. -/
theorem test_first_walk :
    let n := after (.dataFrame firstData) node21
    ((n.out.chans.toList.take 6).map fun c => c.stagedLevel.toNat) = [16516, 16516, 65535, 16516, 4660, 0]
      ∧ n.value[2] = some { seq := 17, level := 65535 } ∧ n.value[5] = none
      ∧ n.sup.supTimer = some { elapsed := 0, duration := 100 } := by decide +kernel

/-- Section 5.8.1, the second frame. -/
theorem test_second_walk :
    let p := (List.range 48).map fun i => byteOf (match i with | 4 | 5 => 0xFF | 10 => 0x40 | 40 => 1 | _ => 0)
    let n := after (.dataFrame (frame 0x01 0x8000 18 1 p)) (after (.dataFrame firstData) node21)
    (n.value.toList.take 6).map (·.map fun d => (d.seq.toNat, d.level.toNat))
      = [some (18, 0), some (18, 0), some (18, 4130), some (18, 0), some (18, 65535), some (18, 257)] := by decide +kernel

/-- Section 5.8.2: a falling segment. -/
theorem test_falling_segment :
    let p : Vector (BitVec 16) 33 := (Vector.replicate 33 (0 : BitVec 16)).set 4 1000
    [8193, 8195, 10239, 10240].map (fun v => (evalCurve p v).toNat) = [1000, 999, 1, 0] := by decide +kernel

/-- Section 5.8.3: channels 0, 2, 3 and 4 are converted, and channel 3 is limited. -/
theorem test_conversions :
    (compareLoaded 16516 1000 0).toNat = 252 ∧ (compareLoaded 65535 1000 0).toNat = 1000
      ∧ (compareLoaded 16516 1000 800).toNat = 200 ∧ (compareLoaded 4660 20000 0).toNat = 1422
      ∧ ({ base.out.chans[0] with stagedLevel := 16516, stagedOffset := 800 } : Channel).clips 1000 = true := by decide +kernel

/-! ## Chain time and cues (chapter 6) -/

def syncOf (ticks sub : Nat) : FwdFrame :=
  let t := BitVec.ofNat 40 (ticks * 256 + sub)
  frame 0x02 0x8000 0 1 (bytes40 t)

/-- Section 6.8.1: node A steps back by 3 ticks, node B, INVALID, starts from the SYNC, a carry out of the sub-ticks included. -/
theorem test_sync_at_two_nodes :
    let a := after (.syncFrame (syncOf 5000000 0) (BitVec.ofNat 32 (58 * 256 + 176))) (timed base 5000061 40)
    let b := after (.syncFrame (syncOf 5000063 160) (BitVec.ofNat 32 (58 * 256 + 176))) base
    (a.sched.tick.toNat, a.sched.sub.toNat, a.sched.time) = (5000058, 176, .valid)
      ∧ (b.sched.tick.toNat, b.sched.sub.toNat, b.sched.time) = (5000122, 80, .valid) ∧ b.link.store.isSome = true := by
  decide +kernel

def cue (due : Nat) (tag : Byte) (action : CueAction) (targets : BitVec 16) (level : Option (BitVec 16)) : CueEntry :=
  { due := BitVec.ofNat 32 due, tag := tag, action := action, targets := targets, level := level }

/-- Node 7 of section 6.8.2, with output group 1 ARMED. -/
def node7 : Node :=
  let n := withQueue (timed (withAddress base 7 [10]) 1000000 0)
    [cue 1000500 3 .start 1 none, cue 1002000 0 .setLevel 2 (some 40000)]
  withGroup n 1 { n.out.groups[1] with mode := .oneShot, state := .armed }

def fiveRecords : FwdFrame :=
  let record (due : Nat) (tag action : Byte) (dest targets : BitVec 16) : List Byte :=
    bytes32 (BitVec.ofNat 32 due) ++ [tag, action] ++ bytes16 dest ++ bytes16 targets
  frame 0x04 0xC000 0 1 (record 1000500 5 1 7 1 ++ [255, 255] ++ record 1000000 0 4 0x400A 2
    ++ record 999990 0 3 0x8000 4 ++ record 1001000 5 3 8 1 ++ record 1001000 5 3 0x400A 1)

/-- Section 6.8.2: five records are judged; the queue afterwards, the late one counted, group 1 fired. -/
theorem test_cue_frame :
    let n := after (.cueFrame fiveRecords) node7
    n.sched.queue = [cue 1000500 3 .start 1 none, cue 1000500 5 .setLevel 1 (some 65535), cue 1001000 5 .stop 1 none,
        cue 1002000 0 .setLevel 2 (some 40000)]
      ∧ n.sched.lateDrops = 1 ∧ n.sched.refusals = 0 ∧ n.out.groups[1].state = .pulse := by decide +kernel

/-- Section 6.8.2: one expiry takes both entries due at 1,000,500. -/
theorem test_cue_expiry :
    let n := after .cueExpiry (withQueue node7 [cue 1000500 3 .start 1 none, cue 1000500 5 .setLevel 1 (some 65535),
      cue 1001000 5 .stop 1 none])
    n.sched.queue = [cue 1001000 5 .stop 1 none] ∧ n.out.groups[0].mark = true ∧ n.out.chans[0].stagedLevel = 65535
      ∧ n.out.chans[0].origin = .cue ∧ n.sched.tick = 1000500 := by decide +kernel

/-- Section 6.8.2: CUE CANCEL tag 5 removes the STOP alone: 1 removed, depth 1. -/
theorem test_cue_cancel :
    replied (.cueCancel [5]) (withQueue node7 [cue 1001000 5 .stop 1 none, cue 1002000 0 .setLevel 2 (some 40000)])
      = some (.ok, [1, 1]) := by decide +kernel

theorem test_cue_flush_and_list :
    replied (.cueFlush []) node7 = some (.ok, [2])
      ∧ replied (.cueList [1, 16]) node7
        = some (.ok, [1, 0x00, 0x0F, 0x42, 0x40, 2, 1, 0x00, 0x0F, 0x4A, 0x10, 0, 1, 0, 2, 0x9C, 0x40]) := by decide +kernel

/-- Section 6.8.3: a forward step across two due times; with a step of 1102, a jump. -/
theorem test_sync_steps_over_due_times :
    let m := withQueue (timed base 1001998 0) [cue 1002000 0 .setLevel 2 (some 40000), cue 1002004 0 .start 8 none]
    let n := after (.syncFrame (syncOf 1002010 0) 0) m
    let j := after (.syncFrame (syncOf 1003100 0) 0) m
    n.sched.queue = [] ∧ n.out.chans[1].stagedLevel = 40000 ∧ n.out.groups[3].mark = true ∧ n.sched.flushes = 0
      ∧ j.sched.queue = [] ∧ j.out = base.out ∧ j.sched.flushes = 1 ∧ j.sched.timeJump = true := by decide +kernel

/-- R110: a jump threshold of 0 is OUT_OF_RANGE. -/
theorem test_configure_time :
    replied (.configureTime [1, 64, 3, 232, 1]) base = some (.ok, [1, 64, 3, 232, 1])
      ∧ replied (.configureTime [1, 64, 0, 0, 1]) base = some (.outOfRange, [0, 0, 3, 232, 0]) := by decide +kernel

/-! ## Output groups and channels (chapter 7) -/

def settings (n d : BitVec 16) (r : Retrigger) : GroupSettings := { prescale := 4, period := n, delay := d, retrigger := r }

def group (state : GroupState) (mode : Mode) (count : BitVec 16) (active staged : GroupSettings) : Group :=
  { state := state, mark := false, count := count, mode := mode, active := active, staged := staged, missed := 0 }

/-- Section 7.9.1: group 1 RUNNING, channel 5 its member, in count 9 of period 1 with N = 8 and 13107 staged. -/
def changing : Node :=
  withChannel (withGroup base 1 (group .running .continuous 9 (settings 10 0 .ignore) (settings 8 0 .ignore))) 5
    { base.out.chans[5] with
      group := 1, stagedOffset := 2, activeOffset := 2, compare := 5, stagedLevel := 13107, pendingFlag := true, origin := .data }

theorem test_wrap_loads :
    let n := after (.outputClockTick 1) changing
    n.out.groups[1].count = 0 ∧ n.out.groups[1].active.period = 8 ∧ n.out.chans[5].compare = 1
      ∧ n.out.chans[5].pendingFlag = false ∧ n.out.chans[5].lastActive = 13107 ∧ after (.periodWrap 1) changing = n := by
  decide +kernel

/-- Section 7.9.1: the CONFIGURE GROUP record is staged, with active N 10 and staged N 8 reported. -/
theorem test_configure_group_stages :
    let m := withGroup changing 1 (group .running .continuous 4 (settings 10 0 .ignore) (settings 10 0 .ignore))
    replied (.configureGroup [1, 4, 0, 8, 0, 0, 0, 0]) m = some (.ok, [1, 4, 0, 10, 0, 0, 0, 0, 4, 0, 8, 0, 0, 0, 0]) := by
  decide +kernel

/-- Section 7.9.2: group 2 with D = 3, N = 6, and channel 8 with offset 1 and level 43690. -/
def oneShot (state : GroupState) (count : BitVec 16) (r : Retrigger) : Node :=
  withChannel (withGroup base 2 (group state .oneShot count (settings 6 3 r) (settings 6 3 r))) 8
    { base.out.chans[8] with group := 2, stagedOffset := 1, activeOffset := 1, stagedLevel := 43690 }

theorem test_fire_and_delay_end :
    (after (.fireGroups [4]) (oneShot .armed 0 .restart)).out.groups[2].state = .delay
      ∧ (after (.outputClockTick 2) (oneShot .delay 2 .restart)).out.groups[2].state = .pulse
      ∧ (after (.delayEnd 2) (oneShot .delay 2 .restart)).out.chans[8].compare = 4
      ∧ (after (.outputClockTick 2) (oneShot .pulse 5 .restart)).out.groups[2].state = .armed := by decide +kernel

/-- Section 7.9.2: a trigger in PULSE restarts the delay under RESTART, and is missed under IGNORE. -/
theorem test_retrigger :
    (after (.fireGroups [4]) (oneShot .pulse 3 .restart)).out.groups[2].state = .delay
      ∧ (after (.fireGroups [4]) (oneShot .pulse 3 .ignore)).out.groups[2].missed = 1
      ∧ (after (.pulseEnd 2) (oneShot .pulse 5 .ignore)).out.groups[2].state = .armed := by decide +kernel

/-- Section 5.8.4: N = 8, O = 2, C = 4: active for counts 2 to 5. -/
theorem test_pins_in_a_short_period :
    (List.range 8).map (fun k => (withChannel (withGroup base 2 (group .running .continuous (BitVec.ofNat 16 k)
        (settings 8 0 .ignore) (settings 8 0 .ignore))) 9
      { base.out.chans[9] with group := 2, stagedOffset := 2, activeOffset := 2, compare := 4 }).pinHigh 9)
      = [false, false, true, true, true, true, false, false] := by decide +kernel

/-- Table 11-2: START sets the mark of an IDLE group, its output tick loads 32896 at N = 1000 as 501. STOP clears the mark. -/
theorem test_start_and_stop :
    let m := withChannel base 0 { base.out.chans[0] with stagedLevel := 32896 }
    let n := after (.startTick 0) (after (.startGroups [1]) m)
    n.out.groups[0].state = .running ∧ n.out.chans[0].compare = 501 ∧ (after (.stopGroups [1]) n).out.chans[0].compare = 0
      ∧ replied (.startGroups [1]) m = some (.ok, [128, 0, 0, 0]) := by decide +kernel

/-- Section 7.9.3: failsafe entry across three groups. -/
theorem test_failsafe_entry :
    let a := withGroup (withGroup (withGroup base 0 (group .running .continuous 7 (settings 10 0 .ignore) (settings 10 0 .ignore)))
      1 (group .pulse .oneShot 3 (settings 10 0 .ignore) (settings 10 0 .ignore))) 3 { base.out.groups[3] with mark := true }
    let b := withChannel (withChannel (withChannel a 0 { base.out.chans[0] with compare := 9 }) 4
      { base.out.chans[4] with group := 1, compare := 5, lastActive := 20000 }) 12 { base.out.chans[12] with group := 3 }
    let m := { b with
      tables := { b.tables with
        failsafe := ((b.tables.failsafe.set 0 { kind := .level, level := 0 }).set 4 { kind := .hold, level := 0 }).set
          12 { kind := .level, level := 65535 } }
      sup := { b.sup with state := .holdover, holdTimer := some { elapsed := 0, duration := 1000 } } }
    let n := after .holdoverTimerExpiry m
    n.sup.state = .failsafe ∧ n.out.groups[0].state = .running ∧ n.out.groups[0].count = 0 ∧ n.out.chans[0].compare = 0
      ∧ n.out.groups[1].state = .idle ∧ n.out.chans[4].stagedLevel = 20000 ∧ n.out.chans[4].compare = 0
      ∧ n.out.groups[3].mark = true ∧ n.out.chans[12].stagedLevel = 65535 := by decide +kernel

/-- R136, R144, R145: a channel moved to group 3; the defaults as reported. -/
theorem test_channel_and_group_reports :
    replied (.configureChannel [15, 3, 3, 0, 9]) base = some (.ok, [15, 3, 3, 0, 9, 0, 9])
      ∧ replied (.groupState [0]) base = some (.ok,
        [0, 0, 4, 3, 232, 0, 0, 0, 0, 4, 3, 232, 0, 0, 0, 0, 0, 0, 0, 255, 255])
      ∧ replied (.channelState [2]) (after (.dataFrame firstData) node21)
        = some (.ok, [0, 255, 255, 1, 1, 0, 0, 0, 0, 0, 0, 1, 17, 255, 255]) := by decide +kernel

/-! ## Sense inputs (chapter 8) -/

def input (mode : SenseMode) (edge : EdgeSelect) (filter triggers : BitVec 4) (lockout : BitVec 16) (phase : SensePhase)
    (level : Option Bool) (run : BitVec 4) (count : BitVec 24) : Input :=
  { settings := { mode := mode, edge := edge, prescale := 2, filter := filter, triggers := triggers, lockout := lockout }
    phase := phase, filtered := level, run := run, count := count, timer := 0 }

/-- Section 8.8.1, samples 12 and 112: the rising edge starts the measurement, the falling edge closes it at 100. -/
theorem test_filtered_width :
    let start := withInput (timed base 77 3) 1 (input .highWidth .rising 2 0 0 .waitStart (some false) 2 0)
    let close := withInput (timed base 77 3) 1 (input .highWidth .rising 2 0 0 .measuring (some true) 2 99)
    let n := after (.sampleEvent 1 false) close
    (after (.sampleEvent 1 true) start).sense.inputs[1] = input .highWidth .rising 2 0 0 .measuring (some true) 0 0
      ∧ n.sense.inputs[1].phase = .waitStart
      ∧ n.sense.log = [{ input := 1, kind := .high, count := some 100, isLong := false, stamp := some (77 * 256 + 3) }] := by
  decide +kernel

/-- Section 8.8.2: the edges at 0, 40 and 820 µs. -/
def trigger2 (phase : SensePhase) (level : Bool) (state : GroupState) : Node :=
  withInput (withGroup (timed base 5 0) 2 (group state .oneShot 0 (settings 100 50 .ignore) (settings 100 50 .ignore))) 2
    (input .trigger .both 0 4 500 phase (some level) 0 0)

theorem test_trigger_with_lockout :
    let a := after (.senseEdge 2 true) (trigger2 .ready false .armed)
    let b := after (.senseEdge 2 false) (trigger2 .lockout true .pulse)
    let c := after (.senseEdge 2 false) (trigger2 .ready true .pulse)
    a.out.groups[2].state = .delay ∧ a.sense.inputs[2].phase = .lockout ∧ a.sense.log.length = 1
      ∧ b.sense.log = [] ∧ b.out = (trigger2 .lockout true .pulse).out
      ∧ c.out.groups[2].missed = 1 ∧ c.sense.log.length = 1
      ∧ (after (.lockoutEnd 2) b).sense.inputs[2].phase = .ready := by decide +kernel

/-- R150, R151: after CONFIGURE SENSE the first level, as a raw sample or as SENSE_EDGE, is only set: no edge, no result, no
trigger. -/
theorem test_unset_level_sees_no_edge :
    let n := after (.configureSense [2, 4, 0, 0, 0, 4, 1, 244]) (trigger2 .ready false .armed)
    let a := after (.senseEdge 2 true) n
    n.sense.inputs[2].filtered = none ∧ a.sense.inputs[2].filtered = some true ∧ a.sense.inputs[2].phase = .ready
      ∧ a.sense.log = [] ∧ a.out = n.out ∧ after (.sampleEvent 2 true) n = a := by decide +kernel

def entryOf (c : BitVec 24) : LogEntry := { input := 3, kind := .interval, count := some c, isLong := false, stamp := none }

/-- Section 8.8.3: the overflow, and the report on SYNC, queued or lost. -/
def logged16 : Node :=
  let n := withInput (inState (withAddress base 4 []) .normal) 3 (input .highWidth .rising 0 0 0 .measuring (some true) 0 9)
  { n with
    sense := { n.sense with log := (List.range 16).map fun k => entryOf (BitVec.ofNat 24 (k + 1)) }
    ret := { n.ret with enable := 4 } }

theorem test_log_overflow :
    let n := after (.senseEdge 3 false) logged16
    n.sense.log.length = 16 ∧ n.sense.losses = 1 ∧ n.sense.log.head? = some (entryOf 2) := by decide +kernel

theorem test_report_on_sync :
    let n := after (.syncFrame (syncOf 9 0) 0) logged16
    let k := after (.syncFrame (syncOf 9 0) 0) (full8 logged16)
    n.sense.log.length = 8 ∧ (n.ret.localQ.map fun e => e.frame.payload.take 6) = [[2, 89, 8, 3, 0, 0]]
      ∧ k.sense.log.length = 16 ∧ k.ret.noticeLosses = 1 := by decide +kernel

/-- Section 8.8.3: SENSE READ of 8 entries returns 94 bytes. R149: an input restarts in its mode's phase. -/
theorem test_sense_commands :
    (after (.senseRead [8]) logged16).shown.map (fun r => (r.status, r.data.length, r.data.take 6))
      = some (.ok, 94, [8, 8, 0, 0, 0, 4])
      ∧ (after (.configureSense [0, 4, 2, 1, 3, 5, 1, 244]) base).sense.inputs[0].phase = .ready
      ∧ replied (.configureSense [0, 4, 2, 1, 3, 5, 1, 244]) base = some (.ok, [0, 4, 2, 1, 3, 5, 1, 244]) := by decide +kernel

/-! ## The return lane (chapter 9) -/

def localFrame (len : Nat) : LocalEntry :=
  { frame := { kind := 0x81, flags := 0, source := 3, seq := 0, count := 1, payload := .replicate len 0 }, sending := false }

def relayFrame (len : Nat) : RelayEntry :=
  { hdr := [0x81, 0, 0, 9, 0, 1, byteOf (len / 256), byteOf len], payload := .replicate len 0, check := 0, sending := false }

/-- Section 9.7.1, at character time 0: two frames of 35 and 4, and two of 16 bytes, last served RELAY. -/
def crowded : Node :=
  { base with ret := { base.ret with
      localQ := [localFrame 35, localFrame 4], relayQ := [relayFrame 16, relayFrame 16] } }

theorem test_arbiter_alternates :
    let a := after .arbiterSelect crowded
    let b := after .returnFrameSent a
    let c := after .arbiterSelect b
    a.ret.lastServed = .localQueue ∧ (a.ret.localQ.map (·.sending)) = [true, false] ∧ b.ret.localQ = [localFrame 4]
      ∧ c.ret.lastServed = .relayQueue ∧ (c.link.retTx.current.map fun w => w.bytes.length) = some 24 := by decide +kernel

/-- A frame as it ends on the D return lane, with a right check value. -/
def returned (len : Nat) : ReturnEnd :=
  let h : Vector Byte 8 := #v[0x81, 0, 0, 9, 0, 1, byteOf (len / 256), byteOf len]
  { hdr := h, payload := .replicate len 0, check := checkValue (h.toList ++ List.replicate len 0), whole := true }

/-- Section 9.7.2: an accepted frame joins a queue of three; one of four drops it; a frame cut off is a relay check
error. -/
theorem test_relay_queue :
    let m (k : Nat) := { base with ret := { base.ret with relayQ := .replicate k (relayFrame 16) } }
    (after (.returnFrameReceived (returned 8)) (m 3)).ret.relayQ.length = 4
      ∧ (after (.returnFrameReceived (returned 8)) (m 4)).ret.relayDrops = 1
      ∧ (after (.returnFrameReceived { returned 8 with whole := false }) (m 2)).ret.relayErrors = 1 := by decide +kernel

/-- R166: bits 3 to 7 of the enable set are OUT_OF_RANGE. -/
theorem test_configure_notices :
    replied (.configureNotices [7]) base = some (.ok, [7]) ∧ replied (.configureNotices [8]) base = some (.outOfRange, [0]) := by
  decide +kernel

/-! ## Supervision (chapter 10) -/

/-- Node 6 of section 10.9: window 50 ms, holdover time 200 ms, K = 2, SUPERVISION notices enabled. -/
def node6 (state : SupState) (timer : Bool) (recovery : BitVec 4) : Node :=
  { withAddress base 6 [] with
    sup :=
      { state := state, supTimer := if timer then some { elapsed := 5, duration := 50 } else none
        holdTimer := if state = .holdover then some { elapsed := 5, duration := 200 } else none
        recovery := recovery, window := 50, holdover := 200, failsafeOn := true, k := 2 }
    ret := { base.ret with enable := 1 } }

def aData : FwdFrame := frame 0x01 0x8000 2 1 []

/-- Section 10.9, instants 50, 250 and 450 ms: the expiries. -/
theorem test_supervision_expiries :
    let a := after .supervisionTimerExpiry (node6 .normal true 0)
    let b := after .holdoverTimerExpiry (node6 .holdover false 0)
    let c := after .supervisionTimerExpiry (node6 .failsafe true 1)
    a.sup = { (node6 .holdover false 0).sup with holdTimer := some { elapsed := 0, duration := 200 } }
      ∧ (a.ret.localQ.map fun e => e.frame.payload) = [[0, 2, 1, 2]]
      ∧ b.sup = (node6 .failsafe false 0).sup ∧ (b.ret.localQ.map fun e => e.frame.payload) = [[0, 2, 2, 3]]
      ∧ c.sup = (node6 .failsafe false 0).sup ∧ c.ret.localQ = [] := by decide +kernel

/-- Section 10.9, instants 500 and 530 ms: the first frame is counted, the second ends failsafe. -/
theorem test_recovery :
    let a := after (.dataFrame aData) (node6 .failsafe false 0)
    let b := after (.dataFrame aData) (node6 .failsafe true 1)
    a.sup = { (node6 .failsafe true 1).sup with supTimer := some { elapsed := 0, duration := 50 } }
      ∧ b.sup = { (node6 .normal true 0).sup with supTimer := some { elapsed := 0, duration := 50 } }
      ∧ (b.ret.localQ.map fun e => e.frame.payload) = [[0, 2, 3, 1]] := by decide +kernel

/-- R182, R185: CONFIGURE SUPERVISION within and out of Table 10-2; RECOVER in and out of FAILSAFE. -/
theorem test_supervision_commands :
    replied (.configureSupervision [0, 50, 0, 200, 1, 2]) base = some (.ok, [0, 50, 0, 200, 1, 2])
      ∧ replied (.configureSupervision [0, 0, 0, 200, 1, 2]) base = some (.outOfRange, [0, 100, 3, 232, 1, 3])
      ∧ replied (.recover []) (node6 .failsafe false 1) = some (.ok, [1, 1])
      ∧ replied (.recover []) (node6 .normal true 0) = some (.wrongState, [1, 0]) := by decide +kernel

/-! ## The clock -/

/-- R101: the local chain time advances at every third period of the clock. -/
theorem test_chain_time_advances :
    (tickOnce { timed base 5 250 with clock := 2 }).sched.now = BitVec.ofNat 40 (6 * 256 + 10)
      ∧ (tickOnce { timed base 5 250 with clock := 1 }).sched.now = BitVec.ofNat 40 (5 * 256 + 250) := by decide +kernel

/-- R183, R192: the supervision timer started at 100 ms is due after 4,800,000 periods. -/
theorem test_supervision_timer_falls_due :
    let m (k : Nat) := { base with sup := { base.sup with state := .normal, supTimer := some { elapsed := k, duration := 100 } } }
    (tickOnce (m 4799999)).sup.state = .holdover ∧ (tickOnce (m 4799998)).sup.state = .normal := by decide +kernel

/-! ## Ill-formed commands: each check refuses one -/

theorem test_wellFormed_refuses :
    (Instr.identify (List.replicate 256 0)).wellFormed = false ∧ (Instr.identify (List.replicate 255 0)).wellFormed = true
      ∧ (Instr.statusClear 0 (List.replicate 255 0)).wellFormed = false ∧ (Instr.status none [0]).wellFormed = false
      ∧ (Instr.status (some 0) (List.replicate 255 0)).wellFormed = false
      ∧ (Instr.unknownKindFrame 0x05 (frame 0x05 0 0 0 [])).wellFormed = false
      ∧ (Instr.unknownKindFrame 0x06 (frame 0x06 0 0 0 [])).wellFormed = true := by decide +kernel

/-- A payload whose length the two-byte length field cannot give. -/
theorem test_wellFormed_refuses_long_payloads (f : FwdFrame) (g : ReturnEnd) (hf : f.payload.length = 65536)
    (hg : g.payload.length = 65536) :
    (Instr.dataFrame f).wellFormed = false ∧ (Instr.syncFrame f 0).wellFormed = false ∧ (Instr.cueFrame f).wellFormed = false
      ∧ (Instr.enumerateFrame f).wellFormed = false ∧ (Instr.manageFrame f).wellFormed = false
      ∧ (Instr.unknownKindFrame 0x06 f).wellFormed = false ∧ (Instr.returnFrameReceived g).wellFormed = false := by
  simp [Instr.wellFormed, FwdFrame.fits, ReturnEnd.fits, hf, hg]

/-! ## Witnesses -/

/-- The hypotheses of every statement over all states with RESETN high, alone or with an empty queue:
IdleStepAdvancesDividerAndChainTime, IdleStepRunsTheTimers (its whole period), ReleaseGivesEveryBlockItsResetValues,
ResetNodeResetsItsScope (its three scopes), SettingsAreWrittenOrRefused, GroupEventsStartLoadAndEnd,
SampleEventCountsAndFilters, TimersExpireAndRecoverEndsFailsafe, ReturnFrameIsRelayedOrCounted. -/
theorem witness_on : (at_ base).On ∧ (at_ base).pending = [] ∧ (at_ base) = State.reset := by decide +kernel

/-- A lane one period short of the limit and one at it; a session likewise; timers that are not due. The other conjunct asks
for no more than `witness_on`. -/
theorem witness_IdleStepRunsTheTimers :
    let m (k i e : Nat) : Node :=
      { withSession base { opened .failsafe 0 16 0 [1] with idle := i } with
        link := { base.link with uLane := .locked k }
        sup := { base.sup with state := .normal, supTimer := some { elapsed := e, duration := 100 } } }
    (at_ (m 11262 95999998 0)).On ∧ ¬64 * 176 ≤ 11262 + 1 ∧ 64 * 176 ≤ 11263 + 1 ∧ ¬2000 * 48000 ≤ 95999998 + 1
      ∧ 2000 * 48000 ≤ 95999999 + 1
      ∧ ∀ z, (m 11263 95999999 4799998).sup.supTimer = some z ∨ (m 11263 95999999 4799998).sup.holdTimer = some z →
        z.elapsed + 1 < z.duration * 48000 := by
  refine ⟨by decide, by decide, by decide, by decide, by decide, fun z h => ?_⟩
  rcases h with h | h
  · simp only [Option.some.injEq] at h; subst h; decide
  · cases h

def low : Node := after .resetnFall base

theorem witness_EveryCommandGoesOnAndResetnLowFreezes :
    (at_ low).node.link.resetLow = true ∧ (at_ low).pending = []
      ∧ (∀ p, Instr.identify [] ≠ .powerOn p) ∧ Instr.identify [] ≠ .resetnFall ∧ ∀ p, Instr.identify [] ≠ .resetnRelease p := by
  decide +kernel

theorem witness_SilentLaneCountsValidCharacters :
    (at_ base).On ∧ (at_ base).node.link.laneState .u = .silent 0 ∧ (at_ base).node.link.laneState .d = .silent 0
      ∧ let m := { base with link := { base.link with uLane := .silent 15, dLane := .silent 14 } }
        (at_ m).node.link.laneState .u = .silent 15 ∧ (at_ m).node.link.laneState .d = .silent 14 := by decide +kernel

theorem witness_LockedLaneOutsideAFrame :
    let m := { base with link := { base.link with uLane := .locked 5, dLane := .locked 0 } }
    (at_ m).On ∧ m.link.uLane = .locked 5 ∧ m.link.uRec.phase = .outside ∧ m.link.dLane = .locked 0
      ∧ m.link.dRec.phase = .outside := by decide +kernel

/-- A reception on the LOCKED D return lane, with a number of bytes in the reception area. -/
def receivingD (phase : Phase) (hdr : List Byte) (count area : Nat) : Node :=
  { base with
    link := { base.link with dLane := .locked 7, dRec := { Reception.opened with phase := phase, hdr := hdr, count := count } }
    ret := { base.ret with area := .replicate area 0 } }

/-- The header of a return frame of 1024 payload bytes. -/
def hdr1024 : List Byte := [0x82, 0, 0, 9, 0, 1, 4, 0]

/-- Section 9.4: the 257th payload byte is counted and not kept; a length field of 1025 is an abort, a relay check error. -/
theorem test_return_bytes :
    let n := after (.characterReceived .d 5 true) (receivingD .body hdr1024 256 256)
    let m := after (.characterReceived .d 1 true) (receivingD .header (hdr1024.take 7) 0 0)
    n.ret.area.length = 256 ∧ n.link.dRec.count = 257 ∧ m.link.dRec = .outside ∧ m.ret.relayErrors = 1 := by decide +kernel

/-- A header that ends with a length of 20, of 0 and of 1024; and one of 1025, whose frame has no copy yet. -/
def eighthByte (hi : Byte) : Node :=
  lockedU base { Reception.outside with phase := .header, hdr := [0x01, 0, 0xC0, 0, 7, 3, hi] } .outside

/-- On U a first and a seventh header byte, and the eighth; on D likewise, the eighth making the length 1024 and 1025. -/
theorem witness_HeaderEndFixesDispositionAndBeginsCopy :
    let ok (hi b : Byte) : Prop := (at_ (eighthByte hi)).On ∧ (eighthByte hi).link.uLane = .locked 0
      ∧ (eighthByte hi).link.uRec.phase = .header ∧ (eighthByte hi).link.uRec.hdr.length = 7
      ∧ (FwdHeader.ofBytes ((eighthByte hi).link.uRec.hdr ++ [b])).length.toNat ≤ 1024
    ok 0 20 ∧ ok 0 0 ∧ ok 4 0
      ∧ (eighthByte 4).link.uLane = .locked 0 ∧ (eighthByte 4).link.uRec.phase = .header
      ∧ (eighthByte 4).link.uRec.hdr.length = 7 ∧ (eighthByte 4).link.passage.copy = .absent
      ∧ 1024 < (FwdHeader.ofBytes ((eighthByte 4).link.uRec.hdr ++ [1])).length.toNat
      ∧ (∀ k ∈ [0, 6],
        let m := lockedU base { Reception.opened with hdr := hdr1024.take k } .outside
        (at_ m).On ∧ m.link.uLane = .locked 0 ∧ m.link.uRec.phase = .header ∧ m.link.uRec.hdr.length < 7)
      ∧ (∀ k ∈ [0, 6, 7],
        let m := receivingD .header (hdr1024.take k) 0 0
        (at_ m).On ∧ m.link.dLane = .locked 7 ∧ m.link.dRec.phase = .header ∧ m.link.dRec.hdr.length = k)
      ∧ 256 * ((hdr1024.take 7).getD 6 0).toNat + (0 : Byte).toNat ≤ 1024
      ∧ ¬256 * ((hdr1024.take 7).getD 6 0).toNat + (1 : Byte).toNat ≤ 1024 := by decide +kernel

/-- In BODY of a frame of length 2, with `k` bytes received after its header. -/
def inBody (k : Nat) (note : Option EnumNote) (first : Option Byte) : Node :=
  lockedU base { Reception.opened with phase := .body, hdr := [0x05, 0, 0x80, 0, 0, 1, 0, 2], count := k }
    { Passage.outside with copy := .opened, enumNote := note, heldByte := first }

theorem witness_BodyBytesArePassedOn :
    let ok (k : Nat) : Prop := (at_ (inBody k none none)).On ∧ (inBody k none none).link.uLane = .locked 0
      ∧ (inBody k none none).link.uRec.phase = .body ∧ (inBody k none none).link.passage.enumNote = none
    (ok 0 ∧ 0 < (inBody 0 none none).link.uRec.length) ∧ (ok 1 ∧ 1 < (inBody 1 none none).link.uRec.length)
      ∧ (ok 2 ∧ 2 = (inBody 2 none none).link.uRec.length) ∧ (ok 3 ∧ 3 = (inBody 3 none none).link.uRec.length + 1)
      ∧ (∀ k ∈ [0, 255, 256, 1023, 1024, 1025],
        let m := receivingD .body hdr1024 k (min k 256)
        (at_ m).On ∧ m.link.dLane = .locked 7 ∧ m.link.dRec.phase = .body ∧ m.link.dRec.count = k)
      ∧ (receivingD .body hdr1024 0 0).link.dRec.length = 1024 := by decide +kernel

theorem witness_NextAddressIsPassedOnWhole :
    let note : EnumNote := { fill := true, address := 7 }
    let ok (m : Node) : Prop := (at_ m).On ∧ m.link.uLane = .locked 0 ∧ m.link.uRec.phase = .body
      ∧ m.link.uRec.count < m.link.uRec.length ∧ m.link.passage.enumNote = some note
    (ok (inBody 0 (some note) none) ∧ (inBody 0 (some note) none).link.passage.heldByte = none)
      ∧ ok (inBody 1 (some note) (some 3)) ∧ (inBody 1 (some note) (some 3)).link.passage.heldByte = some 3 := by decide +kernel

/-- Each cause of an abort: a low stop bit, the first invalid control value, IDLE, EOA, SOF, an EOF too early in HEADER and in
BODY, and one byte too many; on D an EOF too early in HEADER and in BODY, and one byte too many. -/
theorem witness_ForwardFrameIsAborted :
    let ok (m : Node) : Prop := (at_ m).On ∧ m.link.uLane = .locked 0 ∧ m.link.uRec.phase ≠ .outside
    (ok (inBody 0 none none) ∧ (!false || decide (260 ≤ (5 : BitVec 9).toNat)) = true
        ∧ (!true || decide (260 ≤ (260 : BitVec 9).toNat)) = true ∧ (true && decide ((257 : BitVec 9) = 257)) = true)
      ∧ (ok (eighthByte 0) ∧ ¬((eighthByte 0).link.uRec.phase = .body
        ∧ (eighthByte 0).link.uRec.count = (eighthByte 0).link.uRec.length + 2))
      ∧ (ok (inBody 3 none none) ∧ ¬(inBody 3 none none).link.uRec.count = (inBody 3 none none).link.uRec.length + 2)
      ∧ ok (inBody 4 none none) ∧ (255 : BitVec 9).toNat < 256 ∧ (inBody 4 none none).link.uRec.phase = .body
      ∧ (inBody 4 none none).link.uRec.length + 2 ≤ (inBody 4 none none).link.uRec.count
      ∧ (∀ m ∈ [receivingD .header [] 0 0, receivingD .body hdr1024 1025 256, receivingD .body hdr1024 1026 256],
        (at_ m).On ∧ m.link.dLane = .locked 7 ∧ m.link.dRec.phase ≠ .outside)
      ∧ ¬1025 = (receivingD .body hdr1024 1025 256).link.dRec.length + 2
      ∧ (receivingD .body hdr1024 1026 256).link.dRec.length + 2 ≤ 1026 := by decide +kernel

theorem witness_SilenceDropsTheLaneAndAbortsItsFrame :
    let m := { base with link := { base.link with uLane := .locked 9, dLane := .locked 0, dRec := Reception.opened } }
    (at_ m).On ∧ m.link.uLane = .locked 9 ∧ m.link.uRec.phase = .outside ∧ m.link.dLane = .locked 0
      ∧ m.link.dRec.phase ≠ .outside ∧ (at_ base).node.link.laneState .u = .silent 0 := by decide +kernel

/-- A frame that stands whole on each lane, the EOF to come. -/
def wholeU : Node :=
  let f := frame 0x02 0x8000 0 3 [1, 2, 3, 4, 5]
  lockedU base
    { phase := .body, hdr := (headerOf 0x02 f).bytes, count := 7, check := checkValue ((headerOf 0x02 f).bytes ++ f.payload)
      received := f.check, age := 300 }
    { Passage.outside with payload := f.payload }

def wholeD : Node :=
  let f := returned 2
  { base with
    link := { base.link with
      dLane := .locked 0
      dRec :=
        { phase := .body, hdr := f.hdr.toList, count := 4, check := checkValue (f.hdr.toList ++ f.payload)
          received := f.check, age := 0 } }
    ret := { base.ret with area := f.payload } }

theorem witness_EofCharacterIsTheFrameRow :
    let f := frame 0x02 0x8000 0 3 [1, 2, 3, 4, 5]
    let g := returned 2
    ((at_ wholeU).On ∧ wholeU.link.uLane = .locked 0 ∧ wholeU.link.uRec =
        { phase := .body, hdr := (headerOf 0x02 f).bytes, count := f.payload.length + 2
          check := checkValue ((headerOf 0x02 f).bytes ++ f.payload), received := f.check, age := (300 : BitVec 32).toNat }
      ∧ wholeU.link.passage.payload = f.payload ∧ f.payload.length ≤ 1024)
    ∧ (at_ wholeD).On ∧ wholeD.link.dLane = .locked 0 ∧ g.whole = true ∧ g.payload.length = lengthField g.hdr.toList
      ∧ g.payload.length ≤ 1024 ∧ wholeD.link.dRec.phase = .body ∧ wholeD.link.dRec.hdr = g.hdr.toList
      ∧ wholeD.link.dRec.count = g.payload.length + 2 ∧ wholeD.link.dRec.check = checkValue (g.hdr.toList ++ g.payload)
      ∧ wholeD.link.dRec.received = g.check ∧ wholeD.ret.area = g.payload.take 256 := by decide +kernel

def sending (current : FwdCurrent) (order : List FwdItem) (copy : CopyState) : Node :=
  { base with
    link := { base.link with
      order := order, passage := { Passage.outside with copy := copy }, fwdTx := { state := .sending, current := current } } }

theorem witness_TransmitterTakesTheNextInOrder :
    let ok (m : Node) : Prop := (at_ m).On ∧ m.link.fwdTx.state ≠ .held
    let starving (m : Node) : Prop := m.link.order = [] ∧ m.link.passage.copy = .opened
      ∧ (m.link.fwdTx.current = .item .sof ∨ m.link.fwdTx.current = .item (.data 7))
    ok base ∧ base.link.fwdTx.current = .idle ∧ ok (sending (.item .eof) [.sof, .data 1] .closed) ∧ FwdItem.sof ≠ .syncPlace
      ∧ FwdItem.eof ≠ .syncSof ∧ ok (sending (.item (.data 7)) [.syncPlace] .absent)
      ∧ ok (sending (.item (.data 7)) [] .opened) ∧ starving (sending (.item (.data 7)) [] .opened)
      ∧ starving (sending (.item .sof) [] .opened) ∧ ¬starving (sending (.item (.data 7)) [] .closed) := by decide +kernel

/-- The held SYNC at each part of its sending; a whole copy; copies cut after no byte, 10 bytes and 14 bytes. -/
theorem witness_HeldSyncIsSentWithTheTimeOfItsSof :
    let h : HeldSync := { hdr := FwdHeader.ofBytes [0x02, 0, 0x80, 0, 1, 2, 0, 5], time := 0, check := 0 }
    let m (current : FwdCurrent) (order : List FwdItem) : Node :=
      { sending current order .absent with link := { (sending current order .absent).link with store := some h } }
    (at_ (m (.store 0) [.syncPlace])).On ∧ (m (.store 0) [.syncPlace]).link.fwdTx.state ≠ .held
      ∧ (m (.store 0) [.syncPlace]).link.store = some h ∧ (m .idle [.syncPlace]).link.order.head? = some .syncPlace
      ∧ (m (.store 15) [.syncPlace]).link.fwdTx.current = .store 15 ∧ 0 < 15 ∧ 15 < 16
      ∧ (m (.store 16) [.syncPlace, .sof]).link.order = .syncPlace :: [.sof] ∧ [FwdItem.sof].head? ≠ some .syncPlace
      ∧ (∀ i, 0 < i → base.link.fwdTx.current ≠ .store i)
      ∧ (let bs : List Byte := List.replicate 15 0
        (m (.item .syncSof) (bs.map .data ++ .eof :: [.sof])).link.order = bs.map .data ++ .eof :: [.sof] ∧ bs.length = 15
          ∧ (m (.item .syncSof) (bs.map .data ++ .eof :: [.sof])).link.fwdTx.current = .item .syncSof)
      ∧ ∀ bs ∈ [[], List.replicate 10 (0 : Byte), List.replicate 14 0],
        (m (.item .syncSof) (bs.map .data ++ .eoa :: [.sof])).link.order = bs.map .data ++ .eoa :: [.sof] ∧ bs.length < 15
          ∧ (m (.item .syncSof) (bs.map .data ++ .eoa :: [.sof])).link.fwdTx.current = .item .syncSof := by
  refine ⟨by decide, by decide, by decide, by decide, by decide, by decide, by decide, by decide, by decide, ?_,
    ⟨by decide, by decide, by decide⟩, by decide⟩
  intro i _ h
  cases h

/-- Too long; a wrong check value; no block's frame: kinds 00h and 06h, a SYNC of length 4, an ENUMERATE of length 3, a DATA
frame for NONE. -/
theorem witness_FrameForNoBlockIsCountedOrPassed :
    (at_ base).On ∧ ({ aData with check := 0 } : FwdFrame).check ≠ checkValue ((headerOf 0x01 aData).bytes ++ aData.payload)
      ∧ Genuine (frame 0x00 0 0 0 []) 0x00 ∧ Genuine (frame 0x06 0 0 0 []) 0x06 ∧ 5 < (0x06 : Byte).toNat
      ∧ Genuine (frame 0x02 0 0 0 [1, 2, 3, 4]) 0x02 ∧ [1, 2, 3, 4].length ≠ 5
      ∧ Genuine (frame 0x05 0 0 0 [1, 2, 3]) 0x05 ∧ [1, 2, 3].length ≠ 2
      ∧ Genuine (frame 0x01 0xC000 0 0 []) 0x01
      ∧ base.link.passage.matched.getD (base.fwd.matchesDest (frame 0x01 0xC000 0 0 []).dest) = false := by decide +kernel

theorem witness_a_frame_too_long : 1024 < ({ aData with payload := List.replicate 1025 0 } : FwdFrame).payload.length := by
  decide +kernel

theorem witness_AcceptedFrameSetsThePosition : (at_ base).On ∧ Genuine aData 0x01 ∧ Genuine (syncOf 5 0) 0x02 := by decide +kernel

theorem witness_DataFrameOffersTheLevelsOfItsWalk :
    (at_ node21).On ∧ Genuine firstData 0x01
      ∧ node21.link.passage.matched.getD (node21.fwd.matchesDest firstData.dest) = true ∧ node21.sup.state ≠ .failsafe := by
  decide +kernel

/-- K 0; below K; at K. -/
theorem witness_DataFrameInFailsafeCountsTowardsRecovery :
    let m (k r : BitVec 4) : Node := { base with sup := { base.sup with state := .failsafe, k := k, recovery := r } }
    (at_ (m 0 0)).On ∧ Genuine aData 0x01 ∧ base.link.passage.matched.getD (base.fwd.matchesDest aData.dest) = true
      ∧ (m 0 0).sup.state = .failsafe ∧ (m 0 0).sup.k = 0 ∧ (m 3 1).sup.recovery.toNat + 1 < (m 3 1).sup.k.toNat
      ∧ (m 3 2).sup.k ≠ 0 ∧ (m 3 2).sup.k.toNat ≤ (m 3 2).sup.recovery.toNat + 1 := by decide +kernel

/-- A SYNC with every notice disabled; one that reports a log of 16; one in START and one in HOLDOVER that is a time jump, with
every notice enabled, an address and a result to report. -/
theorem witness_SyncFrameSetsTheTimeAndIsHeld :
    (at_ base).On ∧ Genuine (syncOf 5 7) 0x02 ∧ (syncOf 5 7).payload = [0, 0, 0, 5, 7] ∧ base.ret.enable = 0
      ∧ (at_ logged16).On ∧ logged16.ret.enable = 4 ∧ logged16.fwd.address ≠ 0 ∧ logged16.ret.localQ.length < 8
      ∧ logged16.sense.log ≠ []
      ∧ ∀ state ∈ [SupState.start, .holdover],
        let m := { timed (inState logged16 state) 5000 0 with ret := { logged16.ret with enable := 7 } }
        (at_ m).On ∧ (m.sup.state = .start ∨ m.sup.state = .holdover) ∧ m.sched.time = .valid
          ∧ m.sched.threshold.toNat < ((5 : BitVec 32) - m.sched.tick).toInt.natAbs ∧ m.fwd.address ≠ 0 ∧ m.sense.log ≠ [] := by
  decide +kernel

/-- A record of each action, of which the third matches no node, and what is left of a SET LEVEL record. -/
def cueRun : List CueOnWire :=
  [{ due := 5, tag := 9, action := .setLevel, dest := 0x8000, targets := 3, level := 77 },
   { due := 6, tag := 9, action := .start, dest := 0x8000, targets := 0xFFF3, level := 0 },
   { due := 7, tag := 9, action := .stop, dest := 0xC000, targets := 1, level := 0 },
   { due := 8, tag := 0, action := .fire, dest := 0x8000, targets := 1, level := 0 }]

def cueRunFrame : FwdFrame := frame 0x04 0 0 1 (cueRun.flatMap CueOnWire.bytes ++ [0, 0, 0, 5, 9, 1, 0x80, 0, 0, 3, 0])

/-- Parsing ends at nothing, at a missing action byte, at an unknown action and at a record cut one byte short. -/
theorem witness_CueRecordIsJudgedByTable6_3 :
    (at_ base).On ∧ Genuine cueRunFrame 0x04
      ∧ cueRunFrame.payload = cueRun.flatMap CueOnWire.bytes ++ [0, 0, 0, 5, 9, 1, 0x80, 0, 0, 3, 0]
      ∧ EndsCues [] ∧ EndsCues [0, 0, 0, 5, 9] ∧ EndsCues [0, 0, 0, 5, 9, 7, 0x80, 0, 0, 3]
      ∧ EndsCues [0, 0, 0, 5, 9, 1, 0x80, 0, 0, 3, 0] ∧ EndsCues [0, 0, 0, 5, 9, 4, 0x80, 0, 0] := by
  refine ⟨by decide +kernel, by decide +kernel, by decide +kernel, .inl (by decide), .inl (by decide),
    .inr (.inl fun a => by cases a <;> decide), .inr (.inr ⟨.setLevel, by decide, by decide⟩),
    .inr (.inr ⟨.fire, by decide, by decide⟩)⟩

theorem witness_EnumeratingFrameGivesTheAddress :
    (at_ base).On ∧ Genuine (next2 0 1) 0x05 ∧ (next2 0 1).payload = [0, 1]
      ∧ base.link.passage.matched.getD (base.fwd.matchesDest (next2 0 1).dest) = true := by decide +kernel

theorem witness_BusyRefusalAndReplay :
    (at_ (full8 done41)).On ∧ Genuine frame41 0x03 ∧ destMode frame41.dest = .node
      ∧ done41.link.passage.matched.getD (done41.fwd.matchesDest frame41.dest) = true
      ∧ 8 ≤ (full8 done41).ret.localQ.length ∧ done41.ret.localQ.length < 8 ∧ frame41.seq ≠ 0
      ∧ done41.cmd.lastSeq = some frame41.seq ∧ done41.cmd.cache.isSome = true := by decide +kernel

def twoRecords : List (Byte × List Byte) := [(0x04, [1, 20]), (0x7F, [])]

def cutOff (dest : BitVec 16) : FwdFrame := frame 0x03 dest 0 1 [0x04, 2, 1, 20, 0x7F, 0, 0x02, 9]

/-- An answered frame; and one answered and one unanswered frame of a record, a record of an unknown opcode and what runs past
the payload. -/
theorem witness_ExecutedFrameQueuesOneResponse :
    (at_ node5).On ∧ node5.fwd.Sound ∧ Genuine frame41 0x03 ∧ destMode frame41.dest = .node
      ∧ node5.link.passage.matched.getD (node5.fwd.matchesDest frame41.dest) = true ∧ node5.ret.localQ.length < 8
      ∧ ¬(frame41.seq ≠ 0 ∧ node5.cmd.lastSeq = some frame41.seq ∧ node5.cmd.cache ≠ none)
      ∧ (∀ x ∈ twoRecords, x.2.length ≤ 255)
      ∧ [(0x04 : Byte), 2, 1, 20, 0x7F, 0, 0x02, 9] = twoRecords.flatMap recordBytes ++ [0x02, 9]
      ∧ (Genuine (cutOff 0x8000) 0x03 ∧ (cutOff 0x8000).payload = [0x04, 2, 1, 20, 0x7F, 0, 0x02, 9]
        ∧ node5.link.passage.matched.getD (node5.fwd.matchesDest (cutOff 0x8000).dest) = true
        ∧ destMode (cutOff 0x8000).dest ≠ .node)
      ∧ (Genuine (cutOff 5) 0x03 ∧ (cutOff 5).payload = [0x04, 2, 1, 20, 0x7F, 0, 0x02, 9]
        ∧ node5.link.passage.matched.getD (node5.fwd.matchesDest (cutOff 5).dest) = true ∧ destMode (cutOff 5).dest = .node
        ∧ ¬((cutOff 5).seq ≠ 0 ∧ node5.cmd.lastSeq = some (cutOff 5).seq ∧ node5.cmd.cache ≠ none)) := by decide +kernel

/-- What is left of it asks for 9 bytes and has none (R41). -/
theorem witness_runsPast : runsPast [0x02, 9] := by show 0 < 9; decide

/-- An unanswered frame, to ALL, and an answered one. -/
theorem witness_OneRecordFrameRunsItsCommand :
    let all := frame 0x03 0x8000 0 1 (bytesOf [1, 0])
    ((at_ node5).On ∧ Genuine all 0x03 ∧ all.payload = Command.identify.opcode :: byteOf 0 :: [] ∧ destMode all.dest ≠ .node
        ∧ node5.link.passage.matched.getD (node5.fwd.matchesDest all.dest) = true)
      ∧ Genuine frame41 0x03 ∧ [1, 20].length ≤ 255 ∧ frame41.payload = Command.setGroups.opcode :: byteOf 2 :: [1, 20]
      ∧ node5.link.passage.matched.getD (node5.fwd.matchesDest frame41.dest) = true ∧ destMode frame41.dest = .node
      ∧ node5.ret.localQ.length < 8
      ∧ ¬(frame41.seq ≠ 0 ∧ node5.cmd.lastSeq = some frame41.seq ∧ node5.cmd.cache ≠ none) := by decide +kernel

theorem witness_IdentifyAndStatusReport : (at_ base).On ∧ (1 : BitVec 7) ≠ 0 ∧ (127 : BitVec 7) ≠ 0 := by decide

/-- Lengths next to those that are accepted. -/
theorem witness_UnacceptedLengthGivesBadLength :
    (at_ base).On ∧ ([] : List Byte).length = 0 ∧ ([] : List Byte).length ≠ 1 ∧ [(0 : Byte)].length ≠ 0
      ∧ [(0 : Byte), 0].length ≠ 1 ∧ [(0 : Byte)].length ≠ 2 ∧ [(0 : Byte), 0].length ≠ 3 ∧ (List.replicate 5 (0 : Byte)).length ≠ 4
      ∧ ([(0 : Byte), 0].length ≠ 0 ∧ [(0 : Byte), 0].length ≠ 1) ∧ ((List.replicate 6 (0 : Byte)).length ≠ 0
      ∧ (List.replicate 6 (0 : Byte)).length ≠ 5) ∧ ((List.replicate 5 (0 : Byte)).length ≠ 0 ∧ (List.replicate 5 (0 : Byte)).length ≠ 6)
      ∧ ((List.replicate 6 (0 : Byte)).length ≠ 1 ∧ (List.replicate 6 (0 : Byte)).length ≠ 5)
      ∧ (List.replicate 9 (0 : Byte)).length ≠ 1 ∧ (List.replicate 9 (0 : Byte)).length ≠ 8 := by decide

/-- A frame with one record reaches node 5: unanswered to ALL, answered as NODE. -/
abbrev recordTo (dest : BitVec 16) (p : List Nat) : Prop :=
  let f := frame 0x03 dest 9 1 (bytesOf p)
  (at_ node5).On ∧ Genuine f 0x03 ∧ f.payload = bytesOf p
    ∧ node5.link.passage.matched.getD (node5.fwd.matchesDest f.dest) = true ∧ node5.ret.localQ.length < 8
    ∧ ¬(f.seq ≠ 0 ∧ node5.cmd.lastSeq = some f.seq ∧ node5.cmd.cache ≠ none)

/-- A group set with room, and a full one that holds the number and one that does not; an operation code just past the three
and the last, with length 1 and 2. -/
theorem witness_SetGroupsFollowsItsTable :
    (at_ base).On ∧ (withAddress base 7 []).fwd.Sound ∧ (withAddress base 7 [10, 20, 30]).fwd.Sound
      ∧ (withAddress base 7 [10, 20, 30, 255]).fwd.Sound
      ∧ (∀ p ∈ [[0x04, 1, 3], [0x04, 2, 255, 10]], recordTo 0x8000 p ∧ recordTo 5 p) ∧ 2 < (3 : Byte).toNat := by
  decide +kernel

/-- A scope byte just past the three. -/
theorem witness_ResetNodeResetsItsScope : recordTo 0x8000 [0x03, 1, 3] ∧ recordTo 5 [0x03, 1, 3] ∧ 2 < (3 : Byte).toNat := by
  decide +kernel

/-- The last window that fits each table, and the first that does not. -/
theorem witness_TableOpenOpensASession :
    (at_ base).On ∧ 5 < (6 : Byte).toNat ∧ (0 : Byte) = TableId.extraction.code ∧ (31 : Byte).toNat + (1 : Byte).toNat ≤ 32
      ∧ 32 < (31 : Byte).toNat + (2 : Byte).toNat ∧ (4 : Byte) = (TableId.curve 3).code
      ∧ (0 : Byte).toNat + (33 : Byte).toNat ≤ 33 ∧ 33 < (1 : Byte).toNat + (33 : Byte).toNat
      ∧ (5 : Byte) = TableId.failsafe.code ∧ 16 < (255 : Byte).toNat + (255 : Byte).toNat := by decide

/-- No session; a short entry; an entry completed in each of the three kinds of table. -/
theorem witness_TableDataWritesAnEntry :
    let e := withSession base (opened .extraction 4 3 6 [0x87, 0])
    let c := withSession base (opened (.curve 2) 0 33 32 [0x12])
    let f := withSession base (opened .failsafe 0 16 0 [])
    (at_ base).On ∧ base.tables.session.isOpen = false ∧ e.tables.session.isOpen = true
      ∧ (e.tables.session.partialBytes ++ [6, 0]).length < e.tables.session.table.entrySize
      ∧ e.tables.session.table = .extraction ∧ e.tables.session.partialBytes ++ [6, 0, 1] = [0x87, 0, 6, 0, 1]
      ∧ c.tables.session.isOpen = true ∧ c.tables.session.table = .curve 2 ∧ c.tables.session.bank = some .b
      ∧ c.tables.session.partialBytes ++ [0x34] = [0x12, 0x34] ∧ f.tables.session.isOpen = true
      ∧ f.tables.session.table = .failsafe ∧ f.tables.session.partialBytes ++ [2, 1, 0] = [2, 1, 0] := by decide +kernel

/-- A first part that leaves an entry short, one that completes two, and one that ends in a bad entry. -/
theorem witness_EntriesStraddleRecords :
    let e := withSession base (opened .extraction 4 3 6 [])
    (at_ e).On ∧ e.tables.session.isOpen = true ∧ [(0x87 : Byte)] ≠ [] ∧ [(0 : Byte), 6, 0, 1] ≠ []
      ∧ (after (.tableData [0x87]) e).shown.map (·.status) = some .ok
      ∧ replied (.tableData (bytesOf [0x87, 0, 6, 0, 1, 0x87, 0, 7, 0, 1])) e = some (.ok, [2, 5, 0, 255, 0])
      ∧ replied (.tableData (bytesOf [0x87, 0, 6, 0, 0])) e = some (.badEntry, [0, 6, 0, 6, 1]) := by decide +kernel

theorem witness_SessionCloses :
    let c := withSession base (opened (.curve 2) 0 33 32 [0x12])
    let f := withSession base (opened .failsafe 0 16 0 [])
    (at_ c).On ∧ c.tables.session.isOpen = true ∧ c.tables.session.table = .curve 2 ∧ (at_ f).On
      ∧ f.tables.session.table = .failsafe ∧ base.tables.session.isOpen = false := by decide +kernel

/-- A table id, a selector, a count and a window just out of range, and one just in range. -/
theorem witness_TableReadReturnsStoredEntries :
    (at_ base).On ∧ 5 < (6 : Byte).toNat ∧ 1 < (2 : Byte).toNat ∧ (0 : Byte).toNat = 0 ∧ 16 < (15 : Byte).toNat + (2 : Byte).toNat
      ∧ ¬(5 < (5 : Byte).toNat ∨ 1 < (1 : Byte).toNat ∨ (1 : Byte).toNat = 0 ∨ 16 < (15 : Byte).toNat + (1 : Byte).toNat)
      ∧ (4 : Byte).toNat = (3 : Fin 4).val + 1 := by decide

theorem witness_BankSwapFlipsEveryNamedCurve :
    let c := withSession base (opened (.curve 2) 0 33 32 [0x12])
    (at_ c).On ∧ 15 < (16 : Byte).toNat ∧ (15 : Byte).toNat ≤ 15 ∧ c.tables.session.isOpen = true
      ∧ c.tables.session.table = .curve 2 ∧ (15 : Byte).getLsbD 2 = true ∧ base.tables.session.isOpen = false := by decide +kernel

theorem witness_CueFlushEmptiesTheQueue : (at_ node7).On ∧ [(0 : Byte)] ≠ [] ∧ node7.sched.queue ≠ [] := by decide +kernel

theorem witness_CueCancelRemovesItsTag :
    let f := frame 0x03 0x8000 0 1 (bytesOf [0x21, 1, 3])
    (at_ node7).On ∧ ([] : List Byte).length ≠ 1 ∧ [(3 : Byte), 3].length ≠ 1 ∧ Genuine f 0x03 ∧ destMode f.dest ≠ .node
      ∧ node7.link.passage.matched.getD (node7.fwd.matchesDest f.dest) = true ∧ f.payload = [0x21, 1, 3]
      ∧ (3 : Byte) ≠ 0 := by decide +kernel

theorem witness_CueExpiryExecutesTheDueEntries :
    (at_ node7).On ∧ node7.sched.time = .valid
      ∧ node7.sched.queue = cue 1000500 3 .start 1 none :: [cue 1002000 0 .setLevel 2 (some 40000)]
      ∧ base.sched.time = .invalid := by decide +kernel

/-- A group number out of range; a refused setting; a change of mode in RUNNING; settings that are written. -/
theorem witness_ConfigureGroupSetsOrStages :
    let refused (m : Node) (g : Fin 4) (k n0 md r : Byte) : Prop := 12 < k.toNat ∨ (word16 0 n0).toNat < 2 ∨ 1 < md.toNat
      ∨ 1 < r.toNat ∨ ∃ c : Fin 16, m.out.chans[c].group = g ∧ (word16 0 n0).toNat ≤ m.out.chans[c].stagedOffset.toNat
    (at_ changing).On ∧ 3 < (4 : Byte).toNat ∧ (1 : Byte).toNat = (1 : Fin 4).val ∧ refused changing 1 4 2 0 0
      ∧ refused changing 1 13 3 0 0 ∧ ¬refused changing 1 12 3 1 1 ∧ Mode.oneShot ≠ changing.out.groups[1].mode
      ∧ changing.out.groups[1].state ≠ .idle ∧ Mode.continuous = changing.out.groups[1].mode
      ∧ base.out.groups[0].state = .idle := by decide +kernel

/-- A set out of range; every named group fireable; one that is not. -/
theorem witness_GroupCommandsActOnAllNamedOrNone :
    let m := oneShot .armed 0 .restart
    let fireable (st : GroupState) : Prop := st = .armed ∨ st = .delay ∨ st = .pulse
    let named (set : Byte) (g : Fin 4) : Bool := set.getLsbD g
    (at_ m).On ∧ 15 < (16 : Byte).toNat ∧ (15 : Byte).toNat ≤ 15 ∧ (4 : Byte).toNat ≤ 15
      ∧ (∀ g, named 4 g = true → fireable m.out.groups[g].state)
      ∧ ¬(∀ g, named 15 g = true → fireable m.out.groups[g].state) := by decide +kernel

theorem witness_ConfigureChannelMovesAndSets :
    (at_ base).On ∧ 15 < (16 : Byte).toNat ∧ (15 : Byte).toNat = (15 : Fin 16).val ∧ 3 < (4 : Byte).toNat
      ∧ (3 : Byte).toNat = (3 : Fin 4).val ∧ (3 < (4 : Byte).toNat ∨ base.out.groups[3].staged.period.toNat ≤ 0)
      ∧ ¬(3 < (3 : Byte).toNat ∨ base.out.groups[3].staged.period.toNat ≤ (999 : BitVec 16).toNat) := by decide +kernel

theorem witness_StateReports :
    (at_ base).On ∧ (31 < (32 : Byte).toNat ∨ (1 : Byte) = 0 ∨ 16 < (1 : Byte).toNat)
      ∧ ¬(31 < (31 : Byte).toNat ∨ (16 : Byte) = 0 ∨ 16 < (16 : Byte).toNat) ∧ 3 < (4 : Byte).toNat
      ∧ (3 : Byte).toNat = (3 : Fin 4).val ∧ 15 < (16 : Byte).toNat ∧ (15 : Byte).toNat = (15 : Fin 16).val := by decide

/-- Low; an IDLE group; channel 9 of a group RUNNING with N = 8, O = 2 and C = 4. -/
def running2 : Node :=
  withChannel (withGroup base 2 (group .running .continuous 7 (settings 8 0 .ignore) (settings 8 0 .ignore))) 9
    { base.out.chans[9] with group := 2, stagedOffset := 2, activeOffset := 2, compare := 4 }

theorem witness_PulseOutputsShowTheWaveform :
    (low.out.Sound ∧ low.link.resetLow = true) ∧ (base.out.Sound ∧ base.link.resetLow = false
      ∧ base.out.groups[base.out.chans[9].group].state = .idle) ∧ running2.out.Sound ∧ running2.out.chans[9].enable = true
      ∧ running2.out.groups[running2.out.chans[9].group].state = .running
      ∧ 7 < running2.out.groups[running2.out.chans[9].group].active.period.toNat := by
  refine ⟨⟨?_, ?_⟩, ⟨?_, ?_, ?_⟩, ?_, ?_, ?_, ?_⟩ <;> decide +kernel

theorem witness_SenseCommandsConfigureAndRead :
    (at_ base).On ∧ 3 < (4 : Byte).toNat ∧ (3 : Byte).toNat = (3 : Fin 4).val ∧ ((9 : Byte) = 0 ∨ 8 < (9 : Byte).toNat)
      ∧ ¬((8 : Byte) = 0 ∨ 8 < (8 : Byte).toNat) := by decide

/-- An input in each mode but OFF is sound, as the clause on edges asks. -/
theorem witness_EdgesActByPhaseAndLockoutsEnd :
    (at_ logged16).On ∧ (base.sense.inputs[0]).Sound ∧ (logged16.sense.inputs[3]).Sound
      ∧ (input .interval .both 2 0 0 .counting (some true) 2 0xFFFFFF).Sound
      ∧ (input .lowWidth .both 2 0 0 .waitStart none 0 0).Sound ∧ (input .trigger .both 0 4 500 .lockout (some true) 0 0).Sound := by
  decide +kernel

/-- The transmitter HELD and busy; free with nothing waiting; with each queue waiting alone and both. -/
theorem witness_ArbiterServesOldestAndAlternates :
    let n := after .arbiterSelect crowded
    (at_ crowded).On ∧ crowded.link.retTx.state ≠ .held ∧ crowded.link.retTx.current = none
      ∧ crowded.ret.localQ = [] ++ localFrame 35 :: [localFrame 4] ∧ (localFrame 35).sending = false
      ∧ crowded.ret.lastServed = .relayQueue ∧ (¬∃ e ∈ base.ret.localQ, e.sending = false)
      ∧ (¬∃ e ∈ base.ret.relayQ, e.sending = false) ∧ n.link.retTx.current ≠ none ∧ n.link.retTx.current.isSome = true
      ∧ (after .returnFrameSent n).ret.lastServed = .localQueue
      ∧ (after .returnFrameSent n).ret.relayQ = [] ++ relayFrame 16 :: [relayFrame 16] := by decide +kernel

/-- A safe state other than the reset state, and a step it takes. -/
theorem witness_EveryStepKeepsTheMachineSafe :
    ({ node := node7, pending := [.cueExpiry] } : State).Safe
      ∧ step { node := node7, pending := [.cueExpiry] } = .next (at_ (after .cueExpiry node7)) := by
  refine ⟨⟨?_, ?_, ?_, ?_, ?_, ?_, ?_, ?_, ?_⟩, rfl⟩ <;> decide +kernel

/-- The time becomes VALID by a SYNC frame; it becomes INVALID by a reset and by an idle step that enters FAILSAFE. -/
theorem witness_TimeStateChangesOnlyAtItsEvents :
    let held : Node := { timed base 5 0 with
      sup := { base.sup with state := .holdover, holdTimer := some { elapsed := 0, duration := 0 } } }
    (Instr.syncFrame (syncOf 5 0) 0).wellFormed = true ∧ base.sched.time ≠ .valid
      ∧ (after (.syncFrame (syncOf 5 0) 0) base).sched.time = .valid
      ∧ (Instr.resetNodeFull []).wellFormed = true ∧ (timed base 5 0).sched.time = .valid
      ∧ (after (.resetNodeFull []) (timed base 5 0)).sched.time ≠ .valid
      ∧ held.sched.time = .valid ∧ (tickOnce held).sched.time ≠ .valid := by decide +kernel

theorem witness_AddressChangesOnlyAtItsEvents :
    (Instr.enumerateFrame (next2 0 1)).wellFormed = true
      ∧ (after (.enumerateFrame (next2 0 1)) base).fwd.address ≠ base.fwd.address := by decide +kernel

/-- Values at both ends of each clause. -/
theorem witness_CurveEvaluationIsExact : (0 : Nat) ≤ 65535 ∧ (65534 : Nat) < 65535 ∧ (65535 : Nat) ≤ 65535 := by decide

theorem witness_CurveMeetsItsPoints :
    (0 : Nat) ≤ 65535 ∧ (65535 : Nat) ≤ 65535 ∧ (63488 : Nat) ≤ 63488 ∧ (63489 : Nat) ≤ 65534
      ∧ (63488 : Nat) = 2048 * (31 : Fin 32).val + 0 ∧ (65534 : Nat) = 2048 * (31 : Fin 32).val + 2046
      ∧ min 31 (65535 * 65536 / 65535 / 2048) = (31 : Fin 32).val ∧ (63479 : Nat) = 257 * (247 : Byte).toNat := by decide

/-- A destination of each mode, with values at the ends of their ranges. -/
theorem witness_DestinationMatchesByItsMode :
    (withAddress base 1023 [1, 255]).fwd.Sound ∧ (1023 : BitVec 16).toNat / 16384 = 0 ∧ (1024 : BitVec 16).toNat % 16384 = 1024
      ∧ (0x40FF : BitVec 16).toNat / 16384 = 1 ∧ (0x4100 : BitVec 16).toNat % 16384 = 256 ∧ (0x8000 : BitVec 16).toNat / 16384 = 2
      ∧ (0xFFFF : BitVec 16).toNat / 16384 = 3 := by decide +kernel

end Sys2Proof.Tests
end

/-! PROOFS. Curve evaluation (chapter 5, R91 and R92): the four steps, the bounds of the level, and the values it meets. -/

namespace Sys2Proof.Machine

/-! ## The steps of R91 -/

/-- Step 1 of R91: the scaled slot value, *u*. -/
def scaledValue (v : Nat) : Nat := v * 65536 / 65535

/-- Step 2 of R91: the segment, *i*. -/
def segmentOf (v : Nat) : Nat := min 31 (scaledValue v / 2048)

/-- Step 3 of R91: the position within the segment, *r*. -/
def offsetOf (v : Nat) : Nat := scaledValue v - 2048 * segmentOf v

/-- Step 4 of R91 over the integers, before its result is held in 16 bits. -/
def interpolate (lo hi : Int) (r : Nat) : Int := lo + ((hi - lo) * r).tdiv 2048

theorem scaledValue_of_lt {v : Nat} (hv : v < 65535) : scaledValue v = v := by
  unfold scaledValue; omega

theorem segmentOf_le (v : Nat) : segmentOf v ≤ 31 := min_le_left _ _

theorem offsetOf_le {v : Nat} (hv : v ≤ 65535) : offsetOf v ≤ 2048 := by
  unfold offsetOf segmentOf scaledValue; omega

/-- Below 65535 the segment and the position are the quotient and the remainder of the value itself by 2048. -/
theorem segmentOf_offsetOf_of_eq {v k r : Nat} (hr : r < 2048) (hvk : v = 2048 * k + r) (hv : v < 65535) :
    segmentOf v = k ∧ offsetOf v = r := by
  unfold offsetOf segmentOf
  rw [scaledValue_of_lt hv]
  omega

/-! ## Interpolation within a segment -/

theorem interpolate_zero (lo hi : Int) : interpolate lo hi 0 = lo := by simp [interpolate]

theorem interpolate_end (lo hi : Int) : interpolate lo hi 2048 = hi := by simp [interpolate]

theorem interpolate_flat (lo : Int) (r : Nat) : interpolate lo lo r = lo := by simp [interpolate]

/-- Truncation toward zero treats a rise and a fall alike. -/
theorem interpolate_neg (lo hi : Int) (r : Nat) : interpolate (-lo) (-hi) r = -interpolate lo hi r := by
  have rise : (-hi - -lo) * (r : Int) = -((hi - lo) * r) := by ring
  rw [interpolate, interpolate, rise, Int.neg_tdiv, neg_add]

/-- On a rising segment the truncation is the floor. -/
theorem interpolate_of_le {lo hi : Int} (h : lo ≤ hi) (r : Nat) : interpolate lo hi r = lo + (hi - lo) * r / 2048 := by
  have : 0 ≤ (hi - lo) * (r : Int) := mul_nonneg (by omega) (by omega)
  rw [interpolate, Int.tdiv_eq_ediv_of_nonneg this]

theorem interpolate_mem_of_le {lo hi : Int} (h : lo ≤ hi) {r : Nat} (hr : r ≤ 2048) :
    lo ≤ interpolate lo hi r ∧ interpolate lo hi r ≤ hi := by
  have lower : 0 ≤ (hi - lo) * (r : Int) := mul_nonneg (by omega) (by omega)
  have upper : (hi - lo) * (r : Int) ≤ (hi - lo) * 2048 := mul_le_mul_of_nonneg_left (by omega) (by omega)
  rw [interpolate_of_le h]
  omega

theorem interpolate_mem_of_ge {lo hi : Int} (h : hi ≤ lo) {r : Nat} (hr : r ≤ 2048) :
    hi ≤ interpolate lo hi r ∧ interpolate lo hi r ≤ lo := by
  have mirrored := interpolate_mem_of_le (neg_le_neg h) hr
  rw [interpolate_neg] at mirrored
  omega

/-! ## The level -/

theorem toNat_ofInt_of_mem {x : Int} (h0 : 0 ≤ x) (h1 : x < 65536) : ((BitVec.ofInt 16 x).toNat : Int) = x := by
  rw [BitVec.toNat_ofInt]
  omega

/-- The level is the exact integer of step 4: it lies between two points, so 16 bits hold it. -/
theorem evalCurve_toNat_getD (p : Vector (BitVec 16) 33) {v : Nat} (hv : v ≤ 65535) :
    ((evalCurve p v).toNat : Int)
      = interpolate (p.toList.getD (segmentOf v) 0).toNat (p.toList.getD (segmentOf v + 1) 0).toNat (offsetOf v) := by
  have fits : ∀ lo hi : BitVec 16, ((BitVec.ofInt 16 (interpolate lo.toNat hi.toNat (offsetOf v))).toNat : Int)
      = interpolate lo.toNat hi.toNat (offsetOf v) := by
    intro lo hi
    have hlo := lo.isLt
    have hhi := hi.isLt
    rcases le_total (lo.toNat : Int) hi.toNat with rising | falling
    · have between := interpolate_mem_of_le rising (offsetOf_le hv)
      exact toNat_ofInt_of_mem (by omega) (by omega)
    · have between := interpolate_mem_of_ge falling (offsetOf_le hv)
      exact toNat_ofInt_of_mem (by omega) (by omega)
  exact fits _ _

theorem evalCurve_toNat_of_segmentOf (p : Vector (BitVec 16) 33) {v k : Nat} (hv : v ≤ 65535) (hk : k < 32)
    (hseg : segmentOf v = k) : ((evalCurve p v).toNat : Int) = interpolate p[k].toNat p[k + 1].toNat (offsetOf v) := by
  have getD_eq : ∀ j (hj : j < 33), p.toList.getD j 0 = p[j] := by
    intro j hj
    simp [hj]
  rw [evalCurve_toNat_getD p hv, hseg, getD_eq k (by omega), getD_eq (k + 1) (by omega)]

/-- The level at `2048 * k + r`, below the value 65535. -/
theorem evalCurve_toNat_of_eq (p : Vector (BitVec 16) 33) {v k r : Nat} (hk : k < 32) (hr : r < 2048)
    (hvk : v = 2048 * k + r) (hv : v < 65535) :
    ((evalCurve p v).toNat : Int) = interpolate p[k].toNat p[k + 1].toNat r := by
  obtain ⟨hseg, hoff⟩ := segmentOf_offsetOf_of_eq hr hvk hv
  rw [evalCurve_toNat_of_segmentOf p hv.le hk hseg, hoff]

theorem evalCurve_point (p : Vector (BitVec 16) 33) {k : Nat} (hk : k < 32) : evalCurve p (2048 * k) = p[k] := by
  have level := evalCurve_toNat_of_eq p hk (r := 0) (by omega) rfl (by omega)
  rw [interpolate_zero] at level
  exact BitVec.eq_of_toNat_eq (by exact_mod_cast level)

/-- The value 65535 stands at the end of the last segment. -/
theorem evalCurve_last (p : Vector (BitVec 16) 33) : evalCurve p 65535 = p[32] := by
  have level := evalCurve_toNat_of_segmentOf p (v := 65535) (k := 31) (by omega) (by omega) (by decide)
  rw [show offsetOf 65535 = 2048 by decide, interpolate_end] at level
  exact BitVec.eq_of_toNat_eq (by exact_mod_cast level)

theorem evalCurve_flat (p : Vector (BitVec 16) 33) {v k : Nat} (hv : v ≤ 65535) (hk : k < 32) (hseg : segmentOf v = k)
    (flat : p[k] = p[k + 1]) : evalCurve p v = p[k] := by
  have level := evalCurve_toNat_of_segmentOf p hv hk hseg
  rw [← flat, interpolate_flat] at level
  exact BitVec.eq_of_toNat_eq (by exact_mod_cast level)

/-! ## The default curve -/

theorem identityPoints_eq_ofFn :
    identityPoints = .ofFn fun k : Fin 33 => BitVec.ofNat 16 (min (2048 * k.val) 65535) := by
  ext k hk
  simp [identityPoints, min_comm]

theorem identityPoints_toNat {k : Nat} (hk : k < 33) : identityPoints[k].toNat = min 65535 (2048 * k) := by
  simp only [identityPoints, Vector.getElem_mapIdx, BitVec.toNat_ofNat]
  omega

/-- Segments 0 to 30 rise by 2048 and give the value itself; segment 31 rises by 2047, so the truncation takes 1 from
every value strictly inside it. -/
theorem evalCurve_identityPoints {v : Nat} (hv : v ≤ 65535) :
    (evalCurve identityPoints v).toNat = if 63489 ≤ v ∧ v ≤ 65534 then v - 1 else v := by
  rcases Nat.lt_or_eq_of_le hv with below | rfl
  · have hk : v / 2048 < 32 := by omega
    have level := evalCurve_toNat_of_eq identityPoints hk (Nat.mod_lt v (by omega)) (Nat.div_add_mod v 2048).symm below
    rw [identityPoints_toNat (by omega), identityPoints_toNat (by omega), interpolate_of_le (by omega)] at level
    rcases Nat.lt_or_ge (v / 2048) 31 with inner | last
    · have rise : ((min 65535 (2048 * (v / 2048 + 1)) : Nat) : Int) - (min 65535 (2048 * (v / 2048)) : Nat) = 2048 := by
        omega
      rw [rise] at level
      split <;> omega
    · have rise : ((min 65535 (2048 * (v / 2048 + 1)) : Nat) : Int) - (min 65535 (2048 * (v / 2048)) : Nat) = 2047 := by
        omega
      rw [rise] at level
      split <;> omega
  · rw [evalCurve_last, identityPoints_toNat (by omega)]
    simp

/-! ## The statements -/

/-- Settles O59: the level is the exact integer of step 4, which lies between the points on a rise and on a fall. -/
theorem curveEvaluationIsExact : Obligations.CurveEvaluationIsExact := by
  intro p v hv u i r lo hi level
  have exact_level : level = interpolate lo hi r := evalCurve_toNat_getD p hv
  have hr : r ≤ 2048 := offsetOf_le hv
  refine ⟨exact_level, scaledValue_of_lt, ?atTop, segmentOf_le v, hr, ?rising, ?falling⟩
  case atTop => rintro rfl; rfl
  case rising => intro h; rw [exact_level]; exact interpolate_mem_of_le h hr
  case falling => intro h; rw [exact_level]; exact interpolate_mem_of_ge h hr

/-- Settles O10: each value of R92 from its segment and position, and the default curve from the rise of its segments. -/
theorem curveMeetsItsPoints : Obligations.CurveMeetsItsPoints := by
  constructor
  · intro p v hv u i
    refine ⟨?first, ?last, ?point, ?inner, ?flat⟩
    case first => rintro rfl; exact evalCurve_point p (k := 0) (by omega)
    case last => rintro rfl; exact evalCurve_last p
    case point =>
      intro k hvk
      have position : offsetOf v = 0 := (segmentOf_offsetOf_of_eq (by omega) hvk (by omega)).2
      exact ⟨position, hvk ▸ evalCurve_point p k.isLt⟩
    case inner =>
      intro k r hr hvk below
      exact evalCurve_toNat_of_eq p k.isLt hr hvk below
    case flat =>
      intro k hseg flat
      exact evalCurve_flat p hv k.isLt hseg flat
  · intro v hv identity
    have same : identityPoints = identity := identityPoints_eq_ofFn
    have level : (evalCurve identity v).toNat = if 63489 ≤ v ∧ v ≤ 65534 then v - 1 else v :=
      same ▸ evalCurve_identityPoints hv
    refine ⟨same, ?meets, ?less, ?byte⟩
    case meets => intro h; rw [level, if_neg (by omega)]
    case less => intro h1 h2; rw [level, if_pos ⟨h1, h2⟩]
    case byte =>
      rintro b rfl
      have hb := b.isLt
      rw [level]
      split <;> split <;> omega

end Sys2Proof.Machine

/-! PROOFS. What a command does to the node, once over: the queue stands, and with RESETN low nothing acts but the resets. -/

namespace Sys2Proof

open Machine

/-- What a command does to a node whose RESETN is high. -/
def Instr.effect : Instr → Node → Node
  | .powerOn pins, _ | .resetnRelease pins, _ => .released pins
  | .resetnFall, n => n.resetFall
  | .characterReceived lane info stop, n => n.receive lane (classify info stop)
  | .laneSilenceTimeout lane, n => n.fallSilent lane
  | .underrun, n => n.underrun
  | .heldSyncSofSent, n => n.sendSyncSof
  | .heldSyncSent, n => n.sendSyncEof
  | .dataFrame f, n => n.frameEnd (headerOf kindData f) f.payload f.check 0
  | .syncFrame f elapsed, n => n.frameEnd (headerOf kindSync f) f.payload f.check elapsed.toNat
  | .cueFrame f, n => n.frameEnd (headerOf kindCue f) f.payload f.check 0
  | .enumerateFrame f, n => n.frameEnd (headerOf kindEnumerate f) f.payload f.check 0
  | .unknownKindFrame kind f, n => n.frameEnd (headerOf kind f) f.payload f.check 0
  | .manageFrame f, n => n.frameEnd (headerOf kindManage f) f.payload f.check 0
  | .identify p, n => n.runRecord .identify p
  | .status none rest, n => n.runRecord .status rest
  | .status (some hi) rest, n => n.runRecord .status ((hi ++ 0#1) :: rest)
  | .statusClear spare rest, n => n.runRecord .status ((spare ++ 1#1) :: rest)
  | .resetNodeOutputs rest, n => n.runRecord .resetNode (Scope.outputs.code :: rest)
  | .resetNodeFull rest, n => n.runRecord .resetNode (Scope.full.code :: rest)
  | .resetNodeFactory rest, n => n.runRecord .resetNode (Scope.factory.code :: rest)
  | .setGroupsQuery, n => n.runRecord .setGroups []
  | .setGroupsAdd rest, n => n.runRecord .setGroups (1 :: rest)
  | .setGroupsRemove rest, n => n.runRecord .setGroups (2 :: rest)
  | .setGroupsClear rest, n => n.runRecord .setGroups (0 :: rest)
  | .tableOpen p, n => n.runRecord .tableOpen p
  | .tableData p, n => n.runRecord .tableData p
  | .tableClose spare rest, n => n.runRecord .tableClose ((spare ++ 0#1) :: rest)
  | .tableCloseSwap spare rest, n => n.runRecord .tableClose ((spare ++ 1#1) :: rest)
  | .sessionExpiry, n => { n with tables := n.tables.expire }
  | .tableRead p, n => n.runRecord .tableRead p
  | .bankSwap p, n => n.runRecord .bankSwap p
  | .configureTime p, n => n.runRecord .configureTime p
  | .cueCancel p, n => n.runRecord .cueCancel p
  | .cueFlush p, n => n.runRecord .cueFlush p
  | .cueList p, n => n.runRecord .cueList p
  | .cueExpiry, n => n.cueExpiry
  | .configureGroup p, n => n.runRecord .configureGroup p
  | .startGroups p, n => n.runRecord .startGroups p
  | .stopGroups p, n => n.runRecord .stopGroups p
  | .fireGroups p, n => n.runRecord .fireGroups p
  | .configureChannel p, n => n.runRecord .configureChannel p
  | .groupState p, n => n.runRecord .groupState p
  | .channelState p, n => n.runRecord .channelState p
  | .startTick g, n => { n with out := n.out.takeStart g }
  | .periodWrap g, n => { n with out := n.out.wrap g }
  | .delayEnd g, n => { n with out := n.out.endDelay g }
  | .pulseEnd g, n => { n with out := n.out.endPulse g }
  | .configureSense p, n => n.runRecord .configureSense p
  | .senseEdge i level, n => n.edgeTo i level
  | .lockoutEnd i, n => { n with sense := n.sense.endLockout i }
  | .senseRead p, n => n.runRecord .senseRead p
  | .configureNotices p, n => n.runRecord .configureNotices p
  | .configureSupervision p, n => n.runRecord .configureSupervision p
  | .recover p, n => n.runRecord .recover p
  | .supervisionTimerExpiry, n => n.supervisionExpiry
  | .holdoverTimerExpiry, n => n.holdoverExpiry
  | .returnFrameReceived f, n => n.endD (returnOutcome f)
  | .arbiterSelect, n => n.arbitrate
  | .returnFrameSent, n => n.endReturnFrame
  | .outputClockTick g, n => { n with out := n.out.tick g }
  | .sampleEvent i raw, n => n.sample i raw
  | .forwardTransmitterCharacter, n => n.forwardCharacter

/-- Power and pin reset: the three commands that act with RESETN low too. -/
def Instr.isReset : Instr → Bool
  | .powerOn _ | .resetnFall | .resetnRelease _ => true
  | _ => false

end Sys2Proof

namespace Sys2Proof.Machine

-- One proof at a time: side by side, their threads' stacks pass the memory limit of a check.
set_option Elab.async false

/-- A command is settled by the node it makes. -/
theorem next_withNode {s : State} {n m : Node} (h : n = m) : (.next (s.withNode n) : Result) = .next (s.withNode m) := by
  rw [h]

/-- A command that is no reset is its effect wherever RESETN is high. -/
theorem exec_eq_awake {c : Instr} (h : c.isReset = false) (s : State) : exec c s = s.awake c.effect := by
  cases c
  case powerOn | resetnFall | resetnRelease => exact absurd h Bool.noConfusion
  case status spare rest => cases spare <;> rfl
  all_goals rfl

/-- With RESETN high, and at a reset whatever its level, a command does its effect. -/
theorem exec_eq_effect {c : Instr} {s : State} (h : s.On ∨ c.isReset = true) :
    exec c s = .next (s.withNode (c.effect s.node)) := by
  by_cases reset : c.isReset = true
  · cases c
    case powerOn | resetnFall | resetnRelease => rfl
    all_goals exact absurd reset Bool.false_ne_true
  · rw [exec_eq_awake (Bool.eq_false_iff.2 reset), State.awake_on (h.resolve_right reset)]

theorem exec_on {s : State} (h : s.On) (c : Instr) : exec c s = .next (s.withNode (c.effect s.node)) :=
  exec_eq_effect (.inl h)

/-- With RESETN low every command that is not a reset changes nothing (R22, log entry 15). -/
theorem exec_low_of_not_reset {c : Instr} {s : State} (low : s.node.link.resetLow = true) (h : c.isReset = false) :
    exec c s = .next s := by
  refine exec_low low ?_ ?_ ?_
  · rintro p rfl; exact absurd h Bool.noConfusion
  · rintro rfl; exact absurd h Bool.noConfusion
  · rintro p rfl; exact absurd h Bool.noConfusion

/-- What a command does in any state. -/
theorem exec_cases (c : Instr) (s : State) :
    exec c s = .next (s.withNode (c.effect s.node)) ∨ exec c s = .next s := by
  cases low : s.node.link.resetLow with
  | false => exact .inl (exec_on low c)
  | true =>
    cases reset : c.isReset with
    | true => exact .inl (exec_eq_effect (.inr reset))
    | false => exact .inr (exec_low_of_not_reset low reset)

/-- The node after a command: its effect, or the same node when the command is taken with RESETN low. -/
theorem exec_next {c : Instr} {s t : State} (h : exec c s = .next t) :
    (t = s.withNode (c.effect s.node) ∧ (c.isReset = true ∨ s.On)) ∨ t = s := by
  cases low : s.node.link.resetLow with
  | false => exact .inl ⟨Host.Outcome.next.inj (h.symm.trans (exec_on low c)), .inr low⟩
  | true =>
    cases reset : c.isReset with
    | true => exact .inl ⟨Host.Outcome.next.inj (h.symm.trans (exec_eq_effect (.inr reset))), .inl rfl⟩
    | false => exact .inr (Host.Outcome.next.inj (h.symm.trans (exec_low_of_not_reset low reset)))

/-- With RESETN low the clock does not run (R192). -/
theorem Node.clockPeriod_low {n : Node} (h : n.link.resetLow = true) : n.clockPeriod = n := by
  simp [Node.clockPeriod, h]

/-- Settles O1, by the definition of a step on a queue with a front command. -/
theorem stepRunsTheFrontCommand : Obligations.StepRunsTheFrontCommand := fun _ _ => rfl

/-- Settles O4: a command is its effect or nothing, and RESETN low leaves the resets alone. -/
theorem everyCommandGoesOnAndResetnLowFreezes : Obligations.EveryCommandGoesOnAndResetnLowFreezes := by
  refine ⟨fun c s => ?goesOn, fun s low => ⟨fun c h1 h2 h3 => exec_low low h1 h2 h3, fun empty => ?clock⟩⟩
  case goesOn =>
    obtain e | e := exec_cases c s
    · exact ⟨_, e⟩
    · exact ⟨s.node, e⟩
  case clock => rw [step_idle s empty, Node.clockPeriod_low low]

/-! ## Every step keeps the machine safe -/

/-- A sound node with RESETN high stays sound under what keeps every block sound. -/
theorem Node.Keeps.safe {n m : Node} (k : n.Keeps m) (on : n.link.resetLow = false) {q : List Instr}
    (h : State.Safe { node := n, pending := q }) : State.Safe { node := m, pending := q } := by
  obtain ⟨fwd, tables, sched, out, sense, sup, queues, link, fwdHeld, retHeld, -⟩ := h
  have live : n.Live := ⟨on, fun e => Bool.false_ne_true (on.symm.trans (fwdHeld.1 e)),
    fun e => Bool.false_ne_true (on.symm.trans (retHeld.1 e))⟩
  obtain ⟨low, fwdUp, retUp⟩ := k.live live
  refine ⟨k.fwd fwd, k.tables tables, k.sched sched, k.out out, k.sense sense, k.sup sup, k.queues fwd queues,
    k.link link, ?_, ?_, ?_⟩
  · exact iff_of_false fwdUp (by simp [low])
  · exact iff_of_false retUp (by simp [low])
  · intro e; simp [low] at e

theorem Node.released_safe (pins : BitVec 2) (q : List Instr) : State.Safe { node := .released pins, pending := q } :=
  ⟨Forwarding.Sound.of_nil rfl, Tables.initial_sound, Schedule.Sound.of_nil rfl, Output.initial_sound, Sense.initial_sound,
    Supervision.initial_sound, (by decide : (Node.released 0).QueuesSound), (by decide : (Node.released 0).link.Sound),
    (by decide : (Node.released 0).HeldSound)⟩

theorem Node.resetFall_safe {n : Node} {q : List Instr} (h : State.Safe { node := n, pending := q }) :
    State.Safe { node := n.resetFall, pending := q } := by
  obtain ⟨fwd, tables, sched, out, sense, sup, queues, -, -⟩ := h
  refine ⟨fwd, tables, sched, out, sense, sup, ⟨?_, queues.2⟩, ?_, ?_⟩
  · exact ⟨Nat.zero_le _, Nat.zero_le _, Nat.zero_le _, by simp [Node.resetFall], by simp [Node.resetFall]⟩
  · exact ⟨Nat.zero_le _, rfl, fun e => absurd e (by simp [Node.resetFall, FwdCurrent.fromStore])⟩
  · simp [Node.HeldSound, Node.resetFall, Reception.outside]

theorem effect_keeps {c : Instr} (h : c.isReset = false) (n : Node) : n.Keeps (c.effect n) := by
  cases c
  case powerOn | resetnFall | resetnRelease => exact absurd h Bool.noConfusion
  case characterReceived => exact n.receive_keeps _ _
  case laneSilenceTimeout => exact n.fallSilent_keeps _
  case underrun => exact n.underrun_keeps
  case heldSyncSofSent => exact n.sendSyncSof_keeps
  case heldSyncSent => exact n.sendSyncEof_keeps
  case dataFrame | syncFrame | cueFrame | enumerateFrame | unknownKindFrame | manageFrame =>
    exact n.frameEnd_keeps _ _ _ _
  case sessionExpiry => exact { tables := Tables.expire_sound }
  case cueExpiry => exact n.cueExpiry_keeps
  case startTick g => exact { out := fun o => o.takeStart g }
  case periodWrap g => exact { out := fun o => o.wrap g }
  case delayEnd g => exact { out := fun o => o.endDelay g }
  case pulseEnd g => exact { out := fun o => o.endPulse g }
  case outputClockTick g => exact { out := fun o => o.tick g }
  case senseEdge => exact n.edgeTo_keeps _ _
  case lockoutEnd i => exact { sense := fun c => c.endLockout i }
  case sampleEvent => exact n.sample_keeps _ _
  case supervisionTimerExpiry => exact n.supervisionExpiry_keeps
  case holdoverTimerExpiry => exact n.holdoverExpiry_keeps
  case returnFrameReceived => exact n.returnFrame_keeps _
  case arbiterSelect => exact n.arbitrate_keeps
  case returnFrameSent => exact n.endReturnFrame_keeps
  case forwardTransmitterCharacter => exact n.forwardCharacter_keeps
  case status spare rest => cases spare <;> exact n.runRecord_keeps _ _
  all_goals exact n.runRecord_keeps _ _

theorem exec_keeps_safe {c : Instr} {s t : State} (safe : s.Safe) (h : exec c s = .next t) : t.Safe := by
  obtain ⟨rfl, acts⟩ | rfl := exec_next h
  · by_cases reset : c.isReset = true
    · cases c
      case powerOn pins | resetnRelease pins => exact Node.released_safe pins s.pending
      case resetnFall => exact Node.resetFall_safe safe
      all_goals exact absurd reset Bool.false_ne_true
    · exact (effect_keeps (Bool.eq_false_iff.2 reset) s.node).safe (acts.resolve_left reset) safe
  · exact safe

/-- A clock period keeps the machine safe; with RESETN low it does nothing. -/
theorem clockPeriod_keeps_safe {s : State} (safe : s.Safe) : (s.withNode s.node.clockPeriod).Safe := by
  cases low : s.node.link.resetLow with
  | false => exact s.node.clockPeriod_keeps.safe low safe
  | true => rwa [Node.clockPeriod_low low]

/-- Settles O55: a clock period and every command keep each block sound, and a reset makes it so. -/
theorem everyStepKeepsTheMachineSafe : Obligations.EveryStepKeepsTheMachineSafe := by
  intro s t safe h
  cases queue : s.pending with
  | nil =>
    rw [step_idle s queue] at h
    exact Host.Outcome.next.inj h ▸ clockPeriod_keeps_safe safe
  | cons c rest =>
    rw [step_pending s c rest queue] at h
    exact exec_keeps_safe (s := { s with pending := rest }) safe h

/-- Settles O56, from the values of each block at the release of a reset. -/
theorem resetIsSafe : Obligations.ResetIsSafe := Node.released_safe 0 []

end Sys2Proof.Machine

/-! PROOFS. What the records of a MANAGE frame leave standing, and how a frame runs them: the run record by record is the run
of the frame's bytes (R41 to R48). -/

namespace Sys2Proof.Machine

-- One proof at a time: side by side, their threads' stacks pass the memory limit of a check.
set_option Elab.async false

/-! ## What a record leaves standing -/

/-- A local response queue is longer by notices only, behind what it held (R164, R165). -/
def GrowsByNotices (before after : List LocalEntry) : Prop :=
  ∃ notices, after = before ++ notices ∧ ∀ x ∈ notices, x.frame.kind = 0x82

theorem GrowsByNotices.rfl {q : List LocalEntry} : GrowsByNotices q q := ⟨[], by simp, nofun⟩

theorem GrowsByNotices.trans {a b c : List LocalEntry} (h : GrowsByNotices a b) (k : GrowsByNotices b c) :
    GrowsByNotices a c := by
  obtain ⟨xs, rfl, hx⟩ := h
  obtain ⟨ys, rfl, hy⟩ := k
  refine ⟨xs ++ ys, List.append_assoc .., fun x m => ?_⟩
  obtain m | m := List.mem_append.1 m
  · exact hx x m
  · exact hy x m

theorem ReturnUnit.notice_grows (r : ReturnUnit) (a : BitVec 10) (c : Category) (d : List Byte) :
    GrowsByNotices r.localQ (r.notice a c d).localQ := by
  unfold ReturnUnit.notice
  split
  · split
    · exact ⟨[{ frame := noticeFrame a c d, sending := false }], by rfl, by simp [noticeFrame]⟩
    · exact .rfl
  · exact .rfl

theorem Node.supNotices_grows (n : Node) (cs : List SupChange) : GrowsByNotices n.ret.localQ (n.supNotices cs).ret.localQ := by
  have run : ∀ (cs : List SupChange) (r : ReturnUnit),
      GrowsByNotices r.localQ (cs.foldl (fun r c => r.supNotice n.fwd.address c) r).localQ := by
    intro cs
    induction cs with
    | nil => exact fun _ => .rfl
    | cons c cs ih => exact fun r => (r.notice_grows _ _ _).trans (ih _)
  exact run cs n.ret

/-- The node `m`, reached from `n` by command records alone: the link ports, the address, the position, the chain time and the
command unit's memory stand, and the local response queue gains notices at most (R41, R44). -/
structure Node.RanRecords (n m : Node) : Prop where
  link : m.link = n.link := by rfl
  address : m.fwd.address = n.fwd.address := by rfl
  position : m.fwd.position = n.fwd.position := by rfl
  time : m.sched.time = n.sched.time := by rfl
  tick : m.sched.tick = n.sched.tick := by rfl
  sub : m.sched.sub = n.sched.sub := by rfl
  lastSeq : m.cmd.lastSeq = n.cmd.lastSeq := by rfl
  cache : m.cmd.cache = n.cmd.cache := by rfl
  queue : GrowsByNotices n.ret.localQ m.ret.localQ := by exact GrowsByNotices.rfl

theorem Node.RanRecords.rfl {n : Node} : n.RanRecords n := {}

theorem Node.RanRecords.of_eq {n m : Node} (h : m = n) : n.RanRecords m := h ▸ .rfl

theorem Node.RanRecords.trans {a b c : Node} (h : a.RanRecords b) (k : b.RanRecords c) : a.RanRecords c where
  link := k.link.trans h.link
  address := k.address.trans h.address
  position := k.position.trans h.position
  time := k.time.trans h.time
  tick := k.tick.trans h.tick
  sub := k.sub.trans h.sub
  lastSeq := k.lastSeq.trans h.lastSeq
  cache := k.cache.trans h.cache
  queue := h.queue.trans k.queue

theorem cmdStatus_ran (p : List Byte) (n : Node) : n.RanRecords (cmdStatus p n).2 := by
  unfold cmdStatus
  (repeat' split) <;> exact {}

theorem cmdSetGroups_ran (p : List Byte) (n : Node) : n.RanRecords (cmdSetGroups p n).2 := by
  unfold cmdSetGroups addGroup removeGroup
  (repeat' split) <;> exact {}

theorem cmdTableOpen_ran (p : List Byte) (n : Node) : n.RanRecords (cmdTableOpen p n).2 := by
  unfold cmdTableOpen
  (repeat' split) <;> exact {}

theorem cmdTableData_ran (p : List Byte) (n : Node) : n.RanRecords (cmdTableData p n).2 := by
  unfold cmdTableData
  (repeat' split) <;> exact {}

theorem cmdTableClose_ran (p : List Byte) (n : Node) : n.RanRecords (cmdTableClose p n).2 := by
  unfold cmdTableClose
  (repeat' split) <;> exact {}

theorem cmdBankSwap_ran (p : List Byte) (n : Node) : n.RanRecords (cmdBankSwap p n).2 := by
  unfold cmdBankSwap
  (repeat' split) <;> exact {}

theorem cmdConfigureTime_ran (p : List Byte) (n : Node) : n.RanRecords (cmdConfigureTime p n).2 := by
  unfold cmdConfigureTime
  (repeat' split) <;> exact {}

theorem cmdCueCancel_ran (p : List Byte) (n : Node) : n.RanRecords (cmdCueCancel p n).2 := by
  unfold cmdCueCancel
  (repeat' split) <;> exact {}

theorem cmdCueFlush_ran (p : List Byte) (n : Node) : n.RanRecords (cmdCueFlush p n).2 := by
  unfold cmdCueFlush
  (repeat' split) <;> exact {}

theorem cmdConfigureGroup_ran (p : List Byte) (n : Node) : n.RanRecords (cmdConfigureGroup p n).2 := by
  unfold cmdConfigureGroup configureGroup
  (repeat' split) <;> exact {}

theorem groupCommand_ran (p : List Byte) (passes : GroupState → Bool) (act : Output → Fin 4 → Output) (n : Node) :
    n.RanRecords (groupCommand p passes act n).2 := by
  unfold groupCommand
  dsimp only
  (repeat' split) <;> exact {}

theorem cmdConfigureChannel_ran (p : List Byte) (n : Node) : n.RanRecords (cmdConfigureChannel p n).2 := by
  unfold cmdConfigureChannel configureChannel
  dsimp only
  (repeat' split) <;> exact {}

theorem cmdConfigureSense_ran (p : List Byte) (n : Node) : n.RanRecords (cmdConfigureSense p n).2 := by
  unfold cmdConfigureSense configureSense
  (repeat' split) <;> exact {}

theorem cmdSenseRead_ran (p : List Byte) (n : Node) : n.RanRecords (cmdSenseRead p n).2 := by
  unfold cmdSenseRead
  (repeat' split) <;> exact {}

theorem cmdConfigureNotices_ran (p : List Byte) (n : Node) : n.RanRecords (cmdConfigureNotices p n).2 := by
  unfold cmdConfigureNotices
  (repeat' split) <;> exact {}

theorem cmdConfigureSupervision_ran (p : List Byte) (n : Node) : n.RanRecords (cmdConfigureSupervision p n).2 := by
  unfold cmdConfigureSupervision
  dsimp only
  (repeat' split) <;> exact {}

/-- RECOVER is the one record that hands over a notice (R185, R187). -/
theorem cmdRecover_ran (p : List Byte) (n : Node) : n.RanRecords (cmdRecover p n).2 := by
  unfold cmdRecover
  split
  · split
    · exact { queue := Node.supNotices_grows _ _ }
    · exact {}
  · exact {}

/-- The five commands that only report leave the node as it was (R55, R83, R121, R144, R145). -/
theorem reports_change_nothing (p : List Byte) (n : Node) :
    (cmdIdentify p n).2 = n ∧ (cmdTableRead p n).2 = n ∧ (cmdCueList p n).2 = n ∧ (cmdGroupState p n).2 = n
      ∧ (cmdChannelState p n).2 = n := by
  refine ⟨?_, ?_, ?_, ?_, ?_⟩
  · unfold cmdIdentify; split <;> rfl
  · unfold cmdTableRead; (repeat' split) <;> rfl
  · unfold cmdCueList; (repeat' split) <;> rfl
  · unfold cmdGroupState; (repeat' split) <;> rfl
  · unfold cmdChannelState; (repeat' split) <;> rfl

theorem runCommand_ran (c : Command) (p : List Byte) (n : Node) : n.RanRecords (runCommand c p n).node := by
  obtain ⟨identify, tableRead, cueList, groupState, channelState⟩ := reports_change_nothing p n
  cases c
  case identify => exact .of_eq identify
  case status => exact cmdStatus_ran p n
  case resetNode => exact .rfl
  case setGroups => exact cmdSetGroups_ran p n
  case tableOpen => exact cmdTableOpen_ran p n
  case tableData => exact cmdTableData_ran p n
  case tableClose => exact cmdTableClose_ran p n
  case tableRead => exact .of_eq tableRead
  case bankSwap => exact cmdBankSwap_ran p n
  case configureTime => exact cmdConfigureTime_ran p n
  case cueCancel => exact cmdCueCancel_ran p n
  case cueFlush => exact cmdCueFlush_ran p n
  case cueList => exact .of_eq cueList
  case configureGroup => exact cmdConfigureGroup_ran p n
  case startGroups | stopGroups | fireGroups => exact groupCommand_ran p _ _ n
  case configureChannel => exact cmdConfigureChannel_ran p n
  case groupState => exact .of_eq groupState
  case channelState => exact .of_eq channelState
  case configureSense => exact cmdConfigureSense_ran p n
  case senseRead => exact cmdSenseRead_ran p n
  case configureNotices => exact cmdConfigureNotices_ran p n
  case configureSupervision => exact cmdConfigureSupervision_ran p n
  case recover => exact cmdRecover_ran p n

/-- A reset is left behind by RESET NODE alone, with the scope its one parameter byte names (R59). -/
theorem runCommand_reset {c : Command} {p : List Byte} {n : Node} {scope : Scope} (h : (runCommand c p n).reset = some scope) :
    c = .resetNode ∧ p = [scope.code] := by
  have code : ∀ (b : Byte) (x : Scope), Scope.ofCode b = some x → b = x.code := by
    intro b x e
    unfold Scope.ofCode at e
    split at e <;> cases e <;> exact BitVec.eq_of_toNat_eq ‹_›
  cases c
  case resetNode =>
    refine ⟨rfl, ?_⟩
    change (cmdResetNode p).2 = some scope at h
    unfold cmdResetNode at h
    split at h
    · rename_i b
      split at h
      · rename_i e
        cases h
        rw [code b _ e]
      · cases h
    · cases h
  all_goals cases h

/-! ## The run of a frame, record by record -/

/-- A result record enters the response as the claims write it (R46). -/
theorem Run.report_eq (r : Run) (stopOnError : Bool) (op : Byte) (status : Status) (data : List Byte) :
    r.report stopOnError { opcode := op, status := status, data := data } = { r with
      out := r.out ++ [op, status.code, byteOf data.length] ++ data
      count := r.count + 1
      tripped := r.tripped || (stopOnError && status ≠ .ok) } := by
  simp [Run.report, ResultRecord.bytes]

theorem Run.record_truncated (r : Run) (answered k : Bool) (op : Byte) (p : List Byte) :
    (r.record answered k op p).truncated = r.truncated := by
  unfold Run.record
  (repeat' split) <;> rfl

theorem Run.taking_of_truncated {r : Run} (h : r.truncated = true) (answered k : Bool) (x : Byte × List Byte) :
    r.taking answered k x = r := by
  obtain ⟨node, out, count, tripped, truncated, reset⟩ := r
  cases h
  simp [Run.taking]

theorem Run.foldl_taking_of_truncated {r : Run} (h : r.truncated = true) (answered k : Bool) (rs : List (Byte × List Byte)) :
    rs.foldl (Run.taking answered k) r = r := by
  induction rs with
  | nil => rfl
  | cons x rs ih => rw [List.foldl_cons, Run.taking_of_truncated h, ih]

theorem Run.ending_of_truncated {r : Run} (h : r.truncated = true) (answered k : Bool) (tail : List Byte) :
    r.ending answered k tail = r := by
  obtain ⟨node, out, count, tripped, truncated, reset⟩ := r
  cases h
  cases tail <;> simp [Run.ending]

/-- With room for a result record, the next whole record is taken as the model takes it. -/
theorem Run.taking_eq_record {r : Run} {answered : Bool} (h : r.truncated = false) (room : ¬(answered && r.room < 3) = true)
    (k : Bool) (op : Byte) (p : List Byte) : r.taking answered k (op, p) = r.record answered k op p := by
  have room' : (r.truncated || (answered && decide (240 - r.out.length < 3))) = false := by
    rw [h, Bool.false_or]; exact Bool.eq_false_iff.2 room
  unfold Run.taking Run.record
  simp only [room', Bool.false_eq_true, if_false, Run.report_eq]
  by_cases tripped : r.tripped = true
  · rw [if_pos tripped, if_pos tripped]
  · rw [if_neg tripped, if_neg tripped]
    cases e : Command.ofOpcode op with
    | none =>
      have allowance : allowanceOf op = 3 := by simp [allowanceOf, e]
      rw [allowance]
      exact (if_neg room).symm
    | some c =>
      have allowance : allowanceOf op = c.allowance := by simp [allowanceOf, e]
      rw [allowance]
      by_cases noRoom : (answered && decide (r.room < c.allowance)) = true
      · exact (if_pos noRoom).trans (if_pos noRoom).symm
      · exact (if_neg noRoom).trans (if_neg noRoom).symm

/-- A record that runs past the payload, or nothing, is what a frame ends with (R41, R48). -/
theorem Run.records_tail {tail : List Byte} (h : tail = [] ∨ runsPast tail) {r : Run} (t : r.truncated = false)
    {fuel : Nat} (hf : tail.length ≤ fuel) (answered k : Bool) :
    Run.records answered k fuel tail r = r.ending answered k tail := by
  cases tail with
  | nil => cases fuel <;> rfl
  | cons op rest =>
    obtain ⟨fuel, rfl⟩ : ∃ m, fuel = m + 1 := ⟨fuel - 1, by simp at hf; omega⟩
    have past : runsPast (op :: rest) := h.resolve_left (List.cons_ne_nil _ _)
    unfold Run.records Run.ending
    simp only [t, Bool.false_or]
    by_cases room : (answered && decide (240 - r.out.length < 3)) = true
    · rw [if_pos room]
      exact if_pos room
    · rw [if_neg room]
      refine (if_neg room).trans ?_
      have report : r.report k { opcode := op, status := .badLength, data := [] } = { r with
          out := r.out ++ [op, Status.badLength.code, 0], count := r.count + 1, tripped := r.tripped || k, truncated := false } := by
        simp [Run.report_eq, byteOf, t]
      cases rest with
      | nil => exact report
      | cons len rest => exact (if_pos past).trans report

theorem byteOf_toNat {n : Nat} (h : n ≤ 255) : (byteOf n).toNat = n := by
  simp only [byteOf, BitVec.toNat_ofNat]
  omega

/-- A frame's bytes are run as its records are taken, one after another, and its tail after them. -/
theorem Run.records_eq_over (answered k : Bool) {rs : List (Byte × List Byte)} {tail : List Byte}
    (fits : ∀ x ∈ rs, x.2.length ≤ 255) (ends : tail = [] ∨ runsPast tail) {r : Run} (t : r.truncated = false)
    {fuel : Nat} (hf : (rs.flatMap recordBytes ++ tail).length ≤ fuel) :
    Run.records answered k fuel (rs.flatMap recordBytes ++ tail) r = (rs.foldl (Run.taking answered k) r).ending answered k tail := by
  induction rs generalizing r fuel with
  | nil => exact Run.records_tail ends t hf answered k
  | cons x rs ih =>
    obtain ⟨op, p⟩ := x
    obtain ⟨fitsHead, fits⟩ := List.forall_mem_cons.1 fits
    have len : (byteOf p.length).toNat = p.length := byteOf_toNat fitsHead
    simp only [List.flatMap_cons, recordBytes, List.cons_append, List.append_assoc, List.length_cons, List.length_append] at hf ⊢
    obtain ⟨fuel, rfl⟩ : ∃ m, fuel = m + 1 := ⟨fuel - 1, by omega⟩
    rw [List.foldl_cons, Run.records]
    by_cases room : (answered && decide (r.room < 3)) = true
    · have full : r.taking answered k (op, p) = { r with truncated := true } := by
        unfold Run.taking
        exact if_pos ((congrArg (r.truncated || ·) room).trans (Bool.or_true _))
      rw [if_pos room, full, Run.foldl_taking_of_truncated rfl, Run.ending_of_truncated rfl]
    · rw [if_neg room, Run.taking_eq_record t room, len, if_neg (by simp), List.drop_left, List.take_left]
      exact ih fits ((Run.record_truncated ..).trans t) (by simp only [List.length_append]; omega)

theorem runFrame_eq_over {payload : List Byte} {rs : List (Byte × List Byte)} {tail : List Byte}
    (h : IsRecords payload rs tail) (n : Node) (answered k : Bool) :
    runFrame n answered k payload = Run.over answered k n rs tail := by
  obtain ⟨fits, rfl, ends⟩ := h
  exact Run.records_eq_over answered k fits ends rfl (Nat.le_refl _)

/-- Every payload is whole records and a tail that is empty or runs past it (R41). -/
theorem exists_isRecords (payload : List Byte) : ∃ rs tail, IsRecords payload rs tail := by
  induction hn : payload.length using Nat.strong_induction_on generalizing payload with
  | _ n ih =>
    match payload with
    | [] => exact ⟨[], [], nofun, rfl, .inl rfl⟩
    | [op] => exact ⟨[], [op], nofun, rfl, .inr trivial⟩
    | op :: len :: rest =>
      by_cases past : rest.length < len.toNat
      · exact ⟨[], op :: len :: rest, nofun, rfl, .inr past⟩
      · obtain ⟨rs, tail, fits, split, ends⟩ :=
          ih (rest.drop len.toNat).length (by simp at hn ⊢; omega) (rest.drop len.toNat) rfl
        have whole : (rest.take len.toNat).length = len.toNat := by simp; omega
        refine ⟨(op, rest.take len.toNat) :: rs, tail, ?_, ?_, ends⟩
        · exact List.forall_mem_cons.2 ⟨whole.trans_le (Nat.le_of_lt_succ len.isLt), fits⟩
        · have back : byteOf len.toNat = len := by simp [byteOf]
          simp only [List.flatMap_cons, recordBytes, List.cons_append, whole, back, List.append_assoc, ← split, List.take_append_drop]

/-! ## What a run keeps, and the reset it leaves -/

theorem Run.taking_ran (answered k : Bool) (r : Run) (x : Byte × List Byte) :
    r.node.RanRecords (r.taking answered k x).node := by
  unfold Run.taking
  dsimp only
  split
  · exact .rfl
  · split
    · exact .rfl
    · split
      · exact .rfl
      · split
        · exact .rfl
        · exact runCommand_ran _ _ _

theorem Run.ending_node (answered k : Bool) (r : Run) (tail : List Byte) : (r.ending answered k tail).node = r.node := by
  unfold Run.ending
  (repeat' split) <;> rfl

theorem Run.ending_reset (answered k : Bool) (r : Run) (tail : List Byte) : (r.ending answered k tail).reset = r.reset := by
  unfold Run.ending
  (repeat' split) <;> rfl

theorem Run.foldl_taking_ran (answered k : Bool) (rs : List (Byte × List Byte)) (r : Run) :
    r.node.RanRecords (rs.foldl (Run.taking answered k) r).node := by
  induction rs generalizing r with
  | nil => exact .rfl
  | cons x rs ih => exact (Run.taking_ran answered k r x).trans (ih _)

theorem runFrame_ran (n : Node) (answered k : Bool) (payload : List Byte) :
    n.RanRecords (runFrame n answered k payload).node := by
  obtain ⟨rs, tail, records⟩ := exists_isRecords payload
  rw [runFrame_eq_over records, Run.over, Run.ending_node]
  exact Run.foldl_taking_ran answered k rs (.start n)

/-- A reset that a record leaves behind is the one it names, or stood before it (R59). -/
theorem Run.taking_reset {answered k : Bool} {r : Run} {x : Byte × List Byte} {scope : Scope}
    (h : (r.taking answered k x).reset = some scope) : r.reset = some scope ∨ x = (0x03, [scope.code]) := by
  unfold Run.taking at h
  dsimp only at h
  split at h
  · exact .inl h
  · split at h
    · exact .inl h
    · split at h
      · exact .inl h
      · rename_i c named
        split at h
        · exact .inl h
        · obtain ⟨rfl, params⟩ := runCommand_reset h
          have opcode : Command.resetNode.opcode = x.1 := by simpa using List.find?_some named
          exact .inr (Prod.ext opcode.symm params)

theorem Run.foldl_taking_reset {answered k : Bool} {rs : List (Byte × List Byte)} {r : Run} {scope : Scope}
    (h : (rs.foldl (Run.taking answered k) r).reset = some scope) : r.reset = some scope ∨ (0x03, [scope.code]) ∈ rs := by
  induction rs generalizing r with
  | nil => exact .inl h
  | cons x rs ih =>
    obtain h | h := ih h
    · obtain h | rfl := Run.taking_reset h
      · exact .inl h
      · exact .inr List.mem_cons_self
    · exact .inr (List.mem_cons_of_mem _ h)

/-- The reset a frame leaves is that of a RESET NODE record the payload holds (R59). -/
theorem runFrame_reset {n : Node} {answered k : Bool} {payload : List Byte} {scope : Scope} {scopes : List Scope}
    (h : (runFrame n answered k payload).reset = some scope) (m : scope ∈ scopes) : HoldsReset payload scopes := by
  obtain ⟨rs, tail, records⟩ := exists_isRecords payload
  rw [runFrame_eq_over records, Run.over, Run.ending_reset] at h
  exact ⟨rs, tail, records, scope, m, (Run.foldl_taking_reset h).resolve_left (by simp)⟩

end Sys2Proof.Machine

/-! PROOFS. Frames that end on the U forward lane, and MANAGE frames: refusal, replay, execution and response (R24, R41 to R51). -/

namespace Sys2Proof.Machine

-- One proof at a time: side by side, their threads' stacks pass the memory limit of a check.
set_option Elab.async false

/-! ## A genuine frame is handed off -/

@[simp] theorem headerOf_kind (kind : Byte) (f : FwdFrame) : (headerOf kind f).kind = kind := rfl
@[simp] theorem headerOf_flags (kind : Byte) (f : FwdFrame) : (headerOf kind f).flags = f.flags := rfl
@[simp] theorem headerOf_dest (kind : Byte) (f : FwdFrame) : (headerOf kind f).dest = f.dest := rfl
@[simp] theorem headerOf_seq (kind : Byte) (f : FwdFrame) : (headerOf kind f).seq = f.seq := rfl
@[simp] theorem headerOf_hop (kind : Byte) (f : FwdFrame) : (headerOf kind f).hop = f.hop := rfl

/-- A genuine frame arrives and is handed to the block of its kind (R10, R24, R30). -/
theorem exec_genuine {kind : Byte} {f : FwdFrame} {s : State} (on : s.On) (g : Genuine f kind) (elapsed : BitVec 32) :
    exec (frameRow kind f elapsed) s = .next (s.withNode
      ((s.node.frameArrived f).handOff (headerOf kind f) f.payload f.check (if kind = 2 then elapsed.toNat else 0)
        (s.node.link.passage.matched.getD (s.node.fwd.matchesDest f.dest))
        (s.node.link.passage.enumNote.getD { fill := f.flags.getLsbD 0, address := s.node.fwd.address }))) := by
  rw [exec_frameRow, State.frame_on on, Node.frameEnd_genuine g]

/-- A genuine MANAGE frame that matches is handed to the command unit (R24, R42). -/
theorem exec_manageFrame {f : FwdFrame} {s : State} (on : s.On) (g : Genuine f 0x03)
    (isMatch : s.node.link.passage.matched.getD (s.node.fwd.matchesDest f.dest) = true) :
    exec (.manageFrame f) s = .next (s.withNode ((s.node.frameArrived f).manage (headerOf 3 f) f.payload)) := by
  rw [show exec (.manageFrame f) s = exec (frameRow 3 f 0) s from rfl, exec_genuine on g 0, isMatch]
  rfl

/-! ## Refusal, replay and execution -/

theorem Node.manage_unanswered {n : Node} {h : FwdHeader} (unanswered : destMode h.dest ≠ .node) (payload : List Byte) :
    n.manage h payload = n.executeUnanswered (h.flags.getLsbD 0) payload := if_neg unanswered

theorem ReturnUnit.hasFree_iff (r : ReturnUnit) : r.hasFree = true ↔ r.localQ.length < 8 := decide_eq_true_iff

/-- An answered frame that finds a free entry, and does not repeat the cached sequence, is executed (R49). -/
theorem Node.manage_answered {n : Node} {h : FwdHeader} (answered : destMode h.dest = .node) (free : n.ret.localQ.length < 8)
    (fresh : ¬(h.seq ≠ 0 ∧ n.cmd.lastSeq = some h.seq ∧ n.cmd.cache ≠ none)) (payload : List Byte) :
    n.manage h payload = n.executeAnswered (h.flags.getLsbD 0) h.seq payload := by
  rw [Node.manage, if_pos answered, Node.answer, if_neg (by simp [(n.ret.hasFree_iff).2 free])]
  cases cached : n.cmd.cache with
  | none => rfl
  | some r =>
    refine if_neg fun replay => fresh ?_
    simp only [Bool.and_eq_true, decide_eq_true_eq] at replay
    exact ⟨replay.1, replay.2, by simp [cached]⟩

/-- An executed frame's response takes the place its entry was kept in, is cached for a nonzero sequence, and then the reset
its records left takes effect (R46, R50, R51, R59). -/
theorem Node.executeAnswered_eq (n : Node) (k : Bool) (seq : Byte) (payload : List Byte) :
    n.executeAnswered k seq payload =
      let x := runFrame { n with ret := { n.ret with localQ := n.ret.localQ ++ [{ frame := reserved, sending := false }] } } true k
        payload
      let r : RetFrame :=
        { kind := 0x81, flags := if x.truncated then 1 else 0, source := n.fwd.address.setWidth 16, seq := seq
          count := byteOf x.count, payload := x.out }
      ({ x.node with
          ret := { x.node.ret with localQ := x.node.ret.localQ.set n.ret.localQ.length { frame := r, sending := false } }
          cmd := if seq = 0 then x.node.cmd else { x.node.cmd with lastSeq := some seq, cache := some r } } : Node).applyReset
        x.reset := by
  unfold Node.executeAnswered
  dsimp only
  split <;> rfl

/-- The queues and the last sequence outlast a soft reset (R52, R59, Table 3-7). -/
theorem Node.applyReset_queue (n : Node) (r : Option Scope) :
    (n.applyReset r).ret.localQ = n.ret.localQ ∧ (n.applyReset r).cmd.lastSeq = n.cmd.lastSeq := by
  cases r with
  | none => exact ⟨rfl, rfl⟩
  | some scope => cases scope <;> exact ⟨rfl, rfl⟩

/-- An answered frame that finds no free entry is refused and counted (R49, R53). -/
theorem Node.manage_busy {n : Node} {h : FwdHeader} (answered : destMode h.dest = .node) (full : 8 ≤ n.ret.localQ.length)
    (payload : List Byte) : n.manage h payload = { n with cmd := { n.cmd with busy := raiseCounter n.cmd.busy } } := by
  have noFree : n.ret.hasFree = false := Bool.eq_false_iff.2 fun h => Nat.not_lt.2 full ((ReturnUnit.hasFree_iff _).1 h)
  rw [Node.manage, if_pos answered, Node.answer, if_pos (by simp [noFree])]
  rfl

/-- An answered frame that repeats the cached sequence is answered from the cache (R49, R51). -/
theorem Node.manage_replay {n : Node} {h : FwdHeader} {r : RetFrame} (answered : destMode h.dest = .node)
    (free : n.ret.localQ.length < 8) (nonzero : h.seq ≠ 0) (last : n.cmd.lastSeq = some h.seq) (cached : n.cmd.cache = some r)
    (payload : List Byte) :
    n.manage h payload = { n with ret := { n.ret with localQ := n.ret.localQ ++ [{ frame := r, sending := false }] } } := by
  rw [Node.manage, if_pos answered, Node.answer, if_neg (by simp [(n.ret.hasFree_iff).2 free])]
  simp only [cached]
  exact if_pos (by simpa [last] using nonzero)

/-- Settles O25: the two ways in which no record of an answered frame runs. -/
theorem busyRefusalAndReplay : Obligations.BusyRefusalAndReplay := by
  intro f s on g answered isMatch
  have given := exec_manageFrame on g isMatch
  refine ⟨fun full => given.trans (next_withNode ?refused), fun r free nonzero last cached => given.trans (next_withNode ?replayed)⟩
  case refused => exact Node.manage_busy (n := s.node.frameArrived f) (h := headerOf 3 f) answered full f.payload
  case replayed =>
    exact Node.manage_replay (n := s.node.frameArrived f) (h := headerOf 3 f) answered free nonzero last cached f.payload

/-! ## Execution by records -/

/-- An unanswered frame runs its records, and then takes their reset (R45). -/
theorem exec_manageFrame_unanswered {f : FwdFrame} {rs : List (Byte × List Byte)} {tail : List Byte} {s : State} (on : s.On)
    (g : Genuine f 0x03) (records : IsRecords f.payload rs tail)
    (isMatch : s.node.link.passage.matched.getD (s.node.fwd.matchesDest f.dest) = true) (unanswered : destMode f.dest ≠ .node) :
    let x := Run.over false (f.flags.getLsbD 0) (s.node.frameArrived f) rs tail
    exec (.manageFrame f) s = .next (s.withNode (x.node.applyReset x.reset)) := by
  have run := Node.manage_unanswered (h := headerOf 3 f) unanswered f.payload (n := s.node.frameArrived f)
  rw [Node.executeUnanswered, runFrame_eq_over records, headerOf_flags] at run
  exact (exec_manageFrame on g isMatch).trans (next_withNode run)

/-- An answered frame that is executed runs its records with its entry taken, and answers (R49 to R51). -/
theorem exec_manageFrame_answered {f : FwdFrame} {rs : List (Byte × List Byte)} {tail : List Byte} {s : State} (on : s.On)
    (g : Genuine f 0x03) (records : IsRecords f.payload rs tail)
    (isMatch : s.node.link.passage.matched.getD (s.node.fwd.matchesDest f.dest) = true) (answered : destMode f.dest = .node)
    (free : s.node.ret.localQ.length < 8)
    (fresh : ¬(f.seq ≠ 0 ∧ s.node.cmd.lastSeq = some f.seq ∧ s.node.cmd.cache ≠ none)) :
    let m := s.node.frameArrived f
    let taken := { m with ret := { m.ret with localQ := m.ret.localQ ++ [{ frame := reserved, sending := false }] } }
    let x := Run.over true (f.flags.getLsbD 0) taken rs tail
    let r : RetFrame :=
      { kind := 0x81, flags := if x.truncated then 1 else 0, source := s.node.fwd.address.setWidth 16, seq := f.seq
        count := byteOf x.count, payload := x.out }
    let answered := { x.node with
      ret := { x.node.ret with
        localQ := x.node.ret.localQ.set s.node.ret.localQ.length { frame := r, sending := false } }
      cmd := if f.seq = 0 then x.node.cmd else { x.node.cmd with lastSeq := some f.seq, cache := some r } }
    exec (.manageFrame f) s = .next (s.withNode (answered.applyReset x.reset)) := by
  have run := Node.manage_answered (n := s.node.frameArrived f) (h := headerOf 3 f) answered free fresh f.payload
  rw [Node.executeAnswered_eq, runFrame_eq_over records, headerOf_flags, headerOf_seq] at run
  exact (exec_manageFrame on g isMatch).trans (next_withNode run)

/-- The response of an executed frame stands behind the frames that were queued and ahead of its records' notices. -/
theorem response_stands {before after : List LocalEntry} {e r : LocalEntry} (h : GrowsByNotices (before ++ [e]) after) :
    ∃ notices, after.set before.length r = before ++ r :: notices ∧ ∀ x ∈ notices, x.frame.kind = 0x82 := by
  obtain ⟨notices, rfl, kinds⟩ := h
  exact ⟨notices, by simp, kinds⟩

theorem Node.executeAnswered_queues {n : Node} (sound : n.fwd.Sound) (k : Bool) (seq : Byte) (payload : List Byte) :
    ∃ r notices, (n.executeAnswered k seq payload).ret.localQ = n.ret.localQ ++ { frame := r, sending := false } :: notices
      ∧ r.kind = 0x81 ∧ r.source = n.fwd.address.setWidth 16 ∧ r.seq = seq ∧ r.payload.length ≤ 240
      ∧ (∀ x ∈ notices, x.frame.kind = 0x82)
      ∧ (n.executeAnswered k seq payload).cmd.lastSeq = if seq = 0 then n.cmd.lastSeq else some seq := by
  have ran := runFrame_ran { n with ret := n.ret.enqueue reserved } true k payload
  have fits := Run.records_fits k payload.length payload (.start { n with ret := n.ret.enqueue reserved }) sound (Nat.zero_le _)
  obtain ⟨notices, queue, kinds⟩ := response_stands ran.queue
  rw [Node.executeAnswered_eq, (Node.applyReset_queue _ _).1, (Node.applyReset_queue _ _).2]
  refine ⟨_, notices, queue, rfl, rfl, rfl, fits, kinds, ?_⟩
  exact (apply_ite CommandUnit.lastSeq ..).trans (congrArg (fun x => if seq = 0 then x else some seq) ran.lastSeq)

theorem Command.ofOpcode_eq_some (b : Byte) (c : Command) : Command.ofOpcode b = some c ↔ c.opcode = b := by
  constructor
  · intro h
    simpa using List.find?_some h
  · rintro rfl
    cases c <;> rfl

/-- Settles O26: the run over the frame's records, and the place and size of the response. -/
theorem executedFrameQueuesOneResponse : Obligations.ExecutedFrameQueuesOneResponse := by
  refine ⟨fun c => by cases c <;> rfl, Command.ofOpcode_eq_some, ?response, exists_isRecords, ?runs⟩
  case runs =>
    intro f rs tail s on g records isMatch
    exact ⟨exec_manageFrame_unanswered on g records isMatch, exec_manageFrame_answered on g records isMatch⟩
  case response =>
    intro f s on sound g answered isMatch free fresh
    have run := Node.manage_answered (n := s.node.frameArrived f) (h := headerOf 3 f) answered free fresh f.payload
    obtain ⟨r, notices, response⟩ :=
      Node.executeAnswered_queues (n := s.node.frameArrived f) sound (f.flags.getLsbD 0) f.seq f.payload
    exact ⟨_, r, notices, (exec_manageFrame on g isMatch).trans (next_withNode run), response⟩

/-! ## A frame of one record -/

/-- A frame of one record that names a command runs that command, whose result record it reports (R41, R44, R46). -/
theorem Run.over_single (answered k : Bool) (n : Node) (c : Command) (p : List Byte) :
    let x := runCommand c p n
    Run.over answered k n [(c.opcode, p)] [] =
      { node := x.node, out := [c.opcode, x.reply.status.code, byteOf x.reply.data.length] ++ x.reply.data, count := 1
        tripped := (k && x.reply.status ≠ .ok) || x.reset.isSome, truncated := false, reset := x.reset } := by
  have named : Command.ofOpcode c.opcode = some c := (Command.ofOpcode_eq_some _ _).2 rfl
  have room : ¬240 < c.allowance := by cases c <;> decide
  simp [Run.over, Run.taking, Run.ending, named, room]

theorem isRecords_single {payload : List Byte} {c : Command} {p : List Byte} (len : p.length ≤ 255)
    (h : payload = c.opcode :: byteOf p.length :: p) : IsRecords payload [(c.opcode, p)] [] :=
  ⟨by simpa using len, by simpa [recordBytes] using h, .inl rfl⟩

/-- Settles O27, from the run over a frame's records. -/
theorem oneRecordFrameRunsItsCommand : Obligations.OneRecordFrameRunsItsCommand := by
  intro f c p s on g len payload isMatch
  have records := isRecords_single len payload
  constructor
  · intro unanswered
    rw [exec_manageFrame_unanswered on g records isMatch unanswered, Run.over_single]
  · intro answered free fresh
    rw [exec_manageFrame_answered on g records isMatch answered free fresh, Run.over_single]
    rfl

end Sys2Proof.Machine

/-! PROOFS. What the events of the node leave standing: the time state (R102), the address (R32) and, for the clock, the
divider count, the chain time, the lanes and the tables. -/

namespace Sys2Proof.Machine

-- One proof at a time: side by side, their threads' stacks pass the memory limit of a check.
set_option Elab.async false

/-- `m` is reached from `n` by events that set no clock, no time state and no address. -/
structure Node.Calm (n m : Node) : Prop where
  low : m.link.resetLow = n.link.resetLow := by rfl
  rate : m.link.rate = n.link.rate := by rfl
  address : m.fwd.address = n.fwd.address := by rfl
  time : m.sched.time = n.sched.time := by rfl
  now : m.sched.now = n.sched.now := by rfl
  clock : m.clock = n.clock := by rfl

/-- And neither moves a lane's receive state, a table, the load session nor the supervision unit. -/
structure Node.Quiet (n m : Node) : Prop extends Node.Calm n m where
  uLane : m.link.uLane = n.link.uLane := by rfl
  dLane : m.link.dLane = n.link.dLane := by rfl
  tables : m.tables = n.tables := by rfl
  sup : m.sup = n.sup := by rfl

theorem Node.Calm.rfl {n : Node} : n.Calm n := {}

theorem Node.Quiet.rfl {n : Node} : n.Quiet n := {}

theorem Node.Calm.trans {a b c : Node} (h : a.Calm b) (k : b.Calm c) : a.Calm c where
  low := k.low.trans h.low
  rate := k.rate.trans h.rate
  address := k.address.trans h.address
  time := k.time.trans h.time
  now := k.now.trans h.now
  clock := k.clock.trans h.clock

theorem Node.Quiet.trans {a b c : Node} (h : a.Quiet b) (k : b.Quiet c) : a.Quiet c where
  toCalm := h.toCalm.trans k.toCalm
  uLane := k.uLane.trans h.uLane
  dLane := k.dLane.trans h.dLane
  tables := k.tables.trans h.tables
  sup := k.sup.trans h.sup

theorem Node.Quiet.foldl {f : Node → Fin 4 → Node} (h : ∀ (n : Node) (i : Fin 4), n.Quiet (f n i)) (is : List (Fin 4)) (n : Node) :
    n.Quiet (is.foldl f n) := by
  induction is generalizing n with
  | nil => exact .rfl
  | cons i is ih => exact (h n i).trans (ih _)

/-! ## The receiving lanes -/

theorem Node.copyTakes_quiet (n : Node) (k : Bool) (bs : List Byte) : n.Quiet (n.copyTakes k bs) := by
  unfold Node.copyTakes
  dsimp only
  split
  · exact { address := by dsimp only; split <;> rfl }
  · exact .rfl

theorem Node.placeRun_quiet (n : Node) (k : Bool) (bs : List Byte) : n.Quiet (n.placeRun k bs) :=
  n.placeRun_eq k bs ▸ n.copyTakes_quiet k bs

theorem Node.abortU_quiet (n : Node) : n.Quiet n.abortU := by
  rw [Node.abortU_eq]
  exact {}

theorem Node.checkErrorU_quiet (n : Node) : n.Quiet n.checkErrorU := by
  rw [Node.checkErrorU_eq]
  exact {}

theorem Node.beginCopy_quiet (n : Node) (h : FwdHeader) : n.Quiet (n.beginCopy h) := by
  rw [Node.beginCopy_eq]
  exact Node.Quiet.trans {} (Node.copyTakes_quiet _ _ _)

theorem Node.headerComplete_quiet (n : Node) : n.Quiet n.headerComplete := by
  unfold Node.headerComplete
  dsimp only
  have noted : n.Quiet (({ n with link := { n.link with uRec := { n.link.uRec with phase := .body } } } : Node).noteHeader
      (FwdHeader.ofBytes n.link.uRec.hdr)) := {}
  have begun := noted.trans (Node.beginCopy_quiet _ (FwdHeader.ofBytes n.link.uRec.hdr))
  split <;> split
  · exact begun.trans (Node.abortU_quiet _)
  · exact noted.trans (Node.abortU_quiet _)
  · exact begun
  · exact noted

theorem Node.copyPayload_quiet (n : Node) (b : Byte) : n.Quiet (n.copyPayload b) := by
  unfold Node.copyPayload
  split
  · exact n.placeRun_quiet true [b]
  · split
    · exact {}
    · exact Node.Quiet.trans {} (Node.placeRun_quiet _ true _)

theorem Node.bodyByteU_quiet (n : Node) (b : Byte) : n.Quiet (n.bodyByteU b) := by
  unfold Node.bodyByteU
  dsimp only
  split
  · exact Node.Quiet.trans {} (Node.copyPayload_quiet _ b)
  · split
    · split
      · exact Node.Quiet.trans {} (Node.placeRun_quiet _ false _)
      · exact {}
    · exact n.abortU_quiet

/-- A frame in reception on the U forward lane that an EOF accepts (R10). -/
abbrev Node.AcceptsAtEof (n : Node) : Prop :=
  n.link.uRec.phase = .body ∧ n.link.uRec.count = n.link.uRec.length + 2 ∧ n.link.uRec.received = n.link.uRec.check

/-- The node after the acceptance of the frame in reception (R10). -/
abbrev Node.acceptedAtEof (n : Node) : Node :=
  n.acceptU (FwdHeader.ofBytes n.link.uRec.hdr) n.link.passage.payload n.link.uRec.received n.link.uRec.age

/-- What the frame logic of the U forward lane does with a character is quiet, but for the EOF of an accepted frame. -/
theorem Node.deliverU_cases (n : Node) (c : RxChar) :
    n.Quiet (n.deliverU c) ∨ (c = .eof ∧ n.AcceptsAtEof ∧ n.deliverU c = n.acceptedAtEof) := by
  unfold Node.deliverU
  cases phase : n.link.uRec.phase
  case outside => cases c <;> exact .inl {}
  case header =>
    cases c
    case data b =>
      refine .inl ?_
      dsimp only
      split
      · exact Node.Quiet.trans {} (Node.headerComplete_quiet _)
      · exact {}
    case sof => exact .inl (n.abortU_quiet.trans {})
    all_goals exact .inl n.abortU_quiet
  case body =>
    cases c
    case data b => exact .inl (n.bodyByteU_quiet b)
    case sof => exact .inl (n.abortU_quiet.trans {})
    case eof =>
      dsimp only
      split
      · rename_i complete
        simp only [Reception.complete, Bool.and_eq_true, decide_eq_true_eq] at complete
        split
        · rename_i check
          exact .inr ⟨rfl, ⟨phase, complete.2, check⟩, rfl⟩
        · exact .inl n.checkErrorU_quiet
      · exact .inl n.abortU_quiet
    all_goals exact .inl n.abortU_quiet

theorem Node.bodyByteD_quiet (n : Node) (b : Byte) : n.Quiet (n.bodyByteD b) := by
  unfold Node.bodyByteD
  dsimp only
  (repeat' split) <;> exact {}

theorem Node.deliverD_quiet (n : Node) (c : RxChar) : n.Quiet (n.deliverD c) := by
  unfold Node.deliverD
  cases n.link.dRec.phase
  case outside => cases c <;> exact {}
  case header =>
    cases c
    case data b =>
      dsimp only
      (repeat' split) <;> exact {}
    all_goals exact {}
  case body =>
    cases c
    case data b => exact n.bodyByteD_quiet b
    case eof =>
      dsimp only
      (repeat' split) <;> exact {}
    all_goals exact {}

theorem Node.setLane_calm (n : Node) (lane : Lane) (st : LaneState) : n.Calm (n.setLane lane st) := by
  cases lane <;> exact {}

/-- A received character is calm, but for the EOF of an accepted frame on the U forward lane. -/
theorem Node.receive_cases (n : Node) (lane : Lane) (c : RxChar) :
    n.Calm (n.receive lane c)
      ∨ (lane = .u ∧ c = .eof ∧ n.AcceptsAtEof ∧ n.receive lane c = (n.setLane .u (.locked 0)).acceptedAtEof) := by
  unfold Node.receive
  split
  · refine .inl ?_
    (repeat' split) <;> exact n.setLane_calm _ _
  · cases lane
    case d =>
      refine .inl ?_
      split
      · exact (n.setLane_calm .d _).trans (Node.deliverD_quiet _ c).toCalm
      · exact (n.deliverD_quiet c).toCalm
    case u =>
      by_cases valid : c.isValid = true
      · rw [if_pos valid]
        obtain quiet | ⟨eof, accepts, e⟩ := (n.setLane .u (.locked 0)).deliverU_cases c
        · exact .inl ((n.setLane_calm .u _).trans quiet.toCalm)
        · exact .inr ⟨rfl, eof, accepts, e⟩
      · rw [if_neg valid]
        obtain quiet | ⟨rfl, -⟩ := n.deliverU_cases c
        · exact .inl quiet.toCalm
        · exact absurd rfl valid

theorem Node.abortReception_quiet (n : Node) (lane : Lane) : n.Quiet (n.abortReception lane) := by
  cases lane
  · unfold Node.abortReception
    dsimp only
    split
    · exact .rfl
    · exact n.abortU_quiet
  · unfold Node.abortReception
    dsimp only
    split <;> exact {}

theorem Node.fallSilent_calm (n : Node) (lane : Lane) : n.Calm (n.fallSilent lane) := by
  unfold Node.fallSilent
  split
  · exact .rfl
  · exact (n.setLane_calm _ _).trans (Node.abortReception_quiet _ lane).toCalm

/-! ## The transmitters -/

theorem Node.forwardCharacterEnds_quiet (n : Node) : n.Quiet n.forwardCharacterEnds := by
  unfold Node.forwardCharacterEnds
  (repeat' split) <;> exact {}

theorem Node.forwardTakeNext_quiet (n : Node) : n.Quiet n.forwardTakeNext := by
  unfold Node.forwardTakeNext
  (repeat' split) <;> exact {}

theorem Node.forwardCharacter_quiet (n : Node) : n.Quiet n.forwardCharacter := by
  unfold Node.forwardCharacter
  split
  · exact .rfl
  · exact n.forwardCharacterEnds_quiet.trans (Node.forwardTakeNext_quiet _)

theorem Node.sendSyncSof_quiet (n : Node) : n.Quiet n.sendSyncSof := by
  unfold Node.sendSyncSof
  split
  · exact .rfl
  · split
    · exact n.forwardCharacter_quiet
    · split
      · exact n.forwardCharacter_quiet.trans (Node.forwardCharacter_quiet _)
      · exact .rfl

theorem Node.sendSyncEof_quiet (n : Node) : n.Quiet n.sendSyncEof := by
  unfold Node.sendSyncEof
  split
  · split
    · exact .rfl
    · exact Node.Quiet.trans {} (Node.forwardCharacter_quiet _)
  all_goals exact .rfl

theorem Node.underrun_quiet (n : Node) : n.Quiet n.underrun := by
  unfold Node.underrun
  split
  · exact n.forwardCharacter_quiet
  · exact .rfl

theorem Node.arbitrate_quiet (n : Node) : n.Quiet n.arbitrate := by
  unfold Node.arbitrate
  (repeat' split) <;> exact {}

theorem Node.endReturnFrame_quiet (n : Node) : n.Quiet n.endReturnFrame := by
  unfold Node.endReturnFrame
  split <;> exact {}

theorem Node.returnCharacter_quiet (n : Node) : n.Quiet n.returnCharacter := by
  unfold Node.returnCharacter
  split
  · exact n.arbitrate_quiet
  · split
    · exact {}
    · exact n.endReturnFrame_quiet.trans (Node.arbitrate_quiet _)

theorem Node.characterBoundary_quiet (n : Node) : n.Quiet n.characterBoundary := by
  unfold Node.characterBoundary
  split
  · exact n.forwardCharacter_quiet.trans (Node.returnCharacter_quiet _)
  · exact .rfl

/-! ## Sense inputs, output groups and cues -/

theorem Node.sample_quiet (n : Node) (i : Fin 4) (raw : Bool) : n.Quiet (n.sample i raw) := by
  unfold Node.sample
  dsimp only
  (repeat' split) <;> exact {}

theorem Node.edgeTo_quiet (n : Node) (i : Fin 4) (level : Bool) : n.Quiet (n.edgeTo i level) := by
  unfold Node.edgeTo
  dsimp only
  split
  · exact .rfl
  · split
    · exact n.sample_quiet i level
    · exact {}

theorem Node.sampleOf_quiet (n : Node) (i : Fin 4) : n.Quiet (n.sampleOf i) := by
  unfold Node.sampleOf
  dsimp only
  split
  · exact .rfl
  · split
    · exact n.sample_quiet i _
    · exact .rfl

theorem Node.lockoutOf_quiet (n : Node) (i : Fin 4) : n.Quiet (n.lockoutOf i) := by
  unfold Node.lockoutOf
  dsimp only
  split <;> exact {}

theorem Node.tickOf_quiet (n : Node) (g : Fin 4) : n.Quiet (n.tickOf g) := by
  unfold Node.tickOf
  split <;> exact {}

theorem Node.expireCues_quiet (n : Node) : n.Quiet n.expireCues := by
  unfold Node.expireCues
  split <;> exact {}

/-- A commanded expiry moves the chain time and nothing else that Calm names (R115, log entry 3). -/
theorem Node.cueExpiry_time (n : Node) :
    n.cueExpiry.sched.time = n.sched.time ∧ n.cueExpiry.fwd.address = n.fwd.address := by
  unfold Node.cueExpiry
  split
  · rename_i e q _ _
    have quiet := Node.expireCues_quiet { n with sched := n.sched.reach e.due }
    have reach : (n.sched.reach e.due).time = n.sched.time := by
      unfold Schedule.reach
      split <;> rfl
    exact ⟨quiet.time.trans reach, quiet.address⟩
  · exact ⟨rfl, rfl⟩

/-! ## Supervision -/

/-- An expiry of a supervision timer leaves the time state, or enters FAILSAFE, which makes it INVALID (R123, R183). The links,
the address, the tables and the clocks stand. -/
structure Node.Expires (n m : Node) : Prop where
  link : m.link = n.link := by rfl
  fwd : m.fwd = n.fwd := by rfl
  tables : m.tables = n.tables := by rfl
  now : m.sched.now = n.sched.now := by rfl
  clock : m.clock = n.clock := by rfl
  failsafeOn : m.sup.failsafeOn = n.sup.failsafeOn := by rfl
  time : m.sched.time = n.sched.time
    ∨ (m.sched.time = .invalid ∧ n.sup.failsafeOn = true ∧ m.sup.state = .failsafe ∧ m.sup.supTimer = none)

theorem Node.holdoverExpiry_expires (n : Node) : n.Expires n.holdoverExpiry := by
  unfold Node.holdoverExpiry
  split
  · split
    · rename_i on
      exact { time := .inr ⟨rfl, on, rfl, rfl⟩ }
    · exact { time := .inl rfl }
  · exact { time := .inl rfl }

theorem Node.supervisionExpiry_expires (n : Node) : n.Expires n.supervisionExpiry := by
  unfold Node.supervisionExpiry
  split
  · split
    · dsimp only
      split
      · generalize held : ({ n with sup := _ } : Node).supNotices _ = m
        have same : m.link = n.link ∧ m.fwd = n.fwd ∧ m.tables = n.tables ∧ m.sched = n.sched ∧ m.clock = n.clock
          ∧ m.sup.failsafeOn = n.sup.failsafeOn := by subst held; exact ⟨rfl, rfl, rfl, rfl, rfl, rfl⟩
        obtain ⟨link, fwd, tables, sched, clock, failsafeOn⟩ := same
        have x := m.holdoverExpiry_expires
        exact
          { link := x.link.trans link, fwd := x.fwd.trans fwd, tables := x.tables.trans tables, now := x.now.trans (by rw [sched])
            clock := x.clock.trans clock, failsafeOn := x.failsafeOn.trans failsafeOn
            time := sched ▸ failsafeOn ▸ x.time }
      · exact { time := .inl rfl }
    · exact { time := .inl rfl }
    · exact { time := .inl rfl }
    · exact { time := .inl rfl }
  · exact { time := .inl rfl }

/-- The two timers of one period: the second finds its timer stopped when the first has entered FAILSAFE. -/
theorem Node.supervisionTimers_expires (n : Node) : n.Expires n.supervisionTimers := by
  have first : n.Expires (if timerDue n.sup.holdTimer then n.holdoverExpiry else n) := by
    split
    · exact n.holdoverExpiry_expires
    · exact { time := .inl rfl }
  unfold Node.supervisionTimers
  dsimp only
  generalize (if timerDue n.sup.holdTimer then n.holdoverExpiry else n) = m at first ⊢
  split
  · rename_i due
    have second := m.supervisionExpiry_expires
    refine
      { link := second.link.trans first.link, fwd := second.fwd.trans first.fwd, tables := second.tables.trans first.tables
        now := second.now.trans first.now, clock := second.clock.trans first.clock
        failsafeOn := second.failsafeOn.trans first.failsafeOn, time := ?_ }
    obtain same | ⟨-, -, -, stopped⟩ := first.time
    · rw [← same, ← first.failsafeOn]
      exact second.time
    · rw [stopped] at due
      exact absurd due Bool.false_ne_true
  · exact first

end Sys2Proof.Machine

/-! PROOFS. The time state and the node address change only at their events (R32, R52, R102), and an accepted frame sets the
position (R30). -/

namespace Sys2Proof.Machine

-- One proof at a time: side by side, their threads' stacks pass the memory limit of a check.
set_option Elab.async false

/-! ## What the block of a frame's kind leaves standing -/

/-- `m` is reached from `n` by what an accepted frame brings about: the position it set and the records it ended stand. -/
structure Node.Settled (n m : Node) : Prop where
  position : m.fwd.position = n.fwd.position := by rfl
  uRec : m.link.uRec = n.link.uRec := by rfl
  passage : m.link.passage = n.link.passage := by rfl

theorem Node.Settled.rfl {n : Node} : n.Settled n := {}

theorem Node.Settled.trans {a b c : Node} (h : a.Settled b) (k : b.Settled c) : a.Settled c where
  position := k.position.trans h.position
  uRec := k.uRec.trans h.uRec
  passage := k.passage.trans h.passage

theorem Node.RanRecords.settled {n m : Node} (h : n.RanRecords m) : n.Settled m where
  position := h.position
  uRec := by rw [h.link]
  passage := by rw [h.link]

theorem Node.qualifyingFrame_calm (n : Node) (isData : Bool) : n.Calm (n.qualifyingFrame isData) := {}

theorem Node.qualifyingFrame_settled (n : Node) (isData : Bool) : n.Settled (n.qualifyingFrame isData) := {}

theorem Node.dataAccepted_calm (n : Node) (seq : Byte) (payload : List Byte) : n.Calm (n.dataAccepted seq payload) := by
  unfold Node.dataAccepted
  dsimp only
  split
  · exact n.qualifyingFrame_calm true
  · exact (n.qualifyingFrame_calm true).trans {}

theorem Node.dataAccepted_settled (n : Node) (seq : Byte) (payload : List Byte) : n.Settled (n.dataAccepted seq payload) := by
  unfold Node.dataAccepted
  dsimp only
  split
  · exact n.qualifyingFrame_settled true
  · exact (n.qualifyingFrame_settled true).trans {}

/-- Judging a cue record sets no time (R112). -/
theorem Schedule.judge_time (c : Schedule) (e : CueEntry) : (c.judge e).2.time = c.time ∧ (c.judge e).2.now = c.now := by
  unfold Schedule.judge
  (repeat' split) <;> exact ⟨rfl, rfl⟩

theorem Schedule.judgeAll_time (f : Forwarding) (rs : List CueRecord) (c : Schedule) :
    (c.judgeAll f rs).2.time = c.time ∧ (c.judgeAll f rs).2.now = c.now := by
  induction rs generalizing c with
  | nil => exact ⟨rfl, rfl⟩
  | cons r rs ih =>
    unfold Schedule.judgeAll
    dsimp only
    split
    · exact ⟨(ih _).1.trans (c.judge_time r.entry).1, (ih _).2.trans (c.judge_time r.entry).2⟩
    · exact ih c

theorem Node.cueAccepted_calm (n : Node) (payload : List Byte) : n.Calm (n.cueAccepted payload) :=
  { time := (Schedule.judgeAll_time _ _ _).1, now := (Schedule.judgeAll_time _ _ _).2 }

/-! ## SYNC (R103, R107) -/

/-- An accepted SYNC makes the time state VALID (R102, R103). -/
theorem Schedule.sync_time (c : Schedule) (t : BitVec 40) : (c.sync t).2.time = .valid := by
  unfold Schedule.sync
  split
  · rfl
  · rename_i valid
    dsimp only
    split
    · exact valid
    · split
      · exact valid
      · split
        · unfold Schedule.stepBackward
          dsimp only
          split <;> exact valid
        · exact valid

theorem Node.syncSchedule_sched (n : Node) (t : BitVec 40) : (n.syncSchedule t).sched = (n.sched.sync t).2 := by
  unfold Node.syncSchedule
  dsimp only
  split <;> rfl

/-- A SYNC's schedule part touches no link and no forwarding field, but the outputs, its own unit and the local queue. -/
theorem Node.syncSchedule_same (n : Node) (t : BitVec 40) :
    (n.syncSchedule t).link = n.link ∧ (n.syncSchedule t).fwd = n.fwd := by
  unfold Node.syncSchedule
  dsimp only
  split <;> exact ⟨rfl, rfl⟩

theorem Node.reportOnSync_same (n : Node) :
    n.reportOnSync.link = n.link ∧ n.reportOnSync.fwd = n.fwd ∧ n.reportOnSync.sched = n.sched := by
  unfold Node.reportOnSync
  dsimp only
  split <;> exact ⟨rfl, rfl, rfl⟩

theorem Node.qualifyingFrame_same (n : Node) (d : Bool) :
    (n.qualifyingFrame d).link = n.link ∧ (n.qualifyingFrame d).fwd = n.fwd ∧ (n.qualifyingFrame d).sched = n.sched :=
  ⟨rfl, rfl, rfl⟩

/-- Wherever the supervision part stands (log entry 8), the links and the forwarding unit stand and the schedule unit is set. -/
theorem Node.syncParts_same (n : Node) (t : BitVec 40) :
    (n.syncParts t).link = n.link ∧ (n.syncParts t).fwd = n.fwd ∧ (n.syncParts t).sched = (n.sched.sync t).2 := by
  have report := Node.reportOnSync_same
  have schedule := fun m : Node => m.syncSchedule_same t
  have sched := fun m : Node => m.syncSchedule_sched t
  have sup := fun m : Node => m.qualifyingFrame_same false
  unfold Node.syncParts
  split
  · dsimp only
    split <;> simp [report, schedule, sched, sup]
  · simp [report, schedule, sched, sup]

theorem Node.holdSync_same (n : Node) (h : HeldSync) :
    (n.holdSync h).sched = n.sched ∧ (n.holdSync h).fwd.address = n.fwd.address ∧ n.Settled (n.holdSync h) := by
  unfold Node.holdSync
  dsimp only
  split
  · exact ⟨rfl, rfl, {}⟩
  · split <;> exact ⟨rfl, rfl, {}⟩

theorem Node.syncAccepted_time (n : Node) (h : FwdHeader) (field : BitVec 40) (check : BitVec 16) (elapsed : Nat) :
    (n.syncAccepted h field check elapsed).sched.time = .valid
      ∧ (n.syncAccepted h field check elapsed).fwd.address = n.fwd.address
      ∧ n.Settled (n.syncAccepted h field check elapsed) := by
  unfold Node.syncAccepted
  obtain ⟨link, fwd, sched⟩ := Node.syncParts_same (n.holdSync { hdr := h.passedOn, time := field, check := check })
    (field + BitVec.ofNat 40 elapsed)
  obtain ⟨-, address, settled⟩ := n.holdSync_same { hdr := h.passedOn, time := field, check := check }
  exact ⟨by rw [sched]; exact Schedule.sync_time _ _, by rw [fwd, address],
    settled.trans { position := by rw [fwd], uRec := by rw [link], passage := by rw [link] }⟩

/-! ## Enumeration (R32, R36) -/

theorem Node.setAddress_cases (n : Node) (a : BitVec 10) :
    n.setAddress a = n ∨ n.setAddress a = { n with fwd := { n.fwd with address := a }, cmd := { n.cmd with cache := none } } := by
  unfold Node.setAddress
  split
  · exact .inl rfl
  · exact .inr rfl

theorem Node.enumerated_same (n : Node) (next : BitVec 16) (note : EnumNote) :
    (n.enumerated next note).sched = n.sched ∧ n.Settled (n.enumerated next note)
      ∧ ((n.enumerated next note).fwd.address = n.fwd.address ∨ (n.enumerated next note).cmd.cache = none) := by
  unfold Node.enumerated
  dsimp only
  cases (enumDecide next note).take with
  | none => dsimp only; split <;> exact ⟨rfl, {}, .inl rfl⟩
  | some a =>
    dsimp only
    obtain e | e := n.setAddress_cases a
    · rw [e]
      split <;> exact ⟨rfl, {}, .inl rfl⟩
    · rw [e]
      split <;> exact ⟨rfl, {}, .inr rfl⟩

/-! ## MANAGE frames and single records (R52, R59) -/

/-- What a soft reset does to the time state, the address and the cache (R52, R59, R124). -/
theorem Node.applyReset_time (n : Node) (r : Option Scope) :
    n.Settled (n.applyReset r)
      ∧ ((n.applyReset r).sched.time = n.sched.time
        ∨ ((n.applyReset r).sched.time = .invalid ∧ ∃ scope ∈ [Scope.full, .factory], r = some scope))
      ∧ ((n.applyReset r).fwd.address = n.fwd.address
        ∨ ((n.applyReset r).fwd.address = 0 ∧ (n.applyReset r).cmd.cache = none ∧ r = some .factory)) := by
  cases r with
  | none => exact ⟨.rfl, .inl rfl, .inl rfl⟩
  | some scope =>
    cases scope with
    | outputs => exact ⟨{}, .inl rfl, .inl rfl⟩
    | full => exact ⟨{}, .inr ⟨rfl, .full, by simp, rfl⟩, .inl rfl⟩
    | factory => exact ⟨{}, .inr ⟨rfl, .factory, by simp, rfl⟩, .inr ⟨rfl, rfl, rfl⟩⟩

/-- What becomes of the time state and the address when records run and then their reset `r` takes effect. -/
structure Node.RanWithReset (n m : Node) (full factory : Prop) : Prop where
  settled : n.Settled m
  time : m.sched.time = n.sched.time ∨ (m.sched.time = .invalid ∧ full)
  address : m.fwd.address = n.fwd.address ∨ (m.fwd.address = 0 ∧ m.cmd.cache = none ∧ factory)

theorem Node.RanWithReset.reset {n m : Node} (h : n.Settled m) (time : m.sched.time = n.sched.time)
    (address : m.fwd.address = n.fwd.address) {r : Option Scope} {full factory : Prop}
    (hfull : ∀ scope ∈ [Scope.full, .factory], r = some scope → full) (hfactory : r = some .factory → factory) :
    n.RanWithReset (m.applyReset r) full factory := by
  obtain ⟨settled, resetTime, resetAddress⟩ := m.applyReset_time r
  refine ⟨h.trans settled, ?_, ?_⟩
  · obtain same | ⟨invalid, scope, mem, e⟩ := resetTime
    · exact .inl (same.trans time)
    · exact .inr ⟨invalid, hfull scope mem e⟩
  · obtain same | ⟨zero, cache, e⟩ := resetAddress
    · exact .inl (same.trans address)
    · exact .inr ⟨zero, cache, hfactory e⟩

theorem Node.manage_ranWithReset (n : Node) (h : FwdHeader) (payload : List Byte) :
    n.RanWithReset (n.manage h payload) (HoldsReset payload [.full, .factory]) (HoldsReset payload [.factory]) := by
  have unanswered : ∀ k, n.RanWithReset (n.executeUnanswered k payload) (HoldsReset payload [.full, .factory])
      (HoldsReset payload [.factory]) := fun k => by
    have ran := runFrame_ran n false k payload
    exact .reset ran.settled ran.time ran.address (fun _ mem e => runFrame_reset e mem) (fun e => runFrame_reset e (List.mem_singleton_self _))
  have answered : ∀ k seq, n.RanWithReset (n.executeAnswered k seq payload) (HoldsReset payload [.full, .factory])
      (HoldsReset payload [.factory]) := fun k seq => by
    have ran := runFrame_ran { n with ret := n.ret.enqueue reserved } true k payload
    rw [Node.executeAnswered_eq]
    apply Node.RanWithReset.reset
    · exact { position := ran.position, uRec := congrArg Link.uRec ran.link, passage := congrArg Link.passage ran.link }
    · exact ran.time
    · exact ran.address
    · exact fun _ mem e => runFrame_reset e mem
    · exact fun e => runFrame_reset e (List.mem_singleton_self _)
  unfold Node.manage
  split
  · unfold Node.answer
    split
    · exact ⟨{}, .inl rfl, .inl rfl⟩
    · split
      · split
        · exact ⟨{}, .inl rfl, .inl rfl⟩
        · exact answered _ _
      · exact answered _ _
  · exact unanswered _

theorem Node.runRecord_ranWithReset (n : Node) (c : Command) (p : List Byte) :
    n.RanWithReset (n.runRecord c p) (c = .resetNode ∧ ∃ scope ∈ [Scope.full, .factory], p = [scope.code])
      (c = .resetNode ∧ p = [Scope.factory.code]) := by
  have ran := runCommand_ran c p n
  have done : n.RanWithReset ((runCommand c p n).node.applyReset (runCommand c p n).reset)
      (c = .resetNode ∧ ∃ scope ∈ [Scope.full, .factory], p = [scope.code]) (c = .resetNode ∧ p = [Scope.factory.code]) :=
    .reset ran.settled ran.time ran.address
      (fun scope mem e => ⟨(runCommand_reset e).1, scope, mem, (runCommand_reset e).2⟩) runCommand_reset
  exact ⟨⟨done.settled.position, done.settled.uRec, done.settled.passage⟩, done.time, done.address⟩

/-! ## The hand-off of an accepted frame (R24) -/

/-- What the hand-off of an accepted frame of a kind can do to the time state and the address. -/
structure Node.HandsOff (n m : Node) (kind : Byte) (payload : List Byte) (isMatch : Prop) : Prop where
  time : m.sched.time = n.sched.time ∨ (m.sched.time = .valid ∧ kind = 0x02 ∧ payload.length = 5)
    ∨ (m.sched.time = .invalid ∧ kind = 0x03 ∧ isMatch ∧ HoldsReset payload [.full, .factory])
  address : m.fwd.address = n.fwd.address ∨ (m.cmd.cache = none ∧ ((kind = 0x05 ∧ isMatch ∧ payload.length = 2)
    ∨ (kind = 0x03 ∧ isMatch ∧ HoldsReset payload [.factory] ∧ m.fwd.address = 0)))

theorem Node.handOff_handsOff (n : Node) (h : FwdHeader) (payload : List Byte) (check : BitVec 16) (elapsed : Nat) (isMatch : Bool)
    (note : EnumNote) :
    n.Settled (n.handOff h payload check elapsed isMatch note)
      ∧ n.HandsOff (n.handOff h payload check elapsed isMatch note) h.kind payload (isMatch = true) := by
  have same : n.Settled n ∧ n.HandsOff n h.kind payload (isMatch = true) := ⟨.rfl, .inl rfl, .inl rfl⟩
  unfold Node.handOff
  split
  · split
    · have calm := n.dataAccepted_calm h.seq payload
      exact ⟨n.dataAccepted_settled _ _, .inl calm.time, .inl calm.address⟩
    · exact same
  split
  · rename_i sync
    split
    · obtain ⟨valid, address, settled⟩ := n.syncAccepted_time h _ check elapsed
      exact ⟨settled, .inr (.inl ⟨valid, sync, rfl⟩), .inl address⟩
    · exact same
  split
  · rename_i manage
    split
    · rename_i matched
      obtain ⟨settled, time, address⟩ := n.manage_ranWithReset h payload
      refine ⟨settled, ?_, ?_⟩
      · exact time.imp_right fun ⟨invalid, resets⟩ => .inr ⟨invalid, manage, matched, resets⟩
      · exact address.imp_right fun ⟨zero, cache, resets⟩ => ⟨cache, .inr ⟨manage, matched, resets, zero⟩⟩
    · exact same
  split
  · have calm := n.cueAccepted_calm payload
    exact ⟨{}, .inl calm.time, .inl calm.address⟩
  split
  · rename_i enumerate
    split
    · split
      · rename_i a b matched
        obtain ⟨sched, settled, address⟩ := n.enumerated_same (word16 a b) note
        exact ⟨settled, .inl (congrArg Schedule.time sched), address.imp_right fun cache => ⟨cache, .inl ⟨enumerate, matched, rfl⟩⟩⟩
      · exact same
    · exact same
  · exact same

theorem Node.acceptU_handsOff (n : Node) (h : FwdHeader) (payload : List Byte) (check : BitVec 16) (elapsed : Nat) :
    n.HandsOff (n.acceptU h payload check elapsed) h.kind payload
      (n.link.passage.matched.getD (n.fwd.matchesDest h.dest) = true) := by
  rw [Node.acceptU_eq]
  obtain ⟨-, time, address⟩ := Node.handOff_handsOff
    ({ n.frameEnded .eof with fwd := { n.fwd with position := h.hop } } : Node) h payload check elapsed (n.matchOf h) (n.noteOf h)
  exact ⟨time, address⟩

/-- Settles O19: the position is set before the hand-off, which leaves it. -/
theorem acceptedFrameSetsThePosition : Obligations.AcceptedFrameSetsThePosition := by
  intro kind f elapsed s on g
  have settled := (Node.handOff_handsOff (s.node.frameArrived f) (headerOf kind f) f.payload f.check
    (if kind = 2 then elapsed.toNat else 0) (s.node.link.passage.matched.getD (s.node.fwd.matchesDest f.dest))
    (s.node.link.passage.enumNote.getD { fill := f.flags.getLsbD 0, address := s.node.fwd.address })).1
  exact ⟨_, exec_genuine on g elapsed, settled.position, settled.uRec, settled.passage⟩

/-! ## Frame rows and the other commands -/

/-- A frame row is calm, or a genuine frame that is handed off. -/
theorem Node.frameEnd_cases (n : Node) (kind : Byte) (f : FwdFrame) (elapsed : Nat) :
    n.Calm (n.frameEnd (headerOf kind f) f.payload f.check elapsed)
      ∨ (Genuine f kind ∧ n.HandsOff (n.frameEnd (headerOf kind f) f.payload f.check elapsed) kind f.payload
          (n.link.passage.matched.getD (n.fwd.matchesDest f.dest) = true)) := by
  unfold Node.frameEnd
  split
  · exact .inl n.abortU_quiet.toCalm
  · rename_i short
    split
    · exact .inl n.checkErrorU_quiet.toCalm
    · rename_i check
      exact .inr ⟨⟨Nat.not_lt.1 short, not_not.1 check⟩, n.acceptU_handsOff _ _ _ _⟩

end Sys2Proof.Machine

/-! PROOFS. One clock period, stage by stage, and the events of the time state and the node address (R32, R52, R101, R102). -/

namespace Sys2Proof.Machine

-- One proof at a time: side by side, their threads' stacks pass the memory limit of a check.
set_option Elab.async false

/-! ## One clock period (R101, R192) -/

/-- The chain time set to a value is that value. -/
@[simp] theorem Schedule.setTime_now (c : Schedule) (t : BitVec 40) : (c.setTime t).now = t := by
  apply BitVec.eq_of_getLsbD_eq
  intro i hi
  simp only [Schedule.now, Schedule.setTime, BitVec.getLsbD_append, BitVec.getLsbD_extractLsb']
  by_cases low : i < 8
  · simp [low]
  · have back : 8 + (i - 8) = i := by omega
    have inTick : i - 8 < 32 := by omega
    simp [low, back, inTick]

/-- The node with its chain time and the time since each SOF one advance further. -/
abbrev Node.advanced (n : Node) : Node :=
  { n with sched := n.sched.advance, link := { n.link with uRec := n.link.uRec.run, dRec := n.link.dRec.run } }

theorem Node.advanceTime_due (n : Node) (third : n.clock % 3 = 0) : n.advanceTime = n.advanced.expireCues := if_pos third

theorem Node.advanceTime_between (n : Node) (between : ¬n.clock % 3 = 0) : n.advanceTime = n := if_neg between

/-- What runs in a clock period, and the cues due at the tick count it reaches, move no lane state and no table but by one
period's count. -/
theorem Node.advanceTime_same (n : Node) :
    n.Quiet { n.advanceTime with sched := { n.advanceTime.sched with tick := n.sched.tick, sub := n.sched.sub } }
      ∧ n.advanceTime.sched.now = if n.clock % 3 = 0 then n.sched.now + 16 else n.sched.now := by
  by_cases third : n.clock % 3 = 0
  · rw [if_pos third, n.advanceTime_due third]
    obtain ⟨⟨low, rate, address, time, now, clock⟩, uLane, dLane, tables, sup⟩ := n.advanced.expireCues_quiet
    exact ⟨⟨⟨low, rate, address, time, rfl, clock⟩, uLane, dLane, tables, sup⟩, now.trans (n.sched.setTime_now _)⟩
  · rw [if_neg third, n.advanceTime_between third]
    exact ⟨{}, rfl⟩

theorem Node.silenceOf_calm (n : Node) (lane : Lane) : n.Calm (n.silenceOf lane) := by
  unfold Node.silenceOf
  split
  · exact n.fallSilent_calm lane
  · exact .rfl

theorem Node.idleLimit_calm (n : Node) : n.Calm n.idleLimit := by
  unfold Node.idleLimit
  split <;> exact {}

/-- The lanes and the session after the first events of a period: cues, silence, the session's idle limit. -/
abbrev Node.lanesAndSession (n : Node) : Node := ((n.countPeriod.advanceTime.silenceOf .u).silenceOf .d).idleLimit

/-- The lockouts and samples of a period, up to the supervision timers. -/
abbrev Node.untilTimers (n : Node) : Node := allInputs.foldl Node.sampleOf (allInputs.foldl Node.lockoutOf n.lanesAndSession)

theorem Node.untilTimers_quiet (n : Node) : n.lanesAndSession.Quiet n.untilTimers :=
  (Node.Quiet.foldl Node.lockoutOf_quiet allInputs _).trans (Node.Quiet.foldl Node.sampleOf_quiet allInputs _)

theorem Node.clockPeriod_quiet {n : Node} (on : n.link.resetLow = false) :
    n.untilTimers.supervisionTimers.Quiet n.clockPeriod := by
  unfold Node.clockPeriod
  rw [if_neg (by simp [on])]
  exact (Node.Quiet.foldl Node.tickOf_quiet allGroups _).trans (Node.characterBoundary_quiet _)

theorem Node.lanesAndSession_calm (n : Node) : n.countPeriod.advanceTime.Calm n.lanesAndSession :=
  ((Node.silenceOf_calm _ .u).trans (Node.silenceOf_calm _ .d)).trans (Node.idleLimit_calm _)

theorem Node.fallSilent_sup (n : Node) (lane : Lane) : (n.fallSilent lane).sup = n.sup := by
  unfold Node.fallSilent
  split
  · rfl
  · exact (Node.abortReception_quiet _ lane).sup.trans (by cases lane <;> rfl)

theorem Node.lanesAndSession_sup (n : Node) : n.lanesAndSession.sup = n.countPeriod.sup := by
  have silence : ∀ (m : Node) lane, (m.silenceOf lane).sup = m.sup := by
    intro m lane
    unfold Node.silenceOf
    split
    · exact m.fallSilent_sup lane
    · rfl
  have idle : ∀ m : Node, m.idleLimit.sup = m.sup := by
    intro m
    unfold Node.idleLimit
    split <;> rfl
  rw [Node.lanesAndSession, idle, silence, silence]
  exact n.countPeriod.advanceTime_same.1.sup

/-- The divider count, the chain time, the address and the time state after a clock period. -/
theorem Node.clockPeriod_time {n : Node} (on : n.link.resetLow = false) :
    n.clockPeriod.clock = n.clock + 1
      ∧ n.clockPeriod.sched.now = (if (n.clock + 1) % 3 = 0 then n.sched.now + 16 else n.sched.now)
      ∧ n.clockPeriod.fwd.address = n.fwd.address
      ∧ (n.clockPeriod.sched.time = n.sched.time
        ∨ (n.clockPeriod.sched.time = .invalid ∧ n.sup.failsafeOn = true ∧ n.clockPeriod.sup.state = .failsafe)) := by
  obtain ⟨advanced, now⟩ := n.countPeriod.advanceTime_same
  have lanes := n.lanesAndSession_calm
  have inputs := n.untilTimers_quiet
  have timers := n.untilTimers.supervisionTimers_expires
  have rest := Node.clockPeriod_quiet on
  have sup : n.untilTimers.sup = n.countPeriod.sup := inputs.sup.trans n.lanesAndSession_sup
  have time : n.untilTimers.sched.time = n.sched.time := inputs.time.trans (lanes.time.trans advanced.time)
  refine ⟨?_, ?_, ?_, ?_⟩
  · exact rest.clock.trans (timers.clock.trans (inputs.clock.trans (lanes.clock.trans advanced.clock)))
  · exact rest.now.trans (timers.now.trans (inputs.now.trans (lanes.now.trans now)))
  · exact rest.address.trans ((congrArg Forwarding.address timers.fwd).trans (inputs.address.trans (lanes.address.trans advanced.address)))
  · obtain same | ⟨invalid, failsafeOn, state, -⟩ := timers.time
    · exact .inl (rest.time.trans (same.trans time))
    · exact .inr ⟨rest.time.trans invalid, (congrArg Supervision.failsafeOn sup).symm.trans failsafeOn,
        (congrArg Supervision.state rest.sup).trans state⟩

/-- Settles O2, from the stages of a clock period. -/
theorem idleStepAdvancesDividerAndChainTime : Obligations.IdleStepAdvancesDividerAndChainTime := by
  intro s on empty
  obtain ⟨clock, now, -⟩ := Node.clockPeriod_time on
  exact ⟨s.node.clockPeriod, step_idle s empty, clock, now⟩

/-! ## What a command can do to the time state and the address -/

/-- The ways in which a command can bear on the time state and the address of a node. -/
inductive BearsOn (c : Instr) (n : Node) : Prop
  | calm (time : (c.effect n).sched.time = n.sched.time) (address : (c.effect n).fwd.address = n.fwd.address)
  | release (pins : BitVec 2) (row : c = .powerOn pins ∨ c = .resetnRelease pins) (cache : (c.effect n).cmd.cache = none)
  | frame (kind : Byte) (f : FwdFrame) (elapsed : BitVec 32) (row : c = frameRow kind f elapsed) (genuine : Genuine f kind)
      (handsOff : n.HandsOff (c.effect n) kind f.payload (n.link.passage.matched.getD (n.fwd.matchesDest f.dest) = true))
  | eof (row : c = .characterReceived .u 258 true) (accepts : n.AcceptsAtEof)
      (handsOff : n.HandsOff (c.effect n) (FwdHeader.ofBytes n.link.uRec.hdr).kind n.link.passage.payload
        (n.link.passage.matched.getD (n.fwd.matchesDest (FwdHeader.ofBytes n.link.uRec.hdr).dest) = true))
  | resetNode (ran : n.RanWithReset (c.effect n) (c = .resetNodeFull [] ∨ c = .resetNodeFactory []) (c = .resetNodeFactory []))
  | expiry (row : c = .holdoverTimerExpiry ∨ c = .supervisionTimerExpiry) (expires : n.Expires (c.effect n))

theorem BearsOn.of_calm {c : Instr} {n : Node} (h : n.Calm (c.effect n)) : BearsOn c n := .calm h.time h.address

theorem BearsOn.of_quiet {c : Instr} {n : Node} (h : n.Quiet (c.effect n)) : BearsOn c n := .of_calm h.toCalm

/-- A frame row of a kind. -/
theorem BearsOn.of_row {c : Instr} {n : Node} (kind : Byte) (f : FwdFrame) (elapsed : BitVec 32) (row : c = frameRow kind f elapsed)
    (k : Nat) (effect : c.effect n = n.frameEnd (headerOf kind f) f.payload f.check k) : BearsOn c n := by
  obtain calm | ⟨genuine, handsOff⟩ := n.frameEnd_cases kind f k
  · exact .of_calm (effect ▸ calm)
  · exact .frame kind f elapsed row genuine (effect ▸ handsOff)

/-- A record of any command but RESET NODE is calm for the time state and the address. -/
theorem BearsOn.of_record {c : Instr} {n : Node} (command : Command) (p : List Byte) (noReset : command ≠ .resetNode)
    (effect : c.effect n = n.runRecord command p) : BearsOn c n := by
  obtain ⟨-, time, address⟩ := n.runRecord_ranWithReset command p
  rw [← effect] at time address
  exact .calm (time.resolve_right fun h => noReset h.2.1) (address.resolve_right fun h => noReset h.2.2.1)

theorem Scope.code_inj : ∀ {a b : Scope}, a.code = b.code → a = b := by
  intro a b
  cases a <;> cases b <;> decide

/-- A RESET NODE row: its scope takes effect when nothing follows the scope byte. -/
theorem BearsOn.of_resetNode {c : Instr} {n : Node} (scope : Scope) (rest : List Byte)
    (effect : c.effect n = n.runRecord .resetNode (scope.code :: rest))
    (full : scope = .full → rest = [] → c = .resetNodeFull [])
    (factory : scope = .factory → rest = [] → c = .resetNodeFactory []) : BearsOn c n := by
  obtain ⟨settled, time, address⟩ := n.runRecord_ranWithReset .resetNode (scope.code :: rest)
  rw [← effect] at settled time address
  refine .resetNode ⟨settled, time.imp_right ?_, address.imp_right ?_⟩
  · rintro ⟨invalid, -, reset, mem, e⟩
    obtain ⟨code, nothing⟩ := List.cons.inj e
    have same := Scope.code_inj code
    refine ⟨invalid, ?_⟩
    obtain rfl | rfl : reset = .full ∨ reset = .factory := by simpa using mem
    · exact .inl (full same nothing)
    · exact .inr (factory same nothing)
  · rintro ⟨zero, cache, -, e⟩
    obtain ⟨code, nothing⟩ := List.cons.inj e
    exact ⟨zero, cache, factory (Scope.code_inj code) nothing⟩

/-- A character bears on the time state and the address only as the EOF of an accepted frame on the U forward lane (R10). -/
theorem BearsOn.of_character (lane : Lane) (info : BitVec 9) (stop : Bool) (n : Node) :
    BearsOn (.characterReceived lane info stop) n := by
  obtain calm | ⟨rfl, eof, accepts, effect⟩ := n.receive_cases lane (classify info stop)
  · exact .of_calm calm
  · obtain ⟨rfl, rfl⟩ := (classify_eq_control info stop).2.2.1.1 eof
    refine .eof rfl accepts ?_
    have handsOff := (n.setLane .u (.locked 0)).acceptU_handsOff (FwdHeader.ofBytes n.link.uRec.hdr) n.link.passage.payload
      n.link.uRec.received n.link.uRec.age
    rw [show (Instr.characterReceived .u 258 true).effect n = _ from effect]
    exact ⟨handsOff.time, handsOff.address⟩

/-- A command of an unknown kind is the frame row of its kind (Table 1-4). -/
theorem frameRow_unknown {kind : Byte} (unknown : unknownKind kind = true) (f : FwdFrame) (elapsed : BitVec 32) :
    Instr.unknownKindFrame kind f = frameRow kind f elapsed := by
  have h : ∀ k : Byte, unknownKind k = true → k ≠ 1 ∧ k ≠ 2 ∧ k ≠ 3 ∧ k ≠ 4 ∧ k ≠ 5 := by decide +kernel
  obtain ⟨h1, h2, h3, h4, h5⟩ := h kind unknown
  unfold frameRow
  rw [if_neg h1, if_neg h2, if_neg h3, if_neg h4, if_neg h5]

/-- Every well-formed command bears on the time state and the address in one of the ways named. -/
theorem effect_bearsOn (c : Instr) (wf : c.wellFormed = true) (n : Node) : BearsOn c n := by
  cases c
  case powerOn pins => exact .release pins (.inl rfl) rfl
  case resetnRelease pins => exact .release pins (.inr rfl) rfl
  case resetnFall => exact .calm rfl rfl
  case characterReceived lane info stop => exact .of_character lane info stop n
  case laneSilenceTimeout lane => exact .of_calm (n.fallSilent_calm lane)
  case underrun => exact .of_quiet n.underrun_quiet
  case heldSyncSofSent => exact .of_quiet n.sendSyncSof_quiet
  case heldSyncSent => exact .of_quiet n.sendSyncEof_quiet
  case dataFrame f => exact .of_row kindData f 0 rfl 0 rfl
  case syncFrame f elapsed => exact .of_row kindSync f elapsed rfl elapsed.toNat rfl
  case cueFrame f => exact .of_row kindCue f 0 rfl 0 rfl
  case enumerateFrame f => exact .of_row kindEnumerate f 0 rfl 0 rfl
  case manageFrame f => exact .of_row kindManage f 0 rfl 0 rfl
  case unknownKindFrame kind f =>
    exact .of_row kind f 0 (frameRow_unknown (Bool.and_eq_true_iff.1 wf).1 f 0) 0 rfl
  case status spare rest =>
    cases spare with
    | none => exact .of_record .status rest (by decide) rfl
    | some hi => exact .of_record .status ((hi ++ 0#1) :: rest) (by decide) rfl
  case resetNodeOutputs rest => exact .of_resetNode .outputs rest rfl (nomatch ·) (nomatch ·)
  case resetNodeFull rest => exact .of_resetNode .full rest rfl (fun _ e => e ▸ rfl) (nomatch ·)
  case resetNodeFactory rest => exact .of_resetNode .factory rest rfl (nomatch ·) (fun _ e => e ▸ rfl)
  case cueExpiry => exact .calm (n.cueExpiry_time).1 (n.cueExpiry_time).2
  case senseEdge i level => exact .of_quiet (n.edgeTo_quiet i level)
  case sampleEvent i raw => exact .of_quiet (n.sample_quiet i raw)
  case supervisionTimerExpiry => exact .expiry (.inr rfl) n.supervisionExpiry_expires
  case holdoverTimerExpiry => exact .expiry (.inl rfl) n.holdoverExpiry_expires
  case arbiterSelect => exact .of_quiet n.arbitrate_quiet
  case returnFrameSent => exact .of_quiet n.endReturnFrame_quiet
  case forwardTransmitterCharacter => exact .of_quiet n.forwardCharacter_quiet
  case sessionExpiry | startTick | periodWrap | delayEnd | pulseEnd | lockoutEnd | returnFrameReceived | outputClockTick =>
    exact .calm rfl rfl
  all_goals exact .of_record _ _ (by decide) rfl

/-! ## The time state (R102) -/

/-- A command that makes the time state VALID is an accepted SYNC of length 5. -/
theorem effect_makes_valid {c : Instr} {n : Node} (bears : BearsOn c n) (before : n.sched.time ≠ .valid)
    (after : (c.effect n).sched.time = .valid) :
    (∃ f elapsed, c = .syncFrame f elapsed ∧ Genuine f 0x02 ∧ f.payload.length = 5)
      ∨ ((c = .characterReceived .u 258 true ∧ n.AcceptsAtEof) ∧ (FwdHeader.ofBytes n.link.uRec.hdr).kind = 0x02
        ∧ n.link.passage.payload.length = 5) := by
  have invalid : ∀ {p : Prop}, (c.effect n).sched.time = .invalid ∧ p → False := fun h => by simp [after] at h
  have unchanged : (c.effect n).sched.time = n.sched.time → False := fun h => before (h.symm.trans after)
  cases bears with
  | calm time => exact (unchanged time).elim
  | release pins row =>
    obtain rfl | rfl := row <;> cases (show TimeState.invalid = .valid from after)
  | frame kind f elapsed row genuine handsOff =>
    obtain same | ⟨-, rfl, length⟩ | lost := handsOff.time
    · exact (unchanged same).elim
    · exact .inl ⟨f, elapsed, row, genuine, length⟩
    · exact (invalid lost).elim
  | eof row accepts handsOff =>
    obtain same | ⟨-, kind, length⟩ | lost := handsOff.time
    · exact (unchanged same).elim
    · exact .inr ⟨⟨row, accepts⟩, kind, length⟩
    · exact (invalid lost).elim
  | resetNode ran =>
    obtain same | lost := ran.time
    · exact (unchanged same).elim
    · exact (invalid lost).elim
  | expiry row expires =>
    obtain same | lost := expires.time
    · exact (unchanged same).elim
    · exact (invalid lost).elim

/-- A command that makes the time state INVALID is a reset, holds one, or enters FAILSAFE. -/
theorem effect_makes_invalid {c : Instr} {n : Node} (bears : BearsOn c n) (before : n.sched.time = .valid)
    (after : (c.effect n).sched.time ≠ .valid) :
    (∃ pins, c = .powerOn pins) ∨ (∃ pins, c = .resetnRelease pins) ∨ c = .resetNodeFull [] ∨ c = .resetNodeFactory []
      ∨ (c = .holdoverTimerExpiry ∨ c = .supervisionTimerExpiry) ∧ n.sup.failsafeOn = true ∧ (c.effect n).sup.state = .failsafe
      ∨ (∃ f, c = .manageFrame f ∧ Genuine f 0x03 ∧ n.link.passage.matched.getD (n.fwd.matchesDest f.dest) = true
        ∧ HoldsReset f.payload [.full, .factory])
      ∨ ((c = .characterReceived .u 258 true ∧ n.AcceptsAtEof) ∧ (FwdHeader.ofBytes n.link.uRec.hdr).kind = 0x03
        ∧ n.link.passage.matched.getD (n.fwd.matchesDest (FwdHeader.ofBytes n.link.uRec.hdr).dest) = true
        ∧ HoldsReset n.link.passage.payload [.full, .factory]) := by
  have unchanged : (c.effect n).sched.time = n.sched.time → False := fun h => after (h.trans before)
  cases bears with
  | calm time => exact (unchanged time).elim
  | release pins row => exact row.elim (fun e => .inl ⟨pins, e⟩) (fun e => .inr (.inl ⟨pins, e⟩))
  | frame kind f elapsed row genuine handsOff =>
    obtain same | ⟨valid, -⟩ | ⟨-, rfl, matched, resets⟩ := handsOff.time
    · exact (unchanged same).elim
    · exact absurd valid after
    · exact .inr (.inr (.inr (.inr (.inr (.inl ⟨f, row, genuine, matched, resets⟩)))))
  | eof row accepts handsOff =>
    obtain same | ⟨valid, -⟩ | ⟨-, kind, matched, resets⟩ := handsOff.time
    · exact (unchanged same).elim
    · exact absurd valid after
    · exact .inr (.inr (.inr (.inr (.inr (.inr ⟨⟨row, accepts⟩, kind, matched, resets⟩)))))
  | resetNode ran =>
    obtain same | ⟨-, full | factory⟩ := ran.time
    · exact (unchanged same).elim
    · exact .inr (.inr (.inl full))
    · exact .inr (.inr (.inr (.inl factory)))
  | expiry row expires =>
    obtain same | ⟨-, failsafeOn, state, -⟩ := expires.time
    · exact (unchanged same).elim
    · exact .inr (.inr (.inr (.inr (.inl ⟨row, failsafeOn, state⟩))))

/-- An idle step leaves the time state, or enters FAILSAFE; the address stands. -/
theorem idle_time {s t : State} (empty : s.pending = []) (h : step s = .next t) :
    t.node.fwd.address = s.node.fwd.address
      ∧ (t.node.sched.time = s.node.sched.time
        ∨ (t.node.sched.time = .invalid ∧ s.node.sup.failsafeOn = true ∧ t.node.sup.state = .failsafe)) := by
  obtain rfl := Host.Outcome.next.inj ((step_idle s empty).symm.trans h)
  cases low : s.node.link.resetLow with
  | true =>
    rw [Node.clockPeriod_low low]
    exact ⟨rfl, .inl rfl⟩
  | false => exact (Node.clockPeriod_time low).2.2

/-- Settles O57. -/
theorem timeStateChangesOnlyAtItsEvents : Obligations.TimeStateChangesOnlyAtItsEvents := by
  intro c s t wf valid r h payload isMatch accepted
  have bears := effect_bearsOn c wf s.node
  refine ⟨fun runs before after => ?_, fun runs before after => ?_, fun empty runs before after => ?_,
    fun empty runs before after => ?_⟩
  · obtain ⟨rfl, -⟩ | rfl := exec_next runs
    · exact effect_makes_valid bears before after
    · exact absurd after before
  · obtain ⟨rfl, -⟩ | rfl := exec_next runs
    · exact effect_makes_invalid bears before after
    · exact absurd before after
  · obtain same | ⟨invalid, -⟩ := (idle_time empty runs).2
    · exact before (same.symm.trans after)
    · exact absurd (invalid.symm.trans after) (by decide)
  · obtain same | ⟨-, entered⟩ := (idle_time empty runs).2
    · exact absurd (same.trans before) after
    · exact entered

/-! ## The node address (R32, R52) -/

/-- A command that changes the address empties the response cache, and is one of the events named. -/
theorem effect_changes_address {c : Instr} {n : Node} (bears : BearsOn c n) (changed : (c.effect n).fwd.address ≠ n.fwd.address) :
    (c.effect n).cmd.cache = none
      ∧ ((∃ f, c = .enumerateFrame f ∧ Genuine f 0x05 ∧ n.link.passage.matched.getD (n.fwd.matchesDest f.dest) = true
          ∧ f.payload.length = 2)
        ∨ (∃ f, c = .manageFrame f ∧ Genuine f 0x03 ∧ n.link.passage.matched.getD (n.fwd.matchesDest f.dest) = true
          ∧ HoldsReset f.payload [.factory] ∧ (c.effect n).fwd.address = 0)
        ∨ (∃ pins, c = .powerOn pins ∨ c = .resetnRelease pins)
        ∨ c = .resetNodeFactory []
        ∨ ((c = .characterReceived .u 258 true ∧ n.AcceptsAtEof) ∧ (FwdHeader.ofBytes n.link.uRec.hdr).kind = 0x05
          ∧ n.link.passage.matched.getD (n.fwd.matchesDest (FwdHeader.ofBytes n.link.uRec.hdr).dest) = true
          ∧ n.link.passage.payload.length = 2)
        ∨ ((c = .characterReceived .u 258 true ∧ n.AcceptsAtEof) ∧ (FwdHeader.ofBytes n.link.uRec.hdr).kind = 0x03
          ∧ n.link.passage.matched.getD (n.fwd.matchesDest (FwdHeader.ofBytes n.link.uRec.hdr).dest) = true
          ∧ HoldsReset n.link.passage.payload [.factory] ∧ (c.effect n).fwd.address = 0)) := by
  cases bears with
  | calm _ address => exact absurd address changed
  | release pins row cache => exact ⟨cache, .inr (.inr (.inl ⟨pins, row⟩))⟩
  | frame kind f elapsed row genuine handsOff =>
    obtain ⟨cache, ⟨rfl, matched, length⟩ | ⟨rfl, matched, resets, zero⟩⟩ := handsOff.address.resolve_left changed
    · exact ⟨cache, .inl ⟨f, row, genuine, matched, length⟩⟩
    · exact ⟨cache, .inr (.inl ⟨f, row, genuine, matched, resets, zero⟩)⟩
  | eof row accepts handsOff =>
    obtain ⟨cache, event⟩ := handsOff.address.resolve_left changed
    refine ⟨cache, .inr (.inr (.inr (.inr ?_)))⟩
    exact event.imp (fun e => ⟨⟨row, accepts⟩, e⟩) (fun e => ⟨⟨row, accepts⟩, e⟩)
  | resetNode ran =>
    obtain ⟨-, cache, row⟩ := ran.address.resolve_left changed
    exact ⟨cache, .inr (.inr (.inr (.inl row)))⟩
  | expiry _ expires => exact absurd (congrArg Forwarding.address expires.fwd) changed

/-- Settles O58. -/
theorem addressChangesOnlyAtItsEvents : Obligations.AddressChangesOnlyAtItsEvents := by
  intro c s t wf r h payload isMatch accepted
  refine ⟨fun runs changed => ?_, fun empty runs => (idle_time empty runs).1⟩
  obtain ⟨rfl, -⟩ | rfl := exec_next runs
  · exact effect_changes_address (effect_bearsOn c wf s.node) changed
  · exact absurd rfl changed

end Sys2Proof.Machine

/-! PROOFS. Resets (R22, R23, R174) and the receiving lanes: the receive machine (R6, R7), the reception record (R8 to R11), the
forward copy (R14 to R17, R35). -/

namespace Sys2Proof.Machine

-- One proof at a time: side by side, their threads' stacks pass the memory limit of a check.
set_option Elab.async false

/-! ## Resets -/

/-- The identity curve, with its last point written out (R66). -/
theorem identityPoints_eq : identityPoints = .ofFn fun k => if k.val = 32 then 65535 else BitVec.ofNat 16 (2048 * k.val) := by
  decide

/-- Settles O5, from the reset values of the blocks. -/
theorem releaseGivesEveryBlockItsResetValues : Obligations.ReleaseGivesEveryBlockItsResetValues := by
  unfold Obligations.ReleaseGivesEveryBlockItsResetValues
  rw [← identityPoints_eq]
  refine ⟨?start, ?release⟩
  case start =>
    rintro ⟨n, pending⟩ rfl
    rfl
  case release =>
    rintro pins c s (rfl | rfl)
    · rfl
    · rfl

/-- Settles O6, by the definition of the falling edge. -/
theorem resetnFallCutsOffTheLink : Obligations.ResetnFallCutsOffTheLink := fun _ => rfl

/-! ## The receive machine (R6, R7) -/

/-- A character in SILENT moves the lock count only (R6). -/
theorem Node.receive_silent {n : Node} {lane : Lane} {k : Nat} (silent : n.link.laneState lane = .silent k) (c : RxChar) :
    n.receive lane c
      = n.setLane lane (if !c.isValid then .silent 0 else if k + 1 < 16 then .silent (k + 1) else .locked 0) := by
  unfold Node.receive
  rw [silent]
  cases c.isValid
  · rfl
  · simp only [if_true, Bool.not_true, Bool.false_eq_true, if_false]
    exact (apply_ite (n.setLane lane) _ _ _).symm

/-- A character in LOCKED reaches the frame logic; a valid one restarts the silence timer first (R6). -/
theorem Node.receive_locked {n : Node} {lane : Lane} {t : Nat} (locked : n.link.laneState lane = .locked t) (c : RxChar) :
    n.receive lane c = (n.setLane lane (if c.isValid then .locked 0 else .locked t)).deliver lane c := by
  have same : n.setLane lane (.locked t) = n := by
    rw [← locked]
    cases lane <;> rfl
  unfold Node.receive
  rw [locked]
  cases c.isValid
  · simp only [Bool.false_eq_true, if_false, same]
  · rfl

/-- Settles O7: a SILENT lane reads a character's validity alone. -/
theorem silentLaneCountsValidCharacters : Obligations.SilentLaneCountsValidCharacters := by
  intro lane info stop k s on silent valid state
  refine (exec_on on _).trans (next_withNode ?_)
  have moved := Node.receive_silent silent (classify info stop)
  rw [classify_valid] at moved
  refine moved.trans ?_
  cases lane <;> rfl

/-! ## Characters outside a frame (R8, R9) -/

theorem Node.deliverU_outside {n : Node} (outside : n.link.uRec.phase = .outside) (c : RxChar) :
    n.deliverU c = if c = .sof then n.openU else n := by
  unfold Node.deliverU
  rw [outside]
  cases c <;> rfl

theorem Node.deliverD_outside {n : Node} (outside : n.link.dRec.phase = .outside) (c : RxChar) :
    n.deliverD c = if c = .sof then n.openD else n := by
  unfold Node.deliverD
  rw [outside]
  cases c <;> rfl

/-- The SOF is the one character that opens a record. -/
theorem classify_sof (info : BitVec 9) (stop : Bool) : (classify info stop = .sof) ↔ (stop && decide (info = 257)) = true := by
  rw [(classify_eq_control info stop).2.1]
  simp

/-- Settles O8: a LOCKED lane's validity rule, and what the frame logic does OUTSIDE. -/
theorem lockedLaneOutsideAFrame : Obligations.LockedLaneOutsideAFrame := by
  intro info stop t s on lane opens fresh
  refine ⟨fun locked outside => ?_, fun locked outside => ?_⟩
  · refine (exec_on on _).trans (next_withNode ?_)
    refine (Node.receive_locked (lane := .u) locked (classify info stop)).trans ?_
    rw [classify_valid]
    refine (Node.deliverU_outside (n := s.node.setLane .u lane) outside (classify info stop)).trans ?_
    by_cases sof : classify info stop = .sof
    · have o : opens = true := (classify_sof info stop).1 sof
      rw [if_pos sof, o]
      rfl
    · have o : opens = false := Bool.eq_false_iff.2 fun q => sof ((classify_sof info stop).2 q)
      rw [if_neg sof, o]
      rfl
  · refine (exec_on on _).trans (next_withNode ?_)
    refine (Node.receive_locked (lane := .d) locked (classify info stop)).trans ?_
    rw [classify_valid]
    refine (Node.deliverD_outside (n := s.node.setLane .d lane) outside (classify info stop)).trans ?_
    by_cases sof : classify info stop = .sof
    · have o : opens = true := (classify_sof info stop).1 sof
      rw [if_pos sof, o]
      rfl
    · have o : opens = false := Bool.eq_false_iff.2 fun q => sof ((classify_sof info stop).2 q)
      rw [if_neg sof, o]
      rfl

/-! ## Data characters of a frame -/

/-- A data character on a LOCKED U forward lane restarts the silence timer and reaches the frame logic. -/
theorem exec_dataU {s : State} (on : s.On) {t : Nat} (locked : s.node.link.uLane = .locked t) (b : Byte) :
    exec (.characterReceived .u (b.setWidth 9) true) s
      = .next (s.withNode ((s.node.setLane .u (.locked 0)).deliverU (.data b))) := by
  refine (exec_on on _).trans (next_withNode ?_)
  refine (Node.receive_locked (lane := .u) locked (classify (b.setWidth 9) true)).trans ?_
  rw [classify_data]
  rfl

theorem exec_dataD {s : State} (on : s.On) {t : Nat} (locked : s.node.link.dLane = .locked t) (b : Byte) :
    exec (.characterReceived .d (b.setWidth 9) true) s
      = .next (s.withNode ((s.node.setLane .d (.locked 0)).deliverD (.data b))) := by
  refine (exec_on on _).trans (next_withNode ?_)
  refine (Node.receive_locked (lane := .d) locked (classify (b.setWidth 9) true)).trans ?_
  rw [classify_data]
  rfl

/-! ## Header bytes (R9, R13, R14) -/

/-- A header byte before the eighth is appended and enters the check (R9). -/
theorem Node.deliverU_header_short {n : Node} (header : n.link.uRec.phase = .header) (short : n.link.uRec.hdr.length < 7) (b : Byte) :
    n.deliverU (.data b) = { n with link := { n.link with uRec := n.link.uRec.takeHeader b } } := by
  unfold Node.deliverU
  rw [header]
  refine if_neg fun eighth : (n.link.uRec.hdr ++ [b]).length = 8 => ?_
  simp at eighth
  omega

/-- The eighth header byte completes the header (R9). -/
theorem Node.deliverU_header_last {n : Node} (header : n.link.uRec.phase = .header) (last : n.link.uRec.hdr.length = 7) (b : Byte) :
    n.deliverU (.data b) = ({ n with link := { n.link with uRec := n.link.uRec.takeHeader b } } : Node).headerComplete := by
  unfold Node.deliverU
  rw [header]
  exact if_pos (by simp [Reception.takeHeader, last])

theorem Node.deliverD_header_short {n : Node} (header : n.link.dRec.phase = .header) (short : n.link.dRec.hdr.length < 7) (b : Byte) :
    n.deliverD (.data b) = { n with link := { n.link with dRec := n.link.dRec.takeHeader b } } := by
  unfold Node.deliverD
  rw [header]
  refine if_neg fun eighth : (n.link.dRec.hdr ++ [b]).length = 8 => ?_
  simp at eighth
  omega

theorem Node.deliverD_header_last {n : Node} (header : n.link.dRec.phase = .header) (last : n.link.dRec.hdr.length = 7) (b : Byte) :
    n.deliverD (.data b)
      = if 1024 < lengthField (n.link.dRec.hdr ++ [b]) then n.endD .aborted
        else { n with link := { n.link with dRec := { n.link.dRec.takeHeader b with phase := .body } } } := by
  unfold Node.deliverD
  rw [header]
  exact if_pos (by simp [Reception.takeHeader, last])

/-- A 16-bit field is its two bytes. -/
theorem word16_toNat (h l : Byte) : (word16 h l).toNat = 256 * h.toNat + l.toNat := by
  have bound := l.isLt
  rw [word16, BitVec.toNat_append, Nat.shiftLeft_eq, Nat.mul_comm, ← Nat.two_pow_add_eq_or_of_lt bound]

/-- The length field of eight header bytes is the last two of them. -/
theorem lengthField_append {hdr : List Byte} (seven : hdr.length = 7) (b : Byte) :
    lengthField (hdr ++ [b]) = 256 * (hdr.getD 6 0).toNat + b.toNat := by
  match hdr, seven with
  | [k, f, d1, d0, q, h, l1], _ => exact word16_toNat l1 b

theorem destinationConsulted_iff (kind : Byte) : destinationConsulted kind = true ↔ kind = 0x01 ∨ kind = 0x03 ∨ kind = 0x05 := by
  simp only [destinationConsulted, Bool.or_eq_true, decide_eq_true_eq, or_assoc]
  exact Iff.rfl

theorem isEnumerating_iff (h : FwdHeader) (isMatch : Bool) :
    isEnumerating h isMatch = true ↔ h.kind = 0x05 ∧ h.length.toNat = 2 ∧ isMatch = true := by
  simp only [isEnumerating, Bool.and_eq_true, decide_eq_true_eq, and_assoc]
  exact Iff.rfl

/-- The disposition of a frame (R13, R25, R29); a MANAGE frame's destination is consulted. -/
theorem dispositionOf_eq (h : FwdHeader) (isMatch : Bool) :
    dispositionOf h (destinationConsulted h.kind && isMatch)
      = if h.kind = 0x03 ∧ destMode h.dest = .node ∧ isMatch = true then .absorb
        else if h.kind = 0x02 ∧ h.length.toNat = 5 then .hold else .pass := by
  have absorb : (decide (h.kind = kindManage) && decide (destMode h.dest = .node) && (destinationConsulted h.kind && isMatch)) = true
      ↔ h.kind = 0x03 ∧ destMode h.dest = .node ∧ isMatch = true := by
    simp only [Bool.and_eq_true, decide_eq_true_eq, destinationConsulted_iff, and_assoc]
    exact ⟨fun ⟨manage, node, _, m⟩ => ⟨manage, node, m⟩, fun ⟨manage, node, m⟩ => ⟨manage, node, .inr (.inl manage), m⟩⟩
  have hold : (decide (h.kind = kindSync) && decide (h.length.toNat = 5)) = true ↔ h.kind = 0x02 ∧ h.length.toNat = 5 := by
    simp only [Bool.and_eq_true, decide_eq_true_eq]
    exact Iff.rfl
  unfold dispositionOf
  simp only [absorb, hold]

/-- What the header's end notes, as R13, R27 and R33 give it. -/
theorem Node.noteHeader_eq (n : Node) (h : FwdHeader) :
    n.noteHeader h = { n with link := { n.link with passage := { n.link.passage with
      disposition := some (if h.kind = 0x03 ∧ destMode h.dest = .node ∧ n.fwd.matchesDest h.dest = true then .absorb
        else if h.kind = 0x02 ∧ h.length.toNat = 5 then .hold else .pass)
      matched := if h.kind = 0x01 ∨ h.kind = 0x03 ∨ h.kind = 0x05 then some (n.fwd.matchesDest h.dest) else none
      enumNote := if h.kind = 0x05 ∧ h.length.toNat = 2 ∧ n.fwd.matchesDest h.dest = true then
        some { fill := h.flags.getLsbD 0, address := n.fwd.address } else none } } } := by
  unfold Node.noteHeader
  simp only [dispositionOf_eq, destinationConsulted_iff, isEnumerating_iff]

/-- A copy begun and closed at once keeps nothing of the record that was noted meanwhile (R11, R15). -/
theorem Node.abortU_copyTakes (n : Node) (r : Reception) (p q : Passage) (opened : p.copy = .opened) (also : q.copy = .opened)
    (k : Bool) (bs : List Byte) :
    (({ n with link := { n.link with uRec := r, passage := p } } : Node).copyTakes k bs).abortU
      = (({ n with link := { n.link with passage := q } } : Node).copyTakes k bs).abortU := by
  simp only [Node.abortU_eq, Node.copyTakes, opened, also, if_true]

/-- The eighth header byte of a frame with a length field of 1024 or less (R13, R14). -/
theorem Node.headerComplete_fits {n : Node} (fits : ¬1024 < (FwdHeader.ofBytes n.link.uRec.hdr).length.toNat) :
    let h := FwdHeader.ofBytes n.link.uRec.hdr
    let m := ({ n with link := { n.link with uRec := { n.link.uRec with phase := .body } } } : Node).noteHeader h
    n.headerComplete = if m.link.passage.disposition = some .pass then m.beginCopy h else m := if_neg fits

/-- A length field over 1024 aborts the frame at its eighth header byte (R11). -/
theorem Node.headerComplete_overlong {n : Node} (long : 1024 < (FwdHeader.ofBytes n.link.uRec.hdr).length.toNat) :
    let h := FwdHeader.ofBytes n.link.uRec.hdr
    let m := ({ n with link := { n.link with uRec := { n.link.uRec with phase := .body } } } : Node).noteHeader h
    n.headerComplete = (if m.link.passage.disposition = some .pass then m.beginCopy h else m).abortU := if_pos long

/-- Settles O9. -/
theorem headerEndFixesDispositionAndBeginsCopy : Obligations.HeaderEndFixesDispositionAndBeginsCopy := by
  refine ⟨fun b t s on locked header short => ?_, fun b t s on locked header => ⟨fun short => ?_, fun last => ?_⟩,
    fun b t s on locked header last => ?_⟩
  · refine (exec_dataU on locked b).trans (next_withNode ?_)
    exact Node.deliverU_header_short (n := s.node.setLane .u (.locked 0)) header short b
  · refine (exec_dataD on locked b).trans (next_withNode ?_)
    exact Node.deliverD_header_short (n := s.node.setLane .d (.locked 0)) header short b
  · refine (exec_dataD on locked b).trans (next_withNode ?_)
    refine (Node.deliverD_header_last (n := s.node.setLane .d (.locked 0)) header last b).trans ?_
    have field := lengthField_append last b
    by_cases long : 1024 < lengthField (s.node.link.dRec.hdr ++ [b])
    · exact (if_pos long).trans (if_neg (by omega)).symm
    · exact (if_neg long).trans (if_pos (by omega)).symm
  intro l h isMatch d m begun passedOn
  refine ⟨fun fits => ?_, fun long absent => ?_⟩
  · refine (exec_dataU on locked b).trans (next_withNode ?_)
    refine (Node.deliverU_header_last (n := s.node.setLane .u (.locked 0)) header last b).trans ?_
    refine (Node.headerComplete_fits (Nat.not_lt.2 fits)).trans ?_
    rw [Node.noteHeader_eq, Node.beginCopy_eq]
    change (if some d = some .pass then begun.copyTakes true passedOn.bytes else m) = _
    simp only [Option.some.injEq]
  · intro still opened k
    refine (exec_dataU on locked b).trans (next_withNode ?_)
    refine (Node.deliverU_header_last (n := s.node.setLane .u (.locked 0)) header last b).trans ?_
    refine (Node.headerComplete_overlong long).trans (Eq.trans ?_ k.abortU_eq)
    rw [Node.noteHeader_eq, Node.beginCopy_eq]
    change (if some d = some .pass then begun.copyTakes true passedOn.bytes else m).abortU = k.abortU
    by_cases absorbed : h.kind = 3 ∧ destMode h.dest = .node ∧ isMatch = true
    · have absorb : d = .absorb := if_pos absorbed
      rw [if_neg (by rw [absorb]; decide), show k = still from if_pos absorb, Node.abortU_eq, Node.abortU_eq]
    · have pass : d = .pass := (if_neg absorbed).trans (if_neg fun hold => absurd hold.2 (by omega))
      rw [if_pos (congrArg some pass), show k = opened.copyTakes true passedOn.bytes from if_neg (by rw [pass]; decide)]
      exact Node.abortU_copyTakes opened _ _ _ rfl rfl true _

end Sys2Proof.Machine

/-! PROOFS. The body of a frame, its aborts and its EOF on both receiving lanes (R9 to R11, R14, R17, R21, R35, R169). -/

namespace Sys2Proof.Machine

-- One proof at a time: side by side, their threads' stacks pass the memory limit of a check.
set_option Elab.async false

/-! ## Body bytes (R9, R14, R35) -/

theorem Node.deliverU_body {n : Node} (body : n.link.uRec.phase = .body) (b : Byte) : n.deliverU (.data b) = n.bodyByteU b := by
  unfold Node.deliverU
  rw [body]

theorem Node.deliverD_body {n : Node} (body : n.link.dRec.phase = .body) (b : Byte) : n.deliverD (.data b) = n.bodyByteD b := by
  unfold Node.deliverD
  rw [body]

/-- The node with a payload byte counted, checked and kept (R9, log entry 12). -/
abbrev Node.keepsPayload (n : Node) (b : Byte) : Node :=
  { n with link := { n.link with
      uRec := n.link.uRec.takePayload b, passage := { n.link.passage with payload := n.link.passage.payload ++ [b] } } }

theorem Node.bodyByteU_payload {n : Node} (inside : n.link.uRec.count < n.link.uRec.length) (b : Byte) :
    n.bodyByteU b = (n.keepsPayload b).copyPayload b := if_pos inside

theorem Node.bodyByteU_firstCheck {n : Node} (first : n.link.uRec.count = n.link.uRec.length) (b : Byte) :
    n.bodyByteU b = { n with link := { n.link with uRec := n.link.uRec.takeCheck b } } :=
  (if_neg (by omega)).trans ((if_pos (by omega)).trans (if_neg (by omega)))

theorem Node.bodyByteU_secondCheck {n : Node} (second : n.link.uRec.count = n.link.uRec.length + 1) (b : Byte) :
    n.bodyByteU b = ({ n with link := { n.link with uRec := n.link.uRec.takeCheck b } } : Node).copyTakes false
      (bytes16 n.link.passage.outCheck) :=
  ((if_neg (by omega)).trans ((if_pos (by omega)).trans (if_pos second))).trans (Node.placeRun_eq _ _ _)

theorem Node.bodyByteU_tooMany {n : Node} (surplus : n.link.uRec.length + 2 ≤ n.link.uRec.count) (b : Byte) : n.bodyByteU b = n.abortU :=
  (if_neg (by omega)).trans (if_neg (by omega))

/-- Outside an enumerating frame the copy takes a payload byte as it arrives (R14). -/
theorem Node.copyPayload_plain {n : Node} (plain : n.link.passage.enumNote = none) (b : Byte) :
    n.copyPayload b = n.copyTakes true [b] := by
  rw [← Node.placeRun_eq]
  unfold Node.copyPayload
  rw [plain]
  rfl

/-- The first byte of a next-address is held (R35). -/
theorem Node.copyPayload_held {n : Node} {note : EnumNote} (noted : n.link.passage.enumNote = some note)
    (first : n.link.passage.heldByte = none) (b : Byte) :
    n.copyPayload b = { n with link := { n.link with passage := { n.link.passage with heldByte := some b } } } := by
  unfold Node.copyPayload
  rw [noted]
  dsimp only
  rw [first]

/-- At its second byte the copy takes the outgoing next-address (R35). -/
theorem Node.copyPayload_next {n : Node} {note : EnumNote} {first : Byte} (noted : n.link.passage.enumNote = some note)
    (held : n.link.passage.heldByte = some first) (b : Byte) :
    n.copyPayload b = ({ n with link := { n.link with passage := { n.link.passage with heldByte := none } } } : Node).copyTakes true
      (bytes16 (enumDecide (word16 first b) note).next) := by
  rw [← Node.placeRun_eq]
  unfold Node.copyPayload
  rw [noted]
  dsimp only
  rw [held]
  rfl

/-- A next-address out of range is an overrun (Table 2-3). -/
theorem enumDecide_overrun {next : BitVec 16} (out : ¬(1 ≤ next.toNat ∧ next.toNat ≤ 1023)) (note : EnumNote) :
    enumDecide next note = { take := none, next := next, overrun := true } := if_neg (by simpa using out)

/-- With FILL set a node that had an address keeps it (Table 2-3). -/
theorem enumDecide_kept {next : BitVec 16} {note : EnumNote} (inRange : 1 ≤ next.toNat ∧ next.toNat ≤ 1023)
    (kept : note.fill = true ∧ note.address ≠ 0) : enumDecide next note = { take := none, next := next, overrun := false } :=
  (if_pos (by simpa using inRange)).trans (if_pos (by simpa using kept))

/-- Every other node takes the number (Table 2-3). -/
theorem enumDecide_taken {next : BitVec 16} {note : EnumNote} (inRange : 1 ≤ next.toNat ∧ next.toNat ≤ 1023)
    (free : ¬(note.fill = true ∧ note.address ≠ 0)) :
    enumDecide next note = { take := some (next.setWidth 10), next := next + 1, overrun := false } :=
  (if_pos (by simpa using inRange)).trans (if_neg (by simpa using free))

/-- The outgoing next-address: one more when the node takes the number, else as received (R35). -/
theorem enumDecide_next (next : BitVec 16) (note : EnumNote) :
    (enumDecide next note).next
      = if 1 ≤ next.toNat ∧ next.toNat ≤ 1023 ∧ ¬(note.fill = true ∧ note.address ≠ 0) then next + 1 else next := by
  by_cases inRange : 1 ≤ next.toNat ∧ next.toNat ≤ 1023
  · by_cases kept : note.fill = true ∧ note.address ≠ 0
    · rw [enumDecide_kept inRange kept, if_neg fun q => q.2.2 kept]
    · rw [enumDecide_taken inRange kept, if_pos ⟨inRange.1, inRange.2, kept⟩]
  · rw [enumDecide_overrun inRange, if_neg fun q => inRange ⟨q.1, q.2.1⟩]

theorem Node.bodyByteD_payload {n : Node} (inside : n.link.dRec.count < n.link.dRec.length) (b : Byte) :
    n.bodyByteD b = { n with
      link := { n.link with dRec := n.link.dRec.takePayload b }
      ret := { n.ret with area := if n.ret.area.length < 256 then n.ret.area ++ [b] else n.ret.area } } := by
  refine (if_pos inside).trans ?_
  by_cases room : n.ret.area.length < 256
  · simp only [Config.maxRelayPayload, room, if_true]
  · simp only [Config.maxRelayPayload, room, if_false]

theorem Node.bodyByteD_check {n : Node} (check : n.link.dRec.count = n.link.dRec.length ∨ n.link.dRec.count = n.link.dRec.length + 1)
    (b : Byte) : n.bodyByteD b = { n with link := { n.link with dRec := n.link.dRec.takeCheck b } } :=
  (if_neg (by omega)).trans (if_pos (by omega))

theorem Node.bodyByteD_tooMany {n : Node} (surplus : n.link.dRec.length + 2 ≤ n.link.dRec.count) (b : Byte) :
    n.bodyByteD b = n.endD .aborted :=
  (if_neg (by omega)).trans (if_neg (by omega))

/-- A body byte on a LOCKED U forward lane. -/
theorem exec_bodyU {s : State} (on : s.On) {t : Nat} (locked : s.node.link.uLane = .locked t) (body : s.node.link.uRec.phase = .body)
    (b : Byte) :
    exec (.characterReceived .u (b.setWidth 9) true) s = .next (s.withNode ((s.node.setLane .u (.locked 0)).bodyByteU b)) :=
  (exec_dataU on locked b).trans (next_withNode (Node.deliverU_body (n := s.node.setLane .u (.locked 0)) body b))

theorem exec_bodyD {s : State} (on : s.On) {t : Nat} (locked : s.node.link.dLane = .locked t) (body : s.node.link.dRec.phase = .body)
    (b : Byte) :
    exec (.characterReceived .d (b.setWidth 9) true) s = .next (s.withNode ((s.node.setLane .d (.locked 0)).bodyByteD b)) :=
  (exec_dataD on locked b).trans (next_withNode (Node.deliverD_body (n := s.node.setLane .d (.locked 0)) body b))

/-- Settles O11, from the place of each body byte. -/
theorem bodyBytesArePassedOn : Obligations.BodyBytesArePassedOn := by
  refine ⟨fun b t s on locked body => ⟨fun inside => ?_, fun check => ?_⟩,
    fun b t s on locked body => ⟨fun inside plain => ?_, fun first => ?_, fun second => ?_⟩⟩
  · exact (exec_bodyD on locked body b).trans
      (next_withNode (Node.bodyByteD_payload (n := s.node.setLane .d (.locked 0)) inside b))
  · exact (exec_bodyD on locked body b).trans
      (next_withNode (Node.bodyByteD_check (n := s.node.setLane .d (.locked 0)) check b))
  · exact (exec_bodyU on locked body b).trans
      (next_withNode ((Node.bodyByteU_payload (n := s.node.setLane .u (.locked 0)) inside b).trans
        (Node.copyPayload_plain (n := (s.node.setLane .u (.locked 0)).keepsPayload b) plain b)))
  · exact (exec_bodyU on locked body b).trans
      (next_withNode (Node.bodyByteU_firstCheck (n := s.node.setLane .u (.locked 0)) first b))
  · exact (exec_bodyU on locked body b).trans
      (next_withNode (Node.bodyByteU_secondCheck (n := s.node.setLane .u (.locked 0)) second b))

/-- Settles O12, from the copy's two steps for the next-address. -/
theorem nextAddressIsPassedOnWhole : Obligations.NextAddressIsPassedOnWhole := by
  intro b t note s on locked body inside noted l m
  have payload := (exec_bodyU on locked body b).trans
    (next_withNode (Node.bodyByteU_payload (n := s.node.setLane .u (.locked 0)) inside b))
  refine ⟨fun first => ?_, fun first held => ?_⟩
  · exact payload.trans (next_withNode (Node.copyPayload_held (n := m) noted first b))
  · intro next out
    refine payload.trans (next_withNode ((Node.copyPayload_next (n := m) noted held b).trans ?_))
    rw [enumDecide_next]
    rfl

/-! ## Aborts (R11) -/

/-- What a character other than an SOF finds wrong with a frame in reception (R11). -/
def RxChar.Breaks (c : RxChar) (r : Reception) : Prop :=
  match c with
  | .idle | .eoa | .codeError => True
  | .eof => ¬(r.phase = .body ∧ r.count = r.length + 2)
  | .data _ => r.phase = .body ∧ r.length + 2 ≤ r.count
  | .sof => False

theorem Reception.complete_iff (r : Reception) : r.complete = true ↔ r.phase = .body ∧ r.count = r.length + 2 := by
  simp [Reception.complete]

/-- A character that breaks a frame aborts it on the U forward lane (R11). -/
theorem Node.deliverU_breaks {n : Node} {c : RxChar} (inside : n.link.uRec.phase ≠ .outside) (breaks : c.Breaks n.link.uRec) :
    n.deliverU c = n.abortU := by
  unfold Node.deliverU
  cases phase : n.link.uRec.phase
  case outside => exact absurd phase inside
  case header =>
    cases c
    case data b => exact absurd (phase.symm.trans breaks.1) (by decide)
    case sof => exact breaks.elim
    all_goals rfl
  case body =>
    cases c
    case data b => exact Node.bodyByteU_tooMany breaks.2 b
    case sof => exact breaks.elim
    case eof => exact if_neg (by rw [Reception.complete_iff]; exact breaks)
    all_goals rfl

/-- A character that breaks a frame aborts it on the D return lane (R11). -/
theorem Node.deliverD_breaks {n : Node} {c : RxChar} (inside : n.link.dRec.phase ≠ .outside) (breaks : c.Breaks n.link.dRec) :
    n.deliverD c = n.endD .aborted := by
  unfold Node.deliverD
  cases phase : n.link.dRec.phase
  case outside => exact absurd phase inside
  case header =>
    cases c
    case data b => exact absurd (phase.symm.trans breaks.1) (by decide)
    case sof => exact breaks.elim
    all_goals rfl
  case body =>
    cases c
    case data b => exact Node.bodyByteD_tooMany breaks.2 b
    case sof => exact breaks.elim
    case eof => exact if_neg (by rw [Reception.complete_iff]; exact breaks)
    all_goals rfl

/-- An SOF in reception aborts the frame and opens a new one (R9, R11). -/
theorem Node.deliverU_sof {n : Node} (inside : n.link.uRec.phase ≠ .outside) : n.deliverU .sof = n.abortU.openU := by
  unfold Node.deliverU
  cases phase : n.link.uRec.phase
  case outside => exact absurd phase inside
  all_goals rfl

theorem Node.deliverD_sof {n : Node} (inside : n.link.dRec.phase ≠ .outside) : n.deliverD .sof = (n.endD .aborted).openD := by
  unfold Node.deliverD
  cases phase : n.link.dRec.phase
  case outside => exact absurd phase inside
  all_goals rfl

/-- The causes of an abort, as the characters that are classified (R3, R11). -/
theorem classify_breaks {info : BitVec 9} {stop : Bool} {r : Reception}
    (cause : (!stop || decide (260 ≤ info.toNat)) = true ∨ info = 256 ∨ info = 259 ∨ (stop && decide (info = 257)) = true
      ∨ (info = 258 ∧ ¬(r.phase = .body ∧ r.count = r.length + 2))
      ∨ (info.toNat < 256 ∧ r.phase = .body ∧ r.length + 2 ≤ r.count)) :
    classify info stop = .sof ∨ (classify info stop ≠ .sof ∧ (classify info stop).Breaks r) := by
  obtain ⟨idle, sof, eof, eoa, codeError⟩ := classify_eq_control info stop
  by_cases rest : stop = false ∨ 260 ≤ info.toNat
  · rw [codeError.2 rest]
    exact .inr ⟨by decide, trivial⟩
  · have high : stop = true := by simpa using fun q => rest (.inl q)
    obtain error | isIdle | isEoa | isSof | ⟨isEof, short⟩ | ⟨isData, body, full⟩ := cause
    · exact absurd (by simpa using error) rest
    · rw [idle.2 ⟨high, isIdle⟩]
      exact .inr ⟨by decide, trivial⟩
    · rw [eoa.2 ⟨high, isEoa⟩]
      exact .inr ⟨by decide, trivial⟩
    · exact .inl ((classify_sof info stop).2 isSof)
    · rw [eof.2 ⟨high, isEof⟩]
      exact .inr ⟨by decide, short⟩
    · rw [classify_eq_data info stop ⟨high, isData⟩]
      exact .inr ⟨by simp, body, full⟩

/-- Whether a character is a code error (R3). -/
theorem classify_codeError (info : BitVec 9) (stop : Bool) :
    (classify info stop).isValid = !(!stop || decide (260 ≤ info.toNat)) := by
  rw [classify_valid]
  by_cases low : info.toNat < 256
  · have : ¬260 ≤ info.toNat := by omega
    simp [low, this]
  · by_cases valid : info.toNat < 260
    · have : 256 ≤ info.toNat ∧ ¬260 ≤ info.toNat := by omega
      simp [valid, this]
    · have : 260 ≤ info.toNat := by omega
      simp [low, valid, this]

/-- Settles O13: an SOF aborts and opens, every other cause aborts. -/
theorem forwardFrameIsAborted : Obligations.ForwardFrameIsAborted := by
  intro info stop t s on codeError sof lane fresh aborts
  have state : (if (classify info stop).isValid then LaneState.locked 0 else .locked t) = lane := by
    rw [classify_codeError]
    change (if (!codeError) = true then LaneState.locked 0 else .locked t) = if codeError = true then .locked t else .locked 0
    cases codeError <;> rfl
  refine ⟨fun locked cause => ?_, fun locked cause => ?_⟩
  · intro m
    refine (exec_on on _).trans (next_withNode ?_)
    refine (Node.receive_locked (lane := .u) locked (classify info stop)).trans ?_
    rw [state]
    obtain isSof | ⟨notSof, breaks⟩ := classify_breaks cause.2
    · rw [isSof]
      refine (Node.deliverU_sof (n := s.node.setLane .u lane) cause.1).trans ?_
      rw [Node.abortU_eq, show sof = true from (classify_sof info stop).1 isSof]
      rfl
    · refine (Node.deliverU_breaks (n := s.node.setLane .u lane) cause.1 breaks).trans ?_
      rw [Node.abortU_eq, show sof = false from Bool.eq_false_iff.2 fun q => notSof ((classify_sof info stop).2 q)]
      rfl
  · refine (exec_on on _).trans (next_withNode ?_)
    refine (Node.receive_locked (lane := .d) locked (classify info stop)).trans ?_
    rw [state]
    obtain isSof | ⟨notSof, breaks⟩ := classify_breaks cause.2
    · rw [isSof]
      refine (Node.deliverD_sof (n := s.node.setLane .d lane) cause.1).trans ?_
      rw [show sof = true from (classify_sof info stop).1 isSof]
      rfl
    · refine (Node.deliverD_breaks (n := s.node.setLane .d lane) cause.1 breaks).trans ?_
      rw [show sof = false from Bool.eq_false_iff.2 fun q => notSof ((classify_sof info stop).2 q)]
      rfl

/-! ## Silence (R6, R7) -/

theorem Node.fallSilent_locked {n : Node} {lane : Lane} {t : Nat} (locked : n.link.laneState lane = .locked t) :
    n.fallSilent lane = (n.setLane lane (.silent 0)).abortReception lane := by
  unfold Node.fallSilent
  rw [locked]

theorem Node.fallSilent_silent {n : Node} {lane : Lane} {k : Nat} (silent : n.link.laneState lane = .silent k) :
    n.fallSilent lane = n := by
  unfold Node.fallSilent
  rw [silent]

/-- Settles O14. -/
theorem silenceDropsTheLaneAndAbortsItsFrame : Obligations.SilenceDropsTheLaneAndAbortsItsFrame := by
  intro t s on
  refine ⟨fun locked => ?_, fun locked => ?_, fun lane k silent => ?_⟩
  · refine (exec_on on _).trans (next_withNode ((Node.fallSilent_locked (lane := .u) locked).trans ?_))
    refine if_congr Iff.rfl rfl ?_
    exact Node.abortU_eq _
  · exact (exec_on on _).trans (next_withNode (Node.fallSilent_locked (lane := .d) locked))
  · exact (exec_on on _).trans (next_withNode (Node.fallSilent_silent silent))

/-! ## The EOF of a frame (R10, R21) -/

theorem Node.deliverU_eof {n : Node} (body : n.link.uRec.phase = .body) (whole : n.link.uRec.count = n.link.uRec.length + 2) :
    n.deliverU .eof = if n.link.uRec.received = n.link.uRec.check then n.acceptedAtEof else n.checkErrorU := by
  unfold Node.deliverU
  rw [body]
  exact if_pos ((Reception.complete_iff _).2 ⟨body, whole⟩)

theorem Node.deliverD_eof {n : Node} (body : n.link.dRec.phase = .body) (whole : n.link.dRec.count = n.link.dRec.length + 2) :
    n.deliverD .eof = if n.link.dRec.received = n.link.dRec.check then
        n.endD (.accepted n.link.dRec.hdr n.ret.area n.link.dRec.received)
      else n.endD .checkError := by
  unfold Node.deliverD
  rw [body]
  exact if_pos ((Reception.complete_iff _).2 ⟨body, whole⟩)

/-- The time since the SOF is read for a SYNC only (R103). -/
theorem Node.acceptU_elapsed {h : FwdHeader} (noSync : h.kind ≠ kindSync) (n : Node) (payload : List Byte) (check : BitVec 16)
    (e e' : Nat) : n.acceptU h payload check e = n.acceptU h payload check e' := by
  unfold Node.acceptU Node.handOff
  rw [if_neg noSync, if_neg noSync]

/-- A frame of at most 1024 payload bytes is accepted, or a check error (R10). -/
theorem Node.frameEnd_fits {payload : List Byte} (fits : payload.length ≤ 1024) (n : Node) (h : FwdHeader) (check : BitVec 16) (e : Nat) :
    n.frameEnd h payload check e
      = if check = checkValue (h.bytes ++ payload) then n.acceptU h payload check e else n.checkErrorU :=
  (if_neg (Nat.not_lt.2 fits)).trans (ite_not ..)

/-- The length field of a frame that fits is its number of payload bytes. -/
theorem lengthField_headerOf {kind : Byte} {f : FwdFrame} (fits : f.payload.length ≤ 1024) :
    lengthField (headerOf kind f).bytes = f.payload.length := by
  rw [lengthField, FwdHeader.ofBytes_bytes]
  exact (BitVec.toNat_ofNat _ _).trans (Nat.mod_eq_of_lt (by omega))

/-- An EOF on a LOCKED lane. -/
theorem exec_eofU {s : State} (on : s.On) {t : Nat} (locked : s.node.link.uLane = .locked t) :
    exec (.characterReceived .u 258 true) s = .next (s.withNode ((s.node.setLane .u (.locked 0)).deliverU .eof)) :=
  (exec_on on _).trans (next_withNode (Node.receive_locked (lane := .u) locked (classify 258 true)))

theorem exec_eofD {s : State} (on : s.On) {t : Nat} (locked : s.node.link.dLane = .locked t) :
    exec (.characterReceived .d 258 true) s = .next (s.withNode ((s.node.setLane .d (.locked 0)).deliverD .eof)) :=
  (exec_on on _).trans (next_withNode (Node.receive_locked (lane := .d) locked (classify 258 true)))

/-- The relay queue takes a frame of at most 256 payload bytes, so that the reception area holds all of them (R169, R170). -/
theorem ReturnUnit.receive_accepted_area (r : ReturnUnit) {hdr payload : List Byte} (length : payload.length = lengthField hdr)
    (check : BitVec 16) : r.receive (.accepted hdr (payload.take 256) check) = r.receive (.accepted hdr payload check) := by
  by_cases small : lengthField hdr ≤ 256
  · rw [List.take_of_length_le (by omega)]
  · have large : ¬(lengthField hdr ≤ Config.maxRelayPayload && r.relayQ.length < Config.relayCapacity) = true := by
      rw [Bool.and_eq_true, decide_eq_true_eq]
      exact fun q => small q.1
    exact (if_neg large).trans (if_neg large).symm

/-- The outcome of a whole frame of a length that fits (Table 9-5). -/
theorem returnOutcome_whole {f : ReturnEnd} (whole : f.whole = true) (length : f.payload.length = lengthField f.hdr.toList)
    (fits : f.payload.length ≤ 1024) :
    returnOutcome f = if f.check ≠ checkValue (f.hdr.toList ++ f.payload) then .checkError
      else .accepted f.hdr.toList f.payload f.check := by
  have short : ¬1024 < lengthField f.hdr.toList := by omega
  exact if_neg (by simp [whole, ← length, Nat.not_lt.2 fits, Config.maxPayload])

/-- Settles O15: the record in reception holds what the row names. -/
theorem eofCharacterIsTheFrameRow : Obligations.EofCharacterIsTheFrameRow := by
  refine ⟨fun kind f elapsed t s on locked record payload fits => ?_,
    fun f t s on locked whole length fits body hdr count check received area => ?_⟩
  · let n := s.node.setLane .u (.locked 0)
    have reception : n.link.uRec = _ := record
    have whole : n.link.uRec.count = n.link.uRec.length + 2 := by
      rw [reception, Reception.length, lengthField_headerOf fits]
    have row : exec (frameRow kind f elapsed) (s.withNode n) = .next (s.withNode _) :=
      (exec_frameRow kind f elapsed (s.withNode n)).trans (State.awake_on (s := s.withNode n) on _)
    have time : n.acceptU (headerOf kind f) f.payload f.check elapsed.toNat
        = n.acceptU (headerOf kind f) f.payload f.check (if kind = 2 then elapsed.toNat else 0) := by
      by_cases sync : kind = 2
      · rw [if_pos sync]
      · exact Node.acceptU_elapsed (h := headerOf kind f) sync n _ _ _ _
    generalize (if kind = 2 then elapsed.toNat else 0) = sinceSof at row time
    refine (exec_eofU on locked).trans (Eq.trans (next_withNode ?_) row.symm)
    rw [Node.deliverU_eof (n := n) (congrArg Reception.phase reception) whole, Node.acceptedAtEof, reception, FwdHeader.ofBytes_bytes,
      show n.link.passage.payload = f.payload from payload, Node.frameEnd_fits fits]
    dsimp only
    split
    · exact time
    · rfl
  · let n := s.node.setLane .d (.locked 0)
    have complete : n.link.dRec.count = n.link.dRec.length + 2 :=
      count.trans (by rw [length]; exact congrArg (lengthField · + 2) hdr.symm)
    have row : exec (.returnFrameReceived f) (s.withNode n) = .next (s.withNode (n.endD (returnOutcome f))) :=
      exec_on (s := s.withNode n) on _
    refine (exec_eofD on locked).trans (Eq.trans (next_withNode ?_) row.symm)
    rw [Node.deliverD_eof (n := n) body complete, show n.link.dRec.hdr = _ from hdr, show n.link.dRec.check = _ from check,
      show n.link.dRec.received = _ from received, show n.ret.area = _ from area, returnOutcome_whole whole length fits, ite_not]
    by_cases genuine : f.check = checkValue (f.hdr.toList ++ f.payload)
    · rw [if_pos genuine, if_pos genuine]
      unfold Node.endD
      rw [ReturnUnit.receive_accepted_area _ length]
    · rw [if_neg genuine, if_neg genuine]

end Sys2Proof.Machine

/-! PROOFS. The D forward transmitter: the next thing in order, the underrun, the held SYNC (R4, R16, R18 to R20, R109). -/

namespace Sys2Proof.Machine

-- One proof at a time: side by side, their threads' stacks pass the memory limit of a check.
set_option Elab.async false

/-! ## The next thing in order (R4, R16, R18) -/

/-- The character being sent is not one of a held SYNC with more to come. -/
abbrev Node.TakesFromOrder (n : Node) : Prop := ∀ i, n.link.fwdTx.current = .store i → ¬i < lastSyncCharacter

theorem Node.forwardTakeNext_item {n : Node} {x : FwdItem} {rest : List FwdItem} (takes : n.TakesFromOrder)
    (order : n.link.order = x :: rest) (character : x ≠ .syncPlace) : n.forwardTakeNext = n.sendNext (.item x) rest := by
  unfold Node.forwardTakeNext
  cases current : n.link.fwdTx.current
  case store i =>
    refine (if_neg (takes i current)).trans ?_
    rw [order]
    cases x
    case syncPlace => exact absurd rfl character
    all_goals rfl
  all_goals
    dsimp only
    rw [order]
    cases x
    case syncPlace => exact absurd rfl character
    all_goals rfl

theorem Node.forwardTakeNext_place {n : Node} {rest : List FwdItem} (takes : n.TakesFromOrder)
    (order : n.link.order = .syncPlace :: rest) : n.forwardTakeNext = n.sendNext (.store 0) (.syncPlace :: rest) := by
  unfold Node.forwardTakeNext
  cases current : n.link.fwdTx.current
  case store i =>
    refine (if_neg (takes i current)).trans ?_
    rw [order]
  all_goals
    dsimp only
    rw [order]

/-- With nothing in order: an underrun while an OPEN copy is being sent, else IDLE (R18). -/
theorem Node.forwardTakeNext_nothing {n : Node} (takes : n.TakesFromOrder) (order : n.link.order = []) :
    n.forwardTakeNext = if n.starved then n.takeUnderrun else n.sendNext .idle [] := by
  unfold Node.forwardTakeNext
  cases current : n.link.fwdTx.current
  case store i =>
    refine (if_neg (takes i current)).trans ?_
    have fed : n.starved = false := by simp [Node.starved, current, FwdCurrent.withinCopy]
    rw [order, fed]
    rfl
  all_goals
    dsimp only
    rw [order]

theorem Node.forwardCharacter_sending {n : Node} (sends : n.link.fwdTx.state ≠ .held) :
    n.forwardCharacter = n.forwardCharacterEnds.forwardTakeNext := if_neg sends

/-- An IDLE, and a buffer character other than a held SYNC's SOF, end with nothing done (R4). -/
theorem Node.forwardCharacterEnds_plain {n : Node}
    (plain : n.link.fwdTx.current = .idle ∨ ∃ x, n.link.fwdTx.current = .item x ∧ x ≠ .syncSof) : n.forwardCharacterEnds = n := by
  unfold Node.forwardCharacterEnds
  obtain idle | ⟨x, item, notSync⟩ := plain
  · rw [idle]
  · rw [item]
    cases x
    case syncSof => exact absurd rfl notSync
    all_goals rfl

/-- The transmitter finds the next character of the OPEN copy it is sending not yet placed (R18). -/
theorem Node.starved_iff {n : Node}
    (plain : n.link.fwdTx.current = .idle ∨ ∃ x, n.link.fwdTx.current = .item x ∧ x ≠ .syncSof) :
    n.starved = true ↔ n.link.order = [] ∧ n.link.passage.copy = .opened
      ∧ (n.link.fwdTx.current = .item .sof ∨ ∃ b, n.link.fwdTx.current = .item (.data b)) := by
  have within : n.link.fwdTx.current.withinCopy = true
      ↔ n.link.fwdTx.current = .item .sof ∨ ∃ b, n.link.fwdTx.current = .item (.data b) := by
    obtain idle | ⟨x, item, notSync⟩ := plain
    · simp [idle, FwdCurrent.withinCopy]
    · rw [item]
      cases x <;> simp [FwdCurrent.withinCopy] at notSync ⊢
  simp only [Node.starved, Bool.and_eq_true, within, decide_eq_true_eq, List.isEmpty_iff]
  exact ⟨fun ⟨⟨a, b⟩, c⟩ => ⟨c, b, a⟩, fun ⟨c, b, a⟩ => ⟨⟨a, b⟩, c⟩⟩

/-- Settles O16. -/
theorem transmitterTakesTheNextInOrder : Obligations.TransmitterTakesTheNextInOrder := by
  intro s on sends plain l starving
  have takes : s.node.TakesFromOrder := by
    obtain idle | ⟨x, item, -⟩ := plain
    · exact fun i store => nomatch idle.symm.trans store
    · exact fun i store => nomatch item.symm.trans store
  have character : s.node.forwardCharacter = s.node.forwardTakeNext :=
    (Node.forwardCharacter_sending sends).trans (congrArg Node.forwardTakeNext (Node.forwardCharacterEnds_plain plain))
  have starved : s.node.starved = true ↔ starving := Node.starved_iff plain
  refine ⟨fun x rest order notPlace => ?_, fun rest order => ?_, fun order fed => ?_, fun starves c row => ?_, fun fed => ?_⟩
  · exact (exec_on on _).trans (next_withNode (character.trans (Node.forwardTakeNext_item takes order notPlace)))
  · refine (exec_on on _).trans (next_withNode (character.trans ((Node.forwardTakeNext_place takes order).trans ?_)))
    rw [← order]
    rfl
  · refine (exec_on on _).trans (next_withNode (character.trans ((Node.forwardTakeNext_nothing takes order).trans ?_)))
    rw [if_neg fun q => fed (starved.1 q), ← order]
    rfl
  · have underrun : s.node.forwardCharacter = s.node.takeUnderrun :=
      character.trans ((Node.forwardTakeNext_nothing takes starves.1).trans (if_pos (starved.2 starves)))
    have acts : c.effect s.node = s.node.takeUnderrun := by
      obtain rfl | rfl := row
      · exact underrun
      · exact (if_pos (starved.2 starves)).trans underrun
    refine (exec_on on _).trans (next_withNode (acts.trans ?_))
    exact congrArg (fun order => ((s.node.sendNext (.item .eoa) order).setCopy .closed).countOverrun) starves.1.symm
  · exact (exec_on on _).trans (next_withNode (if_neg fun q => fed (starved.1 q)))

/-! ## The held SYNC (R19, R20, R109) -/

/-- The bytes of a whole held SYNC with the time of its SOF: time field and check value (R20). -/
theorem rewriteSync_whole (time : BitVec 40) {bs : List Byte} (whole : bs.length = 15) :
    rewriteSync time bs = (bs.take 8 ++ bytes40 time) ++ bytes16 (checkValue (bs.take 8 ++ bytes40 time)) := by
  have field : (bytes40 time).take (bs.length - 8) = bytes40 time := List.take_of_length_le (by rw [whole]; exact Nat.le_add_left 5 2)
  have first : (bs.take 8 ++ bytes40 time ++ bs.drop 13).take 13 = bs.take 8 ++ bytes40 time := by
    refine List.take_left' ?_
    simp [bytes40, bytes32, whole]
  unfold rewriteSync
  rw [if_pos whole, field, first]

/-- Of a held SYNC that was cut short only the time field bytes that were placed are rewritten (R19). -/
theorem rewriteSync_cut (time : BitVec 40) {bs : List Byte} (cut : bs.length < 15) :
    rewriteSync time bs = bs.take 8 ++ (bytes40 time).take (bs.length - 8) ++ bs.drop 13 := if_neg (by omega)

/-- The rewriting of an order that begins with a held SYNC's copy, up to its terminator (R20). -/
theorem rewriteOrder_eq (time : BitVec 40) (bs : List Byte) {mark : FwdItem} (terminator : mark.isData = false) (rest : List FwdItem) :
    rewriteOrder time (bs.map .data ++ mark :: rest) = (rewriteSync time bs).map .data ++ mark :: rest := by
  have taken : (bs.map FwdItem.data ++ mark :: rest).takeWhile FwdItem.isData = bs.map .data := by
    rw [List.takeWhile_append_of_pos (by simp [FwdItem.isData])]
    simp [terminator]
  have dropped : (bs.map FwdItem.data ++ mark :: rest).dropWhile FwdItem.isData = mark :: rest := by
    rw [List.dropWhile_append_of_pos (by simp [FwdItem.isData])]
    simp [terminator]
  have bytes : (bs.map FwdItem.data).filterMap FwdItem.byte? = bs := by
    rw [List.filterMap_map]
    exact List.filterMap_some
  unfold rewriteOrder
  rw [taken, dropped, bytes]

/-- The next character of an order that does not begin with the place of the held SYNC. -/
theorem Node.forwardTakeNext_head {n : Node} {order : List FwdItem} (takes : n.TakesFromOrder) (same : n.link.order = order)
    (filled : order ≠ []) (character : order.head? ≠ some .syncPlace) :
    n.forwardTakeNext = n.sendNext (.item (order.headD .eoa)) (order.drop 1) := by
  cases order with
  | nil => exact absurd rfl filled
  | cons x rest => exact Node.forwardTakeNext_item takes same fun place => character (congrArg some place)

/-- The characters of the held SYNC in the store follow one another (R20). -/
theorem Node.forwardTakeNext_store {n : Node} {i : Nat} (current : n.link.fwdTx.current = .store i) (inside : i < 16) :
    n.forwardTakeNext = n.sendNext (.store (i + 1)) n.link.order := by
  unfold Node.forwardTakeNext
  rw [current]
  exact if_pos inside

/-- As the SOF of the held SYNC in the store is sent, its time is fixed (R20, R109). -/
theorem Node.forwardCharacter_storeSof {n : Node} (sends : n.link.fwdTx.state ≠ .held) (current : n.link.fwdTx.current = .store 0) :
    n.forwardCharacter = { n with link := { n.link with
      store := n.link.store.map fun h => h.withTime n.sched.outgoing, fwdTx := { state := .sending, current := .store 1 } } } := by
  have ends : n.forwardCharacterEnds = { n with link := { n.link with store := n.link.store.map fun h => h.withTime n.sched.outgoing } } := by
    unfold Node.forwardCharacterEnds
    rw [current]
    rfl
  rw [Node.forwardCharacter_sending sends, ends]
  exact Node.forwardTakeNext_store
    (n := { n with link := { n.link with store := n.link.store.map fun h => h.withTime n.sched.outgoing } }) current (by decide)

/-- The characters of the held SYNC follow one after another (R20). -/
theorem Node.forwardCharacter_store {n : Node} (sends : n.link.fwdTx.state ≠ .held) {i : Nat} (later : 0 < i) (inside : i < 16)
    (current : n.link.fwdTx.current = .store i) :
    n.forwardCharacter = { n with link := { n.link with fwdTx := { state := .sending, current := .store (i + 1) } } } := by
  have stands : n.forwardCharacterEnds = n := by
    unfold Node.forwardCharacterEnds
    rw [current]
    exact (if_neg (by omega)).trans (if_neg (Nat.ne_of_lt inside))
  rw [Node.forwardCharacter_sending sends, stands]
  exact Node.forwardTakeNext_store current inside

/-- When the EOF of the held SYNC has been sent the store is empty, and the next thing in order is taken (R20). -/
theorem Node.forwardCharacter_storeEof {n : Node} (sends : n.link.fwdTx.state ≠ .held) {rest : List FwdItem}
    (current : n.link.fwdTx.current = .store 16) (order : n.link.order = .syncPlace :: rest) (single : rest.head? ≠ some .syncPlace) :
    n.forwardCharacter = { n with link := { n.link with
      store := none, order := rest.drop 1
      fwdTx := match (generalizing := false) rest with
        | [] => { state := .idling, current := .idle }
        | x :: _ => { state := .sending, current := .item x } } } := by
  have ends : n.forwardCharacterEnds = { n with link := { n.link with store := none, order := rest } } := by
    unfold Node.forwardCharacterEnds
    rw [current, order]
    rfl
  rw [Node.forwardCharacter_sending sends, ends]
  generalize freed : ({ n with link := { n.link with store := none, order := rest } } : Node) = m
  have takes : m.TakesFromOrder := by
    subst freed
    intro i store
    cases current.symm.trans store
    decide
  have left : m.link.order = rest := by rw [← freed]
  cases rest with
  | nil =>
    have fed : ¬m.starved = true := by simp [← freed, Node.starved, current, FwdCurrent.withinCopy]
    rw [Node.forwardTakeNext_nothing takes left, if_neg fed, ← freed]
    rfl
  | cons x rest =>
    rw [Node.forwardTakeNext_item takes left fun place => single (congrArg some place), ← freed]
    rfl

/-- As the SOF of a held SYNC's copy is sent, the copy is rewritten, and its next character taken (R19, R20). -/
theorem Node.forwardCharacter_copySof {n : Node} (sends : n.link.fwdTx.state ≠ .held) (current : n.link.fwdTx.current = .item .syncSof)
    {order : List FwdItem} (rewritten : rewriteOrder n.sched.outgoing n.link.order = order) (filled : order ≠ [])
    (character : order.head? ≠ some .syncPlace) :
    n.forwardCharacter = { n with link := { n.link with
      order := order.drop 1, fwdTx := { state := .sending, current := .item (order.headD .eoa) } } } := by
  have ends : n.forwardCharacterEnds = { n with link := { n.link with order := order } } := by
    unfold Node.forwardCharacterEnds
    rw [current, ← rewritten]
  rw [Node.forwardCharacter_sending sends, ends]
  refine (Node.forwardTakeNext_head (n := { n with link := { n.link with order := order } }) ?_ rfl filled character).trans rfl
  exact fun i store => nomatch current.symm.trans store

/-- Commanded while the SOF of a held SYNC is the character being sent, the row is the character boundary (log entry 19). -/
theorem Node.sendSyncSof_now {n : Node} (sends : n.link.fwdTx.state ≠ .held) (now : n.link.fwdTx.current.isSyncSof = true) :
    n.sendSyncSof = n.forwardCharacter := (if_neg sends).trans (if_pos now)

/-- Commanded while that SOF is next in order, the character before it ends first (log entry 19). -/
theorem Node.sendSyncSof_next {n : Node} (sends : n.link.fwdTx.state ≠ .held) (idle : n.link.fwdTx.current = .idle)
    {rest : List FwdItem} (order : n.link.order = .syncPlace :: rest) :
    n.sendSyncSof = ({ n with link := { n.link with fwdTx := { state := .sending, current := .store 0 } } } : Node).forwardCharacter := by
  have takes : n.TakesFromOrder := fun i store => nomatch idle.symm.trans store
  have first : n.forwardCharacter = { n with link := { n.link with fwdTx := { state := .sending, current := .store 0 } } } := by
    rw [Node.forwardCharacter_sending sends, Node.forwardCharacterEnds_plain (.inl idle), Node.forwardTakeNext_place takes order,
      ← order]
    rfl
  unfold Node.sendSyncSof
  rw [if_neg sends, first, idle]
  rfl

/-- While the SOF of a held SYNC's copy is sent, the two rows are one character boundary (log entry 19). -/
theorem syncSofRow_acts {n : Node} (sends : n.link.fwdTx.state ≠ .held) (current : n.link.fwdTx.current = .item .syncSof) {c : Instr}
    (row : c = .forwardTransmitterCharacter ∨ c = .heldSyncSofSent) : c.effect n = n.forwardCharacter := by
  obtain rfl | rfl := row
  · rfl
  · exact Node.sendSyncSof_now sends (by rw [current]; rfl)

/-- A copy's bytes and its terminator do not begin with the place of the held SYNC. -/
theorem copy_head (out : List Byte) {mark : FwdItem} (notPlace : mark ≠ .syncPlace) (rest : List FwdItem) :
    (out.map FwdItem.data ++ mark :: rest).head? ≠ some .syncPlace := by
  cases out <;> simp [notPlace]

/-- The first byte of a copy is the next character. -/
theorem copy_takes_first {out : List Byte} (filled : out ≠ []) (mark : FwdItem) (rest : List FwdItem) :
    (out.map FwdItem.data ++ mark :: rest).drop 1 = (out.drop 1).map .data ++ mark :: rest
      ∧ (out.map FwdItem.data ++ mark :: rest).headD .eoa = .data (out.headD 0) := by
  cases out with
  | nil => exact absurd rfl filled
  | cons b bs => exact ⟨rfl, rfl⟩

/-- Settles O17. -/
theorem heldSyncIsSentWithTheTimeOfItsSof : Obligations.HeldSyncIsSentWithTheTimeOfItsSof := by
  intro s on sends l time
  refine ⟨fun h store => ?_, fun i later inside current => ?_, fun i rest later most current order single c row => ?_,
    fun before => ?_, fun bs rest current order whole => ?_, fun bs rest current order short => ?_⟩
  · intro timed c row
    have sof : ∀ m : Node, m.link.store = some h → m.link.fwdTx.current = .store 0 → m.link.fwdTx.state ≠ .held → m.forwardCharacter
        = { m with link := { m.link with
          store := some (h.withTime m.sched.outgoing), fwdTx := { state := .sending, current := .store 1 } } } := by
      intro m filled current sends
      rw [Node.forwardCharacter_storeSof sends current, filled]
      rfl
    refine (exec_on on _).trans (next_withNode ?_)
    obtain ⟨current, rfl | rfl⟩ | ⟨idle, head, rfl⟩ := row
    · exact sof s.node store current sends
    · exact (Node.sendSyncSof_now sends (by rw [current]; rfl)).trans (sof s.node store current sends)
    · obtain ⟨rest, order⟩ := List.head?_eq_some_iff.1 head
      exact (Node.sendSyncSof_next sends idle order).trans (sof _ store rfl nofun)
  · exact (exec_on on _).trans (next_withNode (Node.forwardCharacter_store sends later inside current))
  · refine (exec_on on _).trans (next_withNode ?_)
    obtain ⟨rfl, rfl⟩ | rfl := row
    · exact Node.forwardCharacter_storeEof sends current order single
    · have skip : s.node.sendSyncEof
          = ({ s.node with link := { l with fwdTx := { l.fwdTx with current := .store 16 } } } : Node).forwardCharacter := by
        unfold Node.sendSyncEof
        rw [current]
        exact if_neg (by omega)
      exact skip.trans (Node.forwardCharacter_storeEof (n := { s.node with link := { l with fwdTx := { l.fwdTx with current := .store 16 } } })
        sends rfl order single)
  · refine (exec_on on _).trans (next_withNode ?_)
    change s.node.sendSyncEof = s.node
    unfold Node.sendSyncEof
    split
    · rename_i i current
      exact if_pos (Nat.eq_zero_of_not_pos fun later => before i later current)
    all_goals rfl
  · intro field out c row
    have filled : out ≠ [] := by simp [out, bytes16]
    have rewritten : rewriteOrder s.node.sched.outgoing s.node.link.order = out.map .data ++ .eof :: rest := by
      rw [order, rewriteOrder_eq _ _ rfl, rewriteSync_whole _ whole]
      rfl
    obtain ⟨next, left⟩ := copy_takes_first filled .eof rest
    refine (exec_on on _).trans (next_withNode ((syncSofRow_acts sends current row).trans ?_))
    rw [Node.forwardCharacter_copySof sends current rewritten (by simp) (copy_head out (by decide) rest), next, left]
  · intro out cut c row
    have rewritten : rewriteOrder s.node.sched.outgoing s.node.link.order = cut := by
      rw [order, rewriteOrder_eq _ _ rfl, rewriteSync_cut _ short]
      rfl
    refine (exec_on on _).trans (next_withNode ((syncSofRow_acts sends current row).trans ?_))
    exact Node.forwardCharacter_copySof sends current rewritten (by simp [cut]) (copy_head out (by decide) rest)

end Sys2Proof.Machine

/-! PROOFS. Frames no block acts on, DATA frames and ENUMERATE frames (R10 to R12, R24, R25, R34 to R37, R85 to R95, R180, R184). -/

namespace Sys2Proof.Machine

-- One proof at a time: side by side, their threads' stacks pass the memory limit of a check.
set_option Elab.async false

/-! ## The hand-off, kind by kind (R24, R25) -/

section

variable {n : Node} {h : FwdHeader} {payload : List Byte} {check : BitVec 16} {elapsed : Nat} {isMatch : Bool} {note : EnumNote}

/-- What R24 hands to no block (R25). -/
abbrev ForNoBlock (kind : Byte) (payload : List Byte) (isMatch : Bool) : Prop :=
  kind = 0 ∨ 5 < kind.toNat ∨ (kind = 0x02 ∧ payload.length ≠ 5) ∨ (kind = 0x05 ∧ payload.length ≠ 2)
    ∨ ((kind = 0x01 ∨ kind = 0x03 ∨ kind = 0x05) ∧ isMatch = false)

/-- A frame for no block changes nothing further (R25). -/
theorem Node.handOff_forNoBlock (none : ForNoBlock h.kind payload isMatch) :
    n.handOff h payload check elapsed isMatch note = n := by
  unfold Node.handOff
  split
  · rename_i data
    have noMatch : isMatch = false := by
      rw [data] at none
      simpa [ForNoBlock, kindData] using none
    rw [noMatch]
    rfl
  split
  · rename_i sync
    have other : payload.length ≠ 5 := by
      rw [sync] at none
      simpa [ForNoBlock, kindSync] using none
    split
    · exact absurd rfl other
    · rfl
  split
  · rename_i manage
    have noMatch : isMatch = false := by
      rw [manage] at none
      simpa [ForNoBlock, kindManage] using none
    rw [noMatch]
    rfl
  split
  · rename_i cue
    rw [cue] at none
    exact absurd none (by simp [ForNoBlock, kindCue])
  split
  · rename_i enumerate
    have other : payload.length ≠ 2 ∨ isMatch = false := by
      rw [enumerate] at none
      simpa [ForNoBlock, kindEnumerate] using none
    split
    · rw [other.resolve_left (fun q => q rfl)]
      rfl
    · rfl
  · rfl

end

/-- A genuine DATA frame that matches is handed to the value path (R24, R85). -/
theorem exec_dataFrame {f : FwdFrame} {s : State} (on : s.On) (g : Genuine f 0x01)
    (isMatch : s.node.link.passage.matched.getD (s.node.fwd.matchesDest f.dest) = true) :
    exec (.dataFrame f) s = .next (s.withNode ((s.node.frameArrived f).dataAccepted f.seq f.payload)) := by
  rw [show exec (.dataFrame f) s = exec (frameRow 1 f 0) s from rfl, exec_genuine on g 0, isMatch]
  rfl

/-- A genuine SYNC of length 5 is handed to the schedule unit (R24, R103). -/
theorem exec_syncFrame {f : FwdFrame} {s : State} (on : s.On) (g : Genuine f 0x02) {a b c d e : Byte} (five : f.payload = [a, b, c, d, e])
    (elapsed : BitVec 32) :
    exec (.syncFrame f elapsed) s = .next (s.withNode
      ((s.node.frameArrived f).syncAccepted (headerOf 2 f) (word40 a b c d e) f.check elapsed.toNat)) := by
  rw [show exec (.syncFrame f elapsed) s = exec (frameRow 2 f elapsed) s from rfl, exec_genuine on g elapsed, five]
  rfl

/-- A genuine CUE frame is handed to the schedule unit (R24, R111). -/
theorem exec_cueFrame {f : FwdFrame} {s : State} (on : s.On) (g : Genuine f 0x04) :
    exec (.cueFrame f) s = .next (s.withNode ((s.node.frameArrived f).cueAccepted f.payload)) := by
  rw [show exec (.cueFrame f) s = exec (frameRow 4 f 0) s from rfl, exec_genuine on g 0]
  rfl

/-- A genuine ENUMERATE frame of length 2 that matches is enumerating (R24, R34). -/
theorem exec_enumerateFrame {f : FwdFrame} {s : State} (on : s.On) (g : Genuine f 0x05) {a b : Byte} (two : f.payload = [a, b])
    (isMatch : s.node.link.passage.matched.getD (s.node.fwd.matchesDest f.dest) = true) :
    exec (.enumerateFrame f) s = .next (s.withNode ((s.node.frameArrived f).enumerated (word16 a b)
      (s.node.link.passage.enumNote.getD { fill := f.flags.getLsbD 0, address := s.node.fwd.address }))) := by
  rw [show exec (.enumerateFrame f) s = exec (frameRow 5 f 0) s from rfl, exec_genuine on g 0, isMatch, two]
  rfl

/-- Settles O18. -/
theorem frameForNoBlockIsCountedOrPassed : Obligations.FrameForNoBlockIsCountedOrPassed := by
  intro kind f elapsed s on isMatch
  have row := (exec_frameRow kind f elapsed s).trans (State.frame_on on _ _ _)
  refine ⟨fun long => ?_, fun fits wrong => ?_, fun genuine none => ?_⟩
  · exact row.trans (next_withNode ((if_pos long).trans (Node.abortU_eq _)))
  · refine row.trans (next_withNode ((Node.frameEnd_fits fits _ _ _ _).trans ?_))
    rw [if_neg wrong, Node.checkErrorU_eq]
  · exact (exec_genuine on genuine elapsed).trans (next_withNode (Node.handOff_forNoBlock (h := headerOf kind f) none))

/-! ## Enumeration (R34 to R37) -/

/-- The three outcomes of an enumerating frame's acceptance (Table 2-3). -/
theorem Node.enumerated_eq (n : Node) (next : BitVec 16) (note : EnumNote) :
    n.enumerated next note
      = if ¬(1 ≤ next.toNat ∧ next.toNat ≤ 1023) then { n with fwd := { n.fwd with enumOverrun := true } }
        else if note.fill = true ∧ note.address ≠ 0 then n
        else { n with
          fwd := { n.fwd with address := next.setWidth 10 }
          cmd := { n.cmd with cache := if next.setWidth 10 = n.fwd.address then n.cmd.cache else none } } := by
  unfold Node.enumerated
  by_cases inRange : 1 ≤ next.toNat ∧ next.toNat ≤ 1023
  · rw [if_neg (not_not.2 inRange)]
    by_cases kept : note.fill = true ∧ note.address ≠ 0
    · rw [enumDecide_kept inRange kept, if_pos kept]
      rfl
    · rw [enumDecide_taken inRange kept, if_neg kept]
      unfold Node.setAddress
      by_cases same : next.setWidth 10 = n.fwd.address
      · dsimp only
        rw [if_pos same, if_pos same, same]
        rfl
      · dsimp only
        rw [if_neg same, if_neg same]
        rfl
  · rw [enumDecide_overrun inRange, if_pos inRange]
    rfl

/-- Settles O24. -/
theorem enumeratingFrameGivesTheAddress : Obligations.EnumeratingFrameGivesTheAddress := by
  intro f a b s on genuine two isMatch note next m
  exact (exec_enumerateFrame on genuine two isMatch).trans (next_withNode (Node.enumerated_eq m next note))

/-! ## The walk of a DATA frame (R87 to R95) -/

/-- Whether an entry is live and present in a payload (R88). -/
def ExtEntry.present (e : ExtEntry) (payload : List Byte) : Bool :=
  e.valid && e.slot.toNat + (if e.wide then 2 else 1) ≤ payload.length

/-- The value of a slot that is present (R89). -/
def ExtEntry.valueIn (e : ExtEntry) (payload : List Byte) : Nat :=
  if e.wide then 256 * (payload.getD e.slot.toNat 0).toNat + (payload.getD (e.slot.toNat + 1) 0).toNat
  else 257 * (payload.getD e.slot.toNat 0).toNat

/-- A live entry has a slot value exactly when it is present (R88, R89). -/
theorem ExtEntry.slotValue_eq {e : ExtEntry} (live : e.valid = true) (payload : List Byte) :
    e.slotValue payload = if e.present payload = true then some (e.valueIn payload) else none := by
  unfold ExtEntry.slotValue ExtEntry.present ExtEntry.valueIn
  rw [live]
  cases e.wide
  · by_cases inside : e.slot.toNat < payload.length
    · simp [inside]
    · simp [inside]
  · by_cases inside : e.slot.toNat + 1 < payload.length
    · have first : e.slot.toNat < payload.length := by omega
      have fits : e.slot.toNat + 2 ≤ payload.length := inside
      simp [inside, first, fits, word16_toNat]
    · by_cases first : e.slot.toNat < payload.length
      · simp [inside, first]
        omega
      · simp [inside, first]
        omega

/-- One entry of the walk, at one channel (R87, R93). -/
theorem Tables.walkEntry_getElem (t : Tables) (payload : List Byte) (w : Working) (e : ExtEntry) (c : Fin 16) :
    (t.walkEntry payload w e)[c]
      = if (e.present payload && e.targets.getLsbD c) = true then some (t.levelOf e (e.valueIn payload)) else w[c] := by
  unfold Tables.walkEntry
  cases live : e.valid
  · simp [ExtEntry.present, live]
  · rw [ExtEntry.slotValue_eq live]
    by_cases present : e.present payload = true
    · simp only [present, Bool.not_true, Bool.false_eq_true, if_false, if_true, Bool.true_and]
      simp
    · simp only [present, Bool.not_true, Bool.false_eq_true, if_false, Bool.false_and]

/-- The walk leaves at a channel the level of the last entry that is present and targets it (R87, R93). -/
theorem Tables.walk_from (t : Tables) (payload : List Byte) (es : List ExtEntry) (w : Working) (c : Fin 16) :
    (es.foldl (t.walkEntry payload) w)[c]
      = ((es.reverse.find? fun e => e.present payload && e.targets.getLsbD c).map
          fun e => t.levelOf e (e.valueIn payload)).or w[c] := by
  induction es generalizing w with
  | nil => rfl
  | cons e es ih =>
    rw [List.foldl_cons, ih, List.reverse_cons, List.find?_append, t.walkEntry_getElem]
    cases es.reverse.find? fun e => e.present payload && e.targets.getLsbD c with
    | some x => rfl
    | none =>
      cases takes : e.present payload && e.targets.getLsbD c
      · simp only [List.find?_singleton, takes, Bool.false_eq_true, if_false, Option.map_none, Option.none_or]
      · simp only [List.find?_singleton, takes, if_true, Option.map_some, Option.map_none, Option.none_or, Option.some_or]

theorem Tables.walk_getElem (t : Tables) (payload : List Byte) (c : Fin 16) :
    (t.walk payload)[c] = (t.extraction.toList.reverse.find? fun e => e.present payload && e.targets.getLsbD c).map
      fun e => t.levelOf e (e.valueIn payload) := by
  rw [Tables.walk, Tables.walk_from]
  simp [Working.empty]

/-- Offers reach the channels that have a level (R94, R140). -/
theorem Output.offer_taken {o : Output} {inFailsafe : Bool} {origin : Origin} (taken : offerRefused inFailsafe origin = false)
    (levels : Vector (Option (BitVec 16)) 16) :
    o.offer inFailsafe origin levels = { o with
      chans := .ofFn fun c =>
        match levels[c] with
        | some x => { o.chans[c] with stagedLevel := x, pendingFlag := true, origin := origin }
        | none => o.chans[c] } := by
  refine (if_neg (by rw [taken]; exact Bool.false_ne_true)).trans ?_
  refine congrArg (fun v => ({ o with chans := v } : Output)) ?_
  ext c hc : 1
  simp only [Vector.getElem_mapIdx, Vector.getElem_ofFn, Vector.getElem?_toList, Fin.getElem_fin, Vector.getElem?_eq_getElem hc,
    Option.join_some] <;> rfl

/-- The last-data records of the channels offered a level (R95). -/
theorem fillLastData_eq (value : Vector (Option LastData) 16) (seq : Byte) (w : Working) :
    fillLastData value seq w = .ofFn fun c => match w[c] with
      | some x => some { seq := seq, level := x }
      | none => value[c] := by
  ext c hc : 1
  simp only [fillLastData, Vector.getElem_mapIdx, Vector.getElem_ofFn, Vector.getElem?_toList, Fin.getElem_fin,
    Vector.getElem?_eq_getElem hc, Option.join_some] <;> rfl

/-! ## Qualifying frames (R180, R184) -/

/-- A qualifying frame outside FAILSAFE (R180). -/
theorem Supervision.qualify_normal {u : Supervision} (awake : u.state ≠ .failsafe) (isData : Bool) :
    u.qualify isData = (if u.state = .normal then [] else [{ before := u.state, after := .normal }], u.normal) := by
  obtain ⟨state, _, _, _, _, _, _, _⟩ := u
  cases state
  case failsafe => exact absurd rfl awake
  all_goals rfl

/-- The supervision unit's part outside FAILSAFE (R180, R187). -/
theorem Node.qualifyingFrame_normal {n : Node} (awake : n.sup.state ≠ .failsafe) (isData : Bool) :
    n.qualifyingFrame isData = { n with
      sup := n.sup.normal
      ret := if n.sup.state = .normal then n.ret
        else n.ret.supNotice n.fwd.address { before := n.sup.state, after := .normal } } := by
  unfold Node.qualifyingFrame
  rw [Supervision.qualify_normal awake]
  by_cases normal : n.sup.state = .normal
  · rw [if_pos normal, if_pos normal]
    rfl
  · rw [if_neg normal, if_neg normal]
    rfl

/-- A DATA frame outside FAILSAFE is applied (R85). -/
theorem Node.dataAccepted_applied {n : Node} {seq : Byte} {payload : List Byte} (applied : (n.qualifyingFrame true).sup.state ≠ .failsafe) :
    n.dataAccepted seq payload = (n.qualifyingFrame true).applyData seq payload :=
  if_neg (by simpa [Supervision.inFailsafe] using applied)

/-- Settles O20. -/
theorem dataFrameOffersTheLevelsOfItsWalk : Obligations.DataFrameOffersTheLevelsOfItsWalk := by
  intro f s on genuine isMatch awake present byte value level
  refine (exec_dataFrame on genuine isMatch).trans (next_withNode ?_)
  have normal := Node.qualifyingFrame_normal (n := s.node.frameArrived f) awake true
  have applied : ((s.node.frameArrived f).qualifyingFrame true).sup.state ≠ .failsafe := by
    rw [normal]
    exact nofun
  have walk : ∀ c : Fin 16, (s.node.tables.walk f.payload)[c] = level c := s.node.tables.walk_getElem f.payload
  rw [Node.dataAccepted_applied applied, normal]
  unfold Node.applyData
  dsimp only
  rw [Output.offer_taken (by rfl), fillLastData_eq]
  simp only [walk] <;> rfl

/-! ## DATA frames in FAILSAFE (R184) -/

/-- A DATA frame that leaves the node in FAILSAFE is not applied (R85). -/
theorem Node.dataAccepted_held {n : Node} {seq : Byte} {payload : List Byte} (held : (n.qualifyingFrame true).sup.state = .failsafe) :
    n.dataAccepted seq payload = n.qualifyingFrame true := if_pos (by simpa [Supervision.inFailsafe] using held)

/-- A qualifying DATA frame in FAILSAFE restarts the timer and is counted (R180, R184). -/
theorem Node.qualifyingFrame_failsafe {n : Node} (failsafe : n.sup.state = .failsafe) :
    n.qualifyingFrame true = ({ n with sup := n.sup.startWindow.countData.2 } : Node).supNotices n.sup.startWindow.countData.1 := by
  unfold Node.qualifyingFrame Supervision.qualify
  rw [failsafe]
  rfl

/-- With K 0 no number of frames ends FAILSAFE (R184). -/
theorem Supervision.countData_off {u : Supervision} (off : u.k = 0) : u.countData = ([], { u with recovery := 0 }) := if_pos off

/-- Below K the count is raised (R184). -/
theorem Supervision.countData_below {u : Supervision} (below : u.recovery.toNat + 1 < u.k.toNat) :
    u.countData = ([], { u with recovery := u.recovery + 1 }) := by
  have on : u.k ≠ 0 := by
    rintro off
    rw [off] at below
    exact absurd below (Nat.not_lt_zero _)
  exact (if_neg on).trans (if_neg (Nat.not_le.2 below))

/-- At K the node is NORMAL (R184). -/
theorem Supervision.countData_reached {u : Supervision} (on : u.k ≠ 0) (reached : u.k.toNat ≤ u.recovery.toNat + 1) :
    u.countData = ([{ before := .failsafe, after := .normal }], { u with state := .normal, recovery := 0 }) :=
  (if_neg on).trans (if_pos reached)

/-- Settles O21: in each case the supervision unit's part decides whether the frame is applied. -/
theorem dataFrameInFailsafeCountsTowardsRecovery : Obligations.DataFrameInFailsafeCountsTowardsRecovery := by
  intro f s on genuine isMatch failsafe u
  have part := Node.qualifyingFrame_failsafe (n := s.node.frameArrived f) failsafe
  refine ⟨fun off => ?_, fun below => ?_, fun counts reached => ?_⟩
  · refine (exec_dataFrame on genuine isMatch).trans (next_withNode ?_)
    rw [Supervision.countData_off (u := s.node.sup.startWindow) off] at part
    rw [Node.dataAccepted_held (by rw [part]; exact failsafe), part]
    rfl
  · refine (exec_dataFrame on genuine isMatch).trans (next_withNode ?_)
    rw [Supervision.countData_below (u := s.node.sup.startWindow) below] at part
    rw [Node.dataAccepted_held (by rw [part]; exact failsafe), part]
    rfl
  · let recovered : Node := { s.node with
      sup := { s.node.sup with state := .normal, recovery := 0 }
      ret := s.node.ret.supNotice s.node.fwd.address { before := .failsafe, after := .normal } }
    rw [Supervision.countData_reached (u := s.node.sup.startWindow) counts reached] at part
    have normal := Node.qualifyingFrame_normal (n := recovered.frameArrived f) nofun true
    refine (exec_dataFrame on genuine isMatch).trans (Eq.trans (next_withNode ?_)
      (exec_dataFrame (s := s.withNode recovered) on genuine isMatch).symm)
    have same : (s.node.frameArrived f).qualifyingFrame true = (recovered.frameArrived f).qualifyingFrame true :=
      part.trans normal.symm
    unfold Node.dataAccepted
    rw [same]

end Sys2Proof.Machine

/-! PROOFS. An accepted SYNC: the time and the queue, the held SYNC, supervision, and the three records handed over (R19, R103 to
R107, R160, R177, R180, R187). -/

namespace Sys2Proof.Machine

-- One proof at a time: side by side, their threads' stacks pass the memory limit of a check.
set_option Elab.async false

/-! ## The schedule unit's part (R103 to R106) -/

/-- The step of a SYNC, in ticks (R104). -/
def Schedule.stepTo (q : Schedule) (time : BitVec 40) : Int := (time.extractLsb' 8 32 - q.tick).toInt

/-- A step from VALID beyond the threshold is a time jump (R104). -/
abbrev Schedule.Jumps (q : Schedule) (time : BitVec 40) : Prop := q.time = .valid ∧ q.threshold.toNat < (q.stepTo time).natAbs

/-- The entries whose due time is not later than a tick count (R106). -/
abbrev Schedule.passed (q : Schedule) (tick : BitVec 32) : List CueEntry := q.queue.takeWhile fun x => !later x.due tick

/-- The entries carried past half the time circle (R106). -/
abbrev Schedule.carried (q : Schedule) (tick : BitVec 32) : List CueEntry := q.queue.filter fun x => 2 ^ 31 ≤ wait x.due tick

/-- The schedule unit with its time set, and VALID (R103). -/
abbrev Schedule.setValid (q : Schedule) (time : BitVec 40) : Schedule :=
  { q with tick := time.extractLsb' 8 32, sub := time.extractLsb' 0 8, time := .valid }

theorem Schedule.sync_invalid {q : Schedule} (invalid : q.time = .invalid) (time : BitVec 40) :
    q.sync time = ({ acting := [], jump := none }, q.setValid time) := by
  unfold Schedule.sync
  rw [invalid]
  rfl

/-- A time jump flushes the queue (R105). -/
theorem Schedule.sync_jumps {q : Schedule} {time : BitVec 40} (jumps : q.Jumps time) :
    q.sync time = ({ acting := [], jump := some (time.extractLsb' 8 32 - q.tick) },
      { q.setValid time with queue := [], timeJump := true, flushes := if q.queue = [] then q.flushes else raiseCounter q.flushes }) := by
  obtain ⟨tick, sub, state, lineDelay, threshold, policy, queue, refusals, lateDrops, flushes, timeJump⟩ := q
  obtain rfl : state = .valid := jumps.1
  exact if_pos jumps.2

/-- A forward step passes the entries that are due (R106). -/
theorem Schedule.sync_forward {q : Schedule} {time : BitVec 40} (valid : q.time = .valid) (near : ¬q.Jumps time) (forward : 0 < q.stepTo time) :
    q.sync time = ({ acting := q.passed (time.extractLsb' 8 32), jump := none },
      { q.setValid time with queue := q.queue.dropWhile fun x => !later x.due (time.extractLsb' 8 32) }) := by
  obtain ⟨tick, sub, state, lineDelay, threshold, policy, queue, refusals, lateDrops, flushes, timeJump⟩ := q
  obtain rfl : state = .valid := valid
  exact (if_neg fun far => near ⟨rfl, far⟩).trans (if_pos forward)

/-- A backward step applies or drops the entries carried past half the circle (R106). -/
theorem Schedule.sync_backward {q : Schedule} {time : BitVec 40} (valid : q.time = .valid) (near : ¬q.Jumps time)
    (backward : q.stepTo time < 0) :
    q.sync time = ({ acting := if q.late = .apply then q.carried (time.extractLsb' 8 32) else [], jump := none },
      { q.setValid time with
        queue := q.queue.filter fun x => !decide (2 ^ 31 ≤ wait x.due (time.extractLsb' 8 32))
        lateDrops := if q.late = .drop then raiseTimes (q.carried (time.extractLsb' 8 32)).length q.lateDrops else q.lateDrops }) := by
  have notForward : ¬0 < q.stepTo time := by omega
  obtain ⟨tick, sub, state, lineDelay, threshold, policy, queue, refusals, lateDrops, flushes, timeJump⟩ := q
  obtain rfl : state = .valid := valid
  refine (if_neg fun far => near ⟨rfl, far⟩).trans ((if_neg notForward).trans ((if_pos backward).trans ?_))
  cases policy <;> rfl

theorem Schedule.sync_still {q : Schedule} {time : BitVec 40} (valid : q.time = .valid) (near : ¬q.Jumps time)
    (forward : ¬0 < q.stepTo time) (backward : ¬q.stepTo time < 0) :
    q.sync time = ({ acting := [], jump := none }, q.setValid time) := by
  obtain ⟨tick, sub, state, lineDelay, threshold, policy, queue, refusals, lateDrops, flushes, timeJump⟩ := q
  obtain rfl : state = .valid := valid
  exact (if_neg fun far => near ⟨rfl, far⟩).trans ((if_neg forward).trans (if_neg backward))

/-- What a SYNC makes the schedule unit do (R103 to R106). -/
theorem Schedule.sync_eq (q : Schedule) (time : BitVec 40) :
    q.sync time =
      ({ acting := if q.time = .invalid ∨ q.Jumps time then [] else if 0 < q.stepTo time then q.passed (time.extractLsb' 8 32)
          else if q.stepTo time < 0 ∧ q.late = .apply then q.carried (time.extractLsb' 8 32) else []
         jump := if q.Jumps time then some (time.extractLsb' 8 32 - q.tick) else none },
        if q.time = .invalid then q.setValid time
        else if q.Jumps time then
          { q.setValid time with queue := [], timeJump := true, flushes := if q.queue = [] then q.flushes else raiseCounter q.flushes }
        else if 0 < q.stepTo time then
          { q.setValid time with queue := q.queue.dropWhile fun x => !later x.due (time.extractLsb' 8 32) }
        else if q.stepTo time < 0 then
          { q.setValid time with
            queue := q.queue.filter fun x => !decide (2 ^ 31 ≤ wait x.due (time.extractLsb' 8 32))
            lateDrops := if q.late = .drop then raiseTimes (q.carried (time.extractLsb' 8 32)).length q.lateDrops else q.lateDrops }
        else q.setValid time) := by
  by_cases invalid : q.time = .invalid
  · have near : ¬q.Jumps time := fun far => nomatch invalid.symm.trans far.1
    have quiet : q.time = .invalid ∨ q.Jumps time := .inl invalid
    rw [Schedule.sync_invalid invalid, if_pos quiet, if_neg near, if_pos invalid]
  · have valid : q.time = .valid := by
      cases state : q.time
      · exact absurd state invalid
      · rfl
    rw [if_neg invalid]
    by_cases jumps : q.Jumps time
    · have quiet : q.time = .invalid ∨ q.Jumps time := .inr jumps
      rw [Schedule.sync_jumps jumps, if_pos quiet, if_pos jumps, if_pos jumps]
    · have steps : ¬(q.time = .invalid ∨ q.Jumps time) := fun h => h.elim invalid jumps
      rw [if_neg steps, if_neg jumps, if_neg jumps]
      by_cases forward : 0 < q.stepTo time
      · rw [Schedule.sync_forward valid jumps forward, if_pos forward, if_pos forward]
      · rw [if_neg forward, if_neg forward]
        by_cases backward : q.stepTo time < 0
        · rw [Schedule.sync_backward valid jumps backward, if_pos backward]
          simp only [backward, true_and]
        · rw [Schedule.sync_still valid jumps forward backward, if_neg (fun h => backward h.1), if_neg backward]

/-! ## The held SYNC (R19) -/

theorem HeldSync.bytes_length (h : HeldSync) : h.bytes.length = 15 := rfl

/-- The hop of a frame passed on (R14). -/
theorem raiseHop_eq (hop : Byte) : raiseHop hop = if hop = 255 then 255 else hop + 1 := by
  unfold raiseHop
  split
  · assumption
  · rfl

/-- An accepted SYNC enters the empty store, or is placed as a copy under the overrun rule (R19). -/
theorem Node.holdSync_eq (n : Node) (h : HeldSync) :
    n.holdSync h = { n with
      link := if n.link.store = none then { n.link with store := some h, order := n.link.order ++ [.syncPlace] }
        else { n.link with
          order := n.link.order ++ [.syncSof] ++ (h.bytes.take (64 - dataCount n.link.order)).map .data
            ++ [if 15 ≤ 64 - dataCount n.link.order then .eof else .eoa] }
      fwd := if n.link.store = none ∨ 15 ≤ 64 - dataCount n.link.order then n.fwd
        else { n.fwd with overruns := raiseCounter n.fwd.overruns } } := by
  unfold Node.holdSync
  by_cases free : n.link.store = none
  · have room : n.link.store = none ∨ 15 ≤ 64 - dataCount n.link.order := .inl free
    rw [if_pos free, if_pos free, if_pos room]
  · rw [if_neg free, if_neg free]
    by_cases fits : 15 ≤ 64 - dataCount n.link.order
    · have room : n.link.store = none ∨ 15 ≤ 64 - dataCount n.link.order := .inr fits
      rw [if_pos room]
      exact if_pos fits
    · have full : ¬(n.link.store = none ∨ 15 ≤ 64 - dataCount n.link.order) := fun h => h.elim free fits
      rw [if_neg full]
      exact if_neg fits

/-! ## The records handed over (R105, R107, R160, R187) -/

/-- The return unit and the sense unit, which the three records pass through. -/
abbrev Records := ReturnUnit × Sense

/-- The SUPERVISION record of a SYNC that ends START or HOLDOVER (R187). -/
def Records.supervision (address : BitVec 10) (before : SupState) (x : Records) : Records :=
  if before = .start ∨ before = .holdover then (x.1.supNotice address { before := before, after := .normal }, x.2) else x

/-- The TIME record of a time jump (R105). -/
def Records.jump (address : BitVec 10) (jumps : Prop) [Decidable jumps] (step : BitVec 32) (x : Records) : Records :=
  if jumps then (x.1.timeNotice address step, x.2) else x

/-- The sense unit's report (R160). -/
def Records.report (address : BitVec 10) (x : Records) : Records :=
  if x.1.enable.getLsbD 2 = true ∧ address ≠ 0 ∧ x.2.log ≠ [] then
    (x.1.notice address .sense (byteOf (x.2.log.take 8).length :: (x.2.log.take 8).flatMap LogEntry.bytes),
      if x.1.localQ.length < 8 then { x.2 with log := x.2.log.drop 8 } else x.2)
  else x

/-- The supervision record after a SYNC (R180). -/
abbrev Supervision.synced (u : Supervision) : Supervision :=
  if u.state = .failsafe then { u with supTimer := some { elapsed := 0, duration := u.window.toNat } } else u.normal

theorem Supervision.synced_failsafe (u : Supervision) : u.synced.inFailsafe = u.inFailsafe := by
  unfold Supervision.synced Supervision.inFailsafe
  by_cases failsafe : u.state = .failsafe
  · rw [if_pos failsafe]
  · rw [if_neg failsafe]
    simp [failsafe]

/-- A SYNC in FAILSAFE restarts the timer only (R180). -/
theorem Supervision.qualify_sync {u : Supervision} (failsafe : u.state = .failsafe) : u.qualify false = ([], u.startWindow) := by
  unfold Supervision.qualify
  rw [failsafe]
  rfl

/-- The supervision unit's part in a SYNC acceptance (R180, R187). -/
theorem Node.qualifyingFrame_sync (n : Node) :
    n.qualifyingFrame false = { n with
      sup := n.sup.synced
      ret := (Records.supervision n.fwd.address n.sup.state (n.ret, n.sense)).1
      sense := (Records.supervision n.fwd.address n.sup.state (n.ret, n.sense)).2 } := by
  by_cases failsafe : n.sup.state = .failsafe
  · have record : Records.supervision n.fwd.address n.sup.state (n.ret, n.sense) = (n.ret, n.sense) :=
      if_neg (by simp [failsafe])
    unfold Node.qualifyingFrame
    rw [Supervision.qualify_sync failsafe, record, show n.sup.synced = n.sup.startWindow from if_pos failsafe]
    rfl
  · rw [Node.qualifyingFrame_normal failsafe]
    unfold Supervision.synced Records.supervision
    rw [if_neg failsafe]
    cases state : n.sup.state
    case failsafe => exact absurd state failsafe
    all_goals rfl

/-- The schedule unit's part in a SYNC acceptance (R103 to R106). -/
theorem Node.syncSchedule_eq (n : Node) (t : BitVec 40) :
    n.syncSchedule t = { n with
      sched := (n.sched.sync t).2
      out := n.out.runCues n.sup.inFailsafe (n.sched.sync t).1.acting
      ret := (Records.jump n.fwd.address (n.sched.Jumps t) (t.extractLsb' 8 32 - n.sched.tick) (n.ret, n.sense)).1
      sense := (Records.jump n.fwd.address (n.sched.Jumps t) (t.extractLsb' 8 32 - n.sched.tick) (n.ret, n.sense)).2 } := by
  unfold Node.syncSchedule Records.jump
  dsimp only
  rw [show (n.sched.sync t).1.jump = _ from congrArg (fun r => r.1.jump) (n.sched.sync_eq t)]
  dsimp only
  by_cases jumps : n.sched.Jumps t
  · rw [if_pos jumps, if_pos jumps]
    rfl
  · rw [if_neg jumps, if_neg jumps]
    rfl

/-- The sense unit's part (R160). -/
theorem Node.reportOnSync_eq (n : Node) :
    n.reportOnSync = { n with
      ret := (Records.report n.fwd.address (n.ret, n.sense)).1, sense := (Records.report n.fwd.address (n.ret, n.sense)).2 } := by
  have generated : (n.ret.generates n.fwd.address .sense && decide (n.sense.log ≠ [])) = true
      ↔ n.ret.enable.getLsbD 2 = true ∧ n.fwd.address ≠ 0 ∧ n.sense.log ≠ [] := by
    simp only [ReturnUnit.generates, Bool.and_eq_true, decide_eq_true_eq, and_assoc]
    exact Iff.rfl
  unfold Node.reportOnSync Records.report
  by_cases reports : n.ret.enable.getLsbD 2 = true ∧ n.fwd.address ≠ 0 ∧ n.sense.log ≠ []
  · rw [if_pos (generated.2 reports), if_pos reports]
    simp only [ReturnUnit.hasFree_iff]
    rfl
  · rw [if_neg (fun q => reports (generated.1 q)), if_neg reports]

/-- The three parts of a SYNC acceptance, with the records passed on as `x` (log entry 8). -/
abbrev Node.synced (n : Node) (t : BitVec 40) (choice : Nat) (x : Records) : Node :=
  { n with
    sched := (n.sched.sync t).2
    out := n.out.runCues n.sup.inFailsafe (n.sched.sync t).1.acting
    sup := n.sup.synced
    ret := x.1
    sense := x.2
    choice := choice }

/-- The orders in which R177 lets the three records be handed over (log entry 8). -/
inductive Records.Passed (address : BitVec 10) (before : SupState) (jumps : Prop) [Decidable jumps] (step : BitVec 32) (x y : Records) :
    Prop
  | first (h : y = Records.report address (Records.jump address jumps step (Records.supervision address before x)))
  | second (h : y = Records.report address (Records.supervision address before (Records.jump address jumps step x)))
  | third (h : y = Records.supervision address before (Records.report address (Records.jump address jumps step x)))

/-- Whatever place the supervision part takes, the three parts are one (R107, R177, log entry 8). -/
theorem Node.syncParts_eq (n : Node) (t : BitVec 40) : ∃ choice x, n.syncParts t = n.synced t choice x
    ∧ Records.Passed n.fwd.address n.sup.state (n.sched.Jumps t) (t.extractLsb' 8 32 - n.sched.tick) (n.ret, n.sense) x := by
  have supervision := Node.qualifyingFrame_sync
  have schedule := fun m : Node => m.syncSchedule_eq t
  have report := Node.reportOnSync_eq
  unfold Node.syncParts
  split
  · dsimp only
    split
    · refine ⟨n.choice + 1, _, ?_, .first rfl⟩
      rw [report, schedule, supervision, Node.synced, ← n.sup.synced_failsafe]
    · refine ⟨n.choice + 1, _, ?_, .second rfl⟩
      rw [report, supervision, schedule]
    · refine ⟨n.choice + 1, _, ?_, .third rfl⟩
      rw [supervision, report, schedule]
  · refine ⟨n.choice, _, ?_, .first rfl⟩
    rw [report, schedule, supervision, Node.synced, ← n.sup.synced_failsafe]

/-! ## Which records are handed over -/

/-- A notice of a disabled category is discarded without a trace (R165). -/
theorem ReturnUnit.notice_disabled {r : ReturnUnit} {cat : Category} (disabled : r.enable.getLsbD cat.bit = false) (address : BitVec 10)
    (data : List Byte) : r.notice address cat data = r :=
  if_neg (by unfold ReturnUnit.generates; rw [disabled, Bool.false_and]; exact Bool.false_ne_true)

theorem ReturnUnit.notice_enable (r : ReturnUnit) (address : BitVec 10) (cat : Category) (data : List Byte) :
    (r.notice address cat data).enable = r.enable := by
  unfold ReturnUnit.notice
  split
  · split <;> rfl
  · rfl

theorem Records.supervision_disabled {x : Records} (disabled : x.1.enable.getLsbD 0 = false) (address : BitVec 10) (before : SupState) :
    Records.supervision address before x = x := by
  unfold Records.supervision ReturnUnit.supNotice
  rw [ReturnUnit.notice_disabled (cat := .supervision) disabled]
  exact ite_self x

theorem Records.jump_disabled {x : Records} (disabled : x.1.enable.getLsbD 1 = false) (address : BitVec 10) (jumps : Prop)
    [Decidable jumps] (step : BitVec 32) : Records.jump address jumps step x = x := by
  unfold Records.jump ReturnUnit.timeNotice
  rw [ReturnUnit.notice_disabled (cat := .time) disabled]
  exact ite_self x

theorem Records.report_enable (address : BitVec 10) (x : Records) : (Records.report address x).1.enable = x.1.enable := by
  unfold Records.report
  split
  · exact ReturnUnit.notice_enable _ _ _ _
  · rfl

/-- With SUPERVISION and TIME disabled the report alone is handed over, in whichever order. -/
theorem Records.Passed.report_only {address : BitVec 10} {before : SupState} {jumps : Prop} [Decidable jumps] {step : BitVec 32}
    {x y : Records} (passed : Records.Passed address before jumps step x y) (noSupervision : x.1.enable.getLsbD 0 = false)
    (noTime : x.1.enable.getLsbD 1 = false) : y = Records.report address x := by
  cases passed with
  | first h => rw [h, Records.supervision_disabled noSupervision, Records.jump_disabled noTime]
  | second h => rw [h, Records.jump_disabled noTime, Records.supervision_disabled noSupervision]
  | third h =>
    rw [h, Records.jump_disabled noTime, Records.supervision_disabled (by rw [Records.report_enable]; exact noSupervision)]

theorem Records.report_disabled {x : Records} (disabled : x.1.enable.getLsbD 2 = false) (address : BitVec 10) :
    Records.report address x = x :=
  if_neg fun h => Bool.false_ne_true (disabled.symm.trans h.1)

theorem flatMap_bytes_length (log : List LogEntry) : (log.flatMap LogEntry.bytes).length = 11 * log.length := by
  induction log with
  | nil => rfl
  | cons e log ih =>
    rw [List.flatMap_cons, List.length_append, ih, LogEntry.bytes_length, List.length_cons]
    omega

/-- A report that is generated and finds a free entry is queued, and its entries leave the log (R160). -/
theorem Records.report_queued {x : Records} {address : BitVec 10} (enabled : x.1.enable.getLsbD 2 = true) (addressed : address ≠ 0)
    (filled : x.2.log ≠ []) (free : x.1.localQ.length < 8) :
    Records.report address x
      = ({ x.1 with localQ := x.1.localQ ++ [
            { frame :=
                { kind := 0x82, flags := 0, source := address.setWidth 16, seq := 0, count := 1
                  payload := [2, byteOf (1 + 11 * (x.2.log.take 8).length), byteOf (x.2.log.take 8).length]
                    ++ (x.2.log.take 8).flatMap LogEntry.bytes }
              sending := false }] },
          { x.2 with log := x.2.log.drop 8 }) := by
  have generated : x.1.generates address .sense = true := by
    simp only [ReturnUnit.generates, Bool.and_eq_true, decide_eq_true_eq]
    exact ⟨enabled, addressed⟩
  have queued : ∀ data, x.1.notice address .sense data = x.1.enqueue (noticeFrame address .sense data) := fun data =>
    (if_pos generated).trans (if_pos ((ReturnUnit.hasFree_iff _).2 free))
  have length : (byteOf (x.2.log.take 8).length :: (x.2.log.take 8).flatMap LogEntry.bytes).length
      = 1 + 11 * (x.2.log.take 8).length := by
    rw [List.length_cons, flatMap_bytes_length, Nat.add_comm]
  unfold Records.report
  rw [if_pos ⟨enabled, addressed, filled⟩, if_pos free, queued, noticeFrame, length]
  rfl

/-- Settles O22: the held SYNC and the three parts, each by its own equation. -/
theorem syncFrameSetsTheTimeAndIsHeld : Obligations.SyncFrameSetsTheTimeAndIsHeld := by
  intro f elapsed a b c d e s on genuine five m q time tick step set held room jumps passed carried acting
  have header : ({ hdr := (headerOf 2 f).passedOn, time := word40 a b c d e, check := f.check } : HeldSync) = held := by
    unfold FwdHeader.passedOn
    rw [raiseHop_eq, headerOf, five]
    rfl
  have accepted : m.syncAccepted (headerOf 2 f) (word40 a b c d e) f.check elapsed.toNat = (m.holdSync held).syncParts time := by
    unfold Node.syncAccepted
    rw [header, BitVec.ofNat_toNat]
  obtain ⟨choice, x, parts, records⟩ := (m.holdSync held).syncParts_eq time
  have address := (m.holdSync_same held).2.1
  rw [address] at records
  rw [m.holdSync_eq held] at accepted parts records
  refine ⟨_, (exec_syncFrame on genuine five elapsed).trans (next_withNode (accepted.trans parts)), rfl, rfl, ?_, ?_, rfl, rfl, rfl, rfl,
    rfl, ?_, ?_, ?_⟩
  · exact congrArg Prod.snd (q.sync_eq time)
  · refine (Output.runCues_eq _ _ _).trans ?_
    exact congrArg (fun es => es.foldl (fun o x => o.acts (s.node.sup.state = .failsafe) x) s.node.out)
      (congrArg (fun r => r.1.acting) (q.sync_eq time))
  · cases records with
    | first h => exact .inl h
    | second h => exact .inr (.inl h)
    | third h => exact .inr (.inr h)
  · intro none
    have unchanged := (records.report_only (by rw [none]; rfl) (by rw [none]; rfl)).trans
      (Records.report_disabled (by rw [none]; rfl) _)
    exact ⟨congrArg Prod.fst unchanged, congrArg Prod.snd unchanged⟩
  · intro sense addressed free filled carriedLog
    have reported := (records.report_only (by rw [sense]; rfl) (by rw [sense]; rfl)).trans
      (Records.report_queued (by rw [sense]; rfl) addressed filled free)
    exact ⟨congrArg Prod.snd reported, congrArg Prod.fst reported⟩

end Sys2Proof.Machine

/-! PROOFS. CUE frames: the records of a payload, and how each is judged (R28, R111 to R113, R117, R118). -/

namespace Sys2Proof.Machine

-- One proof at a time: side by side, their threads' stacks pass the memory limit of a check.
set_option Elab.async false

/-! ## Fields and their bytes -/

/-- The bytes of a 16-bit field spelled by two bytes are these. -/
theorem bytes16_word16 (h l : Byte) : bytes16 (word16 h l) = [h, l] := by
  rw [bytes16, word16, BitVec.extractLsb'_append_eq_left, BitVec.extractLsb'_append_eq_right]

theorem word32_bytes (w : BitVec 32) :
    word32 (w.extractLsb' 24 8) (w.extractLsb' 16 8) (w.extractLsb' 8 8) (w.extractLsb' 0 8) = w := by
  rw [word32, BitVec.extractLsb'_append_extractLsb'_eq_extractLsb' (by rfl), BitVec.extractLsb'_append_extractLsb'_eq_extractLsb' (by rfl),
    BitVec.extractLsb'_append_extractLsb'_eq_extractLsb' (by rfl)]
  exact BitVec.extractLsb'_eq_self

theorem bytes32_word32 (a b c d : Byte) : bytes32 (word32 a b c d) = [a, b, c, d] := by
  have first : (word32 a b c d).extractLsb' 24 8 = a :=
    (BitVec.extractLsb'_append_eq_of_le (xhi := a ++ b) (xlo := c ++ d) (by decide)).trans BitVec.extractLsb'_append_eq_left
  have second : (word32 a b c d).extractLsb' 16 8 = b :=
    (BitVec.extractLsb'_append_eq_of_le (xhi := a ++ b) (xlo := c ++ d) (by decide)).trans BitVec.extractLsb'_append_eq_right
  have third : (word32 a b c d).extractLsb' 8 8 = c :=
    (BitVec.extractLsb'_append_eq_of_add_le (xhi := a ++ b) (xlo := c ++ d) (by decide)).trans BitVec.extractLsb'_append_eq_left
  have fourth : (word32 a b c d).extractLsb' 0 8 = d :=
    (BitVec.extractLsb'_append_eq_of_add_le (xhi := a ++ b) (xlo := c ++ d) (by decide)).trans BitVec.extractLsb'_append_eq_right
  rw [bytes32, first, second, third, fourth]

theorem CueAction.ofCode_code (a : CueAction) : CueAction.ofCode a.code = some a := by
  cases a <;> rfl

theorem CueAction.code_of_ofCode : ∀ {b : Byte} {a : CueAction}, CueAction.ofCode b = some a → a.code = b := by
  intro b a h
  unfold CueAction.ofCode at h
  split at h <;> cases h <;> (rename_i code; exact BitVec.eq_of_toNat_eq code.symm)

/-! ## Parsing (R111) -/

/-- The record that a cue record on the wire makes (R111, R113). -/
abbrev CueOnWire.record (w : CueOnWire) : CueRecord := { dest := w.dest, entry := w.entry }

/-- A whole record at the head of a payload is parsed (R111). -/
theorem parseCue_bytes (w : CueOnWire) (more : List Byte) : parseCue (w.bytes ++ more) = some (w.record, more) := by
  obtain ⟨due, tag, action, dest, targets, level⟩ := w
  cases action <;>
    simp [CueOnWire.bytes, bytes32, bytes16, parseCue, word32_bytes, word16_bytes, CueOnWire.record, CueOnWire.entry,
      CueAction.code, CueAction.ofCode]

/-- What is parsed is a whole record (R111). -/
theorem parseCue_some {bs more : List Byte} {r : CueRecord} (parsed : parseCue bs = some (r, more)) :
    ∃ w : CueOnWire, bs = w.bytes ++ more ∧ r = w.record := by
  unfold parseCue at parsed
  split at parsed
  case h_2 => cases parsed
  case h_1 t3 t2 t1 t0 tag act rest =>
    split at parsed
    case h_1 => cases parsed
    case h_2 code =>
      split at parsed
      case h_2 => cases parsed
      case h_1 d1 d0 s1 s0 l1 l0 more' =>
        cases parsed
        refine ⟨{ due := word32 t3 t2 t1 t0, tag := tag, action := .setLevel, dest := word16 d1 d0, targets := word16 s1 s0
                  level := word16 l1 l0 }, ?_, rfl⟩
        simp [CueOnWire.bytes, bytes32_word32, bytes16_word16, CueAction.code_of_ofCode code]
    case h_3 a notLevel code =>
      split at parsed
      case h_2 => cases parsed
      case h_1 d1 d0 s1 s0 more' =>
        cases parsed
        have plain : a ≠ .setLevel := notLevel
        refine ⟨{ due := word32 t3 t2 t1 t0, tag := tag, action := a, dest := word16 d1 d0, targets := word16 s1 s0, level := 0 }, ?_, ?_⟩
        · simp [CueOnWire.bytes, bytes32_word32, bytes16_word16, CueAction.code_of_ofCode code, plain]
        · simp [CueOnWire.record, CueOnWire.entry, plain]

/-- A record on the wire is long enough for its action, and carries its code (Table 6-2). -/
theorem not_endsCues (w : CueOnWire) (more : List Byte) : ¬EndsCues (w.bytes ++ more) := by
  have code : (w.bytes ++ more).getD 5 0 = w.action.code := rfl
  have length : (w.bytes ++ more).length = (if w.action = .setLevel then 12 else 10) + more.length := by
    unfold CueOnWire.bytes
    split <;> (simp [bytes32, bytes16]; omega)
  rintro (short | unknown | ⟨a, same, short⟩)
  · rw [length] at short
    split at short <;> omega
  · exact unknown w.action code.symm
  · have action : a = w.action := Option.some.inj (by rw [← a.ofCode_code, same, code, w.action.ofCode_code])
    rw [length, action] at short
    omega

/-- Where parsing ends there is no whole record (R111). -/
theorem endsCues_of_parseCue {bs : List Byte} (ends : parseCue bs = none) : EndsCues bs := by
  match bs with
  | t3 :: t2 :: t1 :: t0 :: tag :: act :: rest =>
    by_cases known : ∃ a : CueAction, a.code = act
    · obtain ⟨a, rfl⟩ := known
      refine .inr (.inr ⟨a, rfl, ?_⟩)
      unfold parseCue at ends
      dsimp only at ends
      rw [a.ofCode_code] at ends
      cases a
      case setLevel =>
        match rest with
        | _ :: _ :: _ :: _ :: _ :: _ :: _ => cases ends
        | [] | [_] | [_, _] | [_, _, _] | [_, _, _, _] | [_, _, _, _, _] => simp
      all_goals
        match rest with
        | _ :: _ :: _ :: _ :: _ => cases ends
        | [] | [_] | [_, _] | [_, _, _] => simp
    · exact .inr (.inl fun a same => known ⟨a, same⟩)
  | [] | [_] | [_, _] | [_, _, _] | [_, _, _, _] | [_, _, _, _, _] => exact .inl (by simp)

/-- Parsing ends exactly where no whole record stands (R111). -/
theorem parseCue_none {bs : List Byte} : parseCue bs = none ↔ EndsCues bs := by
  refine ⟨endsCues_of_parseCue, fun ends => ?_⟩
  cases parsed : parseCue bs with
  | none => rfl
  | some r =>
    obtain ⟨w, rfl, -⟩ := parseCue_some parsed
    exact absurd ends (not_endsCues w r.2)

/-- Every payload is a run of whole records, up to where parsing ends (R111). -/
theorem exists_cues (payload : List Byte) :
    ∃ (rs : List CueOnWire) (tail : List Byte), payload = rs.flatMap CueOnWire.bytes ++ tail ∧ EndsCues tail := by
  induction size : payload.length using Nat.strongRecOn generalizing payload with
  | ind n ih =>
    cases parsed : parseCue payload with
    | none => exact ⟨[], payload, rfl, parseCue_none.1 parsed⟩
    | some r =>
      obtain ⟨w, rfl, -⟩ := parseCue_some parsed
      have shorter : r.2.length < n := by
        rw [← size, List.length_append]
        have : 0 < w.bytes.length := by simp [CueOnWire.bytes, bytes32]
        omega
      obtain ⟨rs, tail, more, ends⟩ := ih _ shorter r.2 rfl
      exact ⟨w :: rs, tail, by rw [List.flatMap_cons, List.append_assoc, ← more], ends⟩

/-- The records of a payload are those on the wire, in order (R111). -/
theorem parseCues_eq {tail : List Byte} (ends : EndsCues tail) (rs : List CueOnWire) {fuel : Nat} (enough : rs.length ≤ fuel) :
    parseCues fuel (rs.flatMap CueOnWire.bytes ++ tail) = rs.map CueOnWire.record := by
  induction rs generalizing fuel with
  | nil =>
    cases fuel with
    | zero => rfl
    | succ fuel =>
      unfold parseCues
      rw [List.flatMap_nil, List.nil_append, parseCue_none.2 ends]
      rfl
  | cons w rs ih =>
    cases fuel with
    | zero => exact absurd enough (Nat.not_succ_le_zero _)
    | succ fuel =>
      unfold parseCues
      rw [List.flatMap_cons, List.append_assoc, parseCue_bytes]
      exact congrArg (w.record :: ·) (ih (Nat.le_of_succ_le_succ enough))

/-! ## The queue (R113) -/

/-- An entry is inserted behind every entry that is not due later (R113). -/
theorem insertCue_eq (tick : BitVec 32) (e : CueEntry) (q : List CueEntry) :
    insertCue tick e q = (q.takeWhile fun x => wait x.due tick ≤ wait e.due tick) ++ e ::
      q.dropWhile fun x => wait x.due tick ≤ wait e.due tick := by
  induction q with
  | nil => rfl
  | cons x q ih =>
    unfold insertCue
    by_cases before : wait e.due tick < wait x.due tick
    · have stop : ¬wait x.due tick ≤ wait e.due tick := Nat.not_le.2 before
      simp [before, stop]
    · have pass : wait x.due tick ≤ wait e.due tick := Nat.not_lt.1 before
      rw [if_neg before, ih]
      simp [pass]

/-! ## Judging (R112, Table 6-3) -/

/-- A node after one record of a CUE frame: judged, and acted on at once if it says so (R112). -/
def Node.cueJudged (n : Node) (r : CueRecord) : Node :=
  if n.fwd.matchesDest r.dest then ({ n with sched := (n.sched.judge r.entry).2 } : Node).runCues (n.sched.judge r.entry).1 else n

theorem Node.runCues_append (n : Node) (es es' : List CueEntry) : n.runCues (es ++ es') = (n.runCues es).runCues es' := by
  simp only [Node.runCues, Output.runCues, List.foldl_append]

theorem Schedule.judgeAll_cons (c : Schedule) (f : Forwarding) (r : CueRecord) (rs : List CueRecord) :
    c.judgeAll f (r :: rs)
      = ((if f.matchesDest r.dest then c.judge r.entry else ([], c)).1
          ++ ((if f.matchesDest r.dest then c.judge r.entry else ([], c)).2.judgeAll f rs).1,
        ((if f.matchesDest r.dest then c.judge r.entry else ([], c)).2.judgeAll f rs).2) := rfl

/-- The records of a frame, each judged as those before it have left the queue and the outputs (R111, R112). -/
theorem Node.judgeAll_eq (rs : List CueRecord) (n : Node) :
    ({ n with sched := (n.sched.judgeAll n.fwd rs).2 } : Node).runCues (n.sched.judgeAll n.fwd rs).1 = rs.foldl Node.cueJudged n := by
  induction rs generalizing n with
  | nil => rfl
  | cons r rs ih =>
    rw [List.foldl_cons, ← ih, Schedule.judgeAll_cons]
    by_cases mine : n.fwd.matchesDest r.dest = true
    · have judged : n.cueJudged r = ({ n with sched := (n.sched.judge r.entry).2 } : Node).runCues (n.sched.judge r.entry).1 := if_pos mine
      rw [if_pos mine, judged, Node.runCues_append]
      rfl
    · have passed : n.cueJudged r = n := if_neg mine
      rw [if_neg mine, passed]
      rfl

theorem length_le_flatMap_cues (rs : List CueOnWire) : rs.length ≤ (rs.flatMap CueOnWire.bytes).length := by
  induction rs with
  | nil => exact Nat.zero_le _
  | cons w rs ih =>
    have filled : 0 < w.bytes.length := by simp [CueOnWire.bytes, bytes32]
    rw [List.flatMap_cons, List.length_append, List.length_cons]
    omega

/-- A CUE frame's records are judged one after another (R111, R112). -/
theorem Node.cueAccepted_eq (n : Node) {payload tail : List Byte} {rs : List CueOnWire}
    (records : payload = rs.flatMap CueOnWire.bytes ++ tail) (ends : EndsCues tail) :
    n.cueAccepted payload = rs.foldl (fun m w => m.cueJudged w.record) n := by
  have enough : rs.length ≤ payload.length := by
    have := length_le_flatMap_cues rs
    rw [records, List.length_append]
    omega
  have parsed : parseCues payload.length payload = rs.map CueOnWire.record := by
    have whole := parseCues_eq ends rs enough
    rwa [← records] at whole
  unfold Node.cueAccepted
  rw [parsed]
  refine (Node.judgeAll_eq _ n).trans ?_
  rw [List.foldl_map]

/-- The lines of Table 6-3, in their order (R112, R113). -/
theorem Schedule.judge_eq (c : Schedule) (e : CueEntry) :
    c.judge e =
      if c.time = .invalid then ([], { c with refusals := raiseCounter c.refusals })
      else if e.due = c.tick then ([e], c)
      else if later e.due c.tick = false then
        if c.late = .drop then ([], { c with lateDrops := raiseCounter c.lateDrops }) else ([e], c)
      else if 32 ≤ c.queue.length then ([], { c with refusals := raiseCounter c.refusals })
      else
        ([], { c with
          queue := (c.queue.takeWhile fun x => wait x.due c.tick ≤ wait e.due c.tick) ++ e ::
            c.queue.dropWhile fun x => wait x.due c.tick ≤ wait e.due c.tick }) := by
  unfold Schedule.judge
  rw [insertCue_eq]
  refine if_congr Iff.rfl rfl (if_congr Iff.rfl rfl (if_congr (by rw [Bool.not_eq_true']) ?_ rfl))
  cases c.late <;> rfl

/-- A matching record is judged by the first line of Table 6-3 that fits it, and a record of another destination is passed over
(R28, R112, R113). -/
theorem Node.cueJudged_eq (n : Node) (w : CueOnWire) :
    n.cueJudged w.record =
      let q := n.sched
      let refused := { n with sched := { q with refusals := raiseCounter q.refusals } }
      let executed := { n with out := n.out.acts n.sup.inFailsafe w.entry }
      if n.fwd.matchesDest w.dest = false then n
      else if q.time = .invalid then refused
      else if w.due = q.tick then executed
      else if later w.due q.tick = false then
        if q.late = .drop then { n with sched := { q with lateDrops := raiseCounter q.lateDrops } } else executed
      else if 32 ≤ q.queue.length then refused
      else
        { n with sched := { q with
            queue := (q.queue.takeWhile fun x => wait x.due q.tick ≤ wait w.due q.tick) ++ w.entry ::
              q.queue.dropWhile fun x => wait x.due q.tick ≤ wait w.due q.tick } } := by
  have executed : n.runCues [w.entry] = { n with out := n.out.acts n.sup.inFailsafe w.entry } := by
    unfold Node.runCues
    rw [Output.runCues_eq]
    rfl
  dsimp only
  rw [← executed]
  unfold Node.cueJudged
  cases mine : n.fwd.matchesDest w.dest
  case false => rfl
  case true =>
    refine (if_pos rfl).trans (Eq.trans ?_ (if_neg Bool.noConfusion).symm)
    have due : w.record.entry.due = w.due := rfl
    rw [Schedule.judge_eq, due]
    repeat' split
    all_goals rfl

theorem Node.cueJudged_same (n : Node) (r : CueRecord) : (n.cueJudged r).fwd = n.fwd ∧ (n.cueJudged r).sup = n.sup := by
  unfold Node.cueJudged
  split <;> exact ⟨rfl, rfl⟩

/-- The low four bits of a target set, of a record whose action names groups (R113). -/
theorem getLsbD_low_targets (targets : BitVec 16) (g : Fin 4) : (targets &&& 0x000F).getLsbD g.val = targets.getLsbD g.val := by
  have low : (0x000F : BitVec 16).getLsbD g.val = true := by revert g; decide
  rw [BitVec.getLsbD_and, low, Bool.and_true]

/-- Settles O23. -/
theorem cueRecordIsJudgedByTable6_3 : Obligations.CueRecordIsJudgedByTable6_3 := by
  refine ⟨exists_cues, fun f rs tail s on genuine records ends => ?_, fun r inFailsafe o => ⟨?_, ?_, ?_, ?_⟩⟩
  · intro judged
    have each : ∀ (m : Node) (w : CueOnWire), m.fwd = (s.node.frameArrived f).fwd → m.sup = s.node.sup →
        m.cueJudged w.record = judged m w := by
      intro m w fwd sup
      have matched : m.fwd.matchesDest w.dest = s.node.fwd.matchesDest w.dest := by rw [fwd]; rfl
      have failsafe : m.sup.inFailsafe = decide (s.node.sup.state = .failsafe) := by rw [sup]; rfl
      rw [Node.cueJudged_eq, matched, failsafe]
    have all : ∀ (rs : List CueOnWire) (m : Node), m.fwd = (s.node.frameArrived f).fwd → m.sup = s.node.sup →
        rs.foldl (fun m w => m.cueJudged w.record) m = rs.foldl judged m := by
      intro rs
      induction rs with
      | nil => exact fun _ _ _ => rfl
      | cons w rs ih =>
        intro m fwd sup
        obtain ⟨fwd', sup'⟩ := m.cueJudged_same w.record
        rw [List.foldl_cons, List.foldl_cons, ← each m w fwd sup]
        exact ih _ (fwd'.trans fwd) (sup'.trans sup)
    refine (exec_cueFrame on genuine).trans (next_withNode ?_)
    exact (Node.cueAccepted_eq _ records ends).trans (all rs _ rfl rfl)
  · intro level
    unfold Output.acts CueOnWire.entry
    rw [level]
    rfl
  · intro start
    unfold Output.acts CueOnWire.entry
    rw [start]
    simp only [reduceCtorEq, if_false, getLsbD_low_targets]
  · intro stop
    unfold Output.acts CueOnWire.entry
    rw [stop]
    simp only [reduceCtorEq, if_false, getLsbD_low_targets]
  · intro fire
    unfold Output.acts CueOnWire.entry
    rw [fire]
    simp only [reduceCtorEq, if_false, getLsbD_low_targets]

end Sys2Proof.Machine

/-! PROOFS. The rows of the command records: unaccepted lengths, the common commands, and the settings of time, notices and
supervision (chapters 2, 3, 6, 9 and 10). -/

namespace Sys2Proof.Machine

-- One proof at a time: side by side, their threads' stacks pass the memory limit of a check.
set_option Elab.async false

/-! ## A record on its own, and as the one record of a frame -/

/-- A record row shows what its command replies, and leaves the node its command leaves (log entry 7). -/
theorem State.single_of {s : State} (on : s.On) (c : Command) {p : List Byte} {r : Reply} {n : Node}
    (run : runCommand c p s.node = .of (r, n)) : s.single c p = .next (s.withResult n c.opcode r.status r.data) := by
  rw [State.single_on on, run]
  rfl

/-- A RESET NODE row resets the scope it names (R59). -/
theorem State.single_reset {s : State} (on : s.On) (scope : Scope) :
    s.single .resetNode [scope.code] = .next (s.withResult (s.node.softReset scope) 0x03 .ok [scope.code]) := by
  rw [State.single_on on]
  cases scope <;> rfl

/-- A frame whose one record changes nothing only arrives, and when it is answered reports that record (R45, R46). -/
theorem exec_manageFrame_still {f : FwdFrame} {c : Command} {p : List Byte} {s : State} {r : Reply} (on : s.On)
    (g : Genuine f 0x03) (len : p.length ≤ 255) (payload : f.payload = c.opcode :: byteOf p.length :: p)
    (isMatch : s.node.link.passage.matched.getD (s.node.fwd.matchesDest f.dest) = true)
    (still : ∀ n : Node, n.fwd.groups = s.node.fwd.groups → runCommand c p n = .of (r, n)) :
    (destMode f.dest ≠ .node → exec (.manageFrame f) s = .next (s.withNode (s.node.frameArrived f)))
    ∧ (destMode f.dest = .node → s.node.ret.localQ.length < 8 →
      ¬(f.seq ≠ 0 ∧ s.node.cmd.lastSeq = some f.seq ∧ s.node.cmd.cache ≠ none) →
      exec (.manageFrame f) s = .next (s.withNode
        (s.node.answers f 1 ([c.opcode, r.status.code, byteOf r.data.length] ++ r.data)))) := by
  obtain ⟨unanswered, answered⟩ := oneRecordFrameRunsItsCommand f c p s on g len payload isMatch
  constructor
  · intro mode
    refine (unanswered mode).trans ?_
    rw [still (s.node.frameArrived f) rfl]
    rfl
  · intro mode free fresh
    let m := s.node.frameArrived f
    refine (answered mode free fresh).trans ?_
    rw [still { m with ret := { m.ret with localQ := m.ret.localQ ++ [{ frame := reserved, sending := false }] } } rfl]
    have place (e r : LocalEntry) : (s.node.ret.localQ ++ [e]).set s.node.ret.localQ.length r = s.node.ret.localQ ++ [r] := by simp
    exact congrArg (fun q => Host.Outcome.next (s.withNode { s.node.answers f 1 _ with ret := { s.node.ret with localQ := q } }))
      (place _ _)

/-! ## Unaccepted lengths (R44) -/

/-- Whether a command other than SET GROUPS accepts a parameter of this length (the lengths each command's rule gives). -/
def Command.Accepts (c : Command) (length : Nat) : Prop :=
  match c with
  | .identify | .cueFlush | .recover => length = 0
  | .status => length = 0 ∨ length = 1
  | .resetNode | .tableClose | .bankSwap | .cueCancel | .startGroups | .stopGroups | .fireGroups | .groupState
  | .channelState | .senseRead => length = 1
  | .setGroups => True
  | .tableData => length ≠ 0
  | .cueList => length = 2
  | .tableOpen => length = 3
  | .tableRead => length = 4
  | .configureNotices => length = 0 ∨ length = 1
  | .configureTime => length = 0 ∨ length = 5
  | .configureSupervision => length = 0 ∨ length = 6
  | .configureChannel => length = 1 ∨ length = 5
  | .configureGroup | .configureSense => length = 1 ∨ length = 8

/-- A length its command does not accept falls to the last line of the command's own match. -/
theorem runCommand_badLength {c : Command} {p : List Byte} (n : Node) (h : ¬c.Accepts p.length) :
    runCommand c p n = .of (.badLength, n) := by
  cases c
  case setGroups => exact absurd trivial h
  case tableData =>
    have empty : p = [] := List.length_eq_zero_iff.1 (Decidable.not_not.1 h)
    subst empty
    rfl
  case resetNode =>
    have bad : cmdResetNode p = (.badLength, none) := by
      unfold cmdResetNode
      split
      · exact absurd rfl h
      · rfl
    exact congrArg (fun x : Reply × Option Scope => Executed.mk x.1 n x.2) bad
  all_goals
    refine congrArg Executed.of ?_
    delta cmdIdentify cmdStatus cmdTableOpen cmdTableClose cmdTableRead cmdBankSwap cmdConfigureTime cmdCueCancel cmdCueFlush
      cmdCueList cmdConfigureGroup cmdStartGroups cmdStopGroups cmdFireGroups groupCommand cmdConfigureChannel cmdGroupState
      cmdChannelState cmdConfigureSense cmdSenseRead cmdConfigureNotices cmdConfigureSupervision cmdRecover
    split
    all_goals simp_all [Command.Accepts]

theorem State.single_badLength {s : State} (on : s.On) (c : Command) {p : List Byte} (h : ¬c.Accepts p.length) :
    s.single c p = .next (s.withResult s.node c.opcode .badLength []) :=
  State.single_of on c (runCommand_badLength s.node h)

/-- SET GROUPS with an operation of Table 2-4 and a length that does not suit it (R40). -/
theorem State.single_setGroups_badLength {s : State} (on : s.On) {op : Byte} {rest : List Byte}
    (h : op = 0 ∧ rest.length ≠ 0 ∨ (op = 1 ∨ op = 2) ∧ rest.length ≠ 1) :
    s.single .setGroups (op :: rest) = .next (s.withResult s.node 0x04 .badLength []) := by
  refine State.single_of on .setGroups (r := .badLength) (congrArg Executed.of ?_)
  match rest with
  | [] | [_] => rcases h with ⟨rfl, h⟩ | ⟨rfl | rfl, h⟩ <;> simp at h <;> rfl
  | _ :: _ :: _ => rfl

/-- Settles O29: every command's lengths are those of `Command.Accepts`, and SET GROUPS goes by its operation. -/
theorem unacceptedLengthGivesBadLength : Obligations.UnacceptedLengthGivesBadLength := by
  intro p hi s on bad l
  have row (c : Command) (q : List Byte) (h : ¬c.Accepts q.length) :
      s.single c q = .next (s.withResult s.node c.opcode .badLength []) := State.single_badLength on c h
  have longer (n : Nat) (h : l ≠ n) : p.length + 1 ≠ n + 1 := fun same => h (Nat.succ.inj same)
  have status (h : l ≠ 0) : ¬(p.length + 1 = 0 ∨ p.length + 1 = 1) := by
    have : p.length ≠ 0 := h
    omega
  refine ⟨fun h => ⟨row .identify p h, row .status (_ :: p) (status h), row .status (_ :: p) (status h), row .resetNode (_ :: p) (longer 0 h),
      row .resetNode (_ :: p) (longer 0 h), row .resetNode (_ :: p) (longer 0 h), ?clear, row .tableClose (_ :: p) (longer 0 h),
      row .tableClose (_ :: p) (longer 0 h), row .cueFlush p h, row .recover p h⟩,
    fun h => ⟨?add, ?remove, row .bankSwap p h, row .cueCancel p h, row .startGroups p h, row .stopGroups p h, row .fireGroups p h,
      row .groupState p h, row .channelState p h, row .senseRead p h⟩,
    fun h => row .tableData p (not_not_intro h), row .cueList p, row .tableOpen p, row .tableRead p,
    fun h => row .configureNotices p (not_or.2 h), fun h => row .configureTime p (not_or.2 h),
    fun h => row .configureSupervision p (not_or.2 h), fun h => row .configureChannel p (not_or.2 h),
    fun h => ⟨row .configureGroup p (not_or.2 h), row .configureSense p (not_or.2 h)⟩⟩
  case clear => exact State.single_setGroups_badLength on (.inl ⟨rfl, h⟩)
  case add => exact State.single_setGroups_badLength on (.inr ⟨.inl rfl, h⟩)
  case remove => exact State.single_setGroups_badLength on (.inr ⟨.inr rfl, h⟩)

/-! ## IDENTIFY and STATUS (R55, R56, R58) -/

/-- STATUS reports what the blocks hold, byte by byte (Table 12-9). -/
theorem Node.statusData_eq (n : Node) :
    let flag (b : Bool) (v : Nat) : Nat := if b then v else 0
    n.statusData =
      [n.sup.state.code, n.sched.time.code, byteOf (flag n.link.uLane.isLocked 1 + flag n.link.dLane.isLocked 2),
       byteOf (n.link.fwdTx.state.code.toNat + 4 * n.link.retTx.state.code.toNat),
       byteOf (flag n.tables.session.isOpen 1), n.tables.session.table.code, n.tables.session.reason.code,
       byteOf n.sched.queue.length, byteOf n.sense.log.length,
       byteOf (flag n.fwd.enumOverrun 1 + flag n.out.clip 2 + flag n.sched.timeJump 4)]
      ++ n.counters.flatMap bytes16 := by
  intro flag
  have lanes : ∀ u d : Bool, flagByte u ||| (if d then 2 else 0) = byteOf (flag u 1 + flag d 2) := by decide
  have transmitters : ∀ f r : TxState, f.code ||| r.code <<< 2 = byteOf (f.code.toNat + 4 * r.code.toNat) := by
    intro f r
    cases f <;> cases r <;> rfl
  have session : ∀ b : Bool, flagByte b = byteOf (flag b 1) := by decide
  have sticky : ∀ e c j : Bool, (if e then 1 else 0) ||| (if c then 2 else 0) ||| (if j then (4 : Byte) else 0)
      = byteOf (flag e 1 + flag c 2 + flag j 4) := by decide
  rw [Node.statusData, lanes, transmitters, session, Node.stickyFlags, sticky]

/-- A STATUS control byte with a spare bit set is none of the two that are taken (R58). -/
theorem control_spare : ∀ (spare : BitVec 7), spare ≠ 0 → ∀ clear : BitVec 1, spare ++ clear ≠ 0 ∧ spare ++ clear ≠ 1 := by
  decide

theorem cmdStatus_outOfRange {b : Byte} (n : Node) (h : b ≠ 0 ∧ b ≠ 1) : cmdStatus [b] n = (.outOfRange, n) :=
  (if_neg h.1).trans (if_neg h.2)

/-- Settles O28: the two reports, and what CLEAR does. -/
theorem identifyAndStatusReport : Obligations.IdentifyAndStatusReport := by
  intro s on n flag counters report cleared
  have data : s.node.statusData = report := s.node.statusData_eq
  have reports (p : List Byte) (m : Node) (run : cmdStatus p n = (.ok n.statusData, m)) :
      s.single .status p = .next (s.withResult m 0x02 .ok report) := by
    rw [← data]
    exact State.single_of on .status (congrArg Executed.of run)
  refine ⟨State.single_of on .identify rfl, reports [] n rfl, reports [0] n rfl, reports [1] cleared rfl, ?spare⟩
  rintro other nonzero c (rfl | rfl)
  all_goals exact State.single_of on .status (congrArg Executed.of (cmdStatus_outOfRange n (control_spare other nonzero _)))

end Sys2Proof.Machine

/-! PROOFS. RESET NODE and SET GROUPS, as rows and as the one record of a frame (R39, R40, R59); the settings of time, notices and
supervision (R110, R166, R178); CUE CANCEL, CUE FLUSH and the expiry of cues (R115, R116, R119, R120). -/

namespace Sys2Proof.Machine

-- One proof at a time: side by side, their threads' stacks pass the memory limit of a check.
set_option Elab.async false

/-! ## RESET NODE (R59, Table 3-7) -/

/-- The session record under a soft reset (R80). -/
theorem Session.softReset_eq (x : Session) :
    x.softReset = { x with
      isOpen := false, bank := none, partialBytes := [], idle := 0, swapped := false, reason := .reset
      discarded := if x.isOpen then x.partialBytes.length else x.discarded } := by
  obtain ⟨isOpen, _⟩ := x
  cases isOpen <;> rfl

/-- The output engine under an OUTPUTS reset, group by group and channel by channel (R146). -/
theorem Output.resetOutputs_eq (o : Output) :
    o.resetOutputs = { o with
      groups := .ofFn fun g => { o.groups[g] with
        state := .idle, mark := false, count := 0, missed := 0, active := o.groups[g].staged }
      chans := .ofFn fun c => { o.chans[c] with
        activeOffset := o.chans[c].stagedOffset, compare := 0, stagedLevel := 0, pendingFlag := false
        origin := .none, lastActive := 0 } } := by
  apply Output.ext_of
  · intro g
    simp [Output.resetOutputs, Group.resetOutputs]
  · intro c
    simp [Output.resetOutputs, Channel.resetOutputs]
  · rfl

theorem Scope.ofCode_none {b : Byte} (h : 2 < b.toNat) : Scope.ofCode b = none := by
  unfold Scope.ofCode
  split
  case h_4 => rfl
  all_goals omega

theorem runCommand_resetNode_none {b : Byte} (h : 2 < b.toNat) (n : Node) :
    runCommand .resetNode [b] n = .of (.outOfRange, n) := by
  have bad : cmdResetNode [b] = (.outOfRange, none) := by
    unfold cmdResetNode
    simp only [Scope.ofCode_none h]
  exact congrArg (fun x : Reply × Option Scope => Executed.mk x.1 n x.2) bad

/-- Settles O30: the three scopes as rows, and a scope byte no line names. -/
theorem resetNodeResetsItsScope : Obligations.ResetNodeResetsItsScope := by
  constructor
  · intro f c s on g payload unnamed isMatch
    exact exec_manageFrame_still (c := .resetNode) (p := [c]) on g (by simp) payload isMatch
      fun n _ => runCommand_resetNode_none unnamed n
  · intro s on n x session r full
    have full_eq : n.resetFull = full := by
      rw [Node.resetFull, Tables.resetFull, Session.softReset_eq]
      rfl
    refine ⟨(State.single_reset on .outputs).trans ?outputs, (State.single_reset on .full).trans ?full,
      (State.single_reset on .factory).trans ?factory⟩
    case outputs =>
      rw [Node.softReset, Node.resetOutputs, Tables.resetOutputs, Session.softReset_eq, Output.resetOutputs_eq]
      rfl
    case full => exact congrArg (fun m => Host.Outcome.next (s.withResult m 0x03 .ok [1])) full_eq
    case factory =>
      exact congrArg (fun m : Node => Host.Outcome.next
        (s.withResult { m with fwd := { m.fwd with address := 0, groups := [] } } 0x03 .ok [2])) full_eq

/-! ## SET GROUPS (R39, R40) -/

/-- A new member takes its place between the smaller and the greater ones (R38). -/
theorem insertGroup_eq {g : Byte} {gs : List Byte} (new : g ∉ gs) (sorted : gs.Pairwise fun a b => a.toNat < b.toNat) :
    insertGroup g gs = gs.filter (fun x => x.toNat < g.toNat) ++ g :: gs.filter fun x => g.toNat < x.toNat := by
  induction gs with
  | nil => rfl
  | cons y ys ih =>
    obtain ⟨above, sorted⟩ := List.pairwise_cons.1 sorted
    obtain ⟨other, new⟩ := not_or.1 (mt List.mem_cons.2 new)
    have differs : y.toNat ≠ g.toNat := fun same => other (BitVec.eq_of_toNat_eq same.symm)
    unfold insertGroup
    by_cases before : g.toNat < y.toNat
    · have none : (ys.filter fun x => x.toNat < g.toNat) = [] :=
        List.filter_eq_nil_iff.2 fun x m => by have := above x m; simp; omega
      have all : (ys.filter fun x => g.toNat < x.toNat) = ys :=
        List.filter_eq_self.2 fun x m => by have := above x m; simp; omega
      have later : ¬y.toNat < g.toNat := by omega
      simp [before, later, none, all]
    · have earlier : y.toNat < g.toNat := by omega
      simp [before, earlier, ih new sorted]

theorem runCommand_setGroups_outOfRange {op : Byte} (h : 2 < op.toNat) {p : List Byte} (form : p = [op] ∨ ∃ g, p = [op, g])
    (n : Node) : runCommand .setGroups p n = .of (groupsReply .outOfRange n) := by
  refine congrArg Executed.of ?_
  obtain rfl | ⟨g, rfl⟩ := form
  all_goals
    unfold cmdSetGroups
    dsimp only
    split
    case h_4 => rfl
    all_goals omega

/-- Settles O31: the table of R40, and an operation code no line names. -/
theorem setGroupsFollowsItsTable : Obligations.SetGroupsFollowsItsTable := by
  constructor
  · intro f op g s on genuine payload unnamed isMatch gs
    have still {p : List Byte} (form : p = [op] ∨ ∃ g, p = [op, g]) (n : Node) (same : n.fwd.groups = gs) :
        runCommand .setGroups p n = .of ({ status := .outOfRange, data := byteOf gs.length :: gs }, n) := by
      rw [runCommand_setGroups_outOfRange unnamed form, groupsReply, Forwarding.groupData, same]
    rcases payload with payload | payload
    · exact exec_manageFrame_still (c := .setGroups) (p := [op]) on genuine (by simp) payload isMatch (still (.inl rfl))
    · exact exec_manageFrame_still (c := .setGroups) (p := [op, g]) on genuine (by simp) payload isMatch (still (.inr ⟨g, rfl⟩))
  · intro g s on sound gs holds
    obtain ⟨-, sorted, -⟩ := sound
    have distinct : gs.Nodup := sorted.imp fun less same => by rw [same] at less; exact Nat.lt_irrefl _ less
    have row {p : List Byte} {status : Status} {after : List Byte}
        (run : cmdSetGroups p s.node = groupsReply status (s.node.withGroups after)) :
        s.single .setGroups p = .next (s.withResult (s.node.withGroups after) 0x04 status (byteOf after.length :: after)) :=
      State.single_of on .setGroups (congrArg Executed.of run)
    refine ⟨row rfl, row rfl, ?add, ?remove⟩
    case add =>
      split
      case isTrue zero => exact row (if_pos zero)
      case isFalse nonzero =>
        split
        case isTrue member => exact row ((if_neg nonzero).trans (if_pos (List.contains_iff_mem.2 member)))
        case isFalse new =>
          have absent : ¬s.node.fwd.groups.contains g = true := fun h => new (List.contains_iff_mem.1 h)
          have new_add : addGroup g s.node = _ := (if_neg nonzero).trans (if_neg absent)
          split
          case isTrue room =>
            refine row (new_add.trans ((if_pos room).trans ?_))
            rw [insertGroup_eq new sorted]
          case isFalse full => exact row (new_add.trans (if_neg full))
    case remove =>
      split
      case isTrue zero => exact row (if_pos zero)
      case isFalse nonzero =>
        split
        case isTrue member =>
          refine row ((if_neg nonzero).trans ((if_pos (List.contains_iff_mem.2 member)).trans ?_))
          rw [distinct.erase_eq_filter]
          refine congrArg (fun after => groupsReply .ok (s.node.withGroups after)) (List.filter_congr fun x _ => ?_)
          exact Bool.eq_iff_iff.2 (by simp)
        case isFalse absent =>
          exact row ((if_neg nonzero).trans (if_neg fun h => absent (List.contains_iff_mem.1 h)))

/-! ## Settings (R110, R166, R178) -/

/-- A code byte of two values (Table 12-10). -/
theorem twoValuedCode {α : Type} (zero one : α) (b : Byte) :
    (match b.toNat with
      | 0 => some zero
      | 1 => some one
      | _ => none) = if 1 < b.toNat then none else some (if b = 1 then one else zero) := by
  by_cases wide : 1 < b.toNat
  · rw [if_pos wide]
    split
    case h_3 => rfl
    all_goals omega
  · rw [if_neg wide]
    have named : b = 0 ∨ b = 1 := by bv_omega
    rcases named with rfl | rfl <;> rfl

theorem LatePolicy.ofCode_eq (b : Byte) :
    LatePolicy.ofCode b = if 1 < b.toNat then none else some (if b = 1 then .apply else .drop) := twoValuedCode _ _ b

theorem LatePolicy.code_eq (l : LatePolicy) : l.code = if l = .apply then 1 else 0 := by
  cases l <;> rfl

theorem cmdConfigureTime_eq (d1 d0 j1 j0 l : Byte) (n : Node) :
    cmdConfigureTime [d1, d0, j1, j0, l] n =
      if word16 j1 j0 = 0 ∨ 1 < l.toNat then ({ status := .outOfRange, data := n.sched.settingsData }, n)
      else
        let c := { n.sched with
          lineDelay := word16 d1 d0, threshold := word16 j1 j0, late := if l = 1 then LatePolicy.apply else .drop }
        (.ok c.settingsData, { n with sched := c }) := by
  unfold cmdConfigureTime
  dsimp only
  rw [LatePolicy.ofCode_eq]
  by_cases wide : 1 < l.toNat
  · simp [wide]
  · by_cases zero : word16 j1 j0 = 0 <;> simp [wide, zero]

theorem cmdConfigureNotices_eq (c : Byte) (n : Node) :
    cmdConfigureNotices [c] n =
      if 7 < c.toNat then ({ status := .outOfRange, data := [n.ret.enable.setWidth 8] }, n)
      else (.ok [c], { n with ret := { n.ret with enable := c.setWidth 3 } }) := by
  have low : c.setWidth 3 = c.extractLsb' 0 3 := BitVec.setWidth_eq_extractLsb' (by decide)
  rw [low]
  rfl

/-- The parameter bytes of CONFIGURE SUPERVISION as its settings; in HOLDOVER with the holdover timer stopped and failsafe
left enabled the timer starts (R178, R182). -/
theorem Supervision.configure_eq (u : Supervision) (w h : BitVec 16) (e : Byte) (k : BitVec 4) :
    u.configure w h (e.toNat = 1) k = { u with
      window := w, holdover := h, failsafeOn := decide (e = 1), k := k
      holdTimer := if u.state = .holdover ∧ u.holdTimer = none ∧ e = 1 then some { elapsed := 0, duration := h.toNat }
        else u.holdTimer } := by
  have one : e.toNat = 1 ↔ e = 1 := ⟨fun h => BitVec.eq_of_toNat_eq h, fun h => by rw [h]; rfl⟩
  simp [Supervision.configure, one, timerFor, and_assoc]

theorem cmdConfigureSupervision_eq (w1 w0 h1 h0 e k : Byte) (n : Node) :
    cmdConfigureSupervision [w1, w0, h1, h0, e, k] n =
      if word16 w1 w0 = 0 ∨ 1000 < (word16 w1 w0).toNat ∨ 60000 < (word16 h1 h0).toNat ∨ 1 < e.toNat ∨ 15 < k.toNat then
        ({ status := .outOfRange, data := n.sup.settingsData }, n)
      else
        let u := n.sup.configure (word16 w1 w0) (word16 h1 h0) (e.toNat = 1) (k.setWidth 4)
        (.ok u.settingsData, { n with sup := u }) := by
  have zero : word16 w1 w0 = 0 ↔ (word16 w1 w0).toNat = 0 := BitVec.toNat_inj.symm
  have low : k.setWidth 4 = k.extractLsb' 0 4 := BitVec.setWidth_eq_extractLsb' (by decide)
  simp only [zero, low, cmdConfigureSupervision, Bool.or_eq_true, decide_eq_true_eq, or_assoc]

/-- Settles O38: each of the three commands by its one line of ranges. -/
theorem settingsAreWrittenOrRefused : Obligations.SettingsAreWrittenOrRefused := by
  refine ⟨?time, ?notices, ?supervision⟩
  case time =>
    intro d1 d0 j1 j0 l s on q data set
    have reported (x : Schedule) : x.settingsData = data x := by rw [Schedule.settingsData, LatePolicy.code_eq]
    have line := cmdConfigureTime_eq d1 d0 j1 j0 l s.node
    simp only [reported] at line
    refine ⟨?query, ?write⟩
    case query =>
      rw [← reported]
      exact State.single_of on .configureTime rfl
    case write =>
      split
      case isTrue out => exact State.single_of on .configureTime (congrArg Executed.of (line.trans (if_pos out)))
      case isFalse fits => exact State.single_of on .configureTime (congrArg Executed.of (line.trans (if_neg fits)))
  case notices =>
    intro c s on
    have line := cmdConfigureNotices_eq c s.node
    refine ⟨State.single_of on .configureNotices rfl, ?_⟩
    split
    case isTrue out => exact State.single_of on .configureNotices (congrArg Executed.of (line.trans (if_pos out)))
    case isFalse fits => exact State.single_of on .configureNotices (congrArg Executed.of (line.trans (if_neg fits)))
  case supervision =>
    intro w1 w0 h1 h0 e k s on u data set
    have line := cmdConfigureSupervision_eq w1 w0 h1 h0 e k s.node
    rw [Supervision.configure_eq] at line
    refine ⟨State.single_of on .configureSupervision rfl, ?_⟩
    split
    case isTrue out => exact State.single_of on .configureSupervision (congrArg Executed.of (line.trans (if_pos out)))
    case isFalse fits => exact State.single_of on .configureSupervision (congrArg Executed.of (line.trans (if_neg fits)))

/-! ## CUE CANCEL and CUE FLUSH (R119, R120) -/

theorem length_filter_sub {α : Type} (p : α → Bool) (xs : List α) :
    xs.length - (xs.filter fun x => !p x).length = (xs.filter p).length := by
  have parts := List.length_eq_length_filter_add (l := xs) p
  omega

/-- A nonzero tag is cancelled (R119). -/
theorem cmdCueCancel_eq {tag : Byte} (nonzero : tag ≠ 0) (n : Node) :
    let kept := n.sched.queue.filter fun e => e.tag ≠ tag
    let gone := n.sched.queue.filter fun e => e.tag = tag
    cmdCueCancel [tag] n = (.ok [byteOf gone.length, byteOf kept.length], { n with sched := { n.sched with queue := kept } }) := by
  intro kept gone
  have parts : n.sched.queue.length - kept.length = gone.length := by
    have split := length_filter_sub (fun e : CueEntry => decide (e.tag = tag)) n.sched.queue
    simpa [kept, gone] using split
  rw [← parts]
  exact if_neg nonzero

/-- Settles O39. -/
theorem cueCancelRemovesItsTag : Obligations.CueCancelRemovesItsTag := by
  refine ⟨rfl, ?_⟩
  intro p tag s on q kept gone
  refine ⟨State.single_badLength on .cueCancel, ?row, ?frame⟩
  case row =>
    split
    case isTrue zero =>
      have refused : cmdCueCancel [tag] s.node = (.outOfRange, s.node) := if_pos zero
      exact State.single_of on .cueCancel (congrArg Executed.of refused)
    case isFalse nonzero => exact State.single_of on .cueCancel (congrArg Executed.of (cmdCueCancel_eq nonzero s.node))
  case frame =>
    intro f g unanswered isMatch payload nonzero
    have runs := (oneRecordFrameRunsItsCommand f .cueCancel [tag] s on g (by simp) payload isMatch).1 unanswered
    have run : runCommand .cueCancel [tag] (s.node.frameArrived f) = .of _ :=
      congrArg Executed.of (cmdCueCancel_eq nonzero (s.node.frameArrived f))
    rw [run] at runs
    exact runs

theorem Node.cueExpiry_nothing {n : Node} (h : n.sched.time = .invalid ∨ n.sched.queue = []) : n.cueExpiry = n := by
  unfold Node.cueExpiry
  split
  case h_1 valid filled => rcases h with h | h <;> simp [h] at valid filled
  case h_2 => rfl

/-- Settles O40. -/
theorem cueFlushEmptiesTheQueue : Obligations.CueFlushEmptiesTheQueue := by
  refine ⟨rfl, ?_⟩
  intro p s on
  have row : exec (.cueFlush []) s = _ := State.single_of on .cueFlush rfl
  refine ⟨fun filled => State.single_badLength on .cueFlush fun empty => filled (List.length_eq_zero_iff.1 empty), row, ?after⟩
  intro t flushed
  obtain rfl := Host.Outcome.next.inj (row.symm.trans flushed)
  rw [exec_on (by exact on)]
  exact congrArg (fun n => Host.Outcome.next (State.withNode _ n)) (Node.cueExpiry_nothing (.inr rfl))

/-! ## The expiry of cues (R115, R116) -/

theorem Schedule.reach_eq (q : Schedule) (due : BitVec 32) :
    q.reach due = { q with tick := due, sub := if due = q.tick then q.sub else byteOf (q.sub.toNat % 16) } := by
  unfold Schedule.reach
  split
  case isTrue same => rw [same]
  case isFalse =>
    have low : q.sub &&& 0x0F = byteOf (q.sub.toNat % 16) := by
      apply BitVec.eq_of_toNat_eq
      simp [byteOf, Nat.and_two_pow_sub_one_eq_mod q.sub.toNat 4]
      omega
    rw [low]

/-- Settles O41: every entry due at the head's due time leaves from the head and acts (`Output.runCues_eq`). -/
theorem cueExpiryExecutesTheDueEntries : Obligations.CueExpiryExecutesTheDueEntries := by
  intro s on q
  constructor
  · intro e rest valid filled
    have expires : s.node.cueExpiry = ({ s.node with sched := q.reach e.due } : Node).expireCues := by
      unfold Node.cueExpiry
      rw [valid, filled]
    rw [exec_on on]
    refine congrArg (fun n => Host.Outcome.next (s.withNode n)) (expires.trans ?_)
    rw [Schedule.reach_eq]
    refine (if_pos valid).trans ?_
    rw [Node.runCues, Output.runCues_eq]
    rfl
  · intro nothing
    rw [exec_on on]
    exact congrArg (fun n => Host.Outcome.next (s.withNode n)) (Node.cueExpiry_nothing nothing)

end Sys2Proof.Machine

/-! PROOFS. The commands of the table store as rows (R65, R68 to R79, R83, R84). -/

namespace Sys2Proof.Machine

-- One proof at a time: side by side, their threads' stacks pass the memory limit of a check.
set_option Elab.async false

/-! ## Table ids (Table 4-1) -/

theorem TableId.ofCode_none {b : Byte} (h : 5 < b.toNat) : TableId.ofCode b = none := by
  unfold TableId.ofCode
  split
  case h_7 => rfl
  all_goals omega

theorem TableId.ofCode_code (t : TableId) : TableId.ofCode t.code = some t := by
  cases t with
  | extraction => rfl
  | failsafe => rfl
  | curve c =>
    have named : ∀ c : Fin 4, TableId.ofCode (TableId.curve c).code = some (.curve c) := by decide
    exact named c

theorem TableId.code_of_ofCode {b : Byte} {t : TableId} (h : TableId.ofCode b = some t) : t.code = b := by
  unfold TableId.ofCode at h
  split at h
  case h_7 => cases h
  all_goals
    rename_i code
    cases h
    exact BitVec.eq_of_toNat_eq code.symm

theorem TableId.exists_code {b : Byte} (h : b.toNat ≤ 5) : ∃ t : TableId, t.code = b := by
  cases named : TableId.ofCode b with
  | some t => exact ⟨t, TableId.code_of_ofCode named⟩
  | none =>
    unfold TableId.ofCode at named
    split at named
    case h_7 not0 not1 not2 not3 not4 not5 => exact absurd h (by simp at *; omega)
    all_goals cases named

/-! ## TABLE OPEN (R68 to R71) -/

theorem Bank.other_eq (k : Bank) : k.other = if k = .a then .b else .a := by
  cases k <;> rfl

theorem TableId.entries_eq (t : TableId) :
    t.entries = match t with
      | .extraction => 32
      | .curve _ => 33
      | .failsafe => 16 := by
  cases t <;> rfl

/-- The bank a session on a table writes (R68). -/
theorem Tables.bankFor_eq (t : Tables) (table : TableId) :
    t.bankFor table = match table with
      | .curve c => some (if t.curves[c].active = .a then .b else .a)
      | .extraction | .failsafe => none := by
  cases table with
  | extraction => rfl
  | failsafe => rfl
  | curve c => exact congrArg some t.curves[c].active.other_eq

/-- A session that opens, with or without one that it supersedes (R69, R70). -/
theorem Tables.openSession_eq (t : Tables) (table : TableId) (start count : Nat) :
    let x := t.session
    t.openSession table start count = { t with session :=
      { isOpen := true, table := table, bank := t.bankFor table, start := start, count := count, cursor := start
        partialBytes := [], written := 0, wraps := 0, idle := 0
        discarded := if x.isOpen then x.partialBytes.length else x.discarded
        swapped := if x.isOpen then false else x.swapped
        reason := if x.isOpen then .superseded else x.reason } } := by
  intro x
  unfold Tables.openSession Session.close
  cases t.session.isOpen <;> simp [x]

theorem cmdTableOpen_unsuited {table : TableId} {start count : Byte} (h : count = 0 ∨ table.entries < start.toNat + count.toNat)
    (n : Node) : cmdTableOpen [table.code, start, count] n = (.outOfRange, n) := by
  have bad : count.toNat = 0 ∨ table.entries < start.toNat + count.toNat := h.imp_left (congrArg BitVec.toNat)
  unfold cmdTableOpen
  simp only [TableId.ofCode_code]
  exact if_pos (by simpa using bad)

theorem cmdTableOpen_suited {table : TableId} {start count : Byte} (filled : count ≠ 0)
    (inside : start.toNat + count.toNat ≤ table.entries) (n : Node) :
    let t := n.tables.openSession table start.toNat count.toNat
    cmdTableOpen [table.code, start, count] n = (.ok (openData n.tables t), { n with tables := t }) := by
  have positive : count.toNat ≠ 0 := fun zero => filled (BitVec.eq_of_toNat_eq zero)
  unfold cmdTableOpen
  simp only [TableId.ofCode_code]
  exact if_neg (by simp [positive]; omega)

/-- Settles O32. -/
theorem tableOpenOpensASession : Obligations.TableOpenOpensASession := by
  intro table id start count s on x entries bank
  have size : table.entries = entries := table.entries_eq
  have writes : s.node.tables.bankFor table = bank := s.node.tables.bankFor_eq table
  refine ⟨fun unnamed => ?unnamed, fun code unsuited => ?unsuited, fun code filled inside => ?opens⟩
  case unnamed =>
    have refused : cmdTableOpen [id, start, count] s.node = (.outOfRange, s.node) := by
      unfold cmdTableOpen
      simp only [TableId.ofCode_none unnamed]
    exact State.single_of on .tableOpen (congrArg Executed.of refused)
  case unsuited =>
    rw [code]
    exact State.single_of on .tableOpen (congrArg Executed.of (cmdTableOpen_unsuited (size ▸ unsuited) s.node))
  case opens =>
    rw [code]
    have run := cmdTableOpen_suited filled (size ▸ inside) s.node
    rw [Tables.openSession_eq, writes] at run
    exact State.single_of on .tableOpen (congrArg Executed.of run)

/-! ## TABLE CLOSE and the session's expiry (R77 to R79) -/

/-- TABLE CLOSE on an open session (R77, R78). -/
theorem cmdTableClose_open {n : Node} (isOpen : n.tables.session.isOpen = true) (b : Byte) :
    cmdTableClose [b] n =
      ({ status := (n.tables.closeSession (b.getLsbD 0)).1, data := (n.tables.closeSession (b.getLsbD 0)).2.session.summary },
        { n with tables := (n.tables.closeSession (b.getLsbD 0)).2 }) := if_pos isOpen

theorem cmdTableClose_closed {n : Node} (closed : n.tables.session.isOpen = false) (b : Byte) :
    cmdTableClose [b] n = ({ status := .noSession, data := n.tables.session.summary }, n) := if_neg (by simp [closed])

theorem Tables.closeSession_swap {t : Tables} {c : Fin 4} (table : t.session.table = .curve c) :
    t.closeSession true = (.ok, { t.flip c with session := { t.session.close .closed with swapped := true } }) := by
  unfold Tables.closeSession
  rw [table]

theorem Tables.closeSession_noSwap (t : Tables) : t.closeSession false = (.ok, { t with session := t.session.close .closed }) := by
  unfold Tables.closeSession
  cases t.session.table <;> rfl

theorem Tables.closeSession_noCurve {t : Tables} (table : t.session.table = .extraction ∨ t.session.table = .failsafe) :
    t.closeSession true = (.outOfRange, { t with session := t.session.close .closed }) := by
  unfold Tables.closeSession
  rcases table with table | table <;> rw [table]

/-- A spare bit does not reach SWAP. -/
theorem swapBit : ∀ (spare : BitVec 7), (spare ++ 0#1).getLsbD 0 = false ∧ (spare ++ 1#1).getLsbD 0 = true := by
  decide

/-- Settles O35. -/
theorem sessionCloses : Obligations.SessionCloses := by
  intro hi s on t x closed summary ends
  obtain ⟨clear, swap⟩ := swapBit hi
  have expiry : exec .sessionExpiry s = .next (s.withNode { s.node with tables := t.expire }) := exec_on on .sessionExpiry
  constructor
  · intro isOpen
    have row (b : Byte) := State.single_of on .tableClose (congrArg Executed.of (cmdTableClose_open isOpen b))
    refine ⟨(row (hi ++ 0#1)).trans ?_, fun c table => (row (hi ++ 1#1)).trans ?_, fun table => (row (hi ++ 1#1)).trans ?_,
      expiry.trans ?_⟩
    · rw [clear, Tables.closeSession_noSwap]
      rfl
    · rw [swap, Tables.closeSession_swap table, Tables.flip, Curve.flip, Bank.other_eq]
      rfl
    · rw [swap, Tables.closeSession_noCurve table]
      rfl
    · exact congrArg (fun u => Host.Outcome.next (s.withNode { s.node with tables := u })) (if_pos isOpen)
  · intro shut
    have row (b : Byte) := State.single_of on .tableClose (congrArg Executed.of (cmdTableClose_closed shut b))
    refine ⟨row (hi ++ 0#1), row (hi ++ 1#1), expiry.trans ?_⟩
    have stays : t.expire = t := if_neg (by simp [show t.session.isOpen = false from shut])
    rw [stays]

/-! ## TABLE READ (R83) -/

/-- Taking entries by index is taking a window of the list. -/
theorem flatMap_range_getElem? {α β : Type} (xs : List α) (f : α → List β) (a k : Nat) :
    ((List.range k).flatMap fun i => (xs[a + i]?).elim [] f) = ((xs.drop a).take k).flatMap f := by
  induction k with
  | zero => simp
  | succ k ih =>
    have last : (xs[a + k]?).toList.flatMap f = (xs[a + k]?).elim [] f := by
      cases xs[a + k]? <;> simp
    rw [List.range_succ, List.flatMap_append, ih, List.take_add_one, List.flatMap_append, List.getElem?_drop, last]
    simp

/-- The stored form of an extraction entry (Table 12-7). -/
theorem ExtEntry.bytes_eq (e : ExtEntry) :
    e.bytes = [byteOf ((if e.valid then 128 else 0) + (if e.wide then 8 else 0) + e.curve.toNat)] ++ bytes16 e.slot
      ++ bytes16 e.targets := by
  have control : ∀ (v w : Bool) (c : BitVec 3), (if v then (0x80 : Byte) else 0) ||| (if w then 0x08 else 0) ||| c.setWidth 8
      = byteOf ((if v then 128 else 0) + (if w then 8 else 0) + c.toNat) := by decide
  rw [ExtEntry.bytes, control]

theorem FsEntry.bytes_eq (e : FsEntry) :
    e.bytes = (match e.kind with | .off => 0 | .hold => 1 | .level => 2) :: bytes16 e.level := by
  unfold FsEntry.bytes
  cases e.kind <;> rfl

theorem cmdTableRead_outOfRange {table : TableId} {sel start count : Byte}
    (h : 1 < sel.toNat ∨ count.toNat = 0 ∨ table.entries < start.toNat + count.toNat) (n : Node) :
    cmdTableRead [table.code, sel, start, count] n = (.outOfRange, n) := by
  unfold cmdTableRead
  simp only [TableId.ofCode_code]
  exact if_pos (by simpa [or_assoc] using h)

theorem cmdTableRead_window {table : TableId} {sel start count : Byte}
    (h : ¬(1 < sel.toNat ∨ count.toNat = 0 ∨ table.entries < start.toNat + count.toNat)) (n : Node) :
    let bank := n.tables.selectedBank table (sel.toNat = 1)
    cmdTableRead [table.code, sel, start, count] n =
      (.ok ((List.range count.toNat).flatMap fun i => n.tables.entryBytes table bank (start.toNat + i)), n) := by
  unfold cmdTableRead
  simp only [TableId.ofCode_code]
  exact if_neg (by simpa [or_assoc] using h)

/-- The bank of a curve that a READ selects (R83). -/
theorem Curve.points_selected (u : Curve) (inactive : Bool) :
    u.points (if inactive then u.active.other else u.active) =
      if (decide (u.active = .b) != inactive) then u.bankB else u.bankA := by
  obtain ⟨first, second, active⟩ := u
  cases active <;> cases inactive <;> rfl

theorem Tables.selectedPoints (t : Tables) (c : Fin 4) (inactive : Bool) :
    t.curves[c].points (t.selectedBank (.curve c) inactive) =
      if (decide (t.curves[c].active = .b) != inactive) then t.curves[c].bankB else t.curves[c].bankA :=
  t.curves[c].points_selected inactive

/-- The number of entries by table id (Table 4-1). -/
theorem TableId.entries_code (t : TableId) :
    t.entries = if t.code.toNat = 0 then 32 else if t.code.toNat = 5 then 16 else 33 := by
  cases t with
  | extraction => rfl
  | failsafe => rfl
  | curve c =>
    have size : ∀ c : Fin 4, (TableId.curve c).entries =
        if (TableId.curve c).code.toNat = 0 then 32 else if (TableId.curve c).code.toNat = 5 then 16 else 33 := by decide
    exact size c

/-- Settles O36: a window of indices is a window of the table's list. -/
theorem tableReadReturnsStoredEntries : Obligations.TableReadReturnsStoredEntries := by
  intro id sel start count s on t entries window extraction failsafe
  have stored : ExtEntry.bytes = extraction := funext ExtEntry.bytes_eq
  have storedFs : FsEntry.bytes = failsafe := funext FsEntry.bytes_eq
  split
  case isTrue out =>
    refine State.single_of on .tableRead (r := .outOfRange) (congrArg Executed.of ?_)
    by_cases unnamed : 5 < id.toNat
    · unfold cmdTableRead
      simp only [TableId.ofCode_none unnamed]
    · obtain ⟨table, rfl⟩ := TableId.exists_code (Nat.not_lt.1 unnamed)
      refine cmdTableRead_outOfRange ?_ s.node
      rw [TableId.entries_code]
      exact out.resolve_left unnamed
  case isFalse fits =>
    obtain ⟨named, inside⟩ := not_or.1 fits
    have row {table : TableId} (code : table.code = id) :
        exec (.tableRead [id, sel, start, count]) s = .next (s.withResult s.node 0x13 .ok ((List.range count.toNat).flatMap
          fun i => t.entryBytes table (t.selectedBank table (sel.toNat = 1)) (start.toNat + i))) := by
      subst code
      refine State.single_of on .tableRead (congrArg Executed.of (cmdTableRead_window ?_ s.node))
      rw [TableId.entries_code]
      exact inside
    refine ⟨fun code => (row (table := .extraction) code.symm).trans ?_, fun c code => (row (table := .curve c) ?_).trans ?_,
      fun code => (row (table := .failsafe) code.symm).trans ?_⟩
    · rw [← stored]
      exact congrArg (fun d => Host.Outcome.next (s.withResult s.node 0x13 .ok d))
        (flatMap_range_getElem? t.extraction.toList ExtEntry.bytes start.toNat count.toNat)
    · have small := c.isLt
      exact BitVec.eq_of_toNat_eq (by simp [TableId.code, byteOf, code]; omega)
    · have points := Tables.selectedPoints t c (sel.toNat = 1)
      exact congrArg (fun d => Host.Outcome.next (s.withResult s.node 0x13 .ok d))
        ((flatMap_range_getElem? (t.curves[c].points (t.selectedBank (.curve c) (sel.toNat = 1))).toList bytes16 start.toNat
          count.toNat).trans (by rw [points]))
    · rw [← storedFs]
      exact congrArg (fun d => Host.Outcome.next (s.withResult s.node 0x13 .ok d))
        (flatMap_range_getElem? t.failsafe.toList FsEntry.bytes start.toNat count.toNat)

end Sys2Proof.Machine

/-! PROOFS. BANK SWAP (R84), and TABLE DATA: one entry, and records of many (R65, R72 to R76). -/

namespace Sys2Proof.Machine

-- One proof at a time: side by side, their threads' stacks pass the memory limit of a check.
set_option Elab.async false

/-! ## BANK SWAP (R84) -/

/-- Flipping distinct curves one after another flips each of them. -/
theorem foldl_flip {l : List (Fin 4)} (distinct : l.Nodup) (t : Tables) :
    l.foldl Tables.flip t = { t with curves := .ofFn fun c => if c ∈ l then t.curves[c].flip else t.curves[c] } := by
  induction l generalizing t with
  | nil => simp
  | cons g l ih =>
    obtain ⟨new, distinct⟩ := List.nodup_cons.1 distinct
    rw [List.foldl_cons, ih distinct]
    refine congrArg (fun v => { t with curves := v }) ?_
    ext i hi : 1
    by_cases here : i = g.val
    · subst here
      simp [Tables.flip, new]
    · have other : (⟨i, hi⟩ : Fin 4) ≠ g := fun same => here (congrArg Fin.val same)
      have still : (t.flip g).curves[i] = t.curves[i] := Vector.getElem_set_ne g.isLt hi (Ne.symm here)
      simp [other, still]

/-- A byte of four marks, gathered bit by bit. -/
theorem foldl_marks : ∀ p q r w : Bool,
    [(p, 1), (q, 2), (r, 4), (w, 8)].foldl (fun (m : Byte) (x : Bool × Byte) => if x.1 then m ||| x.2 else m) 0
      = byteOf ((if p then 1 else 0) + (if q then 2 else 0) + (if r then 4 else 0) + (if w then 8 else 0)) := by
  decide

/-- The four markers as a byte (R84). -/
theorem Tables.markers_eq (t : Tables) :
    t.markers = byteOf ((if t.curves[0].active = .b then 1 else 0) + (if t.curves[1].active = .b then 2 else 0)
      + (if t.curves[2].active = .b then 4 else 0) + (if t.curves[3].active = .b then 8 else 0)) := by
  have gathered := foldl_marks (t.curves[0].active = .b) (t.curves[1].active = .b) (t.curves[2].active = .b) (t.curves[3].active = .b)
  simp only [List.foldl_cons, List.foldl_nil, decide_eq_true_eq] at gathered
  exact gathered

/-- A session open on a named curve (R84). -/
theorem Tables.busyWith_iff (t : Tables) (b : Byte) :
    t.busyWith (b.extractLsb' 0 4) = true ↔
      t.session.isOpen = true ∧ ∃ c : Fin 4, t.session.table = .curve c ∧ b.getLsbD c = true := by
  unfold Tables.busyWith
  cases t.session.table with
  | curve c => simp
  | extraction => simp
  | failsafe => simp

/-- Settles O37. -/
theorem bankSwapFlipsEveryNamedCurve : Obligations.BankSwapFlipsEveryNamedCurve := by
  intro set s on t markers busy flipped
  have report (u : Tables) : u.markers = markers u.curves := u.markers_eq
  have row {x : Reply} {n : Node} (run : cmdBankSwap [set] s.node = (x, n)) :=
    State.single_of on .bankSwap (congrArg Executed.of run)
  refine ⟨fun high => ?high, fun low taken => ?busy, fun low free => ?swaps⟩
  case high =>
    rw [← report]
    exact row (if_pos high)
  case busy =>
    rw [← report]
    exact row ((if_neg (Nat.not_lt.2 low)).trans (if_pos ((t.busyWith_iff set).2 taken)))
  case swaps =>
    have flips : (groupsNamed (set.extractLsb' 0 4)).foldl Tables.flip t = { t with curves := flipped } := by
      rw [foldl_flip (nodup_groupsNamed _)]
      simp only [mem_groupsNamed, extract_low_bit, Curve.flip, Bank.other_eq]
      rfl
    have run : cmdBankSwap [set] s.node = _ :=
      (if_neg (Nat.not_lt.2 low)).trans (if_neg fun taken => free ((t.busyWith_iff set).1 taken))
    rw [flips] at run
    rw [← report { t with curves := flipped }]
    exact row run

/-! ## Gathering the bytes of an entry (R72 to R74) -/

/-- Bytes that leave an entry short are only gathered. -/
theorem DataRun.foldl_byte_short {bs : List Byte} {r : DataRun} (going : r.cause = none)
    (short : (r.tables.session.partialBytes ++ bs).length < r.tables.session.table.entrySize) :
    bs.foldl DataRun.byte r =
      { r with tables := { r.tables with
          session := { r.tables.session with partialBytes := r.tables.session.partialBytes ++ bs } } } := by
  induction bs generalizing r with
  | nil => rw [List.append_nil]; rfl
  | cons b bs ih =>
    have less : (r.tables.session.partialBytes ++ [b]).length < r.tables.session.table.entrySize := by
      simp only [List.length_append, List.length_cons, List.length_nil] at short ⊢
      omega
    have gathered : r.byte b = { r with tables := { r.tables with
        session := { r.tables.session with partialBytes := r.tables.session.partialBytes ++ [b] } } } := by
      unfold DataRun.byte
      rw [going]
      exact if_pos less
    have fits : (r.tables.session.partialBytes ++ [b] ++ bs).length < r.tables.session.table.entrySize := by
      rwa [List.append_assoc, List.singleton_append]
    rw [List.foldl_cons, ← List.singleton_append (l := bs), ← List.append_assoc]
    exact gathered ▸ ih (r := { r with tables := { r.tables with
      session := { r.tables.session with partialBytes := r.tables.session.partialBytes ++ [b] } } }) going fits

/-- Writing an entry does not look at the session. -/
theorem Tables.writeEntry_session (t : Tables) (y z : Session) (table : TableId) (bank : Option Bank) (i : Nat) (g : Gathered) :
    { ({ t with session := y } : Tables).writeEntry table bank i g with session := z }
      = { t.writeEntry table bank i g with session := z } := by
  unfold Tables.writeEntry
  split <;> rfl

/-- The byte that completes an entry writes it, if it is a good one (R72, R73). -/
theorem DataRun.byte_good {r : DataRun} {b : Byte} {g : Gathered} (going : r.cause = none)
    (whole : r.tables.session.table.entrySize ≤ (r.tables.session.partialBytes ++ [b]).length)
    (gathered : gather r.tables.session.table (r.tables.session.partialBytes ++ [b]) = g) (good : ∀ cause, g ≠ .bad cause) :
    r.byte b = { r with
      tables := { r.tables.writeEntry r.tables.session.table r.tables.session.bank r.tables.session.cursor g with
        session := { r.tables.session with partialBytes := [], written := raiseCounter r.tables.session.written }.advance }
      wrote := r.wrote + 1 } := by
  unfold DataRun.byte
  rw [going]
  refine (if_neg (Nat.not_lt.2 whole)).trans ?_
  rw [gathered]
  cases g with
  | bad cause => exact absurd rfl (good cause)
  | extraction | point | failsafe => rw [← going]

/-- The byte that completes a bad entry stops the record (R74). -/
theorem DataRun.byte_bad {r : DataRun} {b cause : Byte} (going : r.cause = none)
    (whole : r.tables.session.table.entrySize ≤ (r.tables.session.partialBytes ++ [b]).length)
    (gathered : gather r.tables.session.table (r.tables.session.partialBytes ++ [b]) = .bad cause) :
    r.byte b = { r with
      tables := { r.tables with session := { r.tables.session with partialBytes := [] } }, cause := some cause } := by
  unfold DataRun.byte
  rw [going]
  refine (if_neg (Nat.not_lt.2 whole)).trans ?_
  rw [gathered]

/-- Where a record of one entry stands before its last byte. -/
theorem Tables.takeData_last (t : Tables) (init : List Byte) (b : Byte)
    (whole : (t.session.partialBytes ++ (init ++ [b])).length = t.session.table.entrySize) :
    t.takeData (init ++ [b]) = DataRun.byte
      { tables := { t with session := { t.session with partialBytes := t.session.partialBytes ++ init, idle := 0 } }
        wrote := 0, cause := none } b := by
  have short : (t.session.partialBytes ++ init).length < t.session.table.entrySize := by
    rw [← whole, ← List.append_assoc, List.length_append (bs := [b])]
    exact Nat.lt_succ_self _
  rw [Tables.takeData, List.foldl_append, List.foldl_cons, List.foldl_nil]
  exact congrArg (fun r : DataRun => r.byte b)
    (DataRun.foldl_byte_short (r := { tables := { t with session := { t.session with idle := 0 } }, wrote := 0, cause := none })
      rfl short)

/-- A record that completes a good entry writes it at the cursor (R72, R73). -/
theorem Tables.takeData_good {t : Tables} {p : List Byte} {g : Gathered} (filled : p ≠ [])
    (whole : (t.session.partialBytes ++ p).length = t.session.table.entrySize)
    (gathered : gather t.session.table (t.session.partialBytes ++ p) = g) (good : ∀ cause, g ≠ .bad cause) :
    t.takeData p =
      { tables := { t.writeEntry t.session.table t.session.bank t.session.cursor g with
          session := { t.session with partialBytes := [], idle := 0, written := raiseCounter t.session.written }.advance }
        wrote := 1, cause := none } := by
  obtain ⟨init, b, rfl⟩ := (List.eq_nil_or_concat p).resolve_left filled
  rw [List.concat_eq_append] at whole gathered ⊢
  rw [t.takeData_last init b whole]
  rw [← List.append_assoc] at whole gathered
  rw [DataRun.byte_good rfl (Nat.le_of_eq whole.symm) gathered good, Tables.writeEntry_session]

/-- A record that completes a bad entry writes nothing (R74). -/
theorem Tables.takeData_bad {t : Tables} {p : List Byte} {cause : Byte} (filled : p ≠ [])
    (whole : (t.session.partialBytes ++ p).length = t.session.table.entrySize)
    (gathered : gather t.session.table (t.session.partialBytes ++ p) = .bad cause) :
    t.takeData p =
      { tables := { t with session := { t.session with partialBytes := [], idle := 0 } }, wrote := 0, cause := some cause } := by
  obtain ⟨init, b, rfl⟩ := (List.eq_nil_or_concat p).resolve_left filled
  rw [List.concat_eq_append] at whole gathered ⊢
  rw [t.takeData_last init b whole]
  rw [← List.append_assoc] at whole gathered
  rw [DataRun.byte_bad rfl (Nat.le_of_eq whole.symm) gathered]

end Sys2Proof.Machine

/-! PROOFS. TABLE DATA as a row: what one entry does, and how entries make up records (R65, R72 to R76). -/

namespace Sys2Proof.Machine

-- One proof at a time: side by side, their threads' stacks pass the memory limit of a check.
set_option Elab.async false

/-! ## One entry (R65, R72 to R74) -/

theorem Session.advance_eq (x : Session) :
    x.advance = { x with
      cursor := if x.cursor + 1 < x.start + x.count then x.cursor + 1 else x.start
      wraps := if x.cursor + 1 < x.start + x.count then x.wraps else raiseCounter x.wraps } := by
  unfold Session.advance
  split <;> rfl

/-- The tests of Table 4-2, in order. -/
theorem ExtEntry.fault_eq (e : ExtEntry) :
    e.fault =
      if e.valid = true ∧ e.targets = 0 then some 1
      else if e.valid = true ∧ 4 ≤ e.curve.toNat ∧ e.curve ≠ 7 then some 2
      else if e.valid = true ∧ (if e.wide then 1022 else 1023) < e.slot.toNat then some 3
      else none := by
  have seven : e.curve = 7 ↔ e.curve.toNat = 7 := BitVec.toNat_inj.symm
  have curve : (!(e.curve.toNat ≤ 3 || e.curve.toNat = 7)) = true ↔ 4 ≤ e.curve.toNat ∧ e.curve ≠ 7 := by
    simp only [Bool.not_eq_true', Bool.or_eq_false_iff, decide_eq_false_iff_not, ne_eq, seven]
    omega
  unfold ExtEntry.fault
  cases e.valid with
  | false => simp
  | true => simp only [curve, Bool.not_true, Bool.false_eq_true, if_false, true_and]

theorem gather_extraction_good {c s1 s0 t1 t0 : Byte} (good : (ExtEntry.ofBytes c s1 s0 t1 t0).fault = none) :
    gather .extraction [c, s1, s0, t1, t0] = .extraction (ExtEntry.ofBytes c s1 s0 t1 t0) := by
  unfold gather
  simp only [good]

theorem gather_extraction_bad {c s1 s0 t1 t0 cause : Byte} (bad : (ExtEntry.ofBytes c s1 s0 t1 t0).fault = some cause) :
    gather .extraction [c, s1, s0, t1, t0] = .bad cause := by
  unfold gather
  simp only [bad]

theorem FsKind.ofCode_none {b : Byte} (h : 2 < b.toNat) : FsKind.ofCode b = none := by
  unfold FsKind.ofCode
  split
  case h_4 => rfl
  all_goals omega

theorem FsKind.ofCode_some {b : Byte} (h : ¬2 < b.toNat) :
    FsKind.ofCode b = some (if b = 0 then .off else if b = 1 then .hold else .level) := by
  have named : b = 0 ∨ b = 1 ∨ b = 2 := by bv_omega
  rcases named with rfl | rfl | rfl <;> rfl

theorem gather_failsafe_good {k : Byte} (named : ¬2 < k.toNat) (h l : Byte) :
    gather .failsafe [k, h, l] =
      .failsafe { kind := if k = 0 then .off else if k = 1 then .hold else .level, level := word16 h l } := by
  unfold gather
  simp only [FsKind.ofCode_some named]

theorem gather_failsafe_bad {k : Byte} (unnamed : 2 < k.toNat) (h l : Byte) : gather .failsafe [k, h, l] = .bad 4 := by
  unfold gather
  simp only [FsKind.ofCode_none unnamed]

/-- TABLE DATA with a session open (R72, R76). -/
theorem State.single_tableData {s : State} (on : s.On) (isOpen : s.node.tables.session.isOpen = true) {p : List Byte}
    (filled : p ≠ []) :
    exec (.tableData p) s = .next (s.withResult { s.node with tables := (s.node.tables.takeData p).tables } 0x11
      (dataReply (s.node.tables.takeData p)).status (dataReply (s.node.tables.takeData p)).data) :=
  State.single_of on .tableData (congrArg Executed.of ((if_neg filled).trans (if_pos isOpen)))

/-- Settles O33: a record that leaves the entry short, and one that completes it, for each kind of table. -/
theorem tableDataWritesAnEntry : Obligations.TableDataWritesAnEntry := by
  intro p s on filled t x bytes next advanced wrote failed
  have row (isOpen : x.isOpen = true) := State.single_tableData on isOpen filled
  have good (isOpen : x.isOpen = true) {g : Gathered} (whole : bytes.length = x.table.entrySize)
      (gathered : gather x.table bytes = g) (fine : ∀ cause, g ≠ .bad cause) : wrote (t.writeEntry x.table x.bank x.cursor g) := by
    have run := row isOpen
    rw [Tables.takeData_good filled whole gathered fine, Session.advance_eq] at run
    exact run
  have bad (isOpen : x.isOpen = true) {cause : Byte} (whole : bytes.length = x.table.entrySize)
      (gathered : gather x.table bytes = .bad cause) : failed cause := by
    have run := row isOpen
    rw [Tables.takeData_bad filled whole gathered] at run
    exact run
  refine ⟨?closed, ?short, ?extraction, ?curve, ?failsafe⟩
  case closed =>
    intro closed
    exact State.single_of on .tableData (r := { status := .noSession, data := [] })
      (congrArg Executed.of ((if_neg filled).trans (if_neg (by simp [show s.node.tables.session.isOpen = false from closed]))))
  case short =>
    intro isOpen short
    have run := row isOpen
    rw [Tables.takeData, DataRun.foldl_byte_short rfl short] at run
    exact run
  case extraction =>
    intro isOpen table c s1 s0 t1 t0 all e
    have whole : bytes.length = x.table.entrySize := by rw [all, table]; rfl
    have faulty {cause : Byte} (fault : e.fault = some cause) : failed cause :=
      bad isOpen whole (by rw [all, table]; exact gather_extraction_bad fault)
    have fine (sound : e.fault = none) : wrote { t with extraction := t.extraction.setIfInBounds x.cursor e } := by
      have run := good isOpen (g := .extraction e) whole (by rw [all, table]; exact gather_extraction_good sound) nofun
      rw [table] at run
      exact run
    have tests := e.fault_eq
    refine iteInduction (motive := id) (fun h1 => faulty (tests.trans (if_pos h1))) fun h1 => ?_
    have tests := tests.trans (if_neg h1)
    refine iteInduction (motive := id) (fun h2 => faulty (tests.trans (if_pos h2))) fun h2 => ?_
    have tests := tests.trans (if_neg h2)
    exact iteInduction (motive := id) (fun h3 => faulty (tests.trans (if_pos h3))) fun h3 => fine (tests.trans (if_neg h3))
  case curve =>
    intro c bank h l isOpen table writes all u
    have run := good isOpen (g := .point (word16 h l)) (by rw [all, table]; rfl) (by rw [all, table]; rfl) nofun
    rw [table, writes] at run
    cases bank with
    | a => exact run
    | b => exact run
  case failsafe =>
    intro isOpen table k h l all kind
    have whole : bytes.length = x.table.entrySize := by rw [all, table]; rfl
    split
    case isTrue unnamed => exact bad isOpen whole (by rw [all, table]; exact gather_failsafe_bad unnamed h l)
    case isFalse named =>
      have run := good isOpen (g := .failsafe { kind := kind, level := word16 h l }) whole
        (by rw [all, table]; exact gather_failsafe_good named h l) nofun
      rw [table] at run
      exact run

/-! ## Records of many entries (R72 to R76) -/

/-- A stopped record takes no more bytes (R74). -/
theorem DataRun.foldl_byte_stopped {r : DataRun} {cause : Byte} (stopped : r.cause = some cause) (bs : List Byte) :
    bs.foldl DataRun.byte r = r := by
  induction bs with
  | nil => rfl
  | cons b bs ih =>
    have stays : r.byte b = r := by
      unfold DataRun.byte
      rw [stopped]
    rw [List.foldl_cons, stays, ih]

/-- The number of entries written before counts only itself (R76). -/
theorem DataRun.byte_wrote (r : DataRun) (k : Nat) (b : Byte) :
    ({ r with wrote := k + r.wrote } : DataRun).byte b = { r.byte b with wrote := k + (r.byte b).wrote } := by
  obtain ⟨t, w, cause⟩ := r
  cases cause with
  | some cause => rfl
  | none =>
    unfold DataRun.byte
    dsimp only
    split
    · rfl
    · split <;> rfl

theorem DataRun.foldl_byte_wrote (r : DataRun) (k : Nat) (bs : List Byte) :
    bs.foldl DataRun.byte { r with wrote := k + r.wrote }
      = { bs.foldl DataRun.byte r with wrote := k + (bs.foldl DataRun.byte r).wrote } := by
  induction bs generalizing r with
  | nil => rfl
  | cons b bs ih => rw [List.foldl_cons, DataRun.byte_wrote, ih, List.foldl_cons]

/-- Gathering keeps the session open and its idle timer. -/
theorem DataRun.byte_session (r : DataRun) (b : Byte) :
    (r.byte b).tables.session.isOpen = r.tables.session.isOpen ∧ (r.byte b).tables.session.idle = r.tables.session.idle := by
  unfold DataRun.byte
  split
  · exact ⟨rfl, rfl⟩
  · dsimp only
    split
    · exact ⟨rfl, rfl⟩
    · split
      · exact ⟨rfl, rfl⟩
      · rw [Session.advance_eq]
        exact ⟨rfl, rfl⟩

theorem DataRun.foldl_byte_session (bs : List Byte) (r : DataRun) :
    (bs.foldl DataRun.byte r).tables.session.isOpen = r.tables.session.isOpen
      ∧ (bs.foldl DataRun.byte r).tables.session.idle = r.tables.session.idle := by
  induction bs generalizing r with
  | nil => exact ⟨rfl, rfl⟩
  | cons b bs ih =>
    obtain ⟨isOpen, idle⟩ := ih (r.byte b)
    obtain ⟨isOpen', idle'⟩ := r.byte_session b
    exact ⟨isOpen.trans isOpen', idle.trans idle'⟩

theorem Tables.takeData_session (t : Tables) (p : List Byte) :
    (t.takeData p).tables.session.isOpen = t.session.isOpen ∧ (t.takeData p).tables.session.idle = 0 :=
  DataRun.foldl_byte_session p _

/-- Bytes that follow a stopped record change nothing (R74). -/
theorem Tables.takeData_append_stopped {t : Tables} {p : List Byte} {cause : Byte} (stopped : (t.takeData p).cause = some cause)
    (q : List Byte) : t.takeData (p ++ q) = t.takeData p := by
  rw [Tables.takeData, List.foldl_append]
  exact DataRun.foldl_byte_stopped stopped q

/-- A run that goes on, its idle timer restarted, is one that begins with the entries counted so far. -/
theorem DataRun.eq_fresh {r : DataRun} (going : r.cause = none) (idle : r.tables.session.idle = 0) :
    r = { tables := { r.tables with session := { r.tables.session with idle := 0 } }, wrote := r.wrote + 0, cause := none } := by
  obtain ⟨⟨_, _, _, ⟨_, _, _, _, _, _, _, _, _, _, _, _, _⟩⟩, _, _⟩ := r
  subst going idle
  rfl

/-- A record goes on where the one before it ended, but for the entries counted (R72, R76). -/
theorem Tables.takeData_append {t : Tables} {p : List Byte} (going : (t.takeData p).cause = none) (q : List Byte) :
    t.takeData (p ++ q) =
      { (t.takeData p).tables.takeData q with wrote := (t.takeData p).wrote + ((t.takeData p).tables.takeData q).wrote } := by
  obtain ⟨-, idle⟩ := t.takeData_session p
  have start := DataRun.eq_fresh going idle
  have goesOn := DataRun.foldl_byte_wrote
    { tables := { (t.takeData p).tables with session := { (t.takeData p).tables.session with idle := 0 } }, wrote := 0, cause := none }
    (t.takeData p).wrote q
  dsimp only at goesOn
  rw [← start] at goesOn
  rw [Tables.takeData, List.foldl_append]
  exact goesOn

/-- The result of a record: its status, the entries written, and the rest (R76). -/
theorem dataReply_going {r : DataRun} (going : r.cause = none) :
    dataReply r = { status := .ok, data := byteOf r.wrote ::
      [byteOf r.tables.session.cursor, byteOf r.tables.session.partialBytes.length, 0xFF, 0] } := by
  unfold dataReply
  rw [going]
  rfl

theorem dataReply_stopped {r : DataRun} {cause : Byte} (stopped : r.cause = some cause) :
    dataReply r = { status := .badEntry, data := byteOf r.wrote ::
      [byteOf r.tables.session.cursor, byteOf r.tables.session.partialBytes.length, byteOf r.tables.session.cursor, cause] } := by
  unfold dataReply
  rw [stopped]

/-- The result of a record depends on the entries written before it in their count only. -/
theorem dataReply_wrote (r : DataRun) (k : Nat) :
    ∃ rest, (dataReply r).data = byteOf r.wrote :: rest
      ∧ dataReply { r with wrote := k + r.wrote } = { status := (dataReply r).status, data := (byteOf k + byteOf r.wrote) :: rest } := by
  obtain ⟨t, wrote, cause⟩ := r
  have sum : byteOf (k + wrote) = byteOf k + byteOf wrote := BitVec.ofNat_add k wrote
  cases cause with
  | none => exact ⟨_, rfl, congrArg (fun b => Reply.mk .ok (b :: _)) sum⟩
  | some c => exact ⟨_, rfl, congrArg (fun b => Reply.mk .badEntry (b :: _)) sum⟩

/-- Settles O34: the bytes of two records are gathered as those of one. -/
theorem entriesStraddleRecords : Obligations.EntriesStraddleRecords := by
  intro p q s on isOpen filledP filledQ
  have first := State.single_tableData on isOpen filledP
  have stillOpen : (s.node.tables.takeData p).tables.session.isOpen = true := ((s.node.tables.takeData_session p).1).trans isOpen
  have second := State.single_tableData
    (s := s.withResult { s.node with tables := (s.node.tables.takeData p).tables } 0x11
      (dataReply (s.node.tables.takeData p)).status (dataReply (s.node.tables.takeData p)).data) on stillOpen filledQ
  have both := State.single_tableData on isOpen (p := p ++ q) (by simp [filledP])
  obtain ⟨rest, data, sum⟩ := dataReply_wrote ((s.node.tables.takeData p).tables.takeData q) (s.node.tables.takeData p).wrote
  cases cause : (s.node.tables.takeData p).cause with
  | none =>
    have reply := dataReply_going cause
    refine ⟨_, _, _, _, _, rest, _, _, first, second, congrArg (fun r : Reply => some (ResultRecord.mk 0x11 r.status r.data)) reply,
      congrArg (fun d => some (ResultRecord.mk 0x11 _ d)) data, .inl rfl, fun _ => ?_, nofun⟩
    rw [both, Tables.takeData_append cause, sum]
  | some c =>
    have reply := dataReply_stopped cause
    refine ⟨_, _, _, _, _, rest, _, _, first, second, congrArg (fun r : Reply => some (ResultRecord.mk 0x11 r.status r.data)) reply,
      congrArg (fun d => some (ResultRecord.mk 0x11 _ d)) data, .inr rfl, nofun, fun _ => ?_⟩
    rw [both, Tables.takeData_append_stopped cause]

end Sys2Proof.Machine

/-! PROOFS. The commands of the output groups and channels as rows (R125 to R127, R130, R131, R133, R136 to R138). -/

namespace Sys2Proof.Machine

-- One proof at a time: side by side, their threads' stacks pass the memory limit of a check.
set_option Elab.async false

/-! ## Numbers and codes in parameter bytes -/

theorem groupNumber_none {b : Byte} (h : 3 < b.toNat) : groupNumber b = none := dif_neg (by omega)

theorem groupNumber_some {b : Byte} {g : Fin 4} (h : b.toNat = g.val) : groupNumber b = some g :=
  (dif_pos (by omega)).trans (congrArg some (Fin.ext h))

theorem channelNumber_none {b : Byte} (h : 15 < b.toNat) : channelNumber b = none := dif_neg (by omega)

theorem channelNumber_some {b : Byte} {c : Fin 16} (h : b.toNat = c.val) : channelNumber b = some c :=
  (dif_pos (by omega)).trans (congrArg some (Fin.ext h))

theorem Mode.ofCode_eq (b : Byte) :
    Mode.ofCode b = if 1 < b.toNat then none else some (if b = 1 then .oneShot else .continuous) := twoValuedCode _ _ b

theorem Retrigger.ofCode_eq (b : Byte) :
    Retrigger.ofCode b = if 1 < b.toNat then none else some (if b = 1 then .restart else .ignore) := twoValuedCode _ _ b

theorem Mode.code_eq (m : Mode) : m.code = if m = .oneShot then 1 else 0 := by
  cases m <;> rfl

theorem Retrigger.code_eq (r : Retrigger) : r.code = if r = .restart then 1 else 0 := by
  cases r <;> rfl

/-! ## CONFIGURE GROUP (R125 to R127) -/

/-- The five settings of a group as bytes (R126). -/
theorem settingsBytes_eq (mode : Mode) (st : GroupSettings) :
    settingsBytes mode st = [st.prescale.setWidth 8] ++ bytes16 st.period ++ [if mode = .oneShot then 1 else 0]
      ++ bytes16 st.delay ++ [if st.retrigger = .restart then 1 else 0] := by
  rw [settingsBytes, Mode.code_eq, Retrigger.code_eq]
  rfl

/-- A period does not fit when it is not greater than some member's staged offset (R127). -/
theorem Output.periodFits_false {o : Output} {g : Fin 4} {period : BitVec 16} :
    o.periodFits g period = false ↔ ∃ c : Fin 16, o.chans[c].group = g ∧ period.toNat ≤ o.chans[c].stagedOffset.toNat := by
  unfold Output.periodFits
  rw [List.all_eq_false]
  constructor
  · rintro ⟨ch, member, unfit⟩
    obtain ⟨i, inside, rfl⟩ := List.mem_iff_getElem.1 member
    refine ⟨⟨i, by simpa using inside⟩, ?_⟩
    simpa using unfit
  · rintro ⟨c, same, unfit⟩
    exact ⟨o.chans[c], by simp, by simpa using ⟨same, unfit⟩⟩

/-- A setting of CONFIGURE GROUP out of its range (R126, R127). -/
def Output.RefusesGroup (o : Output) (g : Fin 4) (k n1 n0 m r : Byte) : Prop :=
  12 < k.toNat ∨ (word16 n1 n0).toNat < 2 ∨ 1 < m.toNat ∨ 1 < r.toNat
    ∨ ∃ c : Fin 16, o.chans[c].group = g ∧ (word16 n1 n0).toNat ≤ o.chans[c].stagedOffset.toNat

theorem configureGroup_refused {g : Fin 4} {k n1 n0 m r : Byte} {n : Node} (refused : n.out.RefusesGroup g k n1 n0 m r)
    (d1 d0 : Byte) : configureGroup g k n1 n0 m d1 d0 r n = ({ status := .outOfRange, data := n.out.groupData g }, n) := by
  unfold configureGroup
  rw [Mode.ofCode_eq, Retrigger.ofCode_eq]
  by_cases mode : 1 < m.toNat
  · rw [if_pos mode]
  · by_cases retrigger : 1 < r.toNat
    · rw [if_neg mode, if_pos retrigger]
    · rw [if_neg mode, if_neg retrigger]
      have out : 12 < k.toNat ∨ (word16 n1 n0).toNat < 2 ∨ n.out.periodFits g (word16 n1 n0) = false := by
        rw [Output.periodFits_false]
        rcases refused with h | h | h | h | h
        · exact .inl h
        · exact .inr (.inl h)
        · exact absurd h mode
        · exact absurd h retrigger
        · exact .inr (.inr h)
      exact if_pos (by simpa [or_assoc] using out)

/-- With every setting in its range, only a change of mode outside IDLE is refused (R126). -/
theorem configureGroup_accepted {g : Fin 4} {k n1 n0 m r : Byte} {n : Node} (accepted : ¬n.out.RefusesGroup g k n1 n0 m r)
    (d1 d0 : Byte) :
    let mode : Mode := if m = 1 then .oneShot else .continuous
    let st : GroupSettings :=
      { prescale := k.extractLsb' 0 4, period := word16 n1 n0, delay := word16 d1 d0
        retrigger := if r = 1 then .restart else .ignore }
    configureGroup g k n1 n0 m d1 d0 r n =
      if mode ≠ n.out.groups[g].mode && n.out.groups[g].state ≠ .idle then
        ({ status := .wrongState, data := n.out.groupData g }, n)
      else
        let o := n.out.withGroup g (n.out.groups[g].configure mode st)
        (.ok (o.groupData g), { n with out := o }) := by
  obtain ⟨prescale, period, mode, retrigger, offsets⟩ : ¬12 < k.toNat ∧ ¬(word16 n1 n0).toNat < 2 ∧ ¬1 < m.toNat ∧ ¬1 < r.toNat
      ∧ ¬∃ c : Fin 16, n.out.chans[c].group = g ∧ (word16 n1 n0).toNat ≤ n.out.chans[c].stagedOffset.toNat := by
    simpa only [Output.RefusesGroup, not_or] using accepted
  have fits : n.out.periodFits g (word16 n1 n0) = true := Bool.eq_true_of_not_eq_false (mt Output.periodFits_false.1 offsets)
  unfold configureGroup
  rw [Mode.ofCode_eq, Retrigger.ofCode_eq, if_neg mode, if_neg retrigger]
  exact if_neg (by simp [prescale, period, fits])

/-- What a group reports after it was replaced. -/
theorem Output.groupData_withGroup (o : Output) (g : Fin 4) (x : Group) :
    (o.withGroup g x).groupData g = byteOf g.val :: settingsBytes x.mode x.active ++ settingsBytes x.mode x.staged := by
  have there : (o.withGroup g x).groups[g] = x := (groups_set o g x g).trans (if_pos rfl)
  rw [Output.groupData, there]

/-- Settles O42. -/
theorem configureGroupSetsOrStages : Obligations.ConfigureGroupSetsOrStages := by
  intro g b k n1 n0 m d1 d0 r s on o x five data mode settings written refused answers
  have low : k.setWidth 4 = k.extractLsb' 0 4 := BitVec.setWidth_eq_extractLsb' (by decide)
  have report (y : Group) : byteOf g.val :: settingsBytes y.mode y.active ++ settingsBytes y.mode y.staged = data y := by
    rw [settingsBytes_eq, settingsBytes_eq]
    rfl
  have row {p : List Byte} {reply : Reply} {n : Node} (run : cmdConfigureGroup p s.node = (reply, n)) :=
    State.single_of on .configureGroup (congrArg Executed.of run)
  refine ⟨fun high => ?unnamed, fun named => ?named⟩
  case unnamed =>
    have unknown := groupNumber_none high
    refine ⟨row (reply := .outOfRange) ?_, row (reply := .outOfRange) ?_⟩
    all_goals simp only [cmdConfigureGroup, unknown]
  case named =>
    have known := groupNumber_some named
    have command : cmdConfigureGroup [b, k, n1, n0, m, d1, d0, r] s.node = configureGroup g k n1 n0 m d1 d0 r s.node := by
      simp only [cmdConfigureGroup, known]
    refine ⟨?query, fun out => ?refused, fun fits change busy => ?wrongState, fun fits calm => ?written⟩
    case query =>
      rw [← report]
      refine row (reply := .ok (o.groupData g)) ?_
      simp only [cmdConfigureGroup, known]
      rfl
    case refused =>
      rw [← report]
      exact row (command.trans (configureGroup_refused out d1 d0))
    case wrongState =>
      rw [← report]
      have held : (mode ≠ x.mode && x.state ≠ .idle) = true := by simp [change, busy]
      exact row (command.trans ((configureGroup_accepted fits d1 d0).trans (if_pos held)))
    case written =>
      have free : ¬(mode ≠ x.mode && x.state ≠ .idle) = true := by
        rcases calm with same | idle
        · simp [same]
        · simp [idle]
      have run := (configureGroup_accepted fits d1 d0).trans (if_neg free)
      dsimp only at run
      rw [Output.groupData_withGroup, report, ← low] at run
      exact row (command.trans run)

/-! ## START, STOP and FIRE GROUPS (R130, R131, R133) -/

/-- A group's state byte, with the mark in bit 7 (R130). -/
theorem Group.stateByte_eq (x : Group) :
    x.stateByte = byteOf ((match x.state with
      | .idle => 0
      | .running => 1
      | .armed => 2
      | .delay => 3
      | .pulse => 4) + if x.mark then 128 else 0) := by
  unfold Group.stateByte
  cases x.state <;> cases x.mark <;> rfl

/-- A command on groups refuses a set that names no group (R130). -/
theorem groupCommand_outOfRange {b : Byte} (high : 15 < b.toNat) (passes : GroupState → Bool) (act : Output → Fin 4 → Output)
    (n : Node) : groupCommand [b] passes act n = ({ status := .outOfRange, data := n.out.statesData }, n) := if_pos high

/-- It tests every group named before any takes it (R130). -/
theorem groupCommand_passes {b : Byte} (low : b.toNat ≤ 15) {passes : GroupState → Bool} {n : Node}
    (pass : ∀ g : Fin 4, b.getLsbD g = true → passes n.out.groups[g].state = true) (act : Output → Fin 4 → Output) :
    groupCommand [b] passes act n =
      (.ok ((groupsNamed (b.extractLsb' 0 4)).foldl act n.out).statesData,
        { n with out := (groupsNamed (b.extractLsb' 0 4)).foldl act n.out }) := by
  have all : ((groupsNamed (b.extractLsb' 0 4)).all fun g => passes n.out.groups[g].state) = true :=
    List.all_eq_true.2 fun g named => pass g (by rwa [mem_groupsNamed, extract_low_bit] at named)
  exact (if_neg (Nat.not_lt.2 low)).trans (if_pos all)

theorem groupCommand_wrongState {b : Byte} (low : b.toNat ≤ 15) {passes : GroupState → Bool} {n : Node}
    (fails : ¬∀ g : Fin 4, b.getLsbD g = true → passes n.out.groups[g].state = true) (act : Output → Fin 4 → Output) :
    groupCommand [b] passes act n = ({ status := .wrongState, data := n.out.statesData }, n) := by
  have notAll : ¬((groupsNamed (b.extractLsb' 0 4)).all fun g => passes n.out.groups[g].state) = true := fun all =>
    fails fun g named => List.all_eq_true.1 all g (by rwa [mem_groupsNamed, extract_low_bit])
  exact (if_neg (Nat.not_lt.2 low)).trans (if_neg notAll)

/-- START of every group named, all of them IDLE (R130). -/
theorem Output.markStart_groupsNamed {o : Output} {b : Byte} (idle : ∀ g : Fin 4, b.getLsbD g = true → o.groups[g].state = .idle) :
    (groupsNamed (b.extractLsb' 0 4)).foldl Output.markStart o =
      { o with groups := .ofFn fun g => if b.getLsbD g then { o.groups[g] with mark := true } else o.groups[g] } := by
  rw [Output.markStart_action.foldl_named]
  apply Output.ext_of
  · intro g
    by_cases named : b.getLsbD g = true
    · have state : o.groups[g.val].state = .idle := idle g named
      simp [Output.together, named, state]
    · simp [Output.together, named]
  · intro c
    simp [Output.together]
  · simp [Output.together]

/-- Settles O43: the test of `groupCommand`, and the actions on several groups of the output engine's laws. -/
theorem groupCommandsActOnAllNamedOrNone : Obligations.GroupCommandsActOnAllNamedOrNone := by
  intro set s on o named states marked fireable gives
  have report (u : Output) : u.statesData = states u := List.map_congr_left fun g _ => u.groups[g].stateByte_eq
  have named_eq : (fun g : Fin 4 => (set.extractLsb' 0 4).getLsbD g.val) = named := funext (extract_low_bit set)
  have row (c : Command) {p : List Byte} {status : Status} {after : Output}
      (run : runCommand c p s.node = .of ({ status := status, data := after.statesData }, { s.node with out := after })) :
      s.single c p = .next (s.withResult { s.node with out := after } c.opcode status (states after)) := by
    rw [← report]
    exact State.single_of on c run
  refine ⟨fun high => ⟨row .startGroups ?_, row .stopGroups ?_, row .fireGroups ?_⟩, fun low => ⟨?start, ?stop, ?fire, ?busy⟩⟩
  case start =>
    split
    case isTrue idle =>
      refine row .startGroups (congrArg Executed.of ((groupCommand_passes low ?_ Output.markStart).trans ?_))
      · simpa using idle
      · rw [Output.markStart_groupsNamed idle]
        rfl
    case isFalse busy =>
      exact row .startGroups (congrArg Executed.of (groupCommand_wrongState low (by simpa using busy) _))
  case stop =>
    refine row .stopGroups (congrArg Executed.of ((groupCommand_passes low (fun _ _ => rfl) Output.stop).trans ?_))
    rw [Output.stop_groupsNamed, named_eq]
    rfl
  case fire =>
    intro ready
    refine row .fireGroups (congrArg Executed.of ((groupCommand_passes low ?_ Output.trigger).trans ?_))
    · simpa [fireable, or_assoc] using ready
    · rw [Output.trigger_groupsNamed, named_eq]
      rfl
  case busy =>
    intro busy
    refine row .fireGroups (congrArg Executed.of (groupCommand_wrongState low ?_ _))
    simpa [fireable, or_assoc] using busy
  all_goals exact congrArg Executed.of (groupCommand_outOfRange high _ _ s.node)

/-! ## CONFIGURE CHANNEL (R136 to R138) -/

/-- A channel's report (R136). -/
theorem Output.channelData_eq (o : Output) (c : Fin 16) :
    o.channelData c = [byteOf c.val, byteOf o.chans[c].group.val,
        byteOf ((if o.chans[c].enable then 1 else 0) + if o.chans[c].activeLow then 2 else 0)]
      ++ bytes16 o.chans[c].stagedOffset ++ bytes16 o.chans[c].activeOffset := by
  have control : ∀ e l : Bool, flagByte e ||| (if l then 2 else 0) = byteOf ((if e then 1 else 0) + if l then 2 else 0) := by decide
  rw [Output.channelData, Channel.control, control]

/-- Reading the channels after one was replaced. -/
theorem Output.withChannel_same (o : Output) (c : Fin 16) (x : Channel) : (o.withChannel c x).chans[c] = x := by
  simp [Output.withChannel]

/-- Settles O44. -/
theorem configureChannelMovesAndSets : Obligations.ConfigureChannelMovesAndSets := by
  intro c g b gb ctl o1 o0 s on o ch data offset written refuses
  have report : o.channelData c = data ch := o.channelData_eq c
  have row {p : List Byte} {reply : Reply} {n : Node} (run : cmdConfigureChannel p s.node = (reply, n)) :=
    State.single_of on .configureChannel (congrArg Executed.of run)
  refine ⟨fun high => ?unnamed, fun named => ?named⟩
  case unnamed =>
    have unknown := channelNumber_none high
    refine ⟨row (reply := .outOfRange) ?_, row (reply := .outOfRange) ?_⟩
    all_goals simp only [cmdConfigureChannel, unknown]
  case named =>
    have known := channelNumber_some named
    have command : cmdConfigureChannel [b, gb, ctl, o1, o0] s.node = configureChannel c gb ctl o1 o0 s.node := by
      simp only [cmdConfigureChannel, known]
    refine ⟨?query, fun high => ?noGroup, fun group => ?group⟩
    case query =>
      rw [← report]
      refine row (reply := .ok (o.channelData c)) ?_
      simp only [cmdConfigureChannel, known]
      rfl
    case noGroup =>
      have unknown : configureChannel c gb ctl o1 o0 s.node = ({ status := .outOfRange, data := o.channelData c }, s.node) := by
        simp only [configureChannel, groupNumber_none high]
        rfl
      rw [← report]
      exact row (command.trans unknown)
    case group =>
      have known : configureChannel c gb ctl o1 o0 s.node =
          if 3 < ctl.toNat || o.groups[g].staged.period.toNat ≤ offset.toNat then
            ({ status := .outOfRange, data := o.channelData c }, s.node)
          else
            let u := o.withChannel c (ch.configure g (o.groups[g].state = .idle) (ctl.getLsbD 0) (ctl.getLsbD 1) offset)
            (.ok (u.channelData c), { s.node with out := u }) := by
        simp only [configureChannel, groupNumber_some group]
        rfl
      split
      case isTrue out =>
        rw [← report]
        exact row (command.trans (known.trans (if_pos (by simpa using out))))
      case isFalse fits =>
        have run := known.trans (if_neg (by simpa using fits))
        dsimp only at run
        have settles : ch.configure g (o.groups[g].state = .idle) (ctl.getLsbD 0) (ctl.getLsbD 1) offset = written := by
          simp [Channel.configure, written]
        rw [settles, Output.channelData_eq, Output.withChannel_same] at run
        exact row (command.trans run)

end Sys2Proof.Machine

/-! PROOFS. The reports of cues, groups and channels (R121, R144, R145), the events of a group's output clock (R125, R129, R132,
R135) and the pulse outputs (R127, R138, R139, R147). -/

namespace Sys2Proof.Machine

-- One proof at a time: side by side, their threads' stacks pass the memory limit of a check.
set_option Elab.async false

/-! ## CUE LIST, GROUP STATE and CHANNEL STATE (R121, R144, R145) -/

theorem CueAction.code_eq (a : CueAction) :
    a.code = match a with | .setLevel => 1 | .start => 2 | .stop => 3 | .fire => 4 := by
  cases a <;> rfl

theorem levelBytes_eq (level : Option (BitVec 16)) :
    bytes16 (level.getD 0) = match level with | some l => bytes16 l | none => [0, 0] := by
  cases level with
  | some l => rfl
  | none => decide

/-- A queue entry as CUE LIST reports it, 10 bytes (R121). -/
theorem CueEntry.bytes_eq (e : CueEntry) :
    e.bytes = bytes32 e.due ++ [e.tag, match e.action with | .setLevel => 1 | .start => 2 | .stop => 3 | .fire => 4]
      ++ bytes16 e.targets ++ (match e.level with | some l => bytes16 l | none => [0, 0]) := by
  rw [CueEntry.bytes, CueAction.code_eq, levelBytes_eq]

theorem TimeState.code_eq (t : TimeState) : t.code = if t = .valid then 1 else 0 := by
  cases t <;> rfl

theorem GroupState.code_eq (st : GroupState) :
    st.code = match st with | .idle => 0 | .running => 1 | .armed => 2 | .delay => 3 | .pulse => 4 := by
  cases st <;> rfl

theorem Origin.code_eq (r : Origin) : r.code = match r with | .none => 0 | .data => 1 | .cue => 2 | .failsafe => 3 := by
  cases r <;> rfl

theorem lastDataBytes_eq (d : Option LastData) :
    lastDataBytes d = match d with | some d => [1, d.seq] ++ bytes16 d.level | none => [0, 0, 0, 0] := by
  cases d <;> rfl

/-- A set gathered bit by bit holds the bits gathered so far. -/
theorem getLsbD_foldl_bits (p : Nat → Bool) (k : Nat) {i : Nat} (h : i < 16) :
    ((List.range k).foldl (fun (m : BitVec 16) c => if p c then m ||| BitVec.ofNat 16 (2 ^ c) else m) 0).getLsbD i
      = (decide (i < k) && p i) := by
  induction k with
  | zero => simp
  | succ k ih =>
    have bit : (BitVec.ofNat 16 (2 ^ k)).getLsbD i = decide (k = i) := by
      rw [BitVec.getLsbD_ofNat, Nat.testBit_two_pow, decide_eq_true h, Bool.true_and]
    have step (m : BitVec 16) :
        (if p k then m ||| BitVec.ofNat 16 (2 ^ k) else m).getLsbD i = (m.getLsbD i || (p k && decide (k = i))) := by
      split
      case isTrue named => rw [BitVec.getLsbD_or, bit, named, Bool.true_and]
      case isFalse unnamed => rw [Bool.eq_false_iff.2 unnamed, Bool.false_and, Bool.or_false]
    rw [List.range_succ, List.foldl_append, List.foldl_cons, List.foldl_nil, step, ih]
    by_cases here : k = i
    · simp [here]
    · have less : i < k + 1 ↔ i < k := by omega
      simp [here, less]

/-- The member channel set of a group holds its channels (R144). -/
theorem Output.getLsbD_members (o : Output) (g : Fin 4) (i : Fin 16) :
    (o.members g).getLsbD i = decide (o.chans[i].group = g) := by
  have same : o.members g = (List.range 16).foldl (fun (m : BitVec 16) c =>
      if (o.chans.toList[c]?).any (fun ch => ch.group = g) then m ||| BitVec.ofNat 16 (2 ^ c) else m) 0 := by
    unfold Output.members
    congr 1
    funext m c
    cases o.chans.toList[c]? <;> simp
  rw [same, getLsbD_foldl_bits _ 16 i.isLt]
  simp

/-- Settles O45. -/
theorem stateReports : Obligations.StateReports := by
  intro start count b g c s on q listed stored x ch five groupData channelData gives
  have row (k : Command) {p : List Byte} {reply : Reply} (run : runCommand k p s.node = .of (reply, s.node)) :
      s.single k p = .next (s.withResult s.node k.opcode reply.status reply.data) := State.single_of on k run
  refine ⟨?list, fun high => ?noGroup, fun named => ?group, fun high => ?noChannel, fun named => ?channel⟩
  case list =>
    have zero : count = 0 ↔ count.toNat = 0 := BitVec.toNat_inj.symm
    have entries : CueEntry.bytes = stored := funext CueEntry.bytes_eq
    split
    case isTrue out =>
      rw [zero] at out
      refine row .cueList (reply := .outOfRange) (congrArg Executed.of (if_pos ?_))
      simpa [or_assoc] using out
    case isFalse fits =>
      rw [zero] at fits
      have run : cmdCueList [start, count] s.node = _ := if_neg (by simpa [or_assoc] using fits)
      rw [TimeState.code_eq, entries] at run
      exact row .cueList (congrArg Executed.of run)
  case noGroup =>
    refine row .groupState (reply := .outOfRange) (congrArg Executed.of ?_)
    simp only [cmdGroupState, groupNumber_none high]
  case group =>
    refine ⟨s.node.out.members g, s.node.out.getLsbD_members g, ?_⟩
    have data : s.node.out.groupStateData g = groupData (s.node.out.members g) := by
      rw [Output.groupStateData, settingsBytes_eq, settingsBytes_eq, GroupState.code_eq]
      rfl
    have run : cmdGroupState [b] s.node = (.ok (s.node.out.groupStateData g), s.node) := by
      simp only [cmdGroupState, groupNumber_some named]
    rw [data] at run
    exact row .groupState (congrArg Executed.of run)
  case noChannel =>
    refine row .channelState (reply := .outOfRange) (congrArg Executed.of ?_)
    simp only [cmdChannelState, channelNumber_none high]
  case channel =>
    have data : s.node.channelStateData c = channelData := by
      rw [Node.channelStateData, Origin.code_eq, lastDataBytes_eq]
      rfl
    have run : cmdChannelState [b] s.node = (.ok (s.node.channelStateData c), s.node) := by
      simp only [cmdChannelState, channelNumber_some named]
    rw [data] at run
    exact row .channelState (congrArg Executed.of run)

/-! ## The events of a group's output clock (R125, R129, R132, R135) -/

theorem Output.takeStart_eq (o : Output) (g : Fin 4) :
    let x := o.groups[g]
    o.takeStart g =
      if x.state = .idle ∧ x.mark = true then
        if x.mode = .continuous then o.load g .running
        else o.withGroup g { x with state := .armed, mark := false, count := 0, missed := 0 }
      else o := by
  intro x
  have both : (decide (x.state = .idle) && x.mark) = true ↔ x.state = .idle ∧ x.mark = true := by simp
  unfold Output.takeStart
  by_cases marked : x.state = .idle ∧ x.mark = true
  · rw [if_pos marked]
    refine (if_pos (both.2 marked)).trans ?_
    split
    case h_1 continuous => exact (if_pos continuous).symm
    case h_2 oneShot => exact (if_neg fun continuous => Mode.noConfusion (continuous.symm.trans oneShot)).symm
  · rw [if_neg marked]
    exact if_neg (mt both.1 marked)

/-! What a tick is, by the group's state (R125, R132). -/

theorem Output.tick_idle {o : Output} {g : Fin 4} (state : o.groups[g].state = .idle) : o.tick g = o.takeStart g := by
  simp only [Output.tick, state]

theorem Output.tick_armed {o : Output} {g : Fin 4} (state : o.groups[g].state = .armed) : o.tick g = o := by
  simp only [Output.tick, state]

theorem Output.tick_running {o : Output} {g : Fin 4} (state : o.groups[g].state = .running) :
    o.tick g = if o.groups[g].count.toNat + 1 < o.groups[g].active.period.toNat then o.advance g else o.wrap g := by
  simp only [Output.tick, state]

theorem Output.tick_delay {o : Output} {g : Fin 4} (state : o.groups[g].state = .delay) :
    o.tick g = if o.groups[g].count.toNat + 1 < o.groups[g].active.delay.toNat then o.advance g else o.endDelay g := by
  simp only [Output.tick, state]

theorem Output.tick_pulse {o : Output} {g : Fin 4} (state : o.groups[g].state = .pulse) :
    o.tick g = if o.groups[g].count.toNat + 1 < o.groups[g].active.period.toNat then o.advance g else o.endPulse g := by
  simp only [Output.tick, state]

/-- Settles O46, by `Output.load_eq_loads` at the load points. -/
theorem groupEventsStartLoadAndEnd : Obligations.GroupEventsStartLoadAndEnd := by
  intro g s on o x after load becomes counts
  have event (c : Instr) {f : Output} (effect : c.effect s.node = { s.node with out := f }) : exec c s = after f := by
    rw [exec_on on, effect]
  have loads (st : GroupState) : o.load g st = load st := o.load_eq_loads g st
  refine ⟨?start, ?wrap, ?delay, ?pulse, ?tick⟩
  case start =>
    refine (event (.startTick g) (f := o.takeStart g) rfl).trans ?_
    rw [Output.takeStart_eq, loads]
    split
    · split <;> rfl
    · rfl
  case wrap =>
    refine (event (.periodWrap g) (f := o.wrap g) rfl).trans ?_
    rw [Output.wrap, loads]
    split <;> rfl
  case delay =>
    refine (event (.delayEnd g) (f := o.endDelay g) rfl).trans ?_
    rw [Output.endDelay, loads]
    split <;> rfl
  case pulse =>
    refine (event (.pulseEnd g) (f := o.endPulse g) rfl).trans ?_
    unfold Output.endPulse
    dsimp only
    split <;> rfl
  case tick =>
    rw [event (.outputClockTick g) (f := o.tick g) rfl]
    split
    case h_1 state =>
      rw [o.tick_idle state]
      exact (event (.startTick g) rfl).symm
    case h_2 state => exact congrArg after (o.tick_armed state)
    case h_3 state =>
      rw [o.tick_running state]
      split
      · rfl
      · exact (event (.periodWrap g) rfl).symm
    case h_4 state =>
      rw [o.tick_delay state]
      split
      · rfl
      · exact (event (.delayEnd g) rfl).symm
    case h_5 state =>
      rw [o.tick_pulse state]
      split
      · rfl
      · exact (event (.pulseEnd g) rfl).symm

/-! ## The pulse outputs (R127, R138, R139, R147) -/

/-- A channel that is enabled in a group RUNNING or in PULSE is active at the counts from its offset on (R139). -/
theorem Output.channelActive_iff (o : Output) (c : Fin 16) :
    o.channelActive c = (o.chans[c].enable && (o.groups[o.chans[c].group].state = .running || o.groups[o.chans[c].group].state = .pulse)
      && decide (o.chans[c].activeOffset.toNat ≤ o.groups[o.chans[c].group].count.toNat
        ∧ o.groups[o.chans[c].group].count.toNat < o.chans[c].activeOffset.toNat + o.chans[c].compare.toNat)) := by
  rw [Bool.decide_and, ← Bool.and_assoc]
  rfl

/-- How many of the first `n` numbers lie in an interval that ends by `n`. -/
theorem countP_range_interval {a c n : Nat} (h : a + c ≤ n) : (List.range n).countP (fun k => a ≤ k ∧ k < a + c) = c := by
  have below : ∀ m, (List.range m).countP (fun k => a ≤ k ∧ k < a + c) = min m (a + c) - min m a := by
    intro m
    induction m with
    | zero => simp
    | succ m ih =>
      rw [List.range_succ, List.countP_append, ih, List.countP_singleton]
      split
      case isTrue inside =>
        simp only [decide_eq_true_eq] at inside
        omega
      case isFalse outside =>
        simp only [decide_eq_true_eq] at outside
        omega
  rw [below]
  omega

/-- Settles O47. -/
theorem pulseOutputsShowTheWaveform : Obligations.PulseOutputsShowTheWaveform := by
  intro c n sound ch x period at_
  refine ⟨fun low => ?low, fun high idle => ?inactive, fun high enabled runs => ?waveform⟩
  case low => simp [Node.pinHigh, low]
  case inactive =>
    have inactive : n.out.channelActive c = false := by
      rw [Output.channelActive_iff]
      rcases idle with off | idle | idle | idle <;> simp_all [ch, x]
    rw [Node.pinHigh, high, inactive]
    simp [ch]
  case waveform =>
    have shows (k : Nat) (inside : k < period) : (at_ k).pinHigh c
        = (decide (ch.activeOffset.toNat ≤ k ∧ k < ch.activeOffset.toNat + ch.compare.toNat) != ch.activeLow) := by
      have count : (BitVec.ofNat 16 k).toNat = k := by
        have bound : x.active.period.toNat < 2 ^ 16 := x.active.period.isLt
        exact Nat.mod_eq_of_lt (Nat.lt_trans inside bound)
      have group : (at_ k).out.groups[(at_ k).out.chans[c].group] = { x with count := BitVec.ofNat 16 k } :=
        (groups_set n.out ch.group _ ch.group).trans (if_pos rfl)
      have active : (decide (x.state = .running) || decide (x.state = .pulse)) = true := by simpa using runs
      rw [Node.pinHigh, Output.channelActive_iff, group]
      simp only [count, active]
      rw [show (at_ k).link.resetLow = false from high, show (at_ k).out.chans[c] = ch from rfl, enabled]
      rfl
    refine ⟨shows, ?_⟩
    have within : ch.activeOffset.toNat + ch.compare.toNat ≤ period := by
      obtain ⟨-, channels⟩ := sound
      obtain ⟨-, -, fits, -⟩ := channels c
      rw [Nat.add_comm]
      exact fits
    rw [← countP_range_interval within]
    refine List.countP_congr fun k member => ?_
    rw [shows k (List.mem_range.1 member)]
    cases ch.activeLow <;> simp

end Sys2Proof.Machine

/-! PROOFS. The sense unit: its commands as rows, sample events and the filter, edges by phase (R148 to R159). -/

namespace Sys2Proof.Machine

-- One proof at a time: side by side, their threads' stacks pass the memory limit of a check.
set_option Elab.async false

/-! ## CONFIGURE SENSE and SENSE READ (R149, R151, R159) -/

theorem SenseMode.ofCode_none {b : Byte} (h : 4 < b.toNat) : SenseMode.ofCode b = none := by
  unfold SenseMode.ofCode
  split
  case h_6 => rfl
  all_goals omega

theorem SenseMode.ofCode_some {b : Byte} (h : ¬4 < b.toNat) :
    SenseMode.ofCode b = some (if b = 0 then .off else if b = 1 then .interval else if b = 2 then .highWidth
      else if b = 3 then .lowWidth else .trigger) := by
  have named : b = 0 ∨ b = 1 ∨ b = 2 ∨ b = 3 ∨ b = 4 := by bv_omega
  rcases named with rfl | rfl | rfl | rfl | rfl <;> rfl

theorem EdgeSelect.ofCode_none {b : Byte} (h : 2 < b.toNat) : EdgeSelect.ofCode b = none := by
  unfold EdgeSelect.ofCode
  split
  case h_4 => rfl
  all_goals omega

theorem EdgeSelect.ofCode_some {b : Byte} (h : ¬2 < b.toNat) :
    EdgeSelect.ofCode b = some (if b = 0 then .rising else if b = 1 then .falling else .both) := by
  have named : b = 0 ∨ b = 1 ∨ b = 2 := by bv_omega
  rcases named with rfl | rfl | rfl <;> rfl

theorem SenseMode.code_eq (m : SenseMode) :
    m.code = match m with | .off => 0 | .interval => 1 | .highWidth => 2 | .lowWidth => 3 | .trigger => 4 := by
  cases m <;> rfl

theorem EdgeSelect.code_eq (e : EdgeSelect) : e.code = match e with | .rising => 0 | .falling => 1 | .both => 2 := by
  cases e <;> rfl

theorem SensePhase.code_eq (p : SensePhase) :
    p.code = match p with
      | .off => 0 | .first => 1 | .counting => 2 | .waitStart => 3 | .measuring => 4 | .ready => 5 | .lockout => 6 := by
  cases p <;> rfl

theorem SenseMode.startingPhase_eq (m : SenseMode) :
    m.startingPhase = match m with
      | .off => .off | .interval => .first | .highWidth | .lowWidth => .waitStart | .trigger => .ready := by
  cases m <;> rfl

theorem ResultKind.code_eq (k : ResultKind) : k.code = match k with | .interval => 0 | .high => 1 | .low => 2 | .trigger => 3 := by
  cases k <;> rfl

/-- A log entry as it is returned, 11 bytes (Table 12-8). -/
theorem LogEntry.bytes_eq (e : LogEntry) :
    e.bytes = [byteOf e.input.val, match e.kind with | .interval => 0 | .high => 1 | .low => 2 | .trigger => 3,
        byteOf ((if e.isLong then 1 else 0) + if e.stamp = none then 0 else 2)]
      ++ bytes24 (e.count.getD 0) ++ bytes32 ((e.stamp.getD 0).extractLsb' 8 32) ++ [(e.stamp.getD 0).extractLsb' 0 8] := by
  have flags : ∀ long stamped : Bool, flagByte long ||| (if stamped then 2 else 0)
      = byteOf ((if long then 1 else 0) + if stamped then 2 else 0) := by decide
  have stamped : (if e.stamp.isSome then 2 else 0) = if e.stamp = none then 0 else 2 := by
    cases e.stamp <;> simp
  rw [LogEntry.bytes, flags, stamped, ResultKind.code_eq, bytes40, ← List.append_assoc]

/-- A setting of CONFIGURE SENSE out of its range (R149). -/
theorem configureSense_refused {m e k f t : Byte} (refused : 4 < m.toNat ∨ 2 < e.toNat ∨ 3 < k.toNat ∨ 15 < f.toNat ∨ 15 < t.toNat)
    (i : Fin 4) (l1 l0 : Byte) (n : Node) :
    configureSense i m e k f t l1 l0 n = ({ status := .outOfRange, data := n.sense.settingsData i }, n) := by
  unfold configureSense
  by_cases mode : 4 < m.toNat
  · rw [SenseMode.ofCode_none mode]
  · rw [SenseMode.ofCode_some mode]
    by_cases edge : 2 < e.toNat
    · rw [EdgeSelect.ofCode_none edge]
    · rw [EdgeSelect.ofCode_some edge]
      have rest := (refused.resolve_left mode).resolve_left edge
      exact if_pos (by simpa [or_assoc] using rest)

/-- The settings in range are written, and the input restarts (R149, R151). -/
theorem configureSense_written {m e k f t : Byte} (fits : ¬(4 < m.toNat ∨ 2 < e.toNat ∨ 3 < k.toNat ∨ 15 < f.toNat ∨ 15 < t.toNat))
    (i : Fin 4) (l1 l0 : Byte) (n : Node) :
    let mode : SenseMode :=
      if m = 0 then .off else if m = 1 then .interval else if m = 2 then .highWidth else if m = 3 then .lowWidth else .trigger
    let st : SenseSettings :=
      { mode := mode, edge := if e = 0 then .rising else if e = 1 then .falling else .both
        prescale := k.extractLsb' 0 2, filter := f.extractLsb' 0 4, triggers := t.extractLsb' 0 4, lockout := word16 l1 l0 }
    let c := { n.sense with inputs := n.sense.inputs.set i (.restarted st mode.startingPhase) }
    configureSense i m e k f t l1 l0 n = (.ok (c.settingsData i), { n with sense := c }) := by
  obtain ⟨mode, edge, rest⟩ : ¬4 < m.toNat ∧ ¬2 < e.toNat ∧ ¬(3 < k.toNat ∨ 15 < f.toNat ∨ 15 < t.toNat) := by
    simpa only [not_or] using fits
  unfold configureSense
  rw [SenseMode.ofCode_some mode, EdgeSelect.ofCode_some edge]
  exact if_neg (by simpa [or_assoc] using rest)

/-- What CONFIGURE SENSE reports of an input's settings (R149). -/
theorem Sense.settingsData_eq (c : Sense) (i : Fin 4) :
    let st := c.inputs[i].settings
    c.settingsData i =
      [byteOf i.val, match st.mode with | .off => 0 | .interval => 1 | .highWidth => 2 | .lowWidth => 3 | .trigger => 4,
        match st.edge with | .rising => 0 | .falling => 1 | .both => 2, st.prescale.setWidth 8, st.filter.setWidth 8,
        st.triggers.setWidth 8] ++ bytes16 st.lockout := by
  intro st
  rw [Sense.settingsData, SenseMode.code_eq, EdgeSelect.code_eq]

theorem toList_map_four {α β : Type} (v : Vector α 4) (f : α → β) : v.toList.map f = [f v[0], f v[1], f v[2], f v[3]] := by
  match v with
  | ⟨⟨[_, _, _, _]⟩, rfl⟩ => rfl

/-- Settles O48. -/
theorem senseCommandsConfigureAndRead : Obligations.SenseCommandsConfigureAndRead := by
  intro i b m e k f t l1 l0 s on u phaseCode data mode start settings restarted configure returned stored
  have report (c : Sense) : c.settingsData i = data c.inputs[i].settings := c.settingsData_eq i
  have row {p : List Byte} {reply : Reply} {n : Node} (run : cmdConfigureSense p s.node = (reply, n)) :=
    State.single_of on .configureSense (congrArg Executed.of run)
  refine ⟨fun high => ?unnamed, fun named => ⟨?query, ?write⟩, ?read⟩
  case unnamed =>
    refine ⟨row (reply := .outOfRange) ?_, row (reply := .outOfRange) ?_⟩
    all_goals simp only [cmdConfigureSense, groupNumber_none high]
  case query =>
    rw [← report]
    refine row (reply := .ok (u.settingsData i)) ?_
    simp only [cmdConfigureSense, groupNumber_some named]
    rfl
  case write =>
    have command : cmdConfigureSense [b, m, e, k, f, t, l1, l0] s.node = configureSense i m e k f t l1 l0 s.node := by
      simp only [cmdConfigureSense, groupNumber_some named]
    split
    case isTrue refused =>
      rw [← report]
      exact row (command.trans (configureSense_refused refused i l1 l0 s.node))
    case isFalse fits =>
      have lowK : k.setWidth 2 = k.extractLsb' 0 2 := BitVec.setWidth_eq_extractLsb' (by decide)
      have lowF : f.setWidth 4 = f.extractLsb' 0 4 := BitVec.setWidth_eq_extractLsb' (by decide)
      have lowT : t.setWidth 4 = t.extractLsb' 0 4 := BitVec.setWidth_eq_extractLsb' (by decide)
      have run := configureSense_written fits i l1 l0 s.node
      dsimp only at run
      rw [report, SenseMode.startingPhase_eq, ← lowK, ← lowF, ← lowT, Fin.getElem_fin, Vector.getElem_set_self] at run
      exact row (command.trans run)
  case read =>
    have zero : m = 0 ↔ m.toNat = 0 := BitVec.toNat_inj.symm
    have entries : LogEntry.bytes = stored := funext LogEntry.bytes_eq
    split
    case isTrue out =>
      rw [zero] at out
      have refused : cmdSenseRead [m] s.node = (.outOfRange, s.node) := if_pos (by simpa using out)
      exact State.single_of on .senseRead (congrArg Executed.of refused)
    case isFalse fits =>
      rw [zero] at fits
      have run : cmdSenseRead [m] s.node = _ := if_neg (by simpa using fits)
      dsimp only at run
      rw [toList_map_four, SensePhase.code_eq, SensePhase.code_eq, SensePhase.code_eq, SensePhase.code_eq, List.length_drop,
        entries] at run
      exact State.single_of on .senseRead (congrArg Executed.of run)

/-! ## Sample events and the filter (R150, R152) -/

theorem Input.raiseCount_counts {x : Input} (counts : x.phase = .counting ∨ x.phase = .measuring) :
    x.raiseCount = { x with count := if x.count.toNat = 16777215 then x.count else x.count + 1 } := by
  have longest : x.count ≠ longestCount ↔ ¬x.count.toNat = 16777215 := not_congr BitVec.toNat_inj.symm
  unfold Input.raiseCount
  by_cases top : x.count.toNat = 16777215
  · rw [if_neg (by simp [longest, top]), if_pos top]
  · rw [if_pos (by simp [longest, top, counts]), if_neg top]

theorem Input.raiseCount_rests {x : Input} (rests : ¬(x.phase = .counting ∨ x.phase = .measuring)) : x.raiseCount = x :=
  if_neg (by simp [not_or.1 rests])

theorem Input.raiseCount_same (x : Input) :
    x.raiseCount.phase = x.phase ∧ x.raiseCount.filtered = x.filtered ∧ x.raiseCount.run = x.run
      ∧ x.raiseCount.settings = x.settings := by
  unfold Input.raiseCount
  split <;> exact ⟨rfl, rfl, rfl, rfl⟩

/-! The filter (R150). -/

theorem Input.filter_unset {x : Input} (h : x.filtered = none) (raw : Bool) :
    x.filter raw = ({ x with filtered := some raw, run := 0 }, none) := by
  simp only [Input.filter, h]

theorem Input.filter_like {x : Input} {raw : Bool} (h : x.filtered = some raw) : x.filter raw = ({ x with run := 0 }, none) := by
  simp only [Input.filter, h, if_true]

theorem Input.filter_short {x : Input} {level raw : Bool} (h : x.filtered = some level) (differs : raw ≠ level)
    (short : ¬x.settings.filter.toNat ≤ x.run.toNat) : x.filter raw = ({ x with run := x.run + 1 }, none) := by
  simp only [Input.filter, h, differs, short, if_false]

theorem Input.filter_edge {x : Input} {level raw : Bool} (h : x.filtered = some level) (differs : raw ≠ level)
    (long : x.settings.filter.toNat ≤ x.run.toNat) :
    x.filter raw = ({ x with filtered := some raw, run := 0 }, some raw) := by
  simp only [Input.filter, h, differs, long, if_false, if_true]

/-- An input that changes and has no effect. -/
theorem Node.takeEdge_nothing (n : Node) (i : Fin 4) (x : Input) :
    n.takeEdge i x .nothing = { n with sense := { n.sense with inputs := n.sense.inputs.set i x } } := rfl

/-- A sample that is no edge changes its input only (R150). -/
theorem Node.sample_unedged {n : Node} {i : Fin 4} {raw : Bool} {y : Input} (active : n.sense.inputs[i].phase ≠ .off)
    (filtered : n.sense.inputs[i].raiseCount.filter raw = (y, none)) :
    n.sample i raw = { n with sense := { n.sense with inputs := n.sense.inputs.set i y } } := by
  unfold Node.sample
  refine (if_neg active).trans ?_
  dsimp only
  rw [filtered]
  rfl

/-- An edge of a set filtered level, at its sample event (R150, R153). -/
theorem Node.edgeTo_edge {n : Node} {i : Fin 4} {level : Bool} (active : n.sense.inputs[i].phase ≠ .off)
    (set : n.sense.inputs[i].filtered ≠ none) (differs : n.sense.inputs[i].filtered ≠ some level) :
    n.edgeTo i level = n.takeEdge i (({ n.sense.inputs[i].raiseCount with filtered := some level, run := 0 } : Input).edge level).1
      (({ n.sense.inputs[i].raiseCount with filtered := some level, run := 0 } : Input).edge level).2 :=
  (if_neg (by rw [Bool.or_eq_true, decide_eq_true_eq, decide_eq_true_eq]; exact not_or.2 ⟨active, differs⟩)).trans (if_neg set)

/-- A sample that passes the filter length is the edge it carries (R150). -/
theorem Node.sample_edge {n : Node} {i : Fin 4} {level raw : Bool} (active : n.sense.inputs[i].phase ≠ .off)
    (set : n.sense.inputs[i].filtered = some level) (differs : raw ≠ level)
    (long : n.sense.inputs[i].settings.filter.toNat ≤ n.sense.inputs[i].run.toNat) : n.sample i raw = n.edgeTo i raw := by
  obtain ⟨-, filtered, run, settings⟩ := n.sense.inputs[i].raiseCount_same
  have edge := Input.filter_edge (x := n.sense.inputs[i].raiseCount) (filtered.trans set) differs (by rw [settings, run]; exact long)
  rw [Node.edgeTo_edge active (by rw [set]; exact Option.some_ne_none _) (by rw [set]; exact fun same => differs (Option.some.inj same).symm)]
  unfold Node.sample
  refine (if_neg active).trans ?_
  dsimp only
  rw [edge]

/-- Settles O49. -/
theorem sampleEventCountsAndFilters : Obligations.SampleEventCountsAndFilters := by
  intro i raw s on u x y becomes
  have counted : x.raiseCount = y := by
    by_cases counts : x.phase = .counting ∨ x.phase = .measuring
    · exact (Input.raiseCount_counts counts).trans (if_pos counts).symm
    · exact (Input.raiseCount_rests counts).trans (if_neg counts).symm
  obtain ⟨-, filtered, run, settings⟩ := x.raiseCount_same
  rw [counted] at filtered run settings
  have quiet (active : x.phase ≠ .off) {z : Input} (h : y.filter raw = (z, none)) : exec (.sampleEvent i raw) s = becomes z := by
    rw [exec_on on]
    exact congrArg (fun n => Host.Outcome.next (s.withNode n)) (Node.sample_unedged active (counted ▸ h))
  split
  case isTrue off =>
    rw [exec_on on]
    exact congrArg (fun n => Host.Outcome.next (s.withNode n)) (if_pos off)
  case isFalse active =>
    split
    case isTrue unset => exact quiet active (Input.filter_unset (filtered.trans unset) raw)
    case isFalse set =>
      split
      case isTrue like => exact quiet active (Input.filter_like (filtered.trans like))
      case isFalse unlike =>
        obtain ⟨level, held⟩ := Option.ne_none_iff_exists'.1 set
        have differs : raw ≠ level := fun same => unlike (held.trans (congrArg some same.symm))
        split
        case isTrue short =>
          refine (quiet active (Input.filter_short (filtered.trans held) differs ?_)).trans ?_
          · rw [settings, run]
            omega
          · rw [run]
        case isFalse long =>
          have past : x.settings.filter.toNat ≤ x.run.toNat := by omega
          have same : s.node.sample i raw = s.node.edgeTo i raw := Node.sample_edge active held differs past
          rw [exec_on on, exec_on on]
          exact congrArg (fun n => Host.Outcome.next (s.withNode n)) same

end Sys2Proof.Machine

/-! PROOFS. Edges of the sense inputs by phase, and the end of a lockout (R153 to R158). -/

namespace Sys2Proof.Machine

-- One proof at a time: side by side, their threads' stacks pass the memory limit of a check.
set_option Elab.async false

/-! ## What an edge makes of its input, by phase (R153 to R156) -/

/-- The input that an edge leaves, its filtered level set and its run cleared. -/
def Input.edged (x : Input) (level : Bool) (phase : SensePhase) (count : BitVec 24) (timer : Nat) : Input :=
  { x with filtered := some level, run := 0, phase := phase, count := count, timer := timer }

/-- The input at an edge before its phase's rule is applied (R150, R152). -/
def Input.atEdge (x : Input) (level : Bool) : Input := { x.raiseCount with filtered := some level, run := 0 }

theorem Input.atEdge_rests {x : Input} (rests : ¬(x.phase = .counting ∨ x.phase = .measuring)) (level : Bool) :
    x.atEdge level = x.edged level x.phase x.count x.timer := by
  rw [Input.atEdge, Input.raiseCount_rests rests]
  rfl

theorem Input.atEdge_counts {x : Input} (counts : x.phase = .counting ∨ x.phase = .measuring) (level : Bool) :
    x.atEdge level = x.edged level x.phase (if x.count.toNat = 16777215 then x.count else x.count + 1) x.timer := by
  rw [Input.atEdge, Input.raiseCount_counts counts]
  rfl

theorem Input.edge_first {x : Input} (phase : x.phase = .first) (level : Bool) :
    (x.atEdge level).edge level =
      if x.settings.selects level then (x.edged level .counting 0 x.timer, .nothing)
      else (x.edged level .first x.count x.timer, .nothing) := by
  rw [Input.atEdge_rests (by simp [phase]), phase]
  rfl

theorem Input.edge_counting {x : Input} (phase : x.phase = .counting) (level : Bool) :
    let raised := if x.count.toNat = 16777215 then x.count else x.count + 1
    (x.atEdge level).edge level =
      if x.settings.selects level then
        (x.edged level .counting 0 x.timer, { result := some (.interval, some raised), triggers := 0 })
      else (x.edged level .counting raised x.timer, .nothing) := by
  rw [Input.atEdge_counts (.inl phase), phase]
  rfl

theorem Input.edge_waitStart {x : Input} (phase : x.phase = .waitStart) (level : Bool) :
    (x.atEdge level).edge level =
      if x.settings.startsWidth level then (x.edged level .measuring 0 x.timer, .nothing)
      else (x.edged level .waitStart x.count x.timer, .nothing) := by
  rw [Input.atEdge_rests (by simp [phase]), phase]
  rfl

theorem Input.edge_measuring {x : Input} (phase : x.phase = .measuring) (level : Bool) :
    let raised := if x.count.toNat = 16777215 then x.count else x.count + 1
    (x.atEdge level).edge level =
      if x.settings.closesWidth level then
        (x.edged level .waitStart raised x.timer, { result := some (x.settings.widthKind, some raised), triggers := 0 })
      else (x.edged level .measuring raised x.timer, .nothing) := by
  rw [Input.atEdge_counts (.inr phase), phase]
  rfl

theorem Input.edge_ready {x : Input} (phase : x.phase = .ready) (level : Bool) :
    (x.atEdge level).edge level =
      if x.settings.selects level then
        (if x.settings.lockout = 0 then x.edged level .ready x.count x.timer else x.edged level .lockout x.count 0,
          { result := some (.trigger, none), triggers := x.settings.triggers })
      else (x.edged level .ready x.count x.timer, .nothing) := by
  rw [Input.atEdge_rests (by simp [phase]), phase]
  rfl

theorem Input.edge_lockout {x : Input} (phase : x.phase = .lockout) (level : Bool) :
    (x.atEdge level).edge level = (x.edged level .lockout x.count x.timer, .nothing) := by
  rw [Input.atEdge_rests (by simp [phase]), phase]
  rfl

/-! The modes that measure a width (Table 8-3, R154). -/

theorem Input.width_of_phase {x : Input} (sound : x.Sound) (phase : x.phase = .waitStart ∨ x.phase = .measuring) :
    x.settings.mode = .highWidth ∨ x.settings.mode = .lowWidth := by
  obtain ⟨suits, -, -, -⟩ := sound
  rcases phase with phase | phase <;> cases mode : x.settings.mode <;> simp_all [SenseMode.hasPhase]

theorem SenseSettings.width_edges {st : SenseSettings} (width : st.mode = .highWidth ∨ st.mode = .lowWidth) (level : Bool) :
    (st.startsWidth level = true ↔ level = decide (st.mode = .highWidth))
      ∧ (st.closesWidth level = true ↔ ¬level = decide (st.mode = .highWidth))
      ∧ st.widthKind = if st.mode = .highWidth then .high else .low := by
  unfold SenseSettings.startsWidth SenseSettings.closesWidth SenseSettings.widthKind
  rcases width with mode | mode <;> rw [mode] <;> cases level <;> simp

theorem SenseSettings.selects_eq (st : SenseSettings) (level : Bool) :
    st.selects level = match st.edge with
      | .rising => level
      | .falling => !level
      | .both => true := by
  unfold SenseSettings.selects
  cases st.edge <;> rfl

/-! ## Its effect on the log and the outputs (R155, R157, R158) -/

/-- An entry joins the log; the oldest of 16 is lost and counted first (R157, R158). -/
theorem Node.takeEdge_logs (n : Node) (i : Fin 4) (x : Input) (kind : ResultKind) (count : Option (BitVec 24)) (triggers : BitVec 4) :
    let u := n.sense
    let entry : LogEntry :=
      { input := i, kind := kind, count := count, isLong := decide (count = some 0xFFFFFF)
        stamp := if n.sched.time = .valid then some (n.sched.tick ++ n.sched.sub) else none }
    n.takeEdge i x { result := some (kind, count), triggers := triggers } =
      { n with
        sense :=
          if u.log.length < 16 then { u with inputs := u.inputs.set i x, log := u.log ++ [entry] }
          else { u with inputs := u.inputs.set i x, log := u.log.tail ++ [entry], losses := raiseCounter u.losses }
        out := n.out.fires fun g => triggers.getLsbD g } := by
  intro u entry
  have stamp : n.sched.stamp = if n.sched.time = .valid then some (n.sched.tick ++ n.sched.sub) else none := by
    unfold Schedule.stamp
    cases n.sched.time <;> rfl
  unfold Node.takeEdge
  rw [Output.trigger_groupsNamed]
  dsimp only
  rw [logEntryOf, stamp, Sense.append, List.drop_one]
  rfl

/-- The empty trigger set leaves the outputs (R133). -/
theorem Output.fires_none (o : Output) : (o.fires fun g => (0 : BitVec 4).getLsbD g) = o := by
  rw [← Output.trigger_groupsNamed, show groupsNamed 0 = [] from rfl, List.foldl_nil]

/-- Settles O50: the rule of each phase, and the log and the outputs after it. -/
theorem edgesActByPhaseAndLockoutsEnd : Obligations.EdgesActByPhaseAndLockoutsEnd := by
  intro i level s on n u x raised selected becomes logged goes
  constructor
  · intro sound
    have takes : exec (.senseEdge i level) s = .next (s.withNode (n.edgeTo i level)) := exec_on on (.senseEdge i level)
    split
    case isTrue still =>
      have stays : n.edgeTo i level = n := if_pos (by rw [Bool.or_eq_true, decide_eq_true_eq, decide_eq_true_eq]; exact still)
      rw [takes, stays]
    case isFalse moves =>
      obtain ⟨active, differs⟩ := not_or.1 moves
      split
      case isTrue unset =>
        have samples : n.edgeTo i level = n.sample i level :=
          (if_neg (by rw [Bool.or_eq_true, decide_eq_true_eq, decide_eq_true_eq]; exact moves)).trans (if_pos unset)
        rw [takes, samples]
        exact (exec_on on (.sampleEvent i level)).symm
      case isFalse set =>
        have selects : x.settings.selects level = selected := x.settings.selects_eq level
        have quiet {phase : SensePhase} {count : BitVec 24} {timer : Nat}
            (edge : (x.atEdge level).edge level = (x.edged level phase count timer, .nothing)) :
            exec (.senseEdge i level) s = goes (becomes phase count timer) := by
          rw [takes, Node.edgeTo_edge active set differs]
          refine (congrArg (fun z : Input × EdgeEffect => Host.Outcome.next (s.withNode (n.takeEdge i z.1 z.2))) edge).trans ?_
          exact congrArg (fun m => Host.Outcome.next (s.withNode m)) (n.takeEdge_nothing i (x.edged level phase count timer))
        have loud {y : Input} {kind : ResultKind} {count : Option (BitVec 24)} {triggers : BitVec 4}
            (edge : (x.atEdge level).edge level = (y, { result := some (kind, count), triggers := triggers })) :
            exec (.senseEdge i level) s = .next (s.withNode { n with
              sense := logged { u with inputs := u.inputs.set i y } kind count
              out := n.out.fires fun g => triggers.getLsbD g }) := by
          rw [takes, Node.edgeTo_edge active set differs]
          refine (congrArg (fun z : Input × EdgeEffect => Host.Outcome.next (s.withNode (n.takeEdge i z.1 z.2))) edge).trans ?_
          exact congrArg (fun m => Host.Outcome.next (s.withNode m)) (n.takeEdge_logs i y kind count triggers)
        have measured {phase : SensePhase} {count result : BitVec 24} {timer : Nat} {kind : ResultKind}
            (edge : (x.atEdge level).edge level
              = (x.edged level phase count timer, { result := some (kind, some result), triggers := 0 })) :
            exec (.senseEdge i level) s = goes (logged (becomes phase count timer) kind (some result)) := by
          have run := loud edge
          rw [Output.fires_none] at run
          exact run
        split
        case h_1 phase => exact absurd phase active
        case h_2 phase =>
          have edge := Input.edge_first phase level
          rw [selects] at edge
          split
          case isTrue hit => exact quiet (edge.trans (if_pos hit))
          case isFalse miss => exact quiet (edge.trans (if_neg miss))
        case h_3 phase =>
          have edge := Input.edge_counting phase level
          rw [selects] at edge
          split
          case isTrue hit => exact measured (edge.trans (if_pos hit))
          case isFalse miss => exact quiet (edge.trans (if_neg miss))
        case h_4 phase =>
          obtain ⟨starts, -, -⟩ := SenseSettings.width_edges (Input.width_of_phase sound (.inl phase)) level
          have edge := Input.edge_waitStart phase level
          split
          case isTrue hit => exact quiet (edge.trans (if_pos (starts.2 hit)))
          case isFalse miss => exact quiet (edge.trans (if_neg (mt starts.1 miss)))
        case h_5 phase =>
          obtain ⟨-, closes, kind⟩ := SenseSettings.width_edges (Input.width_of_phase sound (.inr phase)) level
          have edge := Input.edge_measuring phase level
          split
          case isTrue opens => exact quiet (edge.trans (if_neg fun h => closes.1 h opens))
          case isFalse closing =>
            rw [kind] at edge
            exact measured (edge.trans (if_pos (closes.2 closing)))
        case h_6 phase =>
          have edge := Input.edge_ready phase level
          rw [selects] at edge
          split
          case isTrue hit =>
            refine (loud (edge.trans (if_pos hit))).trans ?_
            split <;> rfl
          case isFalse miss => exact quiet (edge.trans (if_neg miss))
        case h_7 phase => exact quiet (Input.edge_lockout phase level)
  · have ends : exec (.lockoutEnd i) s = goes (u.endLockout i) := exec_on on (.lockoutEnd i)
    rw [ends, Sense.endLockout]
    split <;> rfl

end Sys2Proof.Machine

/-! PROOFS. Destination matching (R26), notices (R164, R165, R187), the supervision timers and RECOVER (R181 to R185), the frames
of the D return lane and the arbiter (R167 to R172). -/

namespace Sys2Proof.Machine

-- One proof at a time: side by side, their threads' stacks pass the memory limit of a check.
set_option Elab.async false

/-! ## Destination matching (R26, R38, Table 2-2) -/

theorem destMode_quotient (dest : BitVec 16) : (dest.extractLsb' 14 2).toNat = dest.toNat / 16384 := by
  rw [BitVec.extractLsb'_toNat, Nat.shiftRight_eq_div_pow]
  have bound := dest.isLt
  omega

theorem destMode_node {dest : BitVec 16} (h : dest.toNat / 16384 = 0) : destMode dest = .node := by
  simp only [destMode, destMode_quotient, h]

theorem destMode_group {dest : BitVec 16} (h : dest.toNat / 16384 = 1) : destMode dest = .group := by
  simp only [destMode, destMode_quotient, h]

theorem destMode_all {dest : BitVec 16} (h : dest.toNat / 16384 = 2) : destMode dest = .all := by
  simp only [destMode, destMode_quotient, h]

theorem destMode_nobody {dest : BitVec 16} (h : dest.toNat / 16384 = 3) : destMode dest = .nobody := by
  simp only [destMode, destMode_quotient, h]

theorem destValue_eq (dest : BitVec 16) : destValue dest = dest.toNat % 16384 := by
  rw [destValue, BitVec.extractLsb'_toNat, Nat.shiftRight_zero]

theorem Forwarding.matchesDest_node {f : Forwarding} {dest : BitVec 16} (mode : dest.toNat / 16384 = 0) :
    f.matchesDest dest = true ↔ dest.toNat % 16384 = f.address.toNat ∧ f.address ≠ 0 := by
  have zero : f.address ≠ 0 ↔ f.address.toNat ≠ 0 := not_congr BitVec.toNat_inj.symm
  rw [zero]
  simp only [Forwarding.matchesDest, destMode_node mode, destValue_eq, Bool.and_eq_true, decide_eq_true_eq]
  exact and_comm

theorem Forwarding.matchesDest_group {f : Forwarding} {dest : BitVec 16} (sound : f.Sound) (mode : dest.toNat / 16384 = 1) :
    f.matchesDest dest = true ↔ ∃ g ∈ f.groups, g.toNat = dest.toNat % 16384 := by
  obtain ⟨-, -, nonzero⟩ := sound
  simp only [Forwarding.matchesDest, destMode_group mode, destValue_eq, Bool.and_eq_true, decide_eq_true_eq, List.contains_iff_mem]
  constructor
  · rintro ⟨⟨-, small⟩, member⟩
    exact ⟨_, member, Nat.mod_eq_of_lt (by omega)⟩
  · rintro ⟨g, member, same⟩
    have bound := g.isLt
    have positive : g.toNat ≠ 0 := fun zero => nonzero g member (BitVec.eq_of_toNat_eq zero)
    refine ⟨⟨by omega, by omega⟩, ?_⟩
    rw [← same]
    simpa [byteOf] using member

/-- Settles O60. -/
theorem destinationMatchesByItsMode : Obligations.DestinationMatchesByItsMode := by
  intro f dest sound mode value
  refine ⟨Forwarding.matchesDest_node, fun node outside => ?_, Forwarding.matchesDest_group sound, fun group outside => ?_,
    fun all => ?_, fun nobody => ?_⟩
  · refine Bool.eq_false_iff.2 fun hit => ?_
    obtain ⟨same, nonzero⟩ := (Forwarding.matchesDest_node node).1 hit
    have bound := f.address.isLt
    have positive : f.address.toNat ≠ 0 := fun zero => nonzero (BitVec.eq_of_toNat_eq zero)
    omega
  · refine Bool.eq_false_iff.2 fun hit => ?_
    obtain ⟨g, member, same⟩ := (Forwarding.matchesDest_group sound group).1 hit
    obtain ⟨-, -, nonzero⟩ := sound
    have bound := g.isLt
    have positive : g.toNat ≠ 0 := fun zero => nonzero g member (BitVec.eq_of_toNat_eq zero)
    omega
  · simp only [Forwarding.matchesDest, destMode_all all]
  · simp only [Forwarding.matchesDest, destMode_nobody nobody]

/-! ## Notices (R164, R165, R187) -/

theorem SupState.code_eq (x : SupState) : x.code = match x with | .start => 0 | .normal => 1 | .holdover => 2 | .failsafe => 3 := by
  cases x <;> rfl

/-- A category's code and its bit in the enable set are one number (R166). -/
theorem Category.code_bit (c : Category) : c.code = byteOf c.bit := by
  cases c <;> rfl

theorem ReturnUnit.notice_eq (r : ReturnUnit) (address : BitVec 10) (category : Category) (data : List Byte) :
    r.notice address category data =
      if address = 0 ∨ r.enable.getLsbD category.bit = false then r
      else if r.localQ.length < 8 then r.enqueue (noticeFrame address category data)
      else { r with noticeLosses := raiseCounter r.noticeLosses } := by
  have generated : r.generates address category = true ↔ ¬(address = 0 ∨ r.enable.getLsbD category.bit = false) := by
    simp [ReturnUnit.generates, and_comm]
  unfold ReturnUnit.notice
  by_cases held : address = 0 ∨ r.enable.getLsbD category.bit = false
  · rw [if_pos held, if_neg fun h => generated.1 h held]
  · rw [if_neg held, if_pos (generated.2 held)]
    by_cases free : r.localQ.length < 8
    · rw [if_pos free, if_pos ((ReturnUnit.hasFree_iff r).2 free)]
    · rw [if_neg free, if_neg (mt (ReturnUnit.hasFree_iff r).1 free)]

/-- Settles O51. -/
theorem noticeIsDiscardedQueuedOrLost : Obligations.NoticeIsDiscardedQueuedOrLost := by
  intro r address category data change step code supCode frame
  have bit : category.bit = code := by cases category <;> rfl
  have sent : noticeFrame address category data = frame := by rw [noticeFrame, Category.code_bit, bit]; rfl
  refine ⟨?_, ?_, rfl⟩
  · rw [ReturnUnit.notice_eq, bit, sent]
    rfl
  · exact congrArg₂ (fun x y => r.notice address .supervision [x, y]) (SupState.code_eq _) (SupState.code_eq _)

/-! ## The supervision timers and RECOVER (R181 to R185) -/

/-- The output engine's part in failsafe entry (R143): a level to every channel, then a wrap or a stop of every group. -/
theorem Output.enterFailsafe_eq (o : Output) (table : Vector FsEntry 16) :
    let offered : Output := { o with
      chans := .ofFn fun c => { o.chans[c] with
          stagedLevel := (match table[c].kind with
            | .off => 0
            | .hold => o.chans[c].lastActive
            | .level => table[c].level)
          pendingFlag := true
          origin := .failsafe } }
    o.enterFailsafe table =
      (offered.loads fun g => if o.groups[g].state = .running then some .running else none).stops
        fun g => o.groups[g].state = .armed || o.groups[g].state = .delay || o.groups[g].state = .pulse := by
  intro offered
  have offers : o.offer true .failsafe (o.failsafeLevels table) = offered := by
    rw [Output.offer_taken rfl]
    refine congrArg (fun v => ({ o with chans := v } : Output)) ?_
    ext c hc : 1
    simp only [Vector.getElem_ofFn, Output.failsafeLevels, Fin.getElem_fin, Vector.getElem_mapIdx, Vector.getElem?_toList,
      Vector.getElem?_eq_getElem hc, Option.map_some, FsEntry.offered] <;> rfl
  exact (congrArg (allGroups.foldl Output.failsafeGroup) offers).trans offered.failsafeGroup_all

theorem Schedule.enterFailsafe_eq (q : Schedule) :
    q.enterFailsafe = { q with
      queue := [], time := .invalid, flushes := if q.queue = [] then q.flushes else raiseCounter q.flushes } := rfl

theorem Node.holdoverExpiry_running {n : Node} (holdover : n.sup.state = .holdover) (running : n.sup.holdTimer ≠ none) :
    n.holdoverExpiry = if n.sup.failsafeOn then n.enterFailsafe else { n with sup := { n.sup with holdTimer := none } } :=
  if_pos (by simpa [holdover, Option.isSome_iff_ne_none] using running)

theorem Node.holdoverExpiry_still {n : Node} (still : ¬(n.sup.state = .holdover ∧ n.sup.holdTimer ≠ none)) : n.holdoverExpiry = n :=
  if_neg (by simpa [Option.isSome_iff_ne_none] using still)

/-- The node in HOLDOVER, its holdover timer started and the change handed over (R181, R187). -/
def Node.heldOver (n : Node) : Node :=
  ({ n with sup := { n.sup with
      state := .holdover, supTimer := none, holdTimer := some { elapsed := 0, duration := n.sup.holdover.toNat } } } : Node).supNotices
    [{ before := .normal, after := .holdover }]

theorem Node.supervisionExpiry_normal {n : Node} (running : n.sup.supTimer ≠ none) (normal : n.sup.state = .normal) :
    n.supervisionExpiry = if n.sup.holdover = 0 then n.heldOver.holdoverExpiry else n.heldOver := by
  refine (if_pos (Option.isSome_iff_ne_none.2 running)).trans ?_
  rw [normal]
  rfl

theorem Node.supervisionExpiry_failsafe {n : Node} (running : n.sup.supTimer ≠ none) (failsafe : n.sup.state = .failsafe) :
    n.supervisionExpiry = { n with sup := { n.sup with supTimer := none, recovery := 0 } } := by
  refine (if_pos (Option.isSome_iff_ne_none.2 running)).trans ?_
  rw [failsafe]

theorem Node.supervisionExpiry_still {n : Node} (still : n.sup.supTimer = none ∨ n.sup.state = .start ∨ n.sup.state = .holdover) :
    n.supervisionExpiry = n := by
  unfold Node.supervisionExpiry
  split
  case isTrue running =>
    rcases still with none | start | holdover
    · exact absurd none (Option.isSome_iff_ne_none.1 running)
    · rw [start]
    · rw [holdover]
  case isFalse => rfl

/-- RECOVER in FAILSAFE (R185). -/
theorem cmdRecover_failsafe {n : Node} (failsafe : n.sup.state = .failsafe) :
    cmdRecover [] n =
      (.ok [SupState.normal.code, n.sup.recovery.setWidth 8],
        ({ n with sup := { n.sup.startWindow with state := .normal, recovery := 0 } } : Node).supNotices
          [{ before := .failsafe, after := .normal }]) := if_pos (decide_eq_true failsafe)

theorem cmdRecover_wrongState {n : Node} (awake : n.sup.state ≠ .failsafe) :
    cmdRecover [] n = ({ status := .wrongState, data := [n.sup.state.code, n.sup.recovery.setWidth 8] }, n) :=
  if_neg fun h => awake (of_decide_eq_true h)

/-- Settles O52. -/
theorem timersExpireAndRecoverEndsFailsafe : Obligations.TimersExpireAndRecoverEndsFailsafe := by
  intro s on n u supCode notified offered wrapped stopped failsafe held
  have outputs : n.out.enterFailsafe n.tables.failsafe = stopped := n.out.enterFailsafe_eq n.tables.failsafe
  have enters (m : Node) (sup : { m.sup with state := .failsafe, supTimer := none, holdTimer := none, recovery := 0 }
        = { u with state := .failsafe, supTimer := none, holdTimer := none, recovery := 0 })
      (out : m.out = n.out) (tables : m.tables = n.tables) (sched : m.sched = n.sched) : m.enterFailsafe = failsafe m := by
    have leaves : m.out.enterFailsafe m.tables.failsafe = stopped := by
      rw [out, tables]
      exact outputs
    rw [Node.enterFailsafe, leaves, sched, sup]
    rfl
  refine ⟨?holdover, ?supervision, ?recover⟩
  case holdover =>
    rw [exec_on on]
    split
    case isTrue runs =>
      obtain ⟨holdover, running⟩ := runs
      refine congrArg (fun m => Host.Outcome.next (s.withNode m)) ((Node.holdoverExpiry_running holdover running).trans ?_)
      rw [enters n rfl rfl rfl rfl]
    case isFalse still => exact congrArg (fun m => Host.Outcome.next (s.withNode m)) (Node.holdoverExpiry_still still)
  case supervision =>
    have expires {m : Node} (h : n.supervisionExpiry = m) : exec .supervisionTimerExpiry s = .next (s.withNode m) :=
      (exec_on on .supervisionTimerExpiry).trans (congrArg (fun m => Host.Outcome.next (s.withNode m)) h)
    split
    case isTrue none => exact expires (Node.supervisionExpiry_still (.inl none))
    case isFalse running =>
      split
      case h_1 normal =>
        have moves := Node.supervisionExpiry_normal running normal
        have expiry : held.holdoverExpiry = if u.failsafeOn then failsafe held
            else { held with sup := { u with state := .holdover, supTimer := none, holdTimer := none } } := by
          refine (Node.holdoverExpiry_running (n := held) rfl (Option.some_ne_none _)).trans ?_
          rw [enters held rfl rfl rfl rfl]
        split
        case isTrue nonzero => exact expires (moves.trans (if_neg nonzero))
        case isFalse zero =>
          rw [← expiry]
          exact expires (moves.trans (if_pos (not_not.1 zero)))
      case h_2 failsafe => exact expires (Node.supervisionExpiry_failsafe running failsafe)
      case h_3 start => exact expires (Node.supervisionExpiry_still (.inr (.inl start)))
      case h_4 holdover => exact expires (Node.supervisionExpiry_still (.inr (.inr holdover)))
  case recover =>
    split
    case isTrue failsafe => exact State.single_of on .recover (congrArg Executed.of (cmdRecover_failsafe failsafe))
    case isFalse awake =>
      have code : u.state.code = supCode u.state := SupState.code_eq u.state
      rw [← code]
      exact State.single_of on .recover (congrArg Executed.of (cmdRecover_wrongState awake))

/-! ## Frames of the D return lane (R169, Table 9-5) -/

/-- The length field is the last two of the eight header bytes (Table 12-2). -/
theorem lengthField_toList (hdr : Vector Byte 8) : lengthField hdr.toList = 256 * (hdr[6]).toNat + (hdr[7]).toNat := by
  match hdr with
  | ⟨⟨[_, _, _, _, _, _, high, low]⟩, rfl⟩ => exact word16_toNat high low

/-- How a frame ends on the D return lane (Table 9-5). -/
theorem returnOutcome_aborted {f : ReturnEnd}
    (h : f.whole = false ∨ 1024 < lengthField f.hdr.toList ∨ f.payload.length ≠ lengthField f.hdr.toList) :
    returnOutcome f = .aborted :=
  if_pos (by simp only [Bool.or_eq_true, Bool.not_eq_true', decide_eq_true_eq, or_assoc]; exact h)

theorem returnOutcome_complete {f : ReturnEnd}
    (h : ¬(f.whole = false ∨ 1024 < lengthField f.hdr.toList ∨ f.payload.length ≠ lengthField f.hdr.toList)) :
    returnOutcome f = if f.check ≠ checkValue (f.hdr.toList ++ f.payload) then .checkError
      else .accepted f.hdr.toList f.payload f.check := by
  obtain ⟨whole, fits, length⟩ : ¬f.whole = false ∧ ¬1024 < lengthField f.hdr.toList ∧ ¬f.payload.length ≠ lengthField f.hdr.toList := by
    simpa only [not_or] using h
  have same : f.payload.length = lengthField f.hdr.toList := not_not.1 length
  exact returnOutcome_whole (Bool.eq_true_of_not_eq_false whole) same (by omega)

/-- Settles O53: the outcomes of Table 9-5. -/
theorem returnFrameIsRelayedOrCounted : Obligations.ReturnFrameIsRelayedOrCounted := by
  intro f s on r length ends
  have field : lengthField f.hdr.toList = length := lengthField_toList f.hdr
  have row {o : ReturnOutcome} (outcome : returnOutcome f = o) :
      exec (.returnFrameReceived f) s = .next (s.withNode (s.node.endD o)) := by
    rw [← outcome]
    exact exec_on on (.returnFrameReceived f)
  by_cases broken : f.whole = false ∨ 1024 < length ∨ f.payload.length ≠ length
  · have counted : f.whole = false ∨ 1024 < length ∨ f.payload.length ≠ length ∨ f.check ≠ checkValue (f.hdr.toList ++ f.payload) :=
      broken.imp_right (Or.imp_right .inl)
    rw [if_pos counted]
    exact row (returnOutcome_aborted (field ▸ broken))
  · have complete := returnOutcome_complete (field.symm ▸ broken)
    by_cases wrong : f.check ≠ checkValue (f.hdr.toList ++ f.payload)
    · rw [if_pos (.inr (.inr (.inr wrong)))]
      exact row (complete.trans (if_pos wrong))
    · have genuine : ¬(f.whole = false ∨ 1024 < length ∨ f.payload.length ≠ length ∨ f.check ≠ checkValue (f.hdr.toList ++ f.payload)) := by
        simp only [not_or] at broken ⊢
        exact ⟨broken.1, broken.2.1, broken.2.2, wrong⟩
      rw [if_neg genuine, row (complete.trans (if_neg wrong)), Node.endD, ReturnUnit.receive]
      have room : (lengthField f.hdr.toList ≤ Config.maxRelayPayload && s.node.ret.relayQ.length < Config.relayCapacity) = true
          ↔ length ≤ 256 ∧ r.relayQ.length < 4 := by
        rw [field, Bool.and_eq_true, decide_eq_true_eq, decide_eq_true_eq]
        exact Iff.rfl
      by_cases relayed : length ≤ 256 ∧ r.relayQ.length < 4
      · rw [if_pos relayed, if_pos (room.2 relayed)]
      · rw [if_neg relayed, if_neg (mt room.1 relayed)]

/-! ## The arbiter (R167, R170 to R172, Table 9-6) -/

theorem ReturnUnit.waiting_local (r : ReturnUnit) : r.waiting .localQueue = true ↔ ∃ e ∈ r.localQ, e.sending = false := by
  simp [ReturnUnit.waiting]

theorem ReturnUnit.waiting_relay (r : ReturnUnit) : r.waiting .relayQueue = true ↔ ∃ e ∈ r.relayQ, e.sending = false := by
  simp [ReturnUnit.waiting]

theorem markLocal_oldest {sent rest : List LocalEntry} {e : LocalEntry} (marked : ∀ x ∈ sent, x.sending = true)
    (waits : e.sending = false) : markLocal (sent ++ e :: rest) = sent ++ { e with sending := true } :: rest := by
  induction sent with
  | nil => simp [markLocal, waits]
  | cons x sent ih => simp [markLocal, marked x (by simp), ih fun y m => marked y (by simp [m])]

theorem markRelay_oldest {sent rest : List RelayEntry} {e : RelayEntry} (marked : ∀ x ∈ sent, x.sending = true)
    (waits : e.sending = false) : markRelay (sent ++ e :: rest) = sent ++ { e with sending := true } :: rest := by
  induction sent with
  | nil => simp [markRelay, waits]
  | cons x sent ih => simp [markRelay, marked x (by simp), ih fun y m => marked y (by simp [m])]

theorem find?_oldest {α : Type} {sending : α → Bool} {sent rest : List α} {e : α} (marked : ∀ x ∈ sent, sending x = true)
    (waits : sending e = false) : (sent ++ e :: rest).find? (fun x => !sending x) = some e := by
  rw [List.find?_append, List.find?_eq_none.2 fun x m => by simp [marked x m]]
  simp [waits]

/-- The arbiter's choice (Table 9-6). -/
theorem ReturnUnit.choice_none {r : ReturnUnit} (noLocal : ¬∃ e ∈ r.localQ, e.sending = false)
    (noRelay : ¬∃ e ∈ r.relayQ, e.sending = false) : r.choice = none := by
  have first : r.waiting .localQueue = false := Bool.eq_false_iff.2 (mt r.waiting_local.1 noLocal)
  have second : r.waiting .relayQueue = false := Bool.eq_false_iff.2 (mt r.waiting_relay.1 noRelay)
  simp only [ReturnUnit.choice, first, second]

theorem ReturnUnit.choice_local {r : ReturnUnit} (waits : ∃ e ∈ r.localQ, e.sending = false)
    (turn : (¬∃ e ∈ r.relayQ, e.sending = false) ∨ r.lastServed = .relayQueue) : r.choice = some .localQueue := by
  have first := r.waiting_local.2 waits
  unfold ReturnUnit.choice
  rw [first]
  cases second : r.waiting .relayQueue with
  | false => rfl
  | true =>
    have last := turn.resolve_left (not_not_intro (r.waiting_relay.1 second))
    simp [last]

theorem ReturnUnit.choice_relay {r : ReturnUnit} (waits : ∃ e ∈ r.relayQ, e.sending = false)
    (turn : (¬∃ e ∈ r.localQ, e.sending = false) ∨ r.lastServed = .localQueue) : r.choice = some .relayQueue := by
  have second := r.waiting_relay.2 waits
  unfold ReturnUnit.choice
  rw [second]
  cases first : r.waiting .localQueue with
  | false => rfl
  | true =>
    have last := turn.resolve_left (not_not_intro (r.waiting_local.1 first))
    simp [last]

theorem ReturnUnit.choice_isSome {r : ReturnUnit} :
    r.choice.isSome = true ↔ (∃ e ∈ r.localQ, e.sending = false) ∨ ∃ e ∈ r.relayQ, e.sending = false := by
  rw [← r.waiting_local, ← r.waiting_relay]
  unfold ReturnUnit.choice
  cases r.waiting .localQueue <;> cases r.waiting .relayQueue <;> simp

/-- A free boundary of the U return transmitter (R171). -/
theorem Node.arbitrate_free {n : Node} (awake : n.link.retTx.state ≠ .held) (free : n.link.retTx.current = none) :
    n.arbitrate =
      match n.ret.choice with
      | none => { n with link := { n.link with retTx := { state := .idling, current := none } } }
      | some q =>
        { n with
          link := { n.link with retTx := { state := .sending, current := n.ret.handed q } }
          ret := n.ret.serve q } :=
  if_neg (by simp [awake, free])

theorem Node.arbitrate_busy {n : Node} (busy : n.link.retTx.state = .held ∨ n.link.retTx.current ≠ none) : n.arbitrate = n :=
  if_pos (by simpa [Option.isSome_iff_ne_none] using busy)

/-- Settles O54. -/
theorem arbiterServesOldestAndAlternates : Obligations.ArbiterServesOldestAndAlternates := by
  intro s on n r waitsL waitsR sends
  have selects {m : Node} (h : n.arbitrate = m) : exec .arbiterSelect s = .next (s.withNode m) :=
    (exec_on on .arbiterSelect).trans (congrArg (fun m => Host.Outcome.next (s.withNode m)) h)
  have ends {m : Node} (h : n.endReturnFrame = m) : exec .returnFrameSent s = .next (s.withNode m) :=
    (exec_on on .returnFrameSent).trans (congrArg (fun m => Host.Outcome.next (s.withNode m)) h)
  refine ⟨fun busy => selects (Node.arbitrate_busy busy), fun awake free => ⟨?none, ?localQueue, ?relayQueue⟩, ?idle, ?sent⟩
  case none =>
    intro noLocal noRelay
    have arbitrated := Node.arbitrate_free awake free
    rw [ReturnUnit.choice_none noLocal noRelay] at arbitrated
    exact selects arbitrated
  case localQueue =>
    intro sent e rest queue marked waits turn
    have chosen := ReturnUnit.choice_local (r := r) ⟨e, by rw [queue]; simp, waits⟩ turn
    have arbitrated := Node.arbitrate_free awake free
    rw [chosen] at arbitrated
    dsimp only [ReturnUnit.handed, ReturnUnit.serve] at arbitrated
    rw [show n.ret.localQ = sent ++ e :: rest from queue, markLocal_oldest marked waits,
      find?_oldest (sending := LocalEntry.sending) marked waits] at arbitrated
    exact selects arbitrated
  case relayQueue =>
    intro sent e rest queue marked waits turn
    have chosen := ReturnUnit.choice_relay (r := r) ⟨e, by rw [queue]; simp, waits⟩ turn
    have arbitrated := Node.arbitrate_free awake free
    rw [chosen] at arbitrated
    dsimp only [ReturnUnit.handed, ReturnUnit.serve] at arbitrated
    rw [show n.ret.relayQ = sent ++ e :: rest from queue, markRelay_oldest marked waits,
      find?_oldest (sending := RelayEntry.sending) marked waits] at arbitrated
    exact selects arbitrated
  case idle =>
    intro free
    refine ends ?_
    unfold Node.endReturnFrame
    rw [free]
  case sent =>
    intro w current freed more
    have release : n.ret.release w.queue = freed := by
      unfold ReturnUnit.release
      cases queue : w.queue <;> simp only [freed, queue] <;> rfl
    have done : n.endReturnFrame = { n with
        ret := freed
        link := { n.link with retTx := { state := if freed.choice.isSome then .sending else .idling, current := none } } } := by
      rw [← release]
      unfold Node.endReturnFrame
      rw [current]
    refine ⟨_, ends done, fun waiting => if_pos (ReturnUnit.choice_isSome.2 waiting), fun none => if_neg (mt ReturnUnit.choice_isSome.1 none)⟩

end Sys2Proof.Machine

/-! PROOFS. One clock period event by event: what runs, and the rows that are due, in their order (R6, R79, R115, R125, R150, R156,
R171, R172, R176, R181, R182, R192). -/

namespace Sys2Proof.Machine

-- One proof at a time: side by side, their threads' stacks pass the memory limit of a check.
set_option Elab.async false

/-! ## A row that is taken when it is due -/

theorem State.takes_withNode (s : State) {n : Node} (low : n.link.resetLow = false) (due : Bool) (c : Instr) :
    (s.withNode n).takes due c = s.withNode (if due then c.effect n else n) := by
  have runs : exec c (s.withNode n) = .next (s.withNode (c.effect n)) := exec_on (s := s.withNode n) low c
  unfold State.takes
  rw [runs]
  cases due <;> rfl

/-- A row due for each of four inputs or groups is the event of each of them in turn. -/
theorem State.each_withNode {s : State} {f : State → Fin 4 → State} {g : Node → Fin 4 → Node}
    (event : ∀ (n : Node) (i : Fin 4), n.link.resetLow = false → f (s.withNode n) i = s.withNode (g n i))
    (quiet : ∀ (n : Node) (i : Fin 4), n.Quiet (g n i)) {n : Node} (low : n.link.resetLow = false) :
    f (f (f (f (s.withNode n) 0) 1) 2) 3 = s.withNode ([0, 1, 2, 3].foldl g n) := by
  have keeps {m : Node} (i : Fin 4) (low : m.link.resetLow = false) : (g m i).link.resetLow = false := (quiet m i).low.trans low
  have first := keeps 0 low
  have second := keeps 1 first
  have third := keeps 2 second
  rw [event n 0 low, event _ 1 first, event _ 2 second, event _ 3 third]
  rfl

/-! ## What runs in a period (R6, R79, R101, R125, R156, R176) -/

theorem characterClocks_eq (rate : BitVec 2) : Config.characterClocks rate = 11 * (16 / 2 ^ rate.toNat) := by
  have all : ∀ rate : BitVec 2, Config.characterClocks rate = 11 * (16 / 2 ^ rate.toNat) := by decide
  exact all rate

theorem LaneState.run_eq (x : LaneState) :
    x.run = match x with
      | .silent k => .silent k
      | .locked t => .locked (t + 1) := by
  cases x <;> rfl

theorem LaneState.silenceDue_eq (rate : BitVec 2) (x : LaneState) :
    x.silenceDue rate = match x with
      | .silent _ => false
      | .locked t => decide (64 * (11 * (16 / 2 ^ rate.toNat)) ≤ t) := by
  cases x with
  | silent k => rfl
  | locked t => rw [← characterClocks_eq]; rfl

theorem timerDue_eq (x : Option Timer) :
    timerDue x = match x with
      | some z => decide (z.duration * 48000 ≤ z.elapsed)
      | none => false := by
  cases x <;> rfl

theorem Schedule.now_tick (q : Schedule) : q.now.extractLsb' 8 32 = q.tick := BitVec.extractLsb'_append_eq_left

theorem Schedule.now_sub (q : Schedule) : q.now.extractLsb' 0 8 = q.sub := BitVec.extractLsb'_append_eq_right

/-- A reception record as the chain time advances (R103). -/
theorem Reception.run_eq (r : Reception) : r.run = if r.phase ≠ .outside then { r with age := r.age + 16 } else r := by
  unfold Reception.run
  rw [ite_not]
  rfl

/-- Everything that counts, one period further (R192). -/
theorem Node.countPeriod_eq (n : Node) :
    n.countPeriod = { n with
      clock := n.clock + 1
      link := { n.link with uLane := n.link.uLane.run, dLane := n.link.dLane.run }
      tables := { n.tables with
        session := if n.tables.session.isOpen then { n.tables.session with idle := n.tables.session.idle + 1 }
          else n.tables.session }
      sense := { n.sense with
        inputs := .ofFn fun i =>
          if n.sense.inputs[i].phase = .lockout then { n.sense.inputs[i] with timer := n.sense.inputs[i].timer + 1 }
          else n.sense.inputs[i] }
      sup := { n.sup with supTimer := runTimer n.sup.supTimer, holdTimer := runTimer n.sup.holdTimer } } := by
  have inputs : (n.sense.inputs.mapIdx fun _ x => x.run1) = .ofFn fun i =>
      if n.sense.inputs[i].phase = .lockout then { n.sense.inputs[i] with timer := n.sense.inputs[i].timer + 1 }
      else n.sense.inputs[i] := by
    ext i hi : 1
    simp [Input.run1]
  have session : (if n.tables.session.isOpen then
      { n.tables with session := { n.tables.session with idle := n.tables.session.idle + 1 } } else n.tables) =
      { n.tables with
        session := if n.tables.session.isOpen then { n.tables.session with idle := n.tables.session.idle + 1 }
          else n.tables.session } := by
    split <;> rfl
  rw [Node.countPeriod, inputs, session]

/-! ## Cues (R115) -/

/-- Nothing leaves the queue while its head is not due (R115). -/
theorem Node.expireCues_notDue {n : Node} (notDue : n.sched.queue.head?.map CueEntry.due ≠ some n.sched.tick) :
    n.expireCues = n := by
  unfold Node.expireCues
  split
  case isFalse => rfl
  case isTrue valid =>
    have none : n.sched.expire = ([], n.sched) := by
      unfold Schedule.expire
      cases queue : n.sched.queue with
      | nil => rw [List.takeWhile_nil, List.dropWhile_nil, ← queue]
      | cons e rest =>
        have later : ¬e.due = n.sched.tick := fun same => notDue (by rw [queue]; exact congrArg some same)
        rw [List.takeWhile_cons, List.dropWhile_cons, if_neg (by simpa using later), if_neg (by simpa using later), ← queue]
    rw [none]
    rfl

/-- The expiry at the tick count reached is the expiry row, taken when the head entry is due (R115). -/
theorem Node.cueExpiry_due {n : Node} (valid : n.sched.time = .valid)
    (due : n.sched.queue.head?.map CueEntry.due = some n.sched.tick) : n.cueExpiry = n.expireCues := by
  cases queue : n.sched.queue with
  | nil =>
    rw [queue] at due
    cases due
  | cons e rest =>
    have same : e.due = n.sched.tick := by
      rw [queue] at due
      exact Option.some.inj due
    have reach : n.sched.reach e.due = n.sched := if_pos same
    unfold Node.cueExpiry
    rw [valid, queue]
    exact congrArg (fun q => Node.expireCues { n with sched := q }) reach

theorem Node.expireCues_row (n : Node) :
    (if (n.sched.time = .valid && n.sched.queue.head?.map CueEntry.due = some n.sched.tick) then n.cueExpiry else n)
      = n.expireCues := by
  by_cases valid : n.sched.time = .valid
  · by_cases due : n.sched.queue.head?.map CueEntry.due = some n.sched.tick
    · rw [if_pos (by simp [valid, due]), Node.cueExpiry_due valid due]
    · rw [if_neg (by simp [due]), Node.expireCues_notDue due]
  · rw [if_neg (by simp [valid])]
    exact (if_neg valid).symm

/-! ## The events as rows -/

theorem State.takes_silence (s : State) {n : Node} (low : n.link.resetLow = false) (lane : Lane) :
    (s.withNode n).takes ((n.link.laneState lane).silenceDue n.link.rate) (.laneSilenceTimeout lane)
      = s.withNode (n.silenceOf lane) := s.takes_withNode low _ _

theorem State.takes_idleLimit (s : State) {n : Node} (low : n.link.resetLow = false) :
    (s.withNode n).takes (n.tables.session.isOpen && 2000 * 48000 ≤ n.tables.session.idle) .sessionExpiry
      = s.withNode n.idleLimit := s.takes_withNode low _ _

theorem State.takes_lockout (s : State) {n : Node} (low : n.link.resetLow = false) (i : Fin 4) :
    (s.withNode n).takes (n.sense.inputs[i].phase = .lockout && n.sense.inputs[i].settings.lockout.toNat * 48 ≤ n.sense.inputs[i].timer)
      (.lockoutEnd i) = s.withNode (n.lockoutOf i) := s.takes_withNode low _ _

theorem State.takes_sample (s : State) {n : Node} (low : n.link.resetLow = false) (i : Fin 4) :
    (s.withNode n).takes (n.sense.inputs[i].phase ≠ .off
        && (n.clock + Config.samplePhase i n.sense.inputs[i].settings.prescale) % 8 ^ n.sense.inputs[i].settings.prescale.toNat = 0)
      (.sampleEvent i (Config.pinLevel n.clock i)) = s.withNode (n.sampleOf i) := by
  refine (s.takes_withNode low _ _).trans (congrArg s.withNode ?_)
  by_cases off : n.sense.inputs[i].phase = .off
  · rw [if_neg (by rw [decide_eq_false (not_not_intro off), Bool.false_and]; exact Bool.false_ne_true)]
    exact (if_pos off).symm
  · rw [decide_eq_true off, Bool.true_and]
    refine (if_congr decide_eq_true_iff rfl rfl).trans ?_
    exact (if_neg off).symm

theorem State.takes_tick (s : State) {n : Node} (low : n.link.resetLow = false) (g : Fin 4) :
    (s.withNode n).takes (n.clock % 2 ^ n.out.groups[g].active.prescale.toNat = 0) (.outputClockTick g)
      = s.withNode (n.tickOf g) := by
  refine (s.takes_withNode low _ _).trans (congrArg s.withNode ?_)
  exact if_congr decide_eq_true_iff rfl rfl

/-- The character that ends at the U return transmitter (R4, R171, R172). -/
theorem State.takes_returnCharacter (s : State) {n : Node} (low : n.link.resetLow = false) :
    (match n.link.retTx.current with
      | none => (s.withNode n).takes true .arbiterSelect
      | some w =>
        if w.sent + 1 < w.bytes.length + 4 then
          s.withNode { n with link := { n.link with retTx := { n.link.retTx with current := some { w with sent := w.sent + 1 } } } }
        else ((s.withNode n).takes true .returnFrameSent).takes true .arbiterSelect)
      = s.withNode n.returnCharacter := by
  have arbitrates {m : Node} (low : m.link.resetLow = false) : (s.withNode m).takes true .arbiterSelect = s.withNode m.arbitrate :=
    s.takes_withNode low true .arbiterSelect
  have ends : (s.withNode n).takes true .returnFrameSent = s.withNode n.endReturnFrame := s.takes_withNode low true .returnFrameSent
  have still : n.endReturnFrame.link.resetLow = false := n.endReturnFrame_quiet.low.trans low
  rw [arbitrates low, ends, arbitrates still]
  unfold Node.returnCharacter
  cases n.link.retTx.current with
  | none => rfl
  | some w =>
    dsimp only
    rw [OnWire.characters]
    split <;> rfl

end Sys2Proof.Machine

/-! PROOFS. The idle step as the rows of its events, and what it leaves of the lanes, the session and the timers (R6, R79, R176,
R192). -/

namespace Sys2Proof.Machine

-- One proof at a time: side by side, their threads' stacks pass the memory limit of a check.
set_option Elab.async false

/-! ## Stage by stage -/

/-- The node with its counts, its chain time and the time since each SOF one period further. -/
theorem Node.counted_eq (n : Node) :
    let third : Bool := (n.clock + 1) % 3 = 0
    let since (r : Reception) : Reception := if third && r.phase ≠ .outside then { r with age := r.age + 16 } else r
    let time : BitVec 40 := if third then n.sched.now + 16 else n.sched.now
    { n.countPeriod with
      link := { n.countPeriod.link with uRec := since n.link.uRec, dRec := since n.link.dRec }
      sched := { n.sched with tick := time.extractLsb' 8 32, sub := time.extractLsb' 0 8 } }
      = if third then n.countPeriod.advanced else n.countPeriod := by
  intro third since time
  by_cases h : third = true
  · have run (r : Reception) : since r = r.run := by
      rw [Reception.run_eq]
      simp [since, h]
    rw [if_pos h, run, run]
    simp only [time, h, if_true]
    rfl
  · have stays (r : Reception) : since r = r := if_neg (by simp [h])
    rw [if_neg h, stays, stays]
    simp only [time, h]
    rw [if_neg Bool.false_ne_true, Schedule.now_tick, Schedule.now_sub]
    rfl

/-- A period's counts, its advance of the chain time and the cues it reaches (R101, R115). -/
theorem State.takes_advance (s : State) {n : Node} (low : n.link.resetLow = false) :
    let third : Bool := (n.clock + 1) % 3 = 0
    let time : BitVec 40 := if third then n.sched.now + 16 else n.sched.now
    (s.withNode (if third then n.countPeriod.advanced else n.countPeriod)).takes
        (third && n.sched.time = .valid && n.sched.queue.head?.map CueEntry.due = some (time.extractLsb' 8 32)) .cueExpiry
      = s.withNode n.countPeriod.advanceTime := by
  intro third time
  by_cases h : third = true
  · have due : (n.clock + 1) % 3 = 0 := of_decide_eq_true h
    rw [if_pos h, s.takes_withNode (n := n.countPeriod.advanced) low, Node.advanceTime_due n.countPeriod due, ← Node.expireCues_row]
    simp only [time, h, if_true, Bool.true_and]
    rfl
  · have between : ¬(n.clock + 1) % 3 = 0 := of_decide_eq_false (Bool.eq_false_iff.2 h)
    rw [if_neg h, s.takes_withNode (n := n.countPeriod) low, Node.advanceTime_between n.countPeriod between]
    rw [Bool.eq_false_iff.2 h, Bool.false_and, Bool.false_and, if_neg Bool.false_ne_true]

/-- The node after the holdover timer's event. -/
def Node.holdoverOf (n : Node) : Node := if timerDue n.sup.holdTimer then n.holdoverExpiry else n

theorem Node.holdoverOf_low (n : Node) : n.holdoverOf.link.resetLow = n.link.resetLow := by
  unfold Node.holdoverOf
  split
  · exact congrArg Link.resetLow n.holdoverExpiry_expires.link
  · rfl

theorem Node.supervisionTimers_eq (n : Node) :
    n.supervisionTimers = if timerDue n.holdoverOf.sup.supTimer then n.holdoverOf.supervisionExpiry else n.holdoverOf := rfl

theorem State.takes_holdover (s : State) {n : Node} (low : n.link.resetLow = false) :
    (s.withNode n).takes (timerDue n.sup.holdTimer) .holdoverTimerExpiry = s.withNode n.holdoverOf := s.takes_withNode low _ _

theorem State.takes_supervision (s : State) {n : Node} (low : n.link.resetLow = false) :
    (s.withNode n.holdoverOf).takes (timerDue n.holdoverOf.sup.supTimer) .supervisionTimerExpiry
      = s.withNode n.supervisionTimers := by
  rw [n.supervisionTimers_eq]
  exact s.takes_withNode (n.holdoverOf_low.trans low) _ _

/-- What stands at the first events of a period: RESETN, the rate, and the divider count one further. -/
theorem Node.lanesAndSession_stands (n : Node) :
    n.lanesAndSession.link.resetLow = n.link.resetLow ∧ n.lanesAndSession.link.rate = n.link.rate
      ∧ n.lanesAndSession.clock = n.clock + 1 := by
  obtain ⟨advanced, -⟩ := n.countPeriod.advanceTime_same
  have lanes := n.lanesAndSession_calm
  exact ⟨lanes.low.trans advanced.low, lanes.rate.trans advanced.rate, lanes.clock.trans advanced.clock⟩

/-- And after the supervision timers. -/
theorem Node.timerStage_stands (n : Node) :
    n.untilTimers.supervisionTimers.link.resetLow = n.link.resetLow ∧ n.untilTimers.supervisionTimers.link.rate = n.link.rate
      ∧ n.untilTimers.supervisionTimers.clock = n.clock + 1 := by
  obtain ⟨low, rate, clock⟩ := n.lanesAndSession_stands
  have inputs := n.untilTimers_quiet
  have timers := n.untilTimers.supervisionTimers_expires
  rw [timers.link, timers.clock]
  exact ⟨inputs.low.trans low, inputs.rate.trans rate, inputs.clock.trans clock⟩

/-- The node at the end of a period's events, before a character boundary. -/
def Node.ticked (n : Node) : Node := allGroups.foldl Node.tickOf n.untilTimers.supervisionTimers

theorem Node.ticked_stands (n : Node) :
    n.ticked.link.resetLow = n.link.resetLow ∧ n.ticked.link.rate = n.link.rate ∧ n.ticked.clock = n.clock + 1 := by
  obtain ⟨low, rate, clock⟩ := n.timerStage_stands
  have ticks : n.untilTimers.supervisionTimers.Quiet n.ticked := Node.Quiet.foldl Node.tickOf_quiet allGroups _
  exact ⟨ticks.low.trans low, ticks.rate.trans rate, ticks.clock.trans clock⟩

/-! ## The lanes, the session and the timers after a period (R6, R79, R176) -/

theorem Node.clockPeriod_eq {n : Node} (low : n.link.resetLow = false) : n.clockPeriod = n.ticked.characterBoundary :=
  if_neg (by rw [low]; exact Bool.false_ne_true)

/-- A silence that is due sets its lane SILENT, and otherwise is quiet; one that is not due does nothing (R6). -/
theorem Node.silenceOf_quiet (n : Node) (lane : Lane) :
    (if (n.link.laneState lane).silenceDue n.link.rate then n.setLane lane (.silent 0) else n).Quiet (n.silenceOf lane) := by
  unfold Node.silenceOf
  split
  case isFalse => exact .rfl
  case isTrue due =>
    cases state : n.link.laneState lane with
    | silent k =>
      rw [state] at due
      exact absurd due Bool.false_ne_true
    | locked t =>
      rw [Node.fallSilent_locked state]
      exact Node.abortReception_quiet _ lane

/-- Silence on U leaves the D lane, silence on D the U lane, and both leave the tables. -/
theorem Node.silenceOf_lanes (n : Node) :
    ((n.silenceOf .u).link.uLane = if n.link.uLane.silenceDue n.link.rate then .silent 0 else n.link.uLane)
      ∧ (n.silenceOf .u).link.dLane = n.link.dLane
      ∧ ((n.silenceOf .d).link.dLane = if n.link.dLane.silenceDue n.link.rate then .silent 0 else n.link.dLane)
      ∧ (n.silenceOf .d).link.uLane = n.link.uLane
      ∧ ∀ lane, (n.silenceOf lane).tables = n.tables := by
  refine ⟨(n.silenceOf_quiet .u).uLane.trans ?_, (n.silenceOf_quiet .u).dLane.trans ?_, (n.silenceOf_quiet .d).dLane.trans ?_,
    (n.silenceOf_quiet .d).uLane.trans ?_, fun lane => (n.silenceOf_quiet lane).tables.trans ?_⟩
  · exact apply_ite (fun m : Node => m.link.uLane) _ _ _
  · exact (apply_ite (fun m : Node => m.link.dLane) _ _ _).trans (ite_self _)
  · exact apply_ite (fun m : Node => m.link.dLane) _ _ _
  · exact (apply_ite (fun m : Node => m.link.uLane) _ _ _).trans (ite_self _)
  · refine (apply_ite Node.tables _ _ _).trans ?_
    cases lane <;> exact ite_self _

/-- A lane's receive state a period further (R6). -/
def LaneState.period (rate : BitVec 2) (x : LaneState) : LaneState :=
  match x with
  | .silent k => .silent k
  | .locked t => if 64 * (11 * (16 / 2 ^ rate.toNat)) ≤ t + 1 then .silent 0 else .locked (t + 1)

theorem LaneState.period_eq (rate : BitVec 2) (x : LaneState) :
    (if x.run.silenceDue rate then .silent 0 else x.run) = x.period rate := by
  rw [LaneState.silenceDue_eq]
  cases x with
  | silent k => rfl
  | locked t => exact if_congr decide_eq_true_iff rfl rfl

/-- The load session a period further (R79). -/
def Session.period (x : Session) : Session :=
  if x.isOpen = false then x
  else if 2000 * 48000 ≤ x.idle + 1 then x.close .expired
  else { x with idle := x.idle + 1 }

theorem Node.idleLimit_period {n m : Node} (counted : m.tables = n.countPeriod.tables) :
    m.idleLimit.tables = { n.tables with session := n.tables.session.period } := by
  unfold Node.idleLimit Tables.expire Session.period
  rw [counted, Node.countPeriod]
  cases isOpen : n.tables.session.isOpen with
  | false => simp [isOpen, counted, Node.countPeriod]
  | true =>
    by_cases due : 2000 * 48000 ≤ n.tables.session.idle + 1
    · simp [isOpen, due, Config.sessionIdleMs, Config.clocksPerMs, Session.close]
    · simp [isOpen, due, counted, Node.countPeriod, Config.sessionIdleMs, Config.clocksPerMs]

/-- The lanes and the tables after the first events of a period. -/
theorem Node.lanesAndSession_period (n : Node) :
    n.lanesAndSession.link.uLane = n.link.uLane.period n.link.rate
      ∧ n.lanesAndSession.link.dLane = n.link.dLane.period n.link.rate
      ∧ n.lanesAndSession.tables = { n.tables with session := n.tables.session.period } := by
  obtain ⟨cued, -⟩ := n.countPeriod.advanceTime_same
  have uCued : n.countPeriod.advanceTime.link.uLane = n.link.uLane.run := cued.uLane
  have dCued : n.countPeriod.advanceTime.link.dLane = n.link.dLane.run := cued.dLane
  have rate : n.countPeriod.advanceTime.link.rate = n.link.rate := cued.rate
  have tables : n.countPeriod.advanceTime.tables = n.countPeriod.tables := cued.tables
  unfold Node.lanesAndSession
  generalize n.countPeriod.advanceTime = a at *
  obtain ⟨uSilent, dStays, -, -, uTables⟩ := a.silenceOf_lanes
  obtain ⟨-, -, dSilent, uStays, dTables⟩ := (a.silenceOf .u).silenceOf_lanes
  have link (m : Node) : m.idleLimit.link = m.link := by
    unfold Node.idleLimit
    split <;> rfl
  rw [link]
  refine ⟨uStays.trans (uSilent.trans ?_), dSilent.trans ?_, Node.idleLimit_period ((dTables .d).trans ((uTables .u).trans tables))⟩
  · rw [uCued, rate, LaneState.period_eq]
  · rw [dStays, dCued, (a.silenceOf_calm .u).rate, rate, LaneState.period_eq]

theorem timerDue_run {y : Option Timer} (notDue : ∀ z, y = some z → z.elapsed + 1 < z.duration * 48000) :
    timerDue (runTimer y) = false := by
  cases y with
  | none => rfl
  | some z => exact decide_eq_false (Nat.not_le.2 (notDue z rfl))

/-- With neither timer due no supervision event comes (R181, R182). -/
theorem Node.supervisionTimers_notDue {n : Node} (hold : timerDue n.sup.holdTimer = false)
    (sup : timerDue n.sup.supTimer = false) : n.supervisionTimers = n := by
  have still : n.holdoverOf = n := if_neg (by rw [hold]; exact Bool.false_ne_true)
  rw [n.supervisionTimers_eq, still]
  exact if_neg (by rw [sup]; exact Bool.false_ne_true)

/-- The lanes and the tables after a clock period are those of its first events. -/
theorem Node.clockPeriod_lanes {n : Node} (on : n.link.resetLow = false) :
    n.clockPeriod.link.uLane = n.lanesAndSession.link.uLane ∧ n.clockPeriod.link.dLane = n.lanesAndSession.link.dLane
      ∧ n.clockPeriod.tables = n.lanesAndSession.tables := by
  have inputs := n.untilTimers_quiet
  have timers := n.untilTimers.supervisionTimers_expires
  have rest := Node.clockPeriod_quiet on
  exact ⟨rest.uLane.trans ((congrArg Link.uLane timers.link).trans inputs.uLane),
    rest.dLane.trans ((congrArg Link.dLane timers.link).trans inputs.dLane),
    rest.tables.trans (timers.tables.trans inputs.tables)⟩

/-- Settles O3: each stage of the clock period is the row of its event, taken when it is due. -/
theorem idleStepRunsTheTimers : Obligations.IdleStepRunsTheTimers := by
  refine ⟨?runs, ?rows⟩
  case runs =>
    intro s on empty character lane x session u more
    have low : s.node.link.resetLow = false := on
    obtain ⟨uLane, dLane, tables⟩ := Node.clockPeriod_lanes low
    obtain ⟨uEnd, dEnd, atEnd⟩ := s.node.lanesAndSession_period
    refine ⟨s.node.clockPeriod, step_idle s empty, uLane.trans uEnd, dLane.trans dEnd, tables.trans atEnd, fun notDue => ?_⟩
    have counted : s.node.untilTimers.sup = s.node.countPeriod.sup := s.node.untilTimers_quiet.sup.trans s.node.lanesAndSession_sup
    have still : s.node.untilTimers.supervisionTimers = s.node.untilTimers := by
      apply Node.supervisionTimers_notDue
      · rw [counted]
        exact timerDue_run fun z running => notDue z (.inr running)
      · rw [counted]
        exact timerDue_run fun z running => notDue z (.inl running)
    exact (Node.clockPeriod_quiet low).sup.trans ((congrArg Node.sup still).trans counted)
  case rows =>
    intro s on empty n character third lane silent since more due time counted each a
    have inTurn {f : State → Fin 4 → State} {g : Node → Fin 4 → Node}
        (event : ∀ (n : Node) (i : Fin 4), n.link.resetLow = false → f (s.withNode n) i = s.withNode (g n i))
        (quiet : ∀ (n : Node) (i : Fin 4), n.Quiet (g n i)) {n : Node} (low : n.link.resetLow = false) :
        each f (s.withNode n) = s.withNode ([0, 1, 2, 3].foldl g n) := State.each_withNode event quiet low
    have low : n.link.resetLow = false := on
    have silent_eq {r : BitVec 2} (same : r = n.link.rate) (x : LaneState) : silent x = x.silenceDue r := by
      rw [same]
      exact (LaneState.silenceDue_eq _ x).symm
    have due_eq (y : Option Timer) : due y = timerDue y := (timerDue_eq y).symm
    clear_value each silent due
    have counts : counted = s.withNode (if third then n.countPeriod.advanced else n.countPeriod) := by
      have lanes : LaneState.run = lane := funext LaneState.run_eq
      rw [← n.counted_eq, n.countPeriod_eq, lanes]
      rfl
    obtain ⟨cued, -⟩ := n.countPeriod.advanceTime_same
    have lowA : n.countPeriod.advanceTime.link.resetLow = false := cued.low.trans low
    have rateA : n.countPeriod.advanceTime.link.rate = n.link.rate := cued.rate
    have atA : a = s.withNode n.countPeriod.advanceTime := by
      show counted.takes _ _ = _
      rw [counts]
      exact s.takes_advance low
    clear_value a
    subst atA
    intro b
    have calmU := n.countPeriod.advanceTime.silenceOf_calm .u
    have lowB := calmU.low.trans lowA
    have atB : b = s.withNode (n.countPeriod.advanceTime.silenceOf .u) :=
      (congrArg (fun due => (s.withNode n.countPeriod.advanceTime).takes due (.laneSilenceTimeout .u)) (silent_eq rateA _)).trans
        (s.takes_silence lowA .u)
    clear_value b
    subst atB
    intro c
    have calmD := (n.countPeriod.advanceTime.silenceOf .u).silenceOf_calm .d
    have atC : c = s.withNode ((n.countPeriod.advanceTime.silenceOf .u).silenceOf .d) :=
      (congrArg (fun due => (s.withNode (n.countPeriod.advanceTime.silenceOf .u)).takes due (.laneSilenceTimeout .d))
        (silent_eq (calmU.rate.trans rateA) _)).trans (s.takes_silence lowB .d)
    clear_value c
    subst atC
    intro d
    have atD : d = s.withNode n.lanesAndSession := s.takes_idleLimit (calmD.low.trans lowB)
    have lowD : n.lanesAndSession.link.resetLow = false := n.lanesAndSession_stands.1.trans low
    clear_value d
    subst atD
    intro e
    have quietE := Node.Quiet.foldl Node.lockoutOf_quiet allInputs n.lanesAndSession
    have atE : e = s.withNode (allInputs.foldl Node.lockoutOf n.lanesAndSession) :=
      inTurn (g := Node.lockoutOf) (fun _ i low => s.takes_lockout low i) Node.lockoutOf_quiet lowD
    clear_value e
    subst atE
    intro f
    have atF : f = s.withNode n.untilTimers :=
      inTurn (g := Node.sampleOf) (fun _ i low => s.takes_sample low i) Node.sampleOf_quiet (quietE.low.trans lowD)
    have lowF : n.untilTimers.link.resetLow = false := n.untilTimers_quiet.low.trans lowD
    have lowH := n.timerStage_stands.1.trans low
    obtain ⟨lowK, rateK, clockK⟩ := n.ticked_stands
    rw [step_idle s empty, Node.clockPeriod_eq low, Node.characterBoundary, clockK, rateK, characterClocks_eq]
    unfold Node.ticked at *
    generalize n.untilTimers = x at *
    clear_value f
    subst atF
    intro g
    have atG : g = s.withNode x.holdoverOf :=
      (congrArg (fun due => (s.withNode x).takes due .holdoverTimerExpiry) (due_eq x.sup.holdTimer)).trans (s.takes_holdover lowF)
    clear_value g
    subst atG
    intro h
    have atH : h = s.withNode x.supervisionTimers :=
      (congrArg (fun due => (s.withNode x.holdoverOf).takes due .supervisionTimerExpiry) (due_eq x.holdoverOf.sup.supTimer)).trans
        (s.takes_supervision lowF)
    generalize x.supervisionTimers = y at *
    clear_value h
    subst atH
    intro k
    have atK : k = s.withNode (allGroups.foldl Node.tickOf y) :=
      inTurn (g := Node.tickOf) (fun _ i low => s.takes_tick low i) Node.tickOf_quiet lowH
    generalize allGroups.foldl Node.tickOf y = z at *
    clear_value k
    subst atK
    intro m
    have lowM : z.forwardCharacter.link.resetLow = false := z.forwardCharacter_quiet.low.trans (lowK.trans low)
    have atM : m = s.withNode z.forwardCharacter := s.takes_withNode (lowK.trans low) true .forwardTransmitterCharacter
    clear_value m
    subst atM
    intro sent
    have atSent : sent = s.withNode z.forwardCharacter.returnCharacter := s.takes_returnCharacter lowM
    rw [atSent]
    split <;> rfl

end Sys2Proof.Machine
